-- ==== Sys2Proof/Word.lean ====
section
/-! DEFINITION. The word types of the scikit-sdr CORE: 64-bit memory words, 32-bit register words,
binary32 values as bit patterns, and complex samples. -/

namespace Sys2Proof

/-- Eight bits of a memory window (`20_memory.md` R155). -/
abbrev Byte := BitVec 8

/-- A control register, a descriptor field or a half of a memory word (`10_state.md` R50). -/
abbrev Word32 := BitVec 32

/-- A word of DMEM, COEF or PRE (`20_memory.md` R150). -/
abbrev Word64 := BitVec 64

/-- An `f32`: the IEEE 754 binary32 bit pattern (`00_scope.md` R11, `20_memory.md` R156). -/
abbrev F32 := BitVec 32

/-- A `c32`: a pair of `f32` (`00_scope.md` R11). -/
structure C32 where
  re : F32
  im : F32
deriving DecidableEq, Repr

end Sys2Proof
end

