-- ==== Sys2Proof/Config.lean ====
section
/-! DEFINITION. The build parameters of `00_scope.md` R6, and the free values: functions that the spec
leaves to the build (R20, R21) or calls unspecified (`93_implementation_defined.md` U3, U5). -/

namespace Sys2Proof.Config

/-- Which build of a numeric function the core has: the default of R20 and R21 (the nearest binary32
value), or another build, named by a number. -/
inductive NumBuild where
  | nearest
  | other (id : Nat)
deriving DecidableEq, Repr

/-- The parameters fixed when the hardware is built (`00_scope.md` R6). They are a field of State
that no step changes, so that every statement about a state holds for every build. -/
structure Params where
  dmemWords    : Nat
  maxFirTaps   : Nat
  maxDecFactor : Nat
  maxAgcN      : Nat
  maxFftLog2   : Nat
  maxSps       : Nat
  maxPreLen    : Nat
  fsyncCap     : Nat
  /-- `HAMMING_P` packed as in `HPARAM`: bit `3*i + j` is `P[i][j]` (`10_state.md` R53). -/
  hammingP     : BitVec 12
  trans        : NumBuild
  specmag      : NumBuild
deriving DecidableEq, Repr

/-- The defaults of R6. -/
def defaultParams : Params where
  dmemWords    := 65536
  maxFirTaps   := 256
  maxDecFactor := 256
  maxAgcN      := 1024
  maxFftLog2   := 12
  maxSps       := 16
  maxPreLen    := 256
  fsyncCap     := 16384
  hammingP     := 0xFAB#12
  trans        := .nearest
  specmag      := .nearest

/-! Free values. Nothing in Lean can evaluate them: a claim holds whatever they are. -/

/-- What build `id` of `fexp` returns where R20 does not fix it (log 6). -/
opaque fexpBuild : Nat → F32 → F32

/-- What build `id` of `fln` returns where R20 does not fix it (log 6). -/
opaque flnBuild : Nat → F32 → F32

/-- What build `id` of `fsin` returns where R20 does not fix it (log 6). -/
opaque fsinBuild : Nat → F32 → F32

/-- What build `id` of `fcos` returns where R20 does not fix it (log 6). -/
opaque fcosBuild : Nat → F32 → F32

/-- What build `id` of `SPECMAG` returns for the size, the samples and the bin, where R21 does not
fix it (log 7). -/
opaque specmagBuild : Nat → Nat → List C32 → Nat → F32

/-- The `n`-th value drawn for a host read whose result the spec leaves unspecified (log 2). -/
opaque freeHostRead : Nat → Word32

/-- The value that the `n`-th draw gives the unwritten byte at an address, where a reset cuts the
execution of a descriptor that is not wholly written (log 11). -/
opaque freeByte : Nat → Nat → Byte

end Sys2Proof.Config
end

