-- ==== Sys2Proof/Syntax.lean ====
section
/-! DEFINITION. The commands: one constructor per row of `spec/opcode_table.json`. -/

namespace Sys2Proof

/-- The `UNIT` values that URST accepts (`30_encoding.md` R212). -/
inductive UnitSel where
  | agc | fir | scr | dscr | cfc | pll | sym | fsync | all
deriving DecidableEq, Repr

/-- A command with its operand fields (`30_encoding.md` R200, R211). `dst`, `src`, `aux` are DMEM
word addresses; `len` is the input block length; `auxw` is the `AUXW` bit; `maxout` is `MAXOUT`. -/
inductive Instr where
  | halt
  | nop
  | urst (unit : UnitSel)
  | agc (dst src len : Word32) (auxw : Bool) (aux : Word32)
  | firdec (dst src len : Word32)
  | scr (dst src len : Word32)
  | dscr (dst src len : Word32)
  | henc (dst src len : Word32)
  | hdec (dst src len : Word32) (auxw : Bool) (aux : Word32)
  | cfc (dst src len : Word32) (auxw : Bool) (aux : Word32)
  | pll (dst src len : Word32)
  | symsync (dst src len maxout : Word32)
  | fsync (dst src len : Word32) (auxw : Bool) (aux : Word32)
deriving DecidableEq, Repr

end Sys2Proof
end

