-- ==== Sys2Proof/WellFormed.lean ====
section
/-! DEFINITION. The well-formed commands: those that the field table of `30_encoding.md` R211 admits.
The types of `Instr` leave one thing to check, the `AUX` field of a command without `AUXW`. -/

namespace Sys2Proof

/-- "`AUX` is used only when `AUXW = 1`; with `AUXW = 0` it must be 0" (R211). -/
def auxFieldOk (auxw : Bool) (aux : Word32) : Bool := auxw || aux == 0#32

/-- The command's fields satisfy R211. -/
def Instr.wellFormed : Instr → Bool
  | .halt => true
  | .nop => true
  | .urst _ => true
  | .agc _ _ _ auxw aux => auxFieldOk auxw aux
  | .firdec _ _ _ => true
  | .scr _ _ _ => true
  | .dscr _ _ _ => true
  | .henc _ _ _ => true
  | .hdec _ _ _ auxw aux => auxFieldOk auxw aux
  | .cfc _ _ _ auxw aux => auxFieldOk auxw aux
  | .pll _ _ _ => true
  | .symsync _ _ _ _ => true
  | .fsync _ _ _ auxw aux => auxFieldOk auxw aux

end Sys2Proof
end

