-- ==== Sys2Proof/Decode.lean ====
section
/-! DEFINITION. The descriptor decoder (`30_encoding.md` R200, R210 to R213; `40_control.md` R252) and,
after it, the encoder (R223). -/

namespace Sys2Proof

/-- The fields of a descriptor, as `40_control.md` R252 cuts them out of `W0`, `W1`, `W2`. -/
structure Fields where
  opc    : BitVec 8
  unit   : BitVec 4
  auxw   : Bool
  rsv    : BitVec 19
  len    : Word32
  src    : Word32
  dst    : Word32
  aux    : Word32
  maxout : Word32
deriving DecidableEq, Repr

/-- The field cuts of R252. -/
def fieldsOfWords (w0 w1 w2 : Word64) : Fields where
  opc    := w0.extractLsb' 0 8
  unit   := w0.extractLsb' 8 4
  auxw   := w0.getLsbD 12
  rsv    := w0.extractLsb' 13 19
  len    := w0.extractLsb' 32 32
  src    := w1.extractLsb' 0 32
  dst    := w1.extractLsb' 32 32
  aux    := w2.extractLsb' 0 32
  maxout := w2.extractLsb' 32 32

/-- A row of the opcode map (R210). -/
inductive Opcode where
  | halt | nop | urst | agc | firdec | scr | dscr | henc | hdec | cfc | pll | symsync | fsync
deriving DecidableEq, Repr

/-- The opcode map (R210): every other value is illegal. -/
def opcodeOf (opc : BitVec 8) : Option Opcode :=
  if opc = 0x00#8 then some .halt
  else if opc = 0x01#8 then some .nop
  else if opc = 0x02#8 then some .urst
  else if opc = 0x10#8 then some .agc
  else if opc = 0x11#8 then some .firdec
  else if opc = 0x12#8 then some .scr
  else if opc = 0x13#8 then some .dscr
  else if opc = 0x14#8 then some .henc
  else if opc = 0x15#8 then some .hdec
  else if opc = 0x16#8 then some .cfc
  else if opc = 0x17#8 then some .pll
  else if opc = 0x18#8 then some .symsync
  else if opc = 0x19#8 then some .fsync
  else none

/-- Which fields an opcode uses (R211); every other field must be 0. `blk` stands for `LEN`, `SRC`
and `DST`, which the commands use together. -/
structure FieldUse where
  unit   : Bool
  auxw   : Bool
  blk    : Bool
  maxout : Bool
deriving DecidableEq, Repr

/-- The rows of the table of R211. -/
def fieldUse : Opcode → FieldUse
  | .halt    => ⟨false, false, false, false⟩
  | .nop     => ⟨false, false, false, false⟩
  | .urst    => ⟨true,  false, false, false⟩
  | .agc     => ⟨false, true,  true,  false⟩
  | .firdec  => ⟨false, false, true,  false⟩
  | .scr     => ⟨false, false, true,  false⟩
  | .dscr    => ⟨false, false, true,  false⟩
  | .henc    => ⟨false, false, true,  false⟩
  | .hdec    => ⟨false, true,  true,  false⟩
  | .cfc     => ⟨false, true,  true,  false⟩
  | .pll     => ⟨false, false, true,  false⟩
  | .symsync => ⟨false, false, true,  true⟩
  | .fsync   => ⟨false, true,  true,  false⟩

/-- The unit a `UNIT` value names (R212); 8 to 14 are reserved. -/
def unitOf (u : BitVec 4) : Option UnitSel :=
  if u = 0#4 then some .agc
  else if u = 1#4 then some .fir
  else if u = 2#4 then some .scr
  else if u = 3#4 then some .dscr
  else if u = 4#4 then some .cfc
  else if u = 5#4 then some .pll
  else if u = 6#4 then some .sym
  else if u = 7#4 then some .fsync
  else if u = 15#4 then some .all
  else none

/-- The first failing field, in the order of R213: 1 `RSV`, 2 `UNIT`, 3 `AUXW`, 4 `LEN`, 5 `SRC`,
6 `DST`, 7 `AUX`, 8 `MAXOUT`. -/
def reservedField (f : Fields) (u : FieldUse) : Option (BitVec 32) :=
  if f.rsv ≠ 0#19 then some 1#32
  else if (if u.unit then (unitOf f.unit).isNone else f.unit != 0#4) then some 2#32
  else if !u.auxw && f.auxw then some 3#32
  else if !u.blk && f.len != 0#32 then some 4#32
  else if !u.blk && f.src != 0#32 then some 5#32
  else if !u.blk && f.dst != 0#32 then some 6#32
  else if !f.auxw && f.aux != 0#32 then some 7#32
  else if !u.maxout && f.maxout != 0#32 then some 8#32
  else none

/-- The command of an opcode whose fields have passed R213. -/
def instrOf (f : Fields) : Opcode → Instr
  | .halt    => .halt
  | .nop     => .nop
  | .urst    => .urst ((unitOf f.unit).getD .all)
  | .agc     => .agc f.dst f.src f.len f.auxw f.aux
  | .firdec  => .firdec f.dst f.src f.len
  | .scr     => .scr f.dst f.src f.len
  | .dscr    => .dscr f.dst f.src f.len
  | .henc    => .henc f.dst f.src f.len
  | .hdec    => .hdec f.dst f.src f.len f.auxw f.aux
  | .cfc     => .cfc f.dst f.src f.len f.auxw f.aux
  | .pll     => .pll f.dst f.src f.len
  | .symsync => .symsync f.dst f.src f.len f.maxout
  | .fsync   => .fsync f.dst f.src f.len f.auxw f.aux

/-- What the decoder answers: a command, or why there is none. -/
inductive Decoded where
  | instr (i : Instr)
  /-- `OPC` is not in R210: error code 2. -/
  | illegalOpcode (opc : BitVec 8)
  /-- A field breaks R211 or R212: error code 3 with this detail (R213). -/
  | reservedField (info : BitVec 32)
  /-- Fewer bytes than the three words that are decoded. -/
  | truncated
deriving DecidableEq, Repr

/-- Decodes the three words a descriptor's meaning depends on; `W3` "is read but not used" (R252). -/
def decodeWords (w0 w1 w2 : Word64) : Decoded :=
  let f := fieldsOfWords w0 w1 w2
  match opcodeOf f.opc with
  | none => .illegalOpcode f.opc
  | some op =>
    match reservedField f (fieldUse op) with
    | some info => .reservedField info
    | none => .instr (instrOf f op)

/-- The word whose byte `i` is `b_i` (`20_memory.md` R155: byte `i` holds bits `8i+7 .. 8i`). -/
def wordOfBytes (b0 b1 b2 b3 b4 b5 b6 b7 : Byte) : Word64 :=
  b7 ++ b6 ++ b5 ++ b4 ++ b3 ++ b2 ++ b1 ++ b0

/-- Byte `i` of a word (R155). -/
def byteOfWord (w : Word64) (i : Nat) : Byte := w.extractLsb' (8 * i) 8

/-- The eight bytes of a word in address order. -/
def bytesOfWord (w : Word64) : List Byte := (List.range 8).map (byteOfWord w)

/-- The words that a run of bytes holds; an unfinished last word is dropped. -/
def wordsOfBytes : List Byte → List Word64
  | b0 :: b1 :: b2 :: b3 :: b4 :: b5 :: b6 :: b7 :: bs =>
      wordOfBytes b0 b1 b2 b3 b4 b5 b6 b7 :: wordsOfBytes bs
  | _ => []

/-- The decoder, total on any bytes. -/
def decode (bs : List Byte) : Decoded :=
  match wordsOfBytes bs with
  | w0 :: w1 :: w2 :: _ => decodeWords w0 w1 w2
  | _ => .truncated

/-! The encoder (R223). -/

/-- `UNIT` of a unit selector (R212). -/
def unitCode : UnitSel → BitVec 4
  | .agc => 0#4
  | .fir => 1#4
  | .scr => 2#4
  | .dscr => 3#4
  | .cfc => 4#4
  | .pll => 5#4
  | .sym => 6#4
  | .fsync => 7#4
  | .all => 15#4

/-- A command with no block operands. -/
def plainFields (opc : BitVec 8) : Fields := ⟨opc, 0#4, false, 0#19, 0#32, 0#32, 0#32, 0#32, 0#32⟩

/-- The fields of a command; "every field the line does not name is 0" (R220). -/
def fieldsOf : Instr → Fields
  | .halt => plainFields 0x00#8
  | .nop => plainFields 0x01#8
  | .urst u => { plainFields 0x02#8 with unit := unitCode u }
  | .agc dst src len auxw aux =>
      { plainFields 0x10#8 with dst := dst, src := src, len := len, auxw := auxw, aux := aux }
  | .firdec dst src len => { plainFields 0x11#8 with dst := dst, src := src, len := len }
  | .scr dst src len => { plainFields 0x12#8 with dst := dst, src := src, len := len }
  | .dscr dst src len => { plainFields 0x13#8 with dst := dst, src := src, len := len }
  | .henc dst src len => { plainFields 0x14#8 with dst := dst, src := src, len := len }
  | .hdec dst src len auxw aux =>
      { plainFields 0x15#8 with dst := dst, src := src, len := len, auxw := auxw, aux := aux }
  | .cfc dst src len auxw aux =>
      { plainFields 0x16#8 with dst := dst, src := src, len := len, auxw := auxw, aux := aux }
  | .pll dst src len => { plainFields 0x17#8 with dst := dst, src := src, len := len }
  | .symsync dst src len maxout =>
      { plainFields 0x18#8 with dst := dst, src := src, len := len, maxout := maxout }
  | .fsync dst src len auxw aux =>
      { plainFields 0x19#8 with dst := dst, src := src, len := len, auxw := auxw, aux := aux }

/-- The words of a field list (R223), `W3` first written as 0. -/
def wordsOfFields (f : Fields) : List Word64 :=
  [f.len ++ f.rsv ++ BitVec.ofBool f.auxw ++ f.unit ++ f.opc, f.dst ++ f.src, f.maxout ++ f.aux, 0#64]

/-- The four words of a command (R223). -/
def encode (i : Instr) : List Word64 := wordsOfFields (fieldsOf i)

/-- The 32 bytes of a command in DMEM address order. -/
def encodeBytes (i : Instr) : List Byte := (encode i).flatMap bytesOfWord

/-! The opcode table's view. -/

/-- The words of a number of 64-bit words, the first in the least significant bits. -/
def tableWords (nbits w : Nat) : List Word64 :=
  (List.range 4).map fun k => BitVec.ofNat 64 ((w % 2 ^ nbits) / 2 ^ (64 * k))

/-- The command that the decoder reads from a descriptor whose bits are `w`, numbered as
`spec/opcode_table.json` numbers them; the bits above `nbits` are 0. -/
def decodeTableWord (nbits w : Nat) : Option Instr :=
  match decode ((tableWords nbits w).flatMap bytesOfWord) with
  | .instr i => some i
  | _ => none

end Sys2Proof
end

