-- ==== Sys2Proof/Machine/Params.lean ====
section
/-! DEFINITION. What is computed from the build parameters: derived constants, the parity part of the
Hamming code, and the legal ranges (`00_scope.md` R6, R7). -/

namespace Sys2Proof.Config

/-- `MAX_FFT` (R7). -/
def Params.maxFft (p : Params) : Nat := 2 ^ p.maxFftLog2

/-- `P[i][j]`, bit `3*i + j` of `HAMMING_P` (`10_state.md` R53, `44_fec.md` R330). -/
def Params.hammingBit (p : Params) (i j : Nat) : Bool := p.hammingP.getLsbD (3 * i + j)

/-- Row `i` of the parity part, as `[P[i][0], P[i][1], P[i][2]]`. -/
def Params.hammingRow (p : Params) (i : Nat) : List Bool := (List.range 3).map (p.hammingBit i)

/-- The rows a legal parity part holds, each once, in some order (R330). -/
def hammingVectors : List (List Bool) :=
  [[true, true, false], [true, false, true], [false, true, true], [true, true, true]]

/-- The legal `HAMMING_P`: the four rows are `110`, `101`, `011`, `111` in some order (R6, R330). -/
def Params.legalHamming (p : Params) : Bool :=
  hammingVectors.all fun v => (List.range 4).any fun i => p.hammingRow i == v

/-- The legal ranges of R6. -/
def Params.legal (p : Params) : Bool :=
  decide (64 ≤ p.dmemWords ∧ p.dmemWords ≤ 131072 ∧
    1 ≤ p.maxFirTaps ∧ p.maxFirTaps ≤ 512 ∧
    1 ≤ p.maxDecFactor ∧ p.maxDecFactor ≤ 65535 ∧
    1 ≤ p.maxAgcN ∧ p.maxAgcN ≤ 65535 ∧
    1 ≤ p.maxFftLog2 ∧ p.maxFftLog2 ≤ 16 ∧
    2 ≤ p.maxSps ∧ p.maxSps ≤ 255 ∧
    1 ≤ p.maxPreLen ∧ p.maxPreLen ≤ 512 ∧
    p.maxPreLen ≤ p.fsyncCap ∧ p.fsyncCap ≤ 16777216) && p.legalHamming

end Sys2Proof.Config
end

