-- ==== Sys2Proof/Machine/State.lean ====
section
/-! DEFINITION. The machine's state as plain data (`10_state.md`), its stops, and the state after
power-on. -/

namespace Sys2Proof.Machine

open Sys2Proof.Config

/-- Why the machine stops with a fault. -/
inductive Fault where
  /-- The sequencer reads a DMEM word that has not been written since power-on (`20_memory.md` R164,
  `93_implementation_defined.md` U3). Raised by the fetch and by every block command. Safe: the chip
  goes on with some value. -/
  | unwrittenDmem
  /-- FIRDEC reads a coefficient that has not been written since power-on (R164, U3). Safe. -/
  | unwrittenCoef
  /-- FSYNC reads a preamble sample that has not been written since power-on (R164, U3). Safe. -/
  | unwrittenPre
deriving DecidableEq, Repr

/-- Why the model has no meaning for a step. -/
inductive Refusal where
  /-- An instruction without a meaning yet. Raised by no arm of exec: every command is modelled.
  Safe. -/
  | notModelled (mnemonic : String)
deriving DecidableEq, Repr

/-- An action of the host agent (`00_scope.md` R5, `20_memory.md` R179). -/
inductive HostAct where
  /-- A 32-bit write at a byte address of the host map. -/
  | write (addr data : Word32)
  /-- A 32-bit read at a byte address of the host map. -/
  | read (addr : Word32)
  /-- The external reset input is asserted (`70_reset_and_hazards.md` R500). -/
  | reset
  /-- The host does nothing while the sequencer takes one step. -/
  | wait
deriving DecidableEq, Repr

/-- The modulation that `MODCFG.MOD` selects (R65): order 2 or 4. -/
inductive Modulation where
  | bpsk | qpsk
deriving DecidableEq, Repr

/-- The outcome of the last FSYNC, `FS_STATE` (R106). -/
inductive FsOutcome where
  | search | incomplete | premature | emit
deriving DecidableEq, Repr

/-- The sequencer and interrupt registers (R54 to R62). -/
structure SeqRegs where
  /-- `STATUS.RUN` (R55). -/
  run : Bool
  /-- `STATUS.STOPREQ` (R55). -/
  stopReq : Bool
  /-- `STATUS.LAST_END`: 0 none, 1 HALT, 2 error stop, 3 stop request (R55). -/
  lastEnd : BitVec 2
  /-- `CMD_PTR`, the program counter (R56). -/
  cmdPtr : Word32
  /-- `CMD_COUNT` (R57). -/
  cmdCount : Word32
  /-- `ERR_CODE` (R58). -/
  errCode : BitVec 8
  /-- `ERR_PTR` (R58). -/
  errPtr : Word32
  /-- `ERR_INFO` (R58). -/
  errInfo : Word32
  /-- `RES_CONSUMED` (R59). -/
  resConsumed : Word32
  /-- `RES_PRODUCED` (R59). -/
  resProduced : Word32
  /-- `RES_AUX` (R59). -/
  resAux : Word32
  /-- `IRQ_STATUS[4:0]`: DONE, ERR, STOPPED, CFGREJ, HAZ (R60). -/
  irqStatus : BitVec 5
  /-- `IRQ_ENABLE[4:0]` (R61). -/
  irqEnable : BitVec 5
  /-- `CFGREJ_ADDR[11:0]` (R62). -/
  cfgrejAddr : BitVec 12
deriving DecidableEq, Repr

/-- The AGC registers (R66 to R72) and `AGC_PH`, newest first (R109). -/
structure AgcUnit where
  ref : F32
  maxGain : F32
  k : F32
  n : Word32
  gain : F32
  gmax : F32
  lnRef : F32
  ph : List F32
deriving DecidableEq, Repr

/-- The FIR registers (R73, R74) and `FIR_DL`, newest first (R108). -/
structure FirUnit where
  factor : Word32
  ntaps : Word32
  dl : List C32
deriving DecidableEq, Repr

/-- The scrambler and descrambler registers (R76 to R80). -/
structure ScrUnit where
  len : Word32
  poly : Word32
  init : Word32
  state : Word32
  dstate : Word32
deriving DecidableEq, Repr

/-- The CFC registers (R82 to R86) and `CFC_BUF`, newest first (R110). -/
structure CfcUnit where
  fs : F32
  fres : F32
  nfft : Word32
  phase : F32
  fest : F32
  buf : List C32
deriving DecidableEq, Repr

/-- The PLL registers (R87 to R94). -/
structure PllUnit where
  bw : F32
  damp : F32
  alpha : F32
  beta : F32
  minf : F32
  maxf : F32
  phase : F32
  freq : F32
deriving DecidableEq, Repr

/-- The SYM registers (R95 to R101) and hidden samples (R111). -/
structure SymUnit where
  sps : Word32
  bw : F32
  damp : F32
  kd : F32
  alpha : F32
  beta : F32
  mu : F32
  cnt : F32
  vi : F32
  strobe : Bool
  h0 : C32
  h1 : C32
  h2 : C32
  tb : List C32
  prev : C32
deriving DecidableEq, Repr

/-- The FSYNC registers (R102 to R104, R106) and hidden lists (R112, R113). `FS_BUFLEN` (R105) is the
length of `raw` (log 18). -/
structure FsUnit where
  plen : Word32
  fsize : Word32
  thresh : F32
  outcome : FsOutcome
  dl : List C32
  raw : List C32
  mag : List F32
deriving DecidableEq, Repr

/-- The memories as byte cells at host-map byte addresses (`20_memory.md` R153, R155): COEF from
0x1000, PRE from 0x2000, DMEM from 0x100000. An unlisted address holds no value (R164). -/
abbrev Memory := List Host.Cell

/-- The whole state (R115), with the build parameters and the host agent's side. -/
structure State where
  /-- The build parameters; no step changes them (`00_scope.md` R6). -/
  par : Params
  seq : SeqRegs
  /-- `MODCFG.MOD` (R65). -/
  modcfg : Modulation
  agc : AgcUnit
  fir : FirUnit
  scr : ScrUnit
  cfc : CfcUnit
  pll : PllUnit
  sym : SymUnit
  fs : FsUnit
  mem : Memory
  /-- The MODEL's own: the host's coming actions (log 1). -/
  host : List HostAct
  /-- The MODEL's own: what the host's last read returned (log 2). -/
  hostRdata : Word32
  /-- The MODEL's own: how many free values have been drawn, by host reads and by external resets that
  cut a run (logs 2, 11). -/
  draws : Nat
deriving DecidableEq, Repr

/-- `+0.0` and the other `f32` literals of the reset table (`00_scope.md` R18). -/
abbrev fzero : F32 := 0x00000000#32

/-- `1.0`. -/
abbrev fone : F32 := 0x3F800000#32

/-- `-1.0`. -/
abbrev fnegone : F32 := 0xBF800000#32

/-- `CZERO` (`00_scope.md` R15). -/
abbrev czero : C32 := ⟨fzero, fzero⟩

/-- The sequencer registers after any reset (R116). -/
def seqReset : SeqRegs where
  run := false
  stopReq := false
  lastEnd := 0#2
  cmdPtr := 0#32
  cmdCount := 0#32
  errCode := 0#8
  errPtr := 0#32
  errInfo := 0#32
  resConsumed := 0#32
  resProduced := 0#32
  resAux := 0#32
  irqStatus := 0#5
  irqEnable := 0#5
  cfgrejAddr := 0#12

/-- Every register and hidden state element at the value of R116, for a build, over the given
memories and host side. -/
def State.resetValues (par : Params) (mem : Memory) (host : List HostAct) (hostRdata : Word32)
    (draws : Nat) : State where
  par := par
  seq := seqReset
  modcfg := .bpsk
  agc := { ref := fone, maxGain := fzero, k := fzero, n := 1#32, gain := fzero, gmax := fzero,
           lnRef := fzero, ph := List.replicate par.maxAgcN fzero }
  fir := { factor := 1#32, ntaps := 1#32, dl := List.replicate (par.maxFirTaps - 1) czero }
  scr := { len := 1#32, poly := 0#32, init := 0#32, state := 0#32, dstate := 0#32 }
  cfc := { fs := fone, fres := fone, nfft := 1#32, phase := fzero, fest := fzero,
           buf := List.replicate par.maxFft czero }
  pll := { bw := fzero, damp := fzero, alpha := fzero, beta := fzero, minf := fnegone, maxf := fone,
           phase := fzero, freq := fzero }
  sym := { sps := 2#32, bw := fzero, damp := fzero, kd := fone, alpha := fzero, beta := fzero,
           mu := fzero, cnt := fzero, vi := fzero, strobe := false, h0 := czero, h1 := czero,
           h2 := czero, tb := List.replicate par.maxSps czero, prev := czero }
  fs := { plen := 1#32, fsize := 1#32, thresh := fone, outcome := .search,
          dl := List.replicate (par.maxPreLen - 1) czero, raw := [], mag := [] }
  mem := mem
  host := host
  hostRdata := hostRdata
  draws := draws

/-- The state after power-on (`70_reset_and_hazards.md` R502): the reset values, and no word of DMEM,
COEF or PRE written. The host's side is empty (logs 1, 2, 15). -/
def State.reset : State := State.resetValues defaultParams [] [] 0#32 0

end Sys2Proof.Machine
end

