-- ==== Sys2Proof/Machine/Memory.lean ====
section
/-! DEFINITION. The memories: byte cells in one canonical form, the windows of the host map, and the
whole-word accesses of the sequencer (`20_memory.md` R150 to R155, R164, R167). -/

namespace Sys2Proof.Machine

open Sys2Proof.Config

/-! ### Byte cells -/

/-- The byte at an address; an unlisted address holds no value (R164). -/
def Memory.get : Memory → Nat → Option Byte
  | [], _ => none
  | c :: m, a => if a = c.1 then some c.2 else Memory.get m a

/-- Writes one byte, keeping the cells in address order. -/
def Memory.set : Memory → Nat → Byte → Memory
  | [], a, v => [(a, v)]
  | c :: m, a, v =>
      if a < c.1 then (a, v) :: c :: m
      else if a = c.1 then (a, v) :: m
      else c :: Memory.set m a v

/-- Makes the bytes at `a .. a + n - 1` unwritten. -/
def Memory.forget (m : Memory) (a n : Nat) : Memory :=
  m.filter fun c => !(decide (a ≤ c.1) && decide (c.1 < a + n))

/-- The canonical form: addresses strictly rising. An unlisted address holds no value, so no entry can
equal it. -/
abbrev Memory.wf (m : Memory) : Prop := m.Pairwise fun c d => c.1 < d.1

/-- Writes bytes at consecutive addresses. -/
def Memory.setBytes (m : Memory) (a : Nat) : List Byte → Memory
  | [] => m
  | b :: bs => Memory.setBytes (m.set a b) (a + 1) bs

/-- Reads `n` consecutive bytes, if all have been written. -/
def Memory.getBytes (m : Memory) (a : Nat) : Nat → Option (List Byte)
  | 0 => some []
  | n + 1 =>
      match m.get a, Memory.getBytes m (a + 1) n with
      | some b, some bs => some (b :: bs)
      | _, _ => none

/-! ### The windows of the host map (R153) -/

/-- Base of the COEF window. -/
def coefBase : Nat := 0x1000
/-- Base of the PRE window. -/
def preBase : Nat := 0x2000
/-- Base of the DMEM window. -/
def dmemBase : Nat := 0x100000

/-- Byte address of DMEM word `a`. -/
def dmemAddr (a : Nat) : Nat := dmemBase + 8 * a
/-- Byte address of `COEF[k]`. -/
def coefAddr (k : Nat) : Nat := coefBase + 8 * k
/-- Byte address of `PRE[k]`. -/
def preAddr (k : Nat) : Nat := preBase + 8 * k

/-- The address lies in one of the memories: in a window and below the memory's size (R153). -/
def isMemAddr (p : Params) (a : Nat) : Bool :=
  (decide (coefBase ≤ a) && decide (a < coefAddr p.maxFirTaps)) ||
  (decide (preBase ≤ a) && decide (a < preAddr p.maxPreLen)) ||
  (decide (dmemBase ≤ a) && decide (a < dmemAddr p.dmemWords))

/-- The address lies in one of the windows of the host map (R153). -/
def isWindowAddr (p : Params) (a : Nat) : Bool :=
  (decide (0x1000 ≤ a) && decide (a < 0x3000)) ||
  (decide (dmemBase ≤ a) && decide (a < dmemAddr p.dmemWords))

/-! ### Whole words (R155, R167) -/

/-- The 64-bit word at a byte address, if all of it has been written. -/
def Memory.getWord (m : Memory) (a : Nat) : Option Word64 :=
  match m.getBytes a 8 with
  | some [b0, b1, b2, b3, b4, b5, b6, b7] => some (wordOfBytes b0 b1 b2 b3 b4 b5 b6 b7)
  | _ => none

/-- The byte at an address; draw `n` where nothing has been written (R164; log 11). -/
def Memory.drawByte (m : Memory) (n a : Nat) : Byte := (m.get a).getD (freeByte n a)

/-- The 64-bit word at a byte address, with draw `n` for the bytes that have not been written. -/
def Memory.drawWord (m : Memory) (n a : Nat) : Word64 :=
  wordOfBytes (m.drawByte n a) (m.drawByte n (a + 1)) (m.drawByte n (a + 2)) (m.drawByte n (a + 3))
    (m.drawByte n (a + 4)) (m.drawByte n (a + 5)) (m.drawByte n (a + 6)) (m.drawByte n (a + 7))

/-- Writes a 64-bit word at a byte address. -/
def Memory.setWord (m : Memory) (a : Nat) (w : Word64) : Memory := m.setBytes a (bytesOfWord w)

/-- `MemRead(a, n)` (`00_scope.md` R10): the DMEM words `a .. a + n - 1`, if all have been written. -/
def Memory.readBlock (m : Memory) (a : Nat) : Nat → Option (List Word64)
  | 0 => some []
  | n + 1 =>
      match m.getWord (dmemAddr a), Memory.readBlock m (a + 1) n with
      | some w, some ws => some (w :: ws)
      | _, _ => none

/-- `MemWrite(a, n, v)` (`00_scope.md` R10). -/
def Memory.writeBlock (m : Memory) (a : Nat) : List Word64 → Memory
  | [] => m
  | w :: ws => Memory.writeBlock (m.setWord (dmemAddr a) w) (a + 1) ws

/-- Bit 0 of DMEM word `a`, if the byte that holds it has been written: all that a read of format B
looks at (R162, R155; log 26). -/
def Memory.getBit (m : Memory) (a : Nat) : Option Bool :=
  (m.get (dmemAddr a)).map fun b => b.getLsbD 0

/-- Bit 0 of the DMEM words `a .. a + n - 1`, if the bytes that hold them have been written. -/
def Memory.readBits (m : Memory) (a : Nat) : Nat → Option (List Bool)
  | 0 => some []
  | n + 1 =>
      match m.getBit a, Memory.readBits m (a + 1) n with
      | some b, some bs => some (b :: bs)
      | _, _ => none

/-- The DMEM words from `a` on, at most `n`, up to the first that has not been written: what a command
can read that stops within its block (`47_symsync.md` R391; log 26). -/
def Memory.readPrefix (m : Memory) (a : Nat) : Nat → List Word64
  | 0 => []
  | n + 1 =>
      match m.getWord (dmemAddr a) with
      | none => []
      | some w => w :: Memory.readPrefix m (a + 1) n

/-- `COEF[k .. k + n - 1]`, if all have been written (`10_state.md` R75). -/
def Memory.readCoef (m : Memory) (k : Nat) : Nat → Option (List Word64)
  | 0 => some []
  | n + 1 =>
      match m.getWord (coefAddr k), Memory.readCoef m (k + 1) n with
      | some w, some ws => some (w :: ws)
      | _, _ => none

/-- `PRE[k .. k + n - 1]`, if all have been written (`10_state.md` R107). -/
def Memory.readPre (m : Memory) (k : Nat) : Nat → Option (List Word64)
  | 0 => some []
  | n + 1 =>
      match m.getWord (preAddr k), Memory.readPre m (k + 1) n with
      | some w, some ws => some (w :: ws)
      | _, _ => none

/-! ### The host's halves (R153, R154) -/

/-- The little-endian bytes of a 32-bit value (R155). -/
def bytesOfHalf (v : Word32) : List Byte := (List.range 4).map fun i => v.extractLsb' (8 * i) 8

/-- The 32-bit value of four bytes (R155). -/
def halfOfBytes (b0 b1 b2 b3 : Byte) : Word32 := b3 ++ b2 ++ b1 ++ b0

/-- The 32-bit half at a byte address, if it has been written. -/
def Memory.getHalf (m : Memory) (a : Nat) : Option Word32 :=
  match m.getBytes a 4 with
  | some [b0, b1, b2, b3] => some (halfOfBytes b0 b1 b2 b3)
  | _ => none

/-- Writes a 32-bit half at a byte address. -/
def Memory.setHalf (m : Memory) (a : Nat) (v : Word32) : Memory := m.setBytes a (bytesOfHalf v)

end Sys2Proof.Machine
end

