-- ==== Sys2Proof/Machine/Operands.lean ====
section
/-! DEFINITION. The operand forms: element formats (`20_memory.md` R160 to R163), operand ranges and
their checks (`40_control.md` R260 to R264), and the carried delay lines. -/

namespace Sys2Proof.Machine

open Sys2Proof.Config

/-! ### Element formats -/

/-- Format C, read (R160). -/
def complexOf (w : Word64) : C32 := ⟨w.extractLsb' 0 32, w.extractLsb' 32 32⟩

/-- Format C, written (R160): `bits(im) || bits(re)`. -/
def wordOfC (z : C32) : Word64 := z.im ++ z.re

/-- Format R (R161). -/
def wordOfR (v : F32) : Word64 := v.setWidth 64

/-- Format B, written (R162); `Memory.getBit` reads it. -/
def wordOfB (b : Bool) : Word64 := if b then 1#64 else 0#64

/-- Format I (R163): sign-extended. -/
def wordOfI (n : Word32) : Word64 := n.signExtend 64

/-! ### Ranges -/

/-- An operand range `(base, n)` (R262). -/
structure Range where
  base : Nat
  len : Nat
deriving DecidableEq, Repr

/-- The ranges of a command: input, output, and the auxiliary one when `AUXW = 1` (R261). -/
structure Blocks where
  inp : Range
  out : Range
  aux : Option Range
deriving DecidableEq, Repr

/-- The auxiliary range of a descriptor (R261): only with `AUXW = 1`. -/
def auxRange (auxw : Bool) (aux : Word32) (n : Nat) : Option Range :=
  if auxw then some ⟨aux.toNat, n⟩ else none

/-- A range is legal: empty, or inside DMEM (R263). -/
def rangeLegal (p : Params) (r : Range) : Bool := r.len == 0 || decide (r.base + r.len ≤ p.dmemWords)

/-- Two ranges overlap: both non-empty and sharing an address (R264). -/
def rangesOverlap (a b : Range) : Bool :=
  decide (0 < a.len) && decide (0 < b.len) && decide (a.base < b.base + b.len) &&
    decide (b.base < a.base + a.len)

/-- An error with its detail (`60_exceptions.md` R450). -/
structure CmdError where
  code : BitVec 8
  info : Word32
deriving DecidableEq, Repr

/-- The first illegal range (R263): code 4. -/
def rangeError (p : Params) (b : Blocks) : Option CmdError :=
  if !rangeLegal p b.inp then some ⟨4#8, 1#32⟩
  else if !rangeLegal p b.out then some ⟨4#8, 2#32⟩
  else match b.aux with
    | none => none
    | some a => if !rangeLegal p a then some ⟨4#8, 3#32⟩ else none

/-- The first overlapping pair (R264): code 5; `desc` is the descriptor range. -/
def overlapError (desc : Range) (b : Blocks) : Option CmdError :=
  match b.aux with
  | none =>
      if rangesOverlap b.inp b.out then some ⟨5#8, 1#32⟩
      else if rangesOverlap b.out desc then some ⟨5#8, 4#32⟩
      else none
  | some a =>
      if rangesOverlap b.inp b.out then some ⟨5#8, 1#32⟩
      else if rangesOverlap b.inp a then some ⟨5#8, 2#32⟩
      else if rangesOverlap b.out a then some ⟨5#8, 3#32⟩
      else if rangesOverlap b.out desc then some ⟨5#8, 4#32⟩
      else if rangesOverlap a desc then some ⟨5#8, 5#32⟩
      else none

/-- The range and overlap checks of a command at descriptor address `p`, in the order of
`40_control.md` R257. -/
def operandError (par : Params) (p : Nat) (b : Blocks) : Option CmdError :=
  match rangeError par b with
  | some e => some e
  | none => overlapError ⟨p, 4⟩ b

/-! ### Carried lists -/

/-- Enters a value at the front of a delay line of `n` entries, newest first (R108 to R112). -/
def pushFront {α : Type} (n : Nat) (x : α) (l : List α) : List α := (x :: l).take n

/-- Runs a per-sample function over a block, carrying its state (`00_scope.md` R2). -/
def scanBlock {σ α β : Type} (f : σ → α → σ × β) : σ → List α → σ × List β
  | s, [] => (s, [])
  | s, x :: xs => ((scanBlock f (f s x).1 xs).1, (f s x).2 :: (scanBlock f (f s x).1 xs).2)

/-- The modulation order `M` (R7). -/
def Modulation.order : Modulation → Nat
  | .bpsk => 2
  | .qpsk => 4

end Sys2Proof.Machine
end

