-- ==== Sys2Proof/Machine/Flags.lean ====
section
/-! DEFINITION. The status and interrupt flags (`10_state.md` R55, R60, R106; `60_exceptions.md` R460).
The core has no arithmetic flags (`10_state.md` R114). -/

namespace Sys2Proof.Machine

/-- The value of `STATUS` (R55). -/
def statusWord (q : SeqRegs) : Word32 :=
  (0#26 ++ q.lastEnd ++ 0#2 ++ BitVec.ofBool q.stopReq ++ BitVec.ofBool q.run)

/-- `IRQ_STATUS.DONE` (R60). -/
def irqDone : BitVec 5 := 0b00001#5
/-- `IRQ_STATUS.ERR` (R60). -/
def irqErr : BitVec 5 := 0b00010#5
/-- `IRQ_STATUS.STOPPED` (R60). -/
def irqStopped : BitVec 5 := 0b00100#5
/-- `IRQ_STATUS.CFGREJ` (R60). -/
def irqCfgrej : BitVec 5 := 0b01000#5
/-- `IRQ_STATUS.HAZ` (R60). -/
def irqHaz : BitVec 5 := 0b10000#5

/-- Sets a bit of `IRQ_STATUS`; setting a set bit has no further effect (R461). -/
def State.setIrq (s : State) (b : BitVec 5) : State :=
  { s with seq := { s.seq with irqStatus := s.seq.irqStatus ||| b } }

/-- The interrupt output (R460). -/
def State.irq (s : State) : Bool := (s.seq.irqStatus &&& s.seq.irqEnable) != 0#5

/-- The code of an FSYNC outcome (R106). -/
def outcomeCode : FsOutcome → Word32
  | .search => 0#32
  | .incomplete => 1#32
  | .premature => 2#32
  | .emit => 3#32

end Sys2Proof.Machine
end

