-- ==== Sys2Proof/Machine/Ops.lean ====
section
/-! DEFINITION. The shared operations of the sequencer: the end of a run, the error stop and the start
that returns from it, completion, and the frame that every block command runs in
(`40_control.md` R251, R256 to R259; `60_exceptions.md` R452, R453). -/

namespace Sys2Proof.Machine

open Sys2Proof.Config

/-- The outcome of a step of this machine. -/
abbrev Result := Host.Outcome State Fault Refusal

/-- `EndRun(kind)` (R259). -/
def State.endRun (s : State) (kind : BitVec 2) : State :=
  { s with seq := { s.seq with run := false, stopReq := false, lastEnd := kind } }

/-- TAKING AN EXCEPTION: the error stop (`60_exceptions.md` R452). `ERR_CODE`, `ERR_INFO` and `ERR_PTR`
record the error, the run ends with kind 2, and `IRQ_STATUS.ERR` is set. `CMD_PTR` still names the
faulting descriptor; nothing else changes. -/
def State.errorStop (s : State) (e : CmdError) : State :=
  (State.endRun
    { s with seq := { s.seq with errCode := e.code, errInfo := e.info, errPtr := s.seq.cmdPtr } }
    2#2).setIrq irqErr

/-- RETURNING FROM ONE: the start of a run (R251), which retries the descriptor at `CMD_PTR` after an
error stop (`60_exceptions.md` R453). -/
def State.start (s : State) : State :=
  { s with seq := { s.seq with
      run := true, stopReq := false, cmdCount := 0#32, errCode := 0#8, errPtr := 0#32,
      errInfo := 0#32 } }

/-- A pending stop request is taken (R258). -/
def State.takeStop (s : State) : State := (s.endRun 3#2).setIrq irqStopped

/-- The DMEM word address of the descriptor being executed. -/
def State.ptr (s : State) : Nat := s.seq.cmdPtr.toNat

/-- Counts a completed descriptor and moves to the next one (R253, R256). -/
def State.advance (s : State) : State :=
  { s with seq := { s.seq with
      cmdCount := s.seq.cmdCount + 1#32, cmdPtr := s.seq.cmdPtr + 4#32 } }

/-- What a command returns: consumed, produced and auxiliary result (R256). -/
structure Counts where
  consumed : Word32
  produced : Word32
  aux : Word32
deriving DecidableEq, Repr

/-- Counts from numbers; they never exceed 32 bits in a legal build (log 19). -/
def countsOf (consumed produced aux : Nat) : Counts :=
  ⟨BitVec.ofNat 32 consumed, BitVec.ofNat 32 produced, BitVec.ofNat 32 aux⟩

/-- `W3` as it is written back (R256). -/
def w3Word (c : Counts) : Word64 := c.produced ++ c.consumed

/-- The result registers (`10_state.md` R59). -/
def State.setResults (s : State) (c : Counts) : State :=
  { s with seq := { s.seq with
      resConsumed := c.consumed, resProduced := c.produced, resAux := c.aux } }

/-- `MemWrite` (`00_scope.md` R10) on the state. -/
def State.writeBlock (s : State) (base : Nat) (ws : List Word64) : State :=
  { s with mem := s.mem.writeBlock base ws }

/-- Completion of a descriptor other than HALT (R256). -/
def State.complete (s : State) (c : Counts) : State :=
  ((s.writeBlock (s.ptr + 3) [w3Word c]).setResults c).advance

/-- Writes the auxiliary block, when there is one (`30_encoding.md` R211). -/
def State.writeAux (s : State) (r : Option Range) (ws : List Word64) : State :=
  match r with
  | none => s
  | some a => s.writeBlock a.base ws

/-- What a block command does once its checks have passed: the state with its unit updated, the words
of its output blocks, and its counts. -/
structure Effect where
  st : State
  out : List Word64
  aux : List Word64
  counts : Counts

/-- Writes the output blocks of an effect and completes (R165, R256). -/
def Effect.commit (e : Effect) (b : Blocks) : State :=
  ((e.st.writeBlock b.out.base e.out).writeAux b.aux e.aux).complete e.counts

/-- What a block command's reads and computation give: an effect, or the fault of an unwritten read. -/
abbrev Computed := Host.Outcome Effect Fault Refusal

/-- A block command (R257 from the operand ranges on): range and overlap checks, the capacity check
`cap` of CFC and FSYNC, then `body`, which reads the input block, and completion. -/
def runBlock (s : State) (b : Blocks) (cap : Option CmdError) (body : Computed) : Result :=
  match operandError s.par s.ptr b with
  | some e => .next (s.errorStop e)
  | none =>
    match cap with
    | some e => .next (s.errorStop e)
    | none =>
      match body with
      | .next e => .next (e.commit b)
      | .fault r => .fault r
      | .refused r => .refused r

/-- Reads every word of an input block (`40_control.md` R260), then computes. -/
def withWords (s : State) (r : Range) (f : List Word64 → Computed) : Computed :=
  match s.mem.readBlock r.base r.len with
  | none => .fault .unwrittenDmem
  | some ws => f ws

/-- Reads bit 0 of the `n` words of an input block that a command of format B consumes
(`20_memory.md` R162; log 26), then computes. -/
def withBits (s : State) (base n : Nat) (f : List Bool → Effect) : Computed :=
  match s.mem.readBits base n with
  | none => .fault .unwrittenDmem
  | some bs => .next (f bs)

end Sys2Proof.Machine
end

