-- ==== Sys2Proof/Machine/F32.lean ====
section
/-! DEFINITION. IEEE 754 binary32 arithmetic with roundTiesToEven (`00_scope.md` R12 to R19). Exact
values are integers times powers of two; each primitive computes exactly and rounds once. -/

namespace Sys2Proof.Machine

/-! ### Encodings -/

/-- The quiet NaN that every NaN result is (R12). -/
def qNaN : F32 := 0x7FC00000#32

/-- An infinity. -/
def finf (neg : Bool) : F32 := if neg then 0xFF800000#32 else 0x7F800000#32

/-- A zero. -/
def fzeroOf (neg : Bool) : F32 := if neg then 0x80000000#32 else 0x00000000#32

/-- The biased exponent field (`20_memory.md` R156). -/
def expField (x : F32) : Nat := (x.extractLsb' 23 8).toNat

/-- The fraction field (`20_memory.md` R156). -/
def fracField (x : F32) : Nat := (x.extractLsb' 0 23).toNat

/-- A decoded `f32`: a NaN, an infinity, or the finite value `± m * 2^e`. -/
inductive Unpacked where
  | nan
  | inf (neg : Bool)
  | fin (neg : Bool) (m : Nat) (e : Int)
deriving DecidableEq, Repr

/-- The value of a bit pattern, subnormals included (R12). -/
def unpack (x : F32) : Unpacked :=
  if expField x = 255 then
    if fracField x = 0 then .inf x.msb else .nan
  else if expField x = 0 then .fin x.msb (fracField x) (-149)
  else .fin x.msb (fracField x + 2 ^ 23) ((expField x : Int) - 150)

/-- Whether a bit pattern is a NaN (R13, `20_memory.md` R156). -/
def isnan (x : F32) : Bool := expField x == 255 && fracField x != 0

/-- `isfinite` (R13). -/
def isfinite (x : F32) : Bool := expField x != 255

/-! ### Rounding -/

/-- `m / 2^k` to the nearest integer, ties to even; `sticky` says that the exact value is a little
above `m`. -/
def shiftRightRound (m k : Nat) (sticky : Bool) : Nat :=
  if 2 * (m % 2 ^ k) > 2 ^ k ∨ (2 * (m % 2 ^ k) = 2 ^ k ∧ (sticky ∨ m / 2 ^ k % 2 = 1)) then
    m / 2 ^ k + 1
  else m / 2 ^ k

/-- The exponent of the last place of the binary32 neighbours of `m * 2^e`, for `m > 0`. -/
def quantum (m : Nat) (e : Int) : Int := max (e + (Nat.log2 m : Int) - 23) (-149)

/-- The encoding, sign bit clear, of the binary32 value nearest `m * 2^e` (roundTiesToEven), or of a
value a little above it when `sticky`; overflow gives infinity. A sticky `m` has at least 26 bits. -/
def roundMag (m : Nat) (e : Int) (sticky : Bool) : Nat :=
  if m = 0 then 0
  else
    let q := quantum m e
    let n := if q ≤ e then m * 2 ^ (e - q).toNat else shiftRightRound m (q - e).toNat sticky
    min ((q + 149).toNat * 2 ^ 23 + n) 0x7F800000

/-- The `f32` nearest `± m * 2^e`. -/
def fround (neg : Bool) (m : Nat) (e : Int) (sticky : Bool) : F32 :=
  BitVec.ofNat 32 (roundMag m e sticky + if neg then 2 ^ 31 else 0)

/-- The signed integer `± m * 2^k`. -/
def signedShift (neg : Bool) (m : Nat) (k : Nat) : Int :=
  if neg then -((m * 2 ^ k : Nat) : Int) else ((m * 2 ^ k : Nat) : Int)

/-! ### The arithmetic primitives (R12) -/

/-- `fneg` flips the sign bit (R12). -/
def fneg (x : F32) : F32 := x ^^^ 0x80000000#32

/-- The magnitude: the sign bit cleared. -/
def fabs (x : F32) : F32 := x &&& 0x7FFFFFFF#32

/-- `fadd` (R12). -/
def fadd (a b : F32) : F32 :=
  match unpack a, unpack b with
  | .nan, _ => qNaN
  | _, .nan => qNaN
  | .inf s, .inf t => if s = t then finf s else qNaN
  | .inf s, .fin _ _ _ => finf s
  | .fin _ _ _, .inf t => finf t
  | .fin s m e, .fin t n f =>
      let g := min e f
      let x := signedShift s m (e - g).toNat + signedShift t n (f - g).toNat
      if x = 0 then fzeroOf (s && t) else fround (decide (x < 0)) x.natAbs g false

/-- `fsub` (R12). -/
def fsub (a b : F32) : F32 := fadd a (fneg b)

/-- `fmul` (R12). -/
def fmul (a b : F32) : F32 :=
  match unpack a, unpack b with
  | .nan, _ => qNaN
  | _, .nan => qNaN
  | .inf s, .inf t => finf (s != t)
  | .inf s, .fin t n _ => if n = 0 then qNaN else finf (s != t)
  | .fin s m _, .inf t => if m = 0 then qNaN else finf (s != t)
  | .fin s m e, .fin t n f => fround (s != t) (m * n) (e + f) false

/-- `fdiv` (R12). -/
def fdiv (a b : F32) : F32 :=
  match unpack a, unpack b with
  | .nan, _ => qNaN
  | _, .nan => qNaN
  | .inf _, .inf _ => qNaN
  | .inf s, .fin t _ _ => finf (s != t)
  | .fin s _ _, .inf t => fzeroOf (s != t)
  | .fin s m e, .fin t n f =>
      if n = 0 then (if m = 0 then qNaN else finf (s != t))
      else fround (s != t) (m * 2 ^ 50 / n) (e - f - 50) (decide (m * 2 ^ 50 % n ≠ 0))

/-- The integer square root of an `n` below `4^i * (r+1)^2`, bit by bit from a root `r` so far. -/
def isqrtFrom : Nat → Nat → Nat → Nat
  | 0, _, r => r
  | i + 1, n, r =>
      if (r + 2 ^ i) * (r + 2 ^ i) ≤ n then isqrtFrom i n (r + 2 ^ i) else isqrtFrom i n r

/-- How far `sqrtMag` shifts its radicand right, in pairs of bits. -/
def sqrtShift (n : Nat) : Nat := (Nat.log2 n - 64) / 2

/-- The encoding, sign bit clear, of the binary32 value nearest `sqrt n * 2^h`. -/
def sqrtMag (n : Nat) (h : Int) : Nat :=
  let n' := n * 2 ^ 64
  let k := sqrtShift n'
  let r := isqrtFrom 34 (n' / 4 ^ k) 0
  roundMag r (h - 32 + k) (decide (r * r * 4 ^ k ≠ n'))

/-- `fsqrt` (R12). -/
def fsqrt (a : F32) : F32 :=
  match unpack a with
  | .nan => qNaN
  | .inf s => if s then qNaN else finf false
  | .fin s m e =>
      if m = 0 then fzeroOf s
      else if s then qNaN
      else if e % 2 = 0 then BitVec.ofNat 32 (sqrtMag m (e / 2))
      else BitVec.ofNat 32 (sqrtMag (2 * m) ((e - 1) / 2))

/-! ### Comparisons (R13) -/

/-- The order of non-NaN values as integers; both zeros are 0. -/
def orderKey (x : F32) : Int := if x.msb then -((fabs x).toNat : Int) else ((fabs x).toNat : Int)

/-- `flt(a, b)`: a < b, false with a NaN (R13). -/
def flt (a b : F32) : Bool := !isnan a && !isnan b && decide (orderKey a < orderKey b)

/-- `fle(a, b)` (R13). -/
def fle (a b : F32) : Bool := !isnan a && !isnan b && decide (orderKey a ≤ orderKey b)

/-- `fgt(a, b)` (R13). -/
def fgt (a b : F32) : Bool := flt b a

/-- `fge(a, b)` (R13). -/
def fge (a b : F32) : Bool := fle b a

/-- `feq(a, b)` (R13). -/
def feq (a b : F32) : Bool := !isnan a && !isnan b && decide (orderKey a = orderKey b)

/-! ### The other primitives (R14) -/

/-- `fmin` (R14). -/
def fmin (a b : F32) : F32 := if flt b a then b else a

/-- `ffloor` (R14): exact; a zero keeps its sign (log 9). -/
def ffloor (x : F32) : F32 :=
  match unpack x with
  | .nan => x
  | .inf _ => x
  | .fin s m e =>
      if 0 ≤ e then x
      else if s then fround true ((m + (2 ^ (-e).toNat - 1)) / 2 ^ (-e).toNat) 0 false
      else fround false (m / 2 ^ (-e).toNat) 0 false

/-- `i2f` (R14). -/
def i2f (n : Int) : F32 := fround (decide (n < 0)) n.natAbs 0 false

/-- `sgn` (R14). -/
def sgn (x : F32) : F32 := if fgt x fzero then fone else if flt x fzero then fnegone else fzero

/-- The literal `0.5`. -/
abbrev fhalf : F32 := 0x3F000000#32
/-- The literal `2.0`. -/
abbrev ftwo : F32 := 0x40000000#32
/-- The literal `4.0`. -/
abbrev ffour : F32 := 0x40800000#32
/-- The literal `20.0`. -/
abbrev ftwenty : F32 := 0x41A00000#32
/-- `TWO_PI` (R18). -/
abbrev twoPi : F32 := 0x40C90FDB#32
/-- `LN10` (R18). -/
abbrev ln10 : F32 := 0x40135D8E#32

/-! ### Complex primitives (R15) -/

/-- `cadd` (R15). -/
def cadd (p q : C32) : C32 := ⟨fadd p.re q.re, fadd p.im q.im⟩

/-- `csub` (`47_symsync.md` R391). -/
def csub (p q : C32) : C32 := ⟨fsub p.re q.re, fsub p.im q.im⟩

/-- `cmul` (R15). -/
def cmul (p q : C32) : C32 :=
  ⟨fsub (fmul p.re q.re) (fmul p.im q.im), fadd (fmul p.re q.im) (fmul p.im q.re)⟩

/-- `cconj` (R15). -/
def cconj (p : C32) : C32 := ⟨p.re, fneg p.im⟩

/-- `cscale` (R15). -/
def cscale (s : F32) (p : C32) : C32 := ⟨fmul p.re s, fmul p.im s⟩

/-- `cabs2` (R15). -/
def cabs2 (p : C32) : F32 := fadd (fmul p.re p.re) (fmul p.im p.im)

/-- `cabs` (R15). -/
def cabs (p : C32) : F32 := fsqrt (cabs2 p)

/-! ### The phase wrap and the loop gains -/

/-- `WRAP` (R17). -/
def wrap (p : F32) : F32 :=
  if fgt p twoPi then fsub p twoPi else if flt p (fneg twoPi) then fadd p twoPi else p

/-- The `d` of `GAINS` (R19). -/
def gainsD (th ze : F32) : F32 := fadd (fadd fone (fmul (fmul ftwo ze) th)) (fmul th th)

/-- `alpha` of `GAINS` (R19). -/
def gainsAlpha (th ze kd : F32) : F32 := fdiv (fmul (fmul ffour ze) th) (fmul (gainsD th ze) kd)

/-- `beta` of `GAINS` (R19). -/
def gainsBeta (th ze kd : F32) : F32 := fdiv (fmul (fmul ffour th) th) (fmul (gainsD th ze) kd)

end Sys2Proof.Machine
end

