-- ==== Sys2Proof/Machine/Trans.lean ====
section
/-! DEFINITION. The transcendental functions `TRANS` (`00_scope.md` R20) and the rotator (R16).

The default build returns the binary32 value nearest the real function (R20). It is computed from an
enclosure of the real value by integers: where both ends of the enclosure round to the same binary32
value, that value is the result; where they do not, the result is left free (log 6). Every other build
is free. Around both stand the properties that R20 lists, so that they hold of every build. -/

namespace Sys2Proof.Machine

open Sys2Proof.Config

/-- The encoding both ends of the enclosure `[lo * 2^e, hi * 2^e]` round to, if they round alike. -/
def roundEnclosure (lo hi : Nat) (e : Int) : Option Nat :=
  if roundMag lo e false = roundMag hi e false then some (roundMag lo e false) else none

/-- `roundEnclosure` with a sign. -/
def roundSigned (neg : Bool) (lo hi : Nat) (e : Int) : Option F32 :=
  (roundEnclosure lo hi e).map fun n => BitVec.ofNat 32 (n + if neg then 2 ^ 31 else 0)

/-! ### The exponential -/

/-- Binary places of the fixed-point numbers of `fexp` and `fln`. -/
abbrev expBits : Nat := 256

/-- The terms from the `k`-th on of the series of `e^r`, added to `acc`. -/
def expSeries (r : Nat) : Nat → Nat → Nat → Nat → Nat
  | 0, _, _, acc => acc
  | fuel + 1, k, term, acc =>
      if term = 0 then acc
      else expSeries r fuel (k + 1) (term * r / (k * 2 ^ expBits)) (acc + term)

/-- `y^(2^n)` in fixed point. -/
def squareTimes : Nat → Nat → Nat
  | 0, y => y
  | n + 1, y => if y = 0 then 0 else squareTimes n (y * y / 2 ^ expBits)

/-- `e^(m * 2^e)` in fixed point, for `m * 2^e < 104`: relative error below `2^-240`. -/
def expFixed (m : Nat) (e : Int) : Nat :=
  squareTimes 8 (expSeries (m * 2 ^ (expBits - 8 + e).toNat) 100 1 (2 ^ expBits) 0)

/-- The value nearest `e^(± m * 2^e)`, `m > 0`. From 89 on it is an infinity; to -104 it is zero. -/
def expNearest (neg : Bool) (m : Nat) (e : Int) : Option F32 :=
  if neg then
    if 104 * 2 ^ 149 ≤ m * 2 ^ (e + 149).toNat then some fzero
    else
      let v := 2 ^ (2 * expBits) / expFixed m e
      roundSigned false (v - (v / 2 ^ 224 + 2)) (v + (v / 2 ^ 224 + 2)) (-expBits)
  else
    if 89 * 2 ^ 149 ≤ m * 2 ^ (e + 149).toNat then some (finf false)
    else
      let v := expFixed m e
      roundSigned false (v - (v / 2 ^ 224 + 2)) (v + (v / 2 ^ 224 + 2)) (-expBits)

/-! ### The natural logarithm -/

/-- The terms of `atanh z` with divisors `d, d + 2, ..`, where `pw` is the power reached. -/
def atanhSeries (zz : Nat) : Nat → Nat → Nat → Nat → Nat
  | 0, _, _, acc => acc
  | fuel + 1, d, pw, acc =>
      if pw = 0 then acc
      else atanhSeries zz fuel (d + 2) (pw * zz / 2 ^ expBits) (acc + pw / d)

/-- `atanh (a/b)` in fixed point, for `a/b ≤ 1/3`. -/
def atanhFixed (a b : Nat) : Nat :=
  let z := a * 2 ^ expBits / b
  atanhSeries (z * z / 2 ^ expBits) 200 1 z 0

/-- `ln (m * 2^e)` in fixed point, `m > 0`: error below `2^20` units. -/
def lnFixed (m : Nat) (e : Int) : Int :=
  let l := Nat.log2 m
  (e + l) * (2 * (atanhFixed 1 3 : Int)) + 2 * (atanhFixed (m - 2 ^ l) (m + 2 ^ l) : Int)

/-- The value nearest `ln (m * 2^e)`, `m > 0`. -/
def lnNearest (m : Nat) (e : Int) : Option F32 :=
  let v := lnFixed m e
  roundSigned (decide (v < 0)) (v.natAbs - 2 ^ 20) (v.natAbs + 2 ^ 20) (-expBits)

/-! ### Sine and cosine -/

/-- Binary places of the fixed-point numbers of `fsin`, `fcos` and `SPECMAG`. -/
abbrev trigBits : Nat := 400

/-- `floor (2^400 * pi / 2)`. -/
def halfPiFixed : Nat :=
  0x1921fb54442d18469898cc51701b839a252049c1114cf98e804177d4c76273644a29410f31c6809bbdf2a33679a7486366056

/-- The terms of an alternating series: each is the one before times `-rr / (j * (j + 1))`. -/
def altSeries (rr : Int) : Nat → Nat → Int → Int → Int
  | 0, _, _, acc => acc
  | fuel + 1, j, term, acc =>
      if term = 0 then acc
      else altSeries rr fuel (j + 2) ((-(term * rr)).tdiv (2 ^ trigBits * (j * (j + 1)))) (acc + term)

/-- `sin r` for `0 ≤ r ≤ pi/2`: error below 128 units. -/
def sinFixed (r : Nat) : Nat := (altSeries ((r * r / 2 ^ trigBits : Nat) : Int) 100 2 r 0).toNat

/-- `cos r` for `0 ≤ r ≤ pi/2`: error below 128 units. -/
def cosFixed (r : Nat) : Nat :=
  (altSeries ((r * r / 2 ^ trigBits : Nat) : Int) 100 1 (2 ^ trigBits) 0).toNat

/-- An angle of `quad` right angles and a rest `r`, the rest known to `err` units. -/
structure Reduced where
  quad : Nat
  r : Nat
  err : Nat

/-- Reduces `m * 2^e` by right angles. -/
def reduceAngle (m : Nat) (e : Int) : Reduced :=
  let x := m * 2 ^ (trigBits + e).toNat
  ⟨x / halfPiFixed, x % halfPiFixed, x / halfPiFixed⟩

/-- The value nearest the sine of an angle `quad` right angles after the reduced one, negated if
`neg`. -/
def sinNearest (neg : Bool) (a : Reduced) : Option F32 :=
  let v := if a.quad % 2 = 0 then sinFixed a.r else cosFixed a.r
  roundSigned (neg != decide (2 ≤ a.quad % 4)) (v - (a.err + 128)) (v + (a.err + 128)) (-trigBits)

/-! ### The functions of R20 -/

/-- A NaN becomes the one NaN (`93_implementation_defined.md` U14, log 8). -/
def canonNaN (x : F32) : F32 := if isnan x then qNaN else x

/-- A value that R20 says is finite. -/
def forceFinite (x : F32) : F32 := if isfinite x then x else fzero

/-- A value that R20 says is finite and in `[-1.0, 1.0]`. -/
def forceUnit (x : F32) : F32 := if fle fnegone x && fle x fone then x else fzero

/-- `fexp` (R20). -/
def fexp (b : NumBuild) (x : F32) : F32 :=
  match unpack x with
  | .nan => qNaN
  | .inf s => if s then fzero else finf false
  | .fin s m e =>
      if m = 0 then fone
      else canonNaN (match b with
        | .nearest => (expNearest s m e).getD (fexpBuild 0 x)
        | .other id => fexpBuild (id + 1) x)

/-- `fln` (R20). -/
def fln (b : NumBuild) (x : F32) : F32 :=
  match unpack x with
  | .nan => qNaN
  | .inf s => if s then qNaN else finf false
  | .fin s m e =>
      if m = 0 then finf true
      else if s then qNaN
      else if x = fone then fzero
      else forceFinite (match b with
        | .nearest => (lnNearest m e).getD (flnBuild 0 x)
        | .other id => flnBuild (id + 1) x)

/-- `fsin` (R20). -/
def fsin (b : NumBuild) (x : F32) : F32 :=
  match unpack x with
  | .nan => qNaN
  | .inf _ => qNaN
  | .fin s m e =>
      if m = 0 then x
      else forceUnit (match b with
        | .nearest => (sinNearest s (reduceAngle m e)).getD (fsinBuild 0 x)
        | .other id => fsinBuild (id + 1) x)

/-- `fcos` (R20): the sine one right angle on. -/
def fcos (b : NumBuild) (x : F32) : F32 :=
  match unpack x with
  | .nan => qNaN
  | .inf _ => qNaN
  | .fin _ m e =>
      if m = 0 then fone
      else forceUnit (match b with
        | .nearest =>
            let a := reduceAngle m e
            (sinNearest false ⟨a.quad + 1, a.r, a.err⟩).getD (fcosBuild 0 x)
        | .other id => fcosBuild (id + 1) x)

/-- `ROT(z, phi)`, `z * e^(-j*phi)` (R16). -/
def rot (b : NumBuild) (z : C32) (phi : F32) : C32 :=
  let c := fcos b phi
  let s := fsin b phi
  ⟨fadd (fmul z.re c) (fmul z.im s), fsub (fmul z.im c) (fmul z.re s)⟩

end Sys2Proof.Machine
end

