-- ==== Sys2Proof/Machine/Agc.lean ====
section
/-! DEFINITION. AGC, the logarithmic gain-control loop (`41_agc.md` R271 to R273). -/

namespace Sys2Proof.Machine

open Sys2Proof.Config

/-- The moving-average power: `sum of c * AGC_PH[k]`, `k = 0 .. N-1`, each step rounded (R271). -/
def agcPower (c : F32) (n : Nat) (ph : List F32) : F32 :=
  (ph.take n).foldl (fun p q => fadd p (fmul c q)) fzero

/-- The detector error `err` of a sample with power estimate `p` at gain `g` (R271); `+inf` when the
estimate is zero. -/
def agcErr (t : NumBuild) (lnRef p g : F32) : F32 :=
  if feq p fzero then finf false else fsub lnRef (fadd (fln t p) (fmul ftwo g))

/-- The gain after a sample (R271): unchanged unless `K > 0`, and clamped from above only. With `K > 0`
and an estimate of 0 the gain becomes `GMAX` whatever it was: the pseudocode and D28 say so, while the
corner case of R271 and `93_implementation_defined.md` U16 keep a NaN gain (log 28). -/
def agcGain (k gmax p g err : F32) : F32 :=
  if fgt k fzero then
    if feq p fzero then gmax else fmin (fadd g (fmul k err)) gmax
  else g

/-- The carried state of the loop: `g` and `AGC_PH`. -/
structure AgcLoop where
  g : F32
  ph : List F32
deriving DecidableEq, Repr

/-- One sample (R271): the new loop state, the output sample and the error. Non-finite samples
follow the pseudocode, where the corner case of R271 is wider: a gain that is `-inf` already becomes NaN
at another infinite power, and `K = 0` keeps the gain at a NaN sample (log 32). -/
def agcSample (par : Params) (u : AgcUnit) (st : AgcLoop) (x : C32) : AgcLoop × (C32 × F32) :=
  let ph := pushFront par.maxAgcN (cabs2 x) st.ph
  let p := agcPower (fdiv fone (i2f u.n.toNat)) u.n.toNat ph
  let err := agcErr par.trans u.lnRef p st.g
  (⟨agcGain u.k u.gmax p st.g err, ph⟩, (cscale (fexp par.trans st.g) x, err))

/-- The loop over a block. -/
def agcRun (par : Params) (u : AgcUnit) (xs : List C32) : AgcLoop × List (C32 × F32) :=
  scanBlock (agcSample par u) ⟨u.gain, u.ph⟩ xs

/-- The ranges of AGC (`40_control.md` R261). -/
def agcBlocks (dst src len : Word32) (auxw : Bool) (aux : Word32) : Blocks :=
  ⟨⟨src.toNat, len.toNat⟩, ⟨dst.toNat, len.toNat⟩, auxRange auxw aux len.toNat⟩

/-- AGC after its checks. -/
def agcEffect (len : Word32) (s : State) (ws : List Word64) : Effect :=
  let r := agcRun s.par s.agc (ws.map complexOf)
  { st := { s with agc := { s.agc with gain := r.1.g, ph := r.1.ph } }
    out := r.2.map fun o => wordOfC o.1
    aux := r.2.map fun o => wordOfR o.2
    counts := ⟨len, len, 0#32⟩ }

/-- AGC (R271). -/
def execAgc (dst src len : Word32) (auxw : Bool) (aux : Word32) (s : State) : Result :=
  runBlock s (agcBlocks dst src len auxw aux) none
    (withWords s ⟨src.toNat, len.toNat⟩ fun ws => .next (agcEffect len s ws))

end Sys2Proof.Machine
end

