-- ==== Sys2Proof/Machine/SpecExact.lean ====
section
/-! DEFINITION. The magnitude of a bin of `SPECMAG` compared exactly with a point half way between two
binary32 values (`00_scope.md` R21), for the sizes that CFC uses, the powers of two (`10_state.md` R84).

With `x = e^(-j*pi/h)` a bin of finite samples is an integer polynomial in `x` modulo `x^h + 1`, scaled
by `2^149`, and its squared magnitude is an integer combination of `1` and the `2 cos(i*pi/h)`, `i` below
`h/2`. The sign of such a combination is decided by splitting it into even and odd multiples of the angle
and squaring, which halves the number of terms. -/

namespace Sys2Proof.Machine

/-! ### Polynomials modulo `x^h + 1`, as lists of `h` coefficients -/

/-- Adds `v * x^e`, where `x^h = -1`. -/
def addPower (h e : Nat) (v : Int) (p : List Int) : List Int :=
  if e % (2 * h) < h then p.modify (e % (2 * h)) (· + v) else p.modify (e % (2 * h) - h) (· - v)

/-- Multiplies by `x`. -/
def mulX (p : List Int) : List Int := (-(p.getLastD 0)) :: p.dropLast

/-- The sum of two polynomials. -/
def polyAdd (p q : List Int) : List Int := List.zipWith (· + ·) p q

/-- The product of `p` and `q`, whose length gives `h`. -/
def polyMul : List Int → List Int → List Int
  | [], q => List.replicate q.length 0
  | a :: p, q => polyAdd (q.map (a * ·)) (mulX (polyMul p q))

/-- The conjugate: `x` becomes `x^(-1) = -x^(h-1)`. -/
def polyConj (q : List Int) : List Int := q.headD 0 :: q.tail.reverse.map (- ·)

/-! ### Real combinations

A list `[a0, a1, ..]` of `d` integers, `d` a power of two, stands for `a0` and the sum of the
`ai * 2 cos(i*t)`, where `t = pi/(2d)`. -/

/-- The polynomial of a combination in `x = e^(-j*t)`, with `h = 2d`. -/
def polyOfReal (r : List Int) : List Int := r ++ 0 :: r.tail.reverse.map (- ·)

/-- Twice the real part of a polynomial at `x = e^(-j*t)`, as a combination. -/
def twiceReal (q : List Int) : List Int := (polyAdd q (polyConj q)).take (q.length / 2)

/-- Twice the product of two combinations. -/
def realMul (r s : List Int) : List Int := twiceReal (polyMul (polyOfReal r) (polyOfReal s))

/-- The entries at even places. -/
def evens : List Int → List Int
  | [] => []
  | [a] => [a]
  | a :: _ :: r => a :: evens r

/-- The alternating sums `r_m - r_(m+1) + r_(m+2) - ..`. -/
def altSums : List Int → List Int
  | [] => []
  | a :: r => (a - (altSums r).headD 0) :: altSums r

/-- `(2 cos t)^2 = 2 + 2 cos(2t)`, as a combination with `d` terms at the angle `2t`. -/
def cosSquared (d : Nat) : List Int := (2 :: 1 :: List.replicate d (0 : Int)).take d

/-- The sign of a combination of `2^l` terms: with `a` of its even places and `b` the alternating sums
of its odd ones, both combinations at the angle `2t`, it is `a + 2 cos(t) * b`, whose sign, where those
of `a` and `b` differ, is that of `a` times that of `a^2 - (2 cos t)^2 * b^2`. -/
def realSign : Nat → List Int → Int
  | 0, r => (r.headD 0).sign
  | l + 1, r =>
      let a := evens r
      let b := altSums (evens r.tail)
      let sa := realSign l a
      let sb := realSign l b
      if sb = 0 ∨ sa = sb then sa
      else if sa = 0 then sb
      else sa * realSign l (List.zipWith (fun u v => 2 * u - v) (realMul a a)
        (realMul (cosSquared b.length) (realMul b b)))

/-! ### A bin -/

/-- A finite `f32` times `2^149`, an integer. -/
def scaledInt (x : F32) : Int :=
  match unpack x with
  | .fin s m e => signedShift s m (e + 149).toNat
  | _ => 0

/-- Adds the terms `s[n] * e^(-j*2*pi*k*n/N)` of a bin for the samples from index `n` on, with
`step = 2h/N`; the factor `j` of an imaginary part is `x^(3h/2)` (R21). -/
def binPoly (h step k : Nat) : Nat → List C32 → List Int → List Int
  | _, [], p => p
  | n, z :: zs, p =>
      binPoly h step k (n + 1) zs
        (addPower h (k * n * step + 3 * h / 2) (scaledInt z.im)
          (addPower h (k * n * step) (scaledInt z.re) p))

/-- Half the order of the root of unity used for a spectrum of `size` bins. -/
def halfOrder (size : Nat) : Nat := max size 4 / 2

/-- Twice the squared magnitude of a bin times `2^298`, as a combination of `h/2` terms. -/
def binPower (size k : Nat) (s : List C32) : List Int :=
  let h := halfOrder size
  let p := binPoly h (2 * h / size) k 0 s (List.replicate h 0)
  twiceReal (polyMul p (polyConj p))

/-- The sign of a bin's magnitude less the point half way between the binary32 values with the
encodings `c` and `c + 1`, both squared; after the greatest finite value the overflow threshold stands. -/
def midpointSign (size k : Nat) (s : List C32) (c : Nat) : Int :=
  match unpack (BitVec.ofNat 32 c) with
  | .fin _ m e =>
      let d := binPower size k s
      realSign (Nat.log2 d.length)
        ((2 * d.headD 0 - ((2 * m + 1) * (2 * m + 1) * 4 ^ (e + 149).toNat : Nat)) ::
          d.tail.map (2 * ·))
  | _ => 0

/-- Of the encodings `c` and `c + 1`, the one nearer the magnitude of a bin; of two equally near ones,
the even one (roundTiesToEven, R12). -/
def nearerOf (size k : Nat) (s : List C32) (c : Nat) : Nat :=
  let g := midpointSign size k s c
  if g < 0 then c else if 0 < g then c + 1 else c + c % 2

end Sys2Proof.Machine
end

