-- ==== Sys2Proof/Machine/SpecMag.lean ====
section
/-! DEFINITION. The magnitude spectrum `SPECMAG` of CFC (`00_scope.md` R21).

The default build returns, bin by bin, the binary32 value nearest the exact magnitude. An enclosure of
the magnitude by integers, as in Trans.lean, decides every bin but one that lies near the point half way
between two binary32 values; that one is compared with the point exactly (SpecExact.lean). The result is
free where a sample is not finite, so that no exact magnitude exists, and in every other build (log 7).
Around both stand the properties that R21 lists. -/

namespace Sys2Proof.Machine

open Sys2Proof.Config

/-- `cos` and `sin` of `2*pi*t/n` times `2^400`, and how many units they may be off. -/
structure Twiddle where
  c : Int
  s : Int
  err : Nat

/-- The twiddle of `2*pi*t/n`; exact at the multiples of a right angle. -/
def twiddle (n t : Nat) : Twiddle :=
  let quad := 4 * t / n
  let r := halfPiFixed * (4 * t % n) / n
  let exact : Bool := 4 * t % n == 0
  let cr : Int := if exact then 2 ^ trigBits else cosFixed r
  let sr : Int := if exact then 0 else sinFixed r
  let err := if exact then 0 else 132
  if quad % 4 = 0 then ⟨cr, sr, err⟩
  else if quad % 4 = 1 then ⟨-sr, cr, err⟩
  else if quad % 4 = 2 then ⟨-cr, -sr, err⟩
  else ⟨sr, -cr, err⟩

/-- A sum of the spectrum in fixed point: real part, imaginary part, error bound. -/
structure BinSum where
  re : Int
  im : Int
  err : Nat

/-- Adds `s[n] * e^(-j*2*pi*k*n/N)` for the samples from index `n` on (R21). -/
def binSum (size k : Nat) (tw : List Twiddle) : Nat → List C32 → BinSum → BinSum
  | _, [], acc => acc
  | n, z :: zs, acc =>
      let t := tw.getD (k * n % size) ⟨0, 0, 0⟩
      let a := scaledInt z.re
      let b := scaledInt z.im
      binSum size k tw (n + 1) zs
        ⟨acc.re + (a * t.c + b * t.s), acc.im + (b * t.c - a * t.s),
          acc.err + (a.natAbs + b.natAbs) * t.err⟩

/-- The least and the greatest encoding that the magnitude of an enclosed sum can round to. The error of
an enclosure is below `2^-240` (log 7), far below the distance of two binary32 values, so the two are
equal or neighbours. -/
def magBounds (v : BinSum) : Nat × Nat :=
  let lo := (v.re.natAbs - v.err) * (v.re.natAbs - v.err) +
    (v.im.natAbs - v.err) * (v.im.natAbs - v.err)
  let hi := (v.re.natAbs + v.err) * (v.re.natAbs + v.err) +
    (v.im.natAbs + v.err) * (v.im.natAbs + v.err)
  let h : Int := -(149 + trigBits)
  (sqrtMag lo h, sqrtMag hi h)

/-- The `f32` nearest the magnitude of a bin of finite samples, for a size that is a power of two. -/
def magNearest (size : Nat) (tw : List Twiddle) (s : List C32) (k : Nat) : F32 :=
  let b := magBounds (binSum size k tw 0 s ⟨0, 0, 0⟩)
  BitVec.ofNat 32 (if b.1 = b.2 then b.1 else nearerOf size k s b.1)

/-- `isfinite` of both parts. -/
def cfinite (z : C32) : Bool := isfinite z.re && isfinite z.im

/-- What R21 lets a model assume of an entry: it is `+0.0` or positive or NaN, and NaN only if some
sample is not finite. -/
def forceMagnitude (s : List C32) (x : F32) : F32 :=
  if isnan x then (if s.all cfinite then fzero else qNaN) else fabs x

/-- Entry `k` of `SPECMAG(N, s)`. The sizes of CFC are powers of two (`10_state.md` R84); another one,
which no run reaches, has free entries (log 17). -/
def specmagBin (b : NumBuild) (size : Nat) (tw : List Twiddle) (s : List C32) (k : Nat) : F32 :=
  forceMagnitude s (match b with
    | .nearest =>
        if s.all cfinite ∧ 2 ^ Nat.log2 size = size then magNearest size tw s k
        else specmagBuild 0 size s k
    | .other id => specmagBuild (id + 1) size s k)

/-- `SPECMAG(N, s)`: `N` magnitudes (R21). -/
def specmag (b : NumBuild) (size : Nat) (s : List C32) : List F32 :=
  let tw := (List.range size).map (twiddle size)
  (List.range size).map (specmagBin b size tw s)

end Sys2Proof.Machine
end

