-- ==== Sys2Proof/Machine/Cfc.lean ====
section
/-! DEFINITION. CFC, the coarse frequency estimator and phase rotator (`45_cfc.md` R351, R352). -/

namespace Sys2Proof.Machine

open Sys2Proof.Config

/-- `x^M` (R351). -/
def powerM (m : Modulation) (x : C32) : C32 :=
  match m with
  | .bpsk => cmul x x
  | .qpsk => cmul (cmul x x) (cmul x x)

/-- `CFC_BUF` after a block: each sample's `M`-th power enters at the front (R351). -/
def cfcFill (par : Params) (m : Modulation) (buf : List C32) (xs : List C32) : List C32 :=
  xs.foldl (fun b x => pushFront par.maxFft (powerM m x) b) buf

/-- The peak bin among the magnitudes from bin `k` on, against the best bin so far: only a strictly
greater magnitude replaces it (R351). -/
def peakFrom : Nat → Nat → F32 → List F32 → Nat
  | _, best, _, [] => best
  | k, best, bm, v :: vs => if fgt v bm then peakFrom (k + 1) k v vs else peakFrom (k + 1) best bm vs

/-- The peak bin `kp` (R351). -/
def peakBin : List F32 → Nat
  | [] => 0
  | v :: vs => peakFrom 1 0 v vs

/-- The signed bin `ks` (R351). -/
def signedBin (n kp : Nat) : Int := if 2 * kp < n then (kp : Int) else (kp : Int) - (n : Int)

/-- The frequency estimate of a signed bin (R351). -/
def freqOfBin (fs : F32) (n m : Nat) (ks : Int) : F32 :=
  fdiv (fdiv (fmul (i2f ks) fs) (i2f n)) (i2f m)

/-- The frequency estimate from a buffer (R351): the spectrum of its `N` newest entries, oldest
first. -/
def cfcEstimate (par : Params) (m : Modulation) (u : CfcUnit) (buf : List C32) : F32 :=
  let n := u.nfft.toNat
  freqOfBin u.fs n m.order (signedBin n (peakBin (specmag par.specmag n ((buf.take n).reverse))))

/-- The phase step `w` in radians per sample (R351). -/
def cfcStep (u : CfcUnit) (fest : F32) : F32 := fdiv (fmul twoPi fest) u.fs

/-- De-rotation of one sample (R351). -/
def cfcRotate (t : NumBuild) (w : F32) (phi : F32) (x : C32) : F32 × C32 :=
  (wrap (fadd phi w), rot t x phi)

/-- The ranges of CFC (`40_control.md` R261). -/
def cfcBlocks (dst src len : Word32) (auxw : Bool) (aux : Word32) : Blocks :=
  ⟨⟨src.toNat, len.toNat⟩, ⟨dst.toNat, len.toNat⟩, auxRange auxw aux 1⟩

/-- The capacity check of CFC (R352). -/
def cfcCapacity (s : State) (len : Word32) : Option CmdError :=
  if s.cfc.nfft.toNat < len.toNat then some ⟨6#8, 1#32⟩ else none

/-- CFC after its checks. -/
def cfcEffect (len : Word32) (s : State) (ws : List Word64) : Effect :=
  let xs := ws.map complexOf
  let buf := cfcFill s.par s.modcfg s.cfc.buf xs
  let fest := cfcEstimate s.par s.modcfg s.cfc buf
  let r := scanBlock (cfcRotate s.par.trans (cfcStep s.cfc fest)) s.cfc.phase xs
  { st := { s with cfc := { s.cfc with buf := buf, phase := r.1, fest := fest } }
    out := r.2.map wordOfC
    aux := [wordOfR fest]
    counts := ⟨len, len, fest⟩ }

/-- CFC (R351). -/
def execCfc (dst src len : Word32) (auxw : Bool) (aux : Word32) (s : State) : Result :=
  runBlock s (cfcBlocks dst src len auxw aux) (cfcCapacity s len)
    (withWords s ⟨src.toNat, len.toNat⟩ fun ws => .next (cfcEffect len s ws))

end Sys2Proof.Machine
end

