-- ==== Sys2Proof/Machine/Scrambler.lean ====
section
/-! DEFINITION. SCR and DSCR, the LFSR scrambler and descrambler over GF(2) (`43_scrambler.md` R309 to
R311, `10_state.md` R81). -/

namespace Sys2Proof.Machine

/-- `mask(n)` (`00_scope.md` R8), for up to 32 bits. -/
def maskBits (n : Nat) : Word32 := BitVec.ofNat 32 (2 ^ n - 1)

/-- `parity(v)` (`00_scope.md` R8). -/
def parity (v : Word32) : Bool := (List.range 32).foldl (fun b i => b ^^ v.getLsbD i) false

/-- `POLY_E` (R81). -/
def polyE (u : ScrUnit) : Word32 := u.poly &&& maskBits u.len.toNat

/-- `INIT_E` (R81). -/
def initE (u : ScrUnit) : Word32 := u.init &&& maskBits u.len.toNat

/-- `history.push_front`: the new bit enters at bit 0 and bit `N - 1` is dropped (R309). -/
def pushHist (m hist : Word32) (b : Bool) : Word32 :=
  ((hist <<< 1) ||| (if b then 1#32 else 0#32)) &&& m

/-- One bit of SCR, which pushes its output (R310). -/
def scrStep (m p hist : Word32) (x : Bool) : Word32 × Bool :=
  (pushHist m hist (x ^^ parity (hist &&& p)), x ^^ parity (hist &&& p))

/-- One bit of DSCR, which pushes its input (R311). -/
def dscrStep (m p hist : Word32) (x : Bool) : Word32 × Bool :=
  (pushHist m hist x, x ^^ parity (hist &&& p))

/-- The ranges of SCR and DSCR (`40_control.md` R261). -/
def scrBlocks (dst src len : Word32) : Blocks :=
  ⟨⟨src.toNat, len.toNat⟩, ⟨dst.toNat, len.toNat⟩, none⟩

/-- The history and outputs of SCR on a block of bits, from a unit's configuration (R310). -/
def scrRun (u : ScrUnit) (xs : List Bool) : Word32 × List Bool :=
  scanBlock (scrStep (maskBits u.len.toNat) (polyE u)) (u.state &&& maskBits u.len.toNat) xs

/-- The history and outputs of DSCR on a block of bits (R311). -/
def dscrRun (u : ScrUnit) (xs : List Bool) : Word32 × List Bool :=
  scanBlock (dscrStep (maskBits u.len.toNat) (polyE u)) (u.dstate &&& maskBits u.len.toNat) xs

/-- SCR after its checks, on its input bits. -/
def scrEffect (len : Word32) (s : State) (bs : List Bool) : Effect :=
  let r := scrRun s.scr bs
  { st := { s with scr := { s.scr with state := r.1 } }
    out := r.2.map wordOfB, aux := [], counts := ⟨len, len, 0#32⟩ }

/-- DSCR after its checks, on its input bits. -/
def dscrEffect (len : Word32) (s : State) (bs : List Bool) : Effect :=
  let r := dscrRun s.scr bs
  { st := { s with scr := { s.scr with dstate := r.1 } }
    out := r.2.map wordOfB, aux := [], counts := ⟨len, len, 0#32⟩ }

/-- SCR (R310). -/
def execScr (dst src len : Word32) (s : State) : Result :=
  runBlock s (scrBlocks dst src len) none
    (withBits s src.toNat len.toNat (scrEffect len s))

/-- DSCR (R311). -/
def execDscr (dst src len : Word32) (s : State) : Result :=
  runBlock s (scrBlocks dst src len) none
    (withBits s src.toNat len.toNat (dscrEffect len s))

end Sys2Proof.Machine
end

