-- ==== Sys2Proof/Machine/Control.lean ====
section
/-! DEFINITION. The control commands HALT, NOP and URST (`40_control.md` R253 to R255). -/

namespace Sys2Proof.Machine

/-- HALT (R253): counts, moves past itself, ends the run with kind 1 and sets DONE. -/
def execHalt (s : State) : Result := .next ((s.advance.endRun 1#2).setIrq irqDone)

/-- NOP (R255). -/
def execNop (s : State) : Result := .next (s.complete ⟨0#32, 0#32, 0#32⟩)

/-- `ResetUnit(AGC)` (R254). -/
def resetAgc (s : State) : State :=
  { s with agc := { s.agc with gain := fzero, ph := List.replicate s.par.maxAgcN fzero } }

/-- `ResetUnit(FIR)` (R254). -/
def resetFir (s : State) : State :=
  { s with fir := { s.fir with dl := List.replicate (s.par.maxFirTaps - 1) czero } }

/-- `ResetUnit(SCR)` (R254): the seed `INIT_E`. -/
def resetScr (s : State) : State := { s with scr := { s.scr with state := initE s.scr } }

/-- `ResetUnit(DSCR)` (R254): the same seed. -/
def resetDscr (s : State) : State := { s with scr := { s.scr with dstate := initE s.scr } }

/-- `ResetUnit(CFC)` (R254). -/
def resetCfc (s : State) : State :=
  { s with cfc := { s.cfc with
      buf := List.replicate s.par.maxFft czero, phase := fzero, fest := fzero } }

/-- `ResetUnit(PLL)` (R254). -/
def resetPll (s : State) : State := { s with pll := { s.pll with phase := fzero, freq := fzero } }

/-- `ResetUnit(SYM)` (R254). -/
def resetSym (s : State) : State :=
  { s with sym := { s.sym with
      mu := fzero, cnt := fzero, vi := fzero, strobe := false, h0 := czero, h1 := czero,
      h2 := czero, tb := List.replicate s.par.maxSps czero, prev := czero } }

/-- `ResetUnit(FSYNC)` (R254). -/
def resetFs (s : State) : State :=
  { s with fs := { s.fs with
      dl := List.replicate (s.par.maxPreLen - 1) czero, raw := [], mag := [], outcome := .search } }

/-- `ResetUnit` of the unit a selector names, or of every unit (R254). -/
def resetUnit (u : UnitSel) (s : State) : State :=
  match u with
  | .agc => resetAgc s
  | .fir => resetFir s
  | .scr => resetScr s
  | .dscr => resetDscr s
  | .cfc => resetCfc s
  | .pll => resetPll s
  | .sym => resetSym s
  | .fsync => resetFs s
  | .all =>
      resetFs (resetSym (resetPll (resetCfc (resetDscr (resetScr (resetFir (resetAgc s)))))))

/-- URST (R254). -/
def execUrst (u : UnitSel) (s : State) : Result :=
  .next ((resetUnit u s).complete ⟨0#32, 0#32, 0#32⟩)

end Sys2Proof.Machine
end

