-- ==== Sys2Proof/Machine/Fec.lean ====
section
/-! DEFINITION. HENC and HDEC, the Hamming(7,4) encoder and syndrome decoder (`44_fec.md` R330 to
R335). -/

namespace Sys2Proof.Machine

open Sys2Proof.Config

/-- `c[4 + j]`: the XOR over `i` of `d[i] AND P[i][j]` (R331). -/
def hammingParity (par : Params) (d0 d1 d2 d3 : Bool) (j : Nat) : Bool :=
  (d0 && par.hammingBit 0 j) ^^ (d1 && par.hammingBit 1 j) ^^ (d2 && par.hammingBit 2 j) ^^
    (d3 && par.hammingBit 3 j)

/-- The codeword of a data group (R331). -/
def hammingEncode (par : Params) (d0 d1 d2 d3 : Bool) : List Bool :=
  [d0, d1, d2, d3, hammingParity par d0 d1 d2 d3 0, hammingParity par d0 d1 d2 d3 1,
    hammingParity par d0 d1 d2 d3 2]

/-- `H[j][k]` (R332). -/
def checkBit (par : Params) (j k : Nat) : Bool :=
  if k < 4 then par.hammingBit k j else decide (k - 4 = j)

/-- `col(k)`, column `k` of `H` (R332). -/
def checkColumn (par : Params) (k : Nat) : List Bool :=
  (List.range 3).map fun j => checkBit par j k

/-- The syndrome of a received word, `s[j] = XOR over k of H[j][k] AND c[k]` (R332). -/
def syndrome (par : Params) (c : List Bool) : List Bool :=
  (List.range 3).map fun j =>
    (List.range 7).foldl (fun b k => b ^^ (checkBit par j k && c.getD k false)) false

/-- The corrected index of a received word: none for a zero syndrome, else the least column that
matches (R334). A legal `P` has one (log 17). -/
def errorIndex (par : Params) (c : List Bool) : Option Nat :=
  if syndrome par c = [false, false, false] then none
  else (List.range 7).find? fun k => checkColumn par k == syndrome par c

/-- Flips the bit at an index. -/
def flipAt (k : Nat) (c : List Bool) : List Bool := c.modify k (!·)

/-- The data bits and the corrected index of a received word (R334). -/
def hammingDecode (par : Params) (c : List Bool) : List Bool × Option Nat :=
  match errorIndex par c with
  | none => (c.take 4, none)
  | some k => ((if k < 4 then flipAt k c else c).take 4, some k)

/-- The index block's element: the index, or -1 (R334, R335). -/
def indexWord (idx : Option Nat) : Word32 :=
  match idx with
  | none => 0xFFFFFFFF#32
  | some k => BitVec.ofNat 32 k

/-- The codewords of the whole 4-bit groups of a block, in order (R333). -/
def encodeGroups (par : Params) : List Bool → List Bool
  | d0 :: d1 :: d2 :: d3 :: ds => hammingEncode par d0 d1 d2 d3 ++ encodeGroups par ds
  | _ => []

/-- The decoded whole 7-bit groups of a block, in order (R335). -/
def decodeGroups (par : Params) : List Bool → List (List Bool × Option Nat)
  | c0 :: c1 :: c2 :: c3 :: c4 :: c5 :: c6 :: cs =>
      hammingDecode par [c0, c1, c2, c3, c4, c5, c6] :: decodeGroups par cs
  | _ => []

/-- The ranges of HENC (`40_control.md` R261). -/
def hencBlocks (dst src len : Word32) : Blocks :=
  ⟨⟨src.toNat, len.toNat⟩, ⟨dst.toNat, 7 * (len.toNat / 4)⟩, none⟩

/-- HENC after its checks, on the bits of its whole groups. -/
def hencEffect (len : Word32) (s : State) (bs : List Bool) : Effect :=
  { st := s
    out := (encodeGroups s.par bs).map wordOfB
    aux := []
    counts := countsOf (4 * (len.toNat / 4)) (7 * (len.toNat / 4)) (len.toNat / 4) }

/-- HENC (R333): the words past the last whole group are not read (log 26). -/
def execHenc (dst src len : Word32) (s : State) : Result :=
  runBlock s (hencBlocks dst src len) none
    (withBits s src.toNat (4 * (len.toNat / 4)) (hencEffect len s))

/-- The ranges of HDEC (`40_control.md` R261). -/
def hdecBlocks (dst src len : Word32) (auxw : Bool) (aux : Word32) : Blocks :=
  ⟨⟨src.toNat, len.toNat⟩, ⟨dst.toNat, 4 * (len.toNat / 7)⟩, auxRange auxw aux (len.toNat / 7)⟩

/-- HDEC after its checks, on the bits of its whole groups. -/
def hdecEffect (len : Word32) (s : State) (bs : List Bool) : Effect :=
  let r := decodeGroups s.par bs
  { st := s
    out := (r.flatMap fun g => g.1).map wordOfB
    aux := r.map fun g => wordOfI (indexWord g.2)
    counts := countsOf (7 * (len.toNat / 7)) (4 * (len.toNat / 7))
      (r.countP fun g => g.2.isSome) }

/-- HDEC (R335): the words past the last whole group are not read (log 26). -/
def execHdec (dst src len : Word32) (auxw : Bool) (aux : Word32) (s : State) : Result :=
  runBlock s (hdecBlocks dst src len auxw aux) none
    (withBits s src.toNat (7 * (len.toNat / 7)) (hdecEffect len s))

end Sys2Proof.Machine
end

