-- ==== Sys2Proof/Machine/Fir.lean ====
section
/-! DEFINITION. FIRDEC, the FIR matched-filter decimator (`42_fir.md` R291), and the streaming filter
it shares with the correlator of FSYNC (`10_state.md` R108, R112). -/

namespace Sys2Proof.Machine

/-- `acc` plus the sum of `taps[k] * w[k]`, accumulated from `k = 0` upward (R291). A sample past the
end of `w` is zero; in no state that a run reaches is there one (log 17). -/
def tapSum : C32 → List C32 → List C32 → C32
  | acc, [], _ => acc
  | acc, c :: cs, ws => tapSum (cadd acc (cmul c (ws.headD czero))) cs ws.tail

/-- One sample of a streaming filter with a delay line of `n` entries: `w(i, 0)` is the sample and
`w(i, k)` is entry `k - 1` of the delay line (R291). -/
def filterSample (n : Nat) (taps : List C32) (dl : List C32) (x : C32) : List C32 × C32 :=
  (pushFront n x dl, tapSum czero taps (x :: dl))

/-- The delay line and the outputs `y[0], y[1], ..` of a streaming filter on a block. -/
def filterRun (n : Nat) (taps dl xs : List C32) : List C32 × List C32 :=
  scanBlock (filterSample n taps) dl xs

/-- "keeps `y[0], y[F], y[2F], ..`": `nout` outputs (R291). -/
def decimate (factor nout : Nat) (ys : List C32) : List C32 :=
  (List.range nout).map fun j => ys.getD (j * factor) czero

/-- The number of outputs, `floor(L / F)` (R291, R292). -/
def firOutputs (u : FirUnit) (len : Word32) : Nat := len.toNat / u.factor.toNat

/-- The ranges of FIRDEC (`40_control.md` R261). -/
def firBlocks (u : FirUnit) (dst src len : Word32) : Blocks :=
  ⟨⟨src.toNat, len.toNat⟩, ⟨dst.toNat, firOutputs u len⟩, none⟩

/-- The taps `COEF[0 .. NT-1]`; none are read when no output is computed (log 5). -/
def firTaps (s : State) (len : Word32) : Option (List Word64) :=
  if firOutputs s.fir len = 0 then some [] else s.mem.readCoef 0 s.fir.ntaps.toNat

/-- FIRDEC after its checks, with its taps read. -/
def firEffect (len : Word32) (s : State) (taps : List C32) (ws : List Word64) : Effect :=
  let r := filterRun (s.par.maxFirTaps - 1) taps s.fir.dl (ws.map complexOf)
  { st := { s with fir := { s.fir with dl := r.1 } }
    out := (decimate s.fir.factor.toNat (firOutputs s.fir len) r.2).map wordOfC
    aux := []
    counts := ⟨len, BitVec.ofNat 32 (firOutputs s.fir len), 0#32⟩ }

/-- FIRDEC (R291). -/
def execFirdec (dst src len : Word32) (s : State) : Result :=
  runBlock s (firBlocks s.fir dst src len) none
    (withWords s ⟨src.toNat, len.toNat⟩ fun ws =>
      match firTaps s len with
      | none => .fault .unwrittenCoef
      | some taps => .next (firEffect len s (taps.map complexOf) ws))

end Sys2Proof.Machine
end

