-- ==== Sys2Proof/Machine/FrameSync.lean ====
section
/-! DEFINITION. FSYNC, the correlation frame detector (`48_framesync.md` R420 to R424). -/

namespace Sys2Proof.Machine

open Sys2Proof.Config

/-- The correlator's taps `cconj(PRE[P-1-k])`, from the preamble in order (R421). -/
def corrTaps (pre : List C32) : List C32 := (pre.map cconj).reverse

/-- The candidates: the indices whose magnitude reaches the threshold, ascending, each with its
magnitude (R421). -/
def candidates (t : F32) (mag : List F32) : List (F32 × Nat) :=
  mag.zipIdx.filter fun c => fge c.1 t

/-- The best candidate within half a frame of the first, `i0` (R421): only a strictly greater
magnitude replaces it. -/
def bestCandidate (fsize i0 : Nat) (first : F32 × Nat) (cs : List (F32 × Nat)) : F32 × Nat :=
  cs.foldl (fun b c => if 2 * (c.2 - i0) < fsize ∧ fgt c.1 b.1 then c else b) first

/-- What the search decides: the outcome, how many entries to drop from the front of both buffers, and
the frame (R421). -/
structure Decision where
  outcome : FsOutcome
  drop : Nat
  frame : List C32
deriving DecidableEq, Repr

/-- The decision for a best index (R421). -/
def decideAt (plen fsize best : Nat) (raw : List C32) : Decision :=
  if best + 1 < plen then ⟨.premature, best + 1, []⟩
  else if raw.length < best + 1 - plen + fsize then ⟨.incomplete, best + 1 - plen, []⟩
  else ⟨.emit, best + 1 - plen + fsize, (raw.drop (best + 1 - plen)).take fsize⟩

/-- The search of the buffers (R421). -/
def searchFrame (plen fsize : Nat) (t : F32) (raw : List C32) (mag : List F32) : Decision :=
  match candidates t mag with
  | [] => ⟨.search, raw.length - min raw.length (plen - 1), []⟩
  | c :: cs => decideAt plen fsize (bestCandidate fsize c.2 c (c :: cs)).2 raw

/-- The ranges of FSYNC (`40_control.md` R261). -/
def fsBlocks (u : FsUnit) (dst src len : Word32) (auxw : Bool) (aux : Word32) : Blocks :=
  ⟨⟨src.toNat, len.toNat⟩, ⟨dst.toNat, u.fsize.toNat⟩, auxRange auxw aux 1⟩

/-- The capacity check of FSYNC (R424). -/
def fsCapacity (s : State) (len : Word32) : Option CmdError :=
  if s.par.fsyncCap < s.fs.raw.length + len.toNat then some ⟨6#8, 2#32⟩ else none

/-- The preamble `PRE[0 .. P-1]`; it is not read for an empty block (log 5). -/
def fsPreamble (s : State) (len : Word32) : Option (List Word64) :=
  if len = 0#32 then some [] else s.mem.readPre 0 s.fs.plen.toNat

/-- FSYNC after its checks, with its preamble read. -/
def fsEffect (len : Word32) (s : State) (pre : List C32) (ws : List Word64) : Effect :=
  let xs := ws.map complexOf
  let r := filterRun (s.par.maxPreLen - 1) (corrTaps pre) s.fs.dl xs
  let raw := s.fs.raw ++ xs
  let mag := s.fs.mag ++ r.2.map cabs
  let d := searchFrame s.fs.plen.toNat s.fs.fsize.toNat s.fs.thresh raw mag
  { st := { s with fs := { s.fs with
      dl := r.1, raw := raw.drop d.drop, mag := mag.drop d.drop, outcome := d.outcome } }
    out := d.frame.map wordOfC
    aux := [wordOfI (outcomeCode d.outcome)]
    counts := ⟨len, if d.outcome = .emit then s.fs.fsize else 0#32, outcomeCode d.outcome⟩ }

/-- FSYNC (R421). -/
def execFsync (dst src len : Word32) (auxw : Bool) (aux : Word32) (s : State) : Result :=
  runBlock s (fsBlocks s.fs dst src len auxw aux) (fsCapacity s len)
    (withWords s ⟨src.toNat, len.toNat⟩ fun ws =>
      match fsPreamble s len with
      | none => .fault .unwrittenPre
      | some pre => .next (fsEffect len s (pre.map complexOf) ws))

end Sys2Proof.Machine
end

