-- ==== Sys2Proof/Machine/Pll.lean ====
section
/-! DEFINITION. PLL, the Costas/PSK carrier-recovery loop (`46_pll.md` R371). -/

namespace Sys2Proof.Machine

open Sys2Proof.Config

/-- `CLAMP` (R371). -/
def clamp (v lo hi : F32) : F32 := if flt v lo then lo else if fgt v hi then hi else v

/-- The phase-error detector (R371). With BPSK and `y.re` a zero it is the pseudocode's product
`+0.0 * y.im`, where the corner case of R371 says `+0`: -0 for a negative `y.im` and NaN for one that is
not finite (log 29). -/
def pllError (m : Modulation) (y : C32) : F32 :=
  match m with
  | .bpsk => fmul (sgn y.re) y.im
  | .qpsk => fsub (fmul (sgn y.re) y.im) (fmul (sgn y.im) y.re)

/-- The carried state of the loop. -/
structure PllLoop where
  phi : F32
  f : F32
deriving DecidableEq, Repr

/-- One sample (R371): the output is de-rotated by the phase before the update; the phase update uses
the frequency before the clamp. With an infinite error the two are what this pseudocode gives (an infinite
phase and a clamped frequency, where the gains are positive), where the corner case of R371 says NaN
(log 30). -/
def pllSample (t : NumBuild) (m : Modulation) (u : PllUnit) (st : PllLoop) (x : C32) :
    PllLoop × C32 :=
  let y := rot t x st.phi
  let e := pllError m y
  let f := fadd st.f (fmul u.beta e)
  (⟨wrap (fadd st.phi (fadd f (fmul u.alpha e))), clamp f u.minf u.maxf⟩, y)

/-- The loop over a block. -/
def pllRun (t : NumBuild) (m : Modulation) (u : PllUnit) (xs : List C32) : PllLoop × List C32 :=
  scanBlock (pllSample t m u) ⟨u.phase, u.freq⟩ xs

/-- The ranges of PLL (`40_control.md` R261). -/
def pllBlocks (dst src len : Word32) : Blocks :=
  ⟨⟨src.toNat, len.toNat⟩, ⟨dst.toNat, len.toNat⟩, none⟩

/-- PLL after its checks. -/
def pllEffect (len : Word32) (s : State) (ws : List Word64) : Effect :=
  let r := pllRun s.par.trans s.modcfg s.pll (ws.map complexOf)
  { st := { s with pll := { s.pll with phase := r.1.phi, freq := r.1.f } }
    out := r.2.map wordOfC
    aux := []
    counts := ⟨len, len, 0#32⟩ }

/-- PLL (R371). -/
def execPll (dst src len : Word32) (s : State) : Result :=
  runBlock s (pllBlocks dst src len) none
    (withWords s ⟨src.toNat, len.toNat⟩ fun ws => .next (pllEffect len s ws))

end Sys2Proof.Machine
end

