-- ==== Sys2Proof/Machine/SymSync.lean ====
section
/-! DEFINITION. SYMSYNC, the symbol-timing interpolator and Gardner zero-crossing detector
(`47_symsync.md` R391 to R395). -/

namespace Sys2Proof.Machine

open Sys2Proof.Config

/-- `MOD1` (R391). -/
def mod1 (v : F32) : F32 := fsub v (ffloor v)

/-- The parabolic Farrow interpolant between `h1` (`mu = 0`) and `h0` (`mu = 1`), in Horner form
(R391, R392). -/
def farrow (mu : F32) (h0 h1 h2 : C32) : C32 :=
  let c1 := cscale fhalf (csub h0 h2)
  let c2 := csub (cscale fhalf (cadd h0 h2)) h1
  cadd (cscale mu (cadd (cscale mu c2) c1)) h1

/-- The timing error at a strobe (R391): `mid` is the midpoint interpolant, `z` the current strobed
sample, `prev` the one before. -/
def timingError (m : Modulation) (mid z prev : C32) : F32 :=
  let e := fmul mid.re (fsub (sgn z.re) (sgn prev.re))
  match m with
  | .bpsk => e
  | .qpsk => fadd e (fmul mid.im (fsub (sgn z.im) (sgn prev.im)))

/-- The counter and strobe part of a sample (R391, R394): the NCO step is `W = 1/S + v`. At `W = -inf`
the corner cases of R391 disagree; the pseudocode, which the model follows, gives no strobe, `mu` as it
was and a NaN `cnt` (log 31). -/
def ncoStep (u : SymUnit) (w : F32) : SymUnit :=
  { u with
    strobe := flt u.cnt w
    mu := if flt u.cnt w then fdiv u.cnt w else u.mu
    cnt := mod1 (fsub u.cnt w) }

/-- One sample (R391): the unit after it, and the symbol if the sample strobes. -/
def symSample (par : Params) (m : Modulation) (u : SymUnit) (x : C32) : SymUnit × Option C32 :=
  let z := farrow u.mu x u.h0 u.h1
  let tb := pushFront par.maxSps z u.tb
  let e := if u.strobe then timingError m (tb.getD (u.sps.toNat / 2) czero) z u.prev else fzero
  let vi := fadd u.vi (fmul u.beta e)
  let v := fadd vi (fmul u.alpha e)
  let w := fadd (fdiv fone (i2f u.sps.toNat)) v
  (ncoStep { u with h0 := x, h1 := u.h0, h2 := u.h1, tb := tb, vi := vi,
                    prev := if u.strobe then z else u.prev } w,
    if u.strobe then some z else none)

/-- What a SYMSYNC block leaves: the unit, the symbols in order, and how many samples were used. -/
structure SymResult where
  unit : SymUnit
  syms : List C32
  used : Nat
deriving DecidableEq, Repr

/-- The samples of a block until the cap: with `cap = some (k + 1)`, `k + 1` more symbols may be
emitted, and the sample that emits the last one is the last one used (R391). -/
def symRun (par : Params) (m : Modulation) : Option Nat → SymUnit → List C32 → SymResult
  | _, u, [] => ⟨u, [], 0⟩
  | cap, u, x :: xs =>
      match symSample par m u x with
      | (u', none) =>
          let r := symRun par m cap u' xs
          ⟨r.unit, r.syms, r.used + 1⟩
      | (u', some z) =>
          if cap = some 1 then ⟨u', [z], 1⟩
          else
            let r := symRun par m (cap.map (· - 1)) u' xs
            ⟨r.unit, z :: r.syms, r.used + 1⟩

/-- The cap `C`: 0 is no cap (R391). -/
def symCap (maxout : Word32) : Option Nat := if maxout = 0#32 then none else some maxout.toNat

/-- The length of the output range: `min(L, C)` when `C > 0`, else `L` (`40_control.md` R261). -/
def symOutLen (len maxout : Word32) : Nat :=
  if maxout = 0#32 then len.toNat else min len.toNat maxout.toNat

/-- The ranges of SYMSYNC (`40_control.md` R261). -/
def symBlocks (dst src len maxout : Word32) : Blocks :=
  ⟨⟨src.toNat, len.toNat⟩, ⟨dst.toNat, symOutLen len maxout⟩, none⟩

/-- SYMSYNC after its checks, on the words of its input block. -/
def symEffect (maxout : Word32) (s : State) (ws : List Word64) : Effect :=
  let r := symRun s.par s.modcfg (symCap maxout) s.sym (ws.map complexOf)
  { st := { s with sym := r.unit }
    out := r.syms.map wordOfC
    aux := []
    counts := countsOf r.used r.syms.length 0 }

/-- What SYMSYNC computes from the words of its input block that can be read, up to the first unwritten
one: that one is needed unless the cap ends the block before it (R391; log 26). -/
def symCompute (src len maxout : Word32) (s : State) : Computed :=
  let ws := s.mem.readPrefix src.toNat len.toNat
  let e := symEffect maxout s ws
  if ws.length < len.toNat ∧ symCap maxout ≠ some e.out.length then .fault .unwrittenDmem
  else .next e

/-- SYMSYNC (R391). -/
def execSymsync (dst src len maxout : Word32) (s : State) : Result :=
  runBlock s (symBlocks dst src len maxout) none (symCompute src len maxout s)

end Sys2Proof.Machine
end

