-- ==== Sys2Proof/Machine/Dispatch.lean ====
section
/-! DEFINITION. The meaning of every command, one arm per constructor of Instr. -/

namespace Sys2Proof.Machine

def exec (i : Instr) (s : State) : Host.Outcome State Fault Refusal :=
  match i with
  | .halt => Sys2Proof.Machine.execHalt s
  | .nop => Sys2Proof.Machine.execNop s
  | .urst u => Sys2Proof.Machine.execUrst u s
  | .agc dst src len auxw aux => Sys2Proof.Machine.execAgc dst src len auxw aux s
  | .firdec dst src len => Sys2Proof.Machine.execFirdec dst src len s
  | .scr dst src len => Sys2Proof.Machine.execScr dst src len s
  | .dscr dst src len => Sys2Proof.Machine.execDscr dst src len s
  | .henc dst src len => Sys2Proof.Machine.execHenc dst src len s
  | .hdec dst src len auxw aux => Sys2Proof.Machine.execHdec dst src len auxw aux s
  | .cfc dst src len auxw aux => Sys2Proof.Machine.execCfc dst src len auxw aux s
  | .pll dst src len => Sys2Proof.Machine.execPll dst src len s
  | .symsync dst src len maxout => Sys2Proof.Machine.execSymsync dst src len maxout s
  | .fsync dst src len auxw aux => Sys2Proof.Machine.execFsync dst src len auxw aux s

end Sys2Proof.Machine
end

