-- ==== Sys2Proof/Machine/Fetch.lean ====
section
/-! DEFINITION. The fetch of a descriptor (`40_control.md` R252) and the operand ranges of a decoded
command with its checks (R257, R261). -/

namespace Sys2Proof.Machine

/-- The address check before the fetch (R252): code 1, misaligned before out of range. -/
def fetchError (s : State) : Option CmdError :=
  if s.ptr % 4 ≠ 0 then some ⟨1#8, 0#32⟩
  else if s.par.dmemWords < s.ptr + 4 then some ⟨1#8, 1#32⟩
  else none

/-- The decoded descriptor at `CMD_PTR`, if its three decoded words have been written; `W3` is not
needed (log 4). -/
def State.fetch (s : State) : Option Decoded :=
  match s.mem.readBlock s.ptr 3 with
  | some [w0, w1, w2] => some (decodeWords w0 w1 w2)
  | _ => none

/-- The operand ranges of a command (R261); the control commands have none. -/
def instrBlocks (s : State) : Instr → Option Blocks
  | .halt => none
  | .nop => none
  | .urst _ => none
  | .agc dst src len auxw aux => some (agcBlocks dst src len auxw aux)
  | .firdec dst src len => some (firBlocks s.fir dst src len)
  | .scr dst src len => some (scrBlocks dst src len)
  | .dscr dst src len => some (scrBlocks dst src len)
  | .henc dst src len => some (hencBlocks dst src len)
  | .hdec dst src len auxw aux => some (hdecBlocks dst src len auxw aux)
  | .cfc dst src len auxw aux => some (cfcBlocks dst src len auxw aux)
  | .pll dst src len => some (pllBlocks dst src len)
  | .symsync dst src len maxout => some (symBlocks dst src len maxout)
  | .fsync dst src len auxw aux => some (fsBlocks s.fs dst src len auxw aux)

/-- The capacity check of a command (R257): only CFC and FSYNC have one (`45_cfc.md` R352,
`48_framesync.md` R424). -/
def capacityError (s : State) : Instr → Option CmdError
  | .cfc _ _ len _ _ => cfcCapacity s len
  | .fsync _ _ len _ _ => fsCapacity s len
  | .halt => none
  | .nop => none
  | .urst _ => none
  | .agc _ _ _ _ _ => none
  | .firdec _ _ _ => none
  | .scr _ _ _ => none
  | .dscr _ _ _ => none
  | .henc _ _ _ => none
  | .hdec _ _ _ _ _ => none
  | .pll _ _ _ => none
  | .symsync _ _ _ _ => none

/-- The first failing check of a block command (R257): its operands, then its capacity. -/
def checkError (s : State) (i : Instr) (b : Blocks) : Option CmdError :=
  match operandError s.par s.ptr b with
  | some e => some e
  | none => capacityError s i

end Sys2Proof.Machine
end

