-- ==== Sys2Proof/Machine/Regs.lean ====
section
/-! DEFINITION. The control registers as the host sees them: offsets, access classes, reads, validated
writes with their derived updates (`10_state.md` R50 to R106). -/

namespace Sys2Proof.Machine

open Sys2Proof.Config

/-- The named control registers (`10_state.md`). -/
inductive Reg where
  | id | version | param0 | param1 | param2 | param3 | param4 | hparam | ctrl | status | cmdPtr
  | cmdCount | errCode | errPtr | errInfo | resConsumed | resProduced | resAux | irqStatus
  | irqEnable | cfgrejAddr | modcfg | agcRef | agcMaxGain | agcK | agcN | agcGain | agcGmax
  | agcLnRef | firFactor | firNtaps | scrLen | scrPoly | scrInit | scrState | dscrState | cfcFs
  | cfcFres | cfcNfft | cfcPhase | cfcFest | pllBw | pllDamp | pllAlpha | pllBeta | pllMinf
  | pllMaxf | pllPhase | pllFreq | symSps | symBw | symDamp | symKd | symAlpha | symBeta | symMu
  | symCnt | symVi | symStrobe | fsPlen | fsFsize | fsThresh | fsBuflen | fsState
deriving DecidableEq, Repr

/-- The byte offset of a register in the control space. -/
def regOffset : Reg → Nat
  | .id => 0x000
  | .version => 0x004
  | .param0 => 0x008
  | .param1 => 0x00C
  | .param2 => 0x010
  | .param3 => 0x014
  | .param4 => 0x018
  | .hparam => 0x01C
  | .ctrl => 0x020
  | .status => 0x024
  | .cmdPtr => 0x028
  | .cmdCount => 0x02C
  | .errCode => 0x030
  | .errPtr => 0x034
  | .errInfo => 0x038
  | .resConsumed => 0x03C
  | .resProduced => 0x040
  | .resAux => 0x044
  | .irqStatus => 0x048
  | .irqEnable => 0x04C
  | .cfgrejAddr => 0x050
  | .modcfg => 0x054
  | .agcRef => 0x100
  | .agcMaxGain => 0x104
  | .agcK => 0x108
  | .agcN => 0x10C
  | .agcGain => 0x110
  | .agcGmax => 0x114
  | .agcLnRef => 0x118
  | .firFactor => 0x200
  | .firNtaps => 0x204
  | .scrLen => 0x300
  | .scrPoly => 0x304
  | .scrInit => 0x308
  | .scrState => 0x30C
  | .dscrState => 0x310
  | .cfcFs => 0x400
  | .cfcFres => 0x404
  | .cfcNfft => 0x408
  | .cfcPhase => 0x40C
  | .cfcFest => 0x410
  | .pllBw => 0x500
  | .pllDamp => 0x504
  | .pllAlpha => 0x508
  | .pllBeta => 0x50C
  | .pllMinf => 0x510
  | .pllMaxf => 0x514
  | .pllPhase => 0x518
  | .pllFreq => 0x51C
  | .symSps => 0x600
  | .symBw => 0x604
  | .symDamp => 0x608
  | .symKd => 0x60C
  | .symAlpha => 0x610
  | .symBeta => 0x614
  | .symMu => 0x618
  | .symCnt => 0x61C
  | .symVi => 0x620
  | .symStrobe => 0x624
  | .fsPlen => 0x700
  | .fsFsize => 0x704
  | .fsThresh => 0x708
  | .fsBuflen => 0x70C
  | .fsState => 0x710

/-- Every register. -/
def allRegs : List Reg :=
  [.id, .version, .param0, .param1, .param2, .param3, .param4, .hparam, .ctrl, .status, .cmdPtr,
   .cmdCount, .errCode, .errPtr, .errInfo, .resConsumed, .resProduced, .resAux, .irqStatus,
   .irqEnable, .cfgrejAddr, .modcfg, .agcRef, .agcMaxGain, .agcK, .agcN, .agcGain, .agcGmax,
   .agcLnRef, .firFactor, .firNtaps, .scrLen, .scrPoly, .scrInit, .scrState, .dscrState, .cfcFs,
   .cfcFres, .cfcNfft, .cfcPhase, .cfcFest, .pllBw, .pllDamp, .pllAlpha, .pllBeta, .pllMinf,
   .pllMaxf, .pllPhase, .pllFreq, .symSps, .symBw, .symDamp, .symKd, .symAlpha, .symBeta,
   .symMu, .symCnt, .symVi, .symStrobe, .fsPlen, .fsFsize, .fsThresh, .fsBuflen, .fsState]

/-- The register at an offset; an offset that no rule names is RAZ/WI (R50). -/
def regAt (a : Nat) : Option Reg := allRegs.find? fun r => regOffset r == a

/-- The access classes of R50. -/
inductive Access where
  | ro | wo | rw | rwv | w1c
deriving DecidableEq, Repr

/-- The access class of a register. -/
def regAccess : Reg → Access
  | .id => .ro
  | .version => .ro
  | .param0 => .ro
  | .param1 => .ro
  | .param2 => .ro
  | .param3 => .ro
  | .param4 => .ro
  | .hparam => .ro
  | .ctrl => .wo
  | .status => .ro
  | .cmdPtr => .rw
  | .cmdCount => .ro
  | .errCode => .ro
  | .errPtr => .ro
  | .errInfo => .ro
  | .resConsumed => .ro
  | .resProduced => .ro
  | .resAux => .ro
  | .irqStatus => .w1c
  | .irqEnable => .rw
  | .cfgrejAddr => .ro
  | .modcfg => .rwv
  | .agcRef => .rwv
  | .agcMaxGain => .rwv
  | .agcK => .rwv
  | .agcN => .rwv
  | .agcGain => .rwv
  | .agcGmax => .ro
  | .agcLnRef => .ro
  | .firFactor => .rwv
  | .firNtaps => .rwv
  | .scrLen => .rwv
  | .scrPoly => .rw
  | .scrInit => .rw
  | .scrState => .rw
  | .dscrState => .rw
  | .cfcFs => .rwv
  | .cfcFres => .rwv
  | .cfcNfft => .ro
  | .cfcPhase => .rwv
  | .cfcFest => .ro
  | .pllBw => .rwv
  | .pllDamp => .rwv
  | .pllAlpha => .rwv
  | .pllBeta => .rwv
  | .pllMinf => .rwv
  | .pllMaxf => .rwv
  | .pllPhase => .rwv
  | .pllFreq => .rwv
  | .symSps => .rwv
  | .symBw => .rwv
  | .symDamp => .rwv
  | .symKd => .rwv
  | .symAlpha => .rwv
  | .symBeta => .rwv
  | .symMu => .rwv
  | .symCnt => .rwv
  | .symVi => .rwv
  | .symStrobe => .rw
  | .fsPlen => .rwv
  | .fsFsize => .rwv
  | .fsThresh => .rwv
  | .fsBuflen => .ro
  | .fsState => .ro

/-- The live registers, which the host may use during a run (`20_memory.md` R170). -/
def regLive : Reg → Bool
  | .id | .version | .param0 | .param1 | .param2 | .param3 | .param4 | .hparam => true
  | .ctrl | .status | .irqStatus | .irqEnable => true
  | _ => false

/-! ### Reads -/

/-- `PARAM1` (R53). -/
def param1Word (p : Params) : Word32 := BitVec.ofNat 16 p.maxPreLen ++ BitVec.ofNat 16 p.maxFirTaps

/-- `PARAM2` (R53). -/
def param2Word (p : Params) : Word32 :=
  BitVec.ofNat 16 p.maxDecFactor ++ BitVec.ofNat 8 p.maxSps ++ BitVec.ofNat 8 p.maxFftLog2

/-- `PARAM3` (R53). -/
def param3Word (p : Params) : Word32 := 0#16 ++ BitVec.ofNat 16 p.maxAgcN

/-- `FS_BUFLEN` (R105). -/
def fsBuflen (u : FsUnit) : Word32 := BitVec.ofNat 32 u.raw.length

/-- `MODCFG` (R65). -/
def modWord : Modulation → Word32
  | .bpsk => 0#32
  | .qpsk => 1#32

/-- What a host read of a register returns (R50); no read has a side effect (`20_memory.md` R175). -/
def regRead (s : State) : Reg → Word32
  | .id => 0x53445231#32
  | .version => 0x00010000#32
  | .param0 => BitVec.ofNat 32 s.par.dmemWords
  | .param1 => param1Word s.par
  | .param2 => param2Word s.par
  | .param3 => param3Word s.par
  | .param4 => BitVec.ofNat 32 s.par.fsyncCap
  | .hparam => s.par.hammingP.setWidth 32
  | .ctrl => 0#32
  | .status => statusWord s.seq
  | .cmdPtr => s.seq.cmdPtr
  | .cmdCount => s.seq.cmdCount
  | .errCode => s.seq.errCode.setWidth 32
  | .errPtr => s.seq.errPtr
  | .errInfo => s.seq.errInfo
  | .resConsumed => s.seq.resConsumed
  | .resProduced => s.seq.resProduced
  | .resAux => s.seq.resAux
  | .irqStatus => s.seq.irqStatus.setWidth 32
  | .irqEnable => s.seq.irqEnable.setWidth 32
  | .cfgrejAddr => s.seq.cfgrejAddr.setWidth 32
  | .modcfg => modWord s.modcfg
  | .agcRef => s.agc.ref
  | .agcMaxGain => s.agc.maxGain
  | .agcK => s.agc.k
  | .agcN => s.agc.n
  | .agcGain => s.agc.gain
  | .agcGmax => s.agc.gmax
  | .agcLnRef => s.agc.lnRef
  | .firFactor => s.fir.factor
  | .firNtaps => s.fir.ntaps
  | .scrLen => s.scr.len
  | .scrPoly => s.scr.poly
  | .scrInit => s.scr.init
  | .scrState => s.scr.state
  | .dscrState => s.scr.dstate
  | .cfcFs => s.cfc.fs
  | .cfcFres => s.cfc.fres
  | .cfcNfft => s.cfc.nfft
  | .cfcPhase => s.cfc.phase
  | .cfcFest => s.cfc.fest
  | .pllBw => s.pll.bw
  | .pllDamp => s.pll.damp
  | .pllAlpha => s.pll.alpha
  | .pllBeta => s.pll.beta
  | .pllMinf => s.pll.minf
  | .pllMaxf => s.pll.maxf
  | .pllPhase => s.pll.phase
  | .pllFreq => s.pll.freq
  | .symSps => s.sym.sps
  | .symBw => s.sym.bw
  | .symDamp => s.sym.damp
  | .symKd => s.sym.kd
  | .symAlpha => s.sym.alpha
  | .symBeta => s.sym.beta
  | .symMu => s.sym.mu
  | .symCnt => s.sym.cnt
  | .symVi => s.sym.vi
  | .symStrobe => if s.sym.strobe then 1#32 else 0#32
  | .fsPlen => s.fs.plen
  | .fsFsize => s.fs.fsize
  | .fsThresh => s.fs.thresh
  | .fsBuflen => fsBuflen s.fs
  | .fsState => outcomeCode s.fs.outcome

/-! ### Validated writes -/

/-- Accepts a write under its validation condition; none is a rejection (R50, R63). -/
def acceptIf (c : Bool) (t : State) : Option State := if c then some t else none

/-- An integer range check on the written 32 bits, unsigned (R64). -/
def inRange (lo hi : Nat) (v : Word32) : Bool := decide (lo ≤ v.toNat ∧ v.toNat ≤ hi)

/-- Finite and `>= 0`. -/
def nonNeg (v : F32) : Bool := isfinite v && fge v fzero

/-- Finite and `> 0`. -/
def positive (v : F32) : Bool := isfinite v && fgt v fzero

/-- Finite and in `[0, 1]`: the range of a loop gain, of `SYM_MU` and of `SYM_CNT` (R89, R97 to
R99). -/
def zeroToOne (v : F32) : Bool := isfinite v && fle fzero v && fle v fone

/-- `NFFT(fs, fres)` (R84): the least power of two at or above the rounded ratio, up to `MAX_FFT`. -/
def nfftOf (maxLog2 : Nat) (fs fres : F32) : Option Nat :=
  if isfinite (fdiv fs fres) then
    ((List.range (maxLog2 + 1)).find? fun k => fle (fdiv fs fres) (i2f ((2 ^ k : Nat) : Int))).map
      (2 ^ ·)
  else none

/-- A write that leaves `PLL_BW` and `PLL_DAMP` at these values (R87, R88), `ok` being the condition on
the written value alone: both gains must be in range, and are derived. -/
def writePllGains (s : State) (ok : Bool) (bw damp : F32) : Option State :=
  acceptIf (ok && zeroToOne (gainsAlpha bw damp fone) &&
      zeroToOne (gainsBeta bw damp fone))
    { s with pll := { s.pll with bw := bw, damp := damp, alpha := gainsAlpha bw damp fone,
                                 beta := gainsBeta bw damp fone } }

/-- A write that leaves `SYM_BW`, `SYM_DAMP` and `SYM_KD` at these values (R96). -/
def writeSymGains (s : State) (ok : Bool) (bw damp kd : F32) : Option State :=
  acceptIf (ok && zeroToOne (gainsAlpha bw damp kd) &&
      zeroToOne (gainsBeta bw damp kd))
    { s with sym := { s.sym with bw := bw, damp := damp, kd := kd, alpha := gainsAlpha bw damp kd,
                                 beta := gainsBeta bw damp kd } }

/-- A write that leaves `CFC_FS` and `CFC_FRES` at these values (R82 to R84). -/
def writeCfcRates (s : State) (ok : Bool) (fs fres : F32) : Option State :=
  match nfftOf s.par.maxFftLog2 fs fres with
  | none => none
  | some n =>
      acceptIf ok
        { s with cfc := { s.cfc with fs := fs, fres := fres, nfft := BitVec.ofNat 32 n } }

/-- `MODCFG.MOD` of a written value (R65). -/
def modOf (v : Word32) : Modulation := if v.getLsbD 0 then .qpsk else .bpsk

/-- A host write of a register other than `CTRL`: the state after it, or none when its validation
rejects it (R50 to R104). A read-only register ignores the write. -/
def regWrite (s : State) (v : Word32) : Reg → Option State
  | .id | .version | .param0 | .param1 | .param2 | .param3 | .param4 | .hparam => some s
  | .ctrl | .status | .cmdCount | .errCode | .errPtr | .errInfo => some s
  | .resConsumed | .resProduced | .resAux | .cfgrejAddr => some s
  | .agcGmax | .agcLnRef | .cfcNfft | .cfcFest | .fsBuflen | .fsState => some s
  | .cmdPtr => some { s with seq := { s.seq with cmdPtr := v } }
  | .irqStatus =>
      some { s with seq := { s.seq with irqStatus := s.seq.irqStatus &&& ~~~(v.setWidth 5) } }
  | .irqEnable => some { s with seq := { s.seq with irqEnable := v.setWidth 5 } }
  | .modcfg => acceptIf (inRange 0 1 v) { s with modcfg := modOf v }
  | .agcRef =>
      acceptIf (positive v) { s with agc := { s.agc with ref := v, lnRef := fln s.par.trans v } }
  | .agcMaxGain =>
      acceptIf (isfinite v)
        { s with agc := { s.agc with maxGain := v, gmax := fmul (fdiv v ftwenty) ln10 } }
  | .agcK => acceptIf (nonNeg v) { s with agc := { s.agc with k := v } }
  | .agcN => acceptIf (inRange 1 s.par.maxAgcN v) { s with agc := { s.agc with n := v } }
  | .agcGain => acceptIf (isfinite v) { s with agc := { s.agc with gain := v } }
  | .firFactor =>
      acceptIf (inRange 1 s.par.maxDecFactor v) { s with fir := { s.fir with factor := v } }
  | .firNtaps =>
      acceptIf (inRange 1 s.par.maxFirTaps v) { s with fir := { s.fir with ntaps := v } }
  | .scrLen => acceptIf (inRange 1 32 v) { s with scr := { s.scr with len := v } }
  | .scrPoly => some { s with scr := { s.scr with poly := v } }
  | .scrInit => some { s with scr := { s.scr with init := v } }
  | .scrState => some { s with scr := { s.scr with state := v } }
  | .dscrState => some { s with scr := { s.scr with dstate := v } }
  | .cfcFs => writeCfcRates s (positive v) v s.cfc.fres
  | .cfcFres => writeCfcRates s (positive v) s.cfc.fs v
  | .cfcPhase => acceptIf (isfinite v) { s with cfc := { s.cfc with phase := v } }
  | .pllBw => writePllGains s (nonNeg v) v s.pll.damp
  | .pllDamp => writePllGains s (nonNeg v) s.pll.bw v
  | .pllAlpha => acceptIf (zeroToOne v) { s with pll := { s.pll with alpha := v } }
  | .pllBeta => acceptIf (zeroToOne v) { s with pll := { s.pll with beta := v } }
  | .pllMinf =>
      acceptIf (isfinite v && fle v s.pll.maxf) { s with pll := { s.pll with minf := v } }
  | .pllMaxf =>
      acceptIf (isfinite v && fge v s.pll.minf) { s with pll := { s.pll with maxf := v } }
  | .pllPhase => acceptIf (isfinite v) { s with pll := { s.pll with phase := v } }
  | .pllFreq => acceptIf (isfinite v) { s with pll := { s.pll with freq := v } }
  | .symSps => acceptIf (inRange 2 s.par.maxSps v) { s with sym := { s.sym with sps := v } }
  | .symBw => writeSymGains s (nonNeg v) v s.sym.damp s.sym.kd
  | .symDamp => writeSymGains s (nonNeg v) s.sym.bw v s.sym.kd
  | .symKd => writeSymGains s (positive v) s.sym.bw s.sym.damp v
  | .symAlpha => acceptIf (zeroToOne v) { s with sym := { s.sym with alpha := v } }
  | .symBeta => acceptIf (zeroToOne v) { s with sym := { s.sym with beta := v } }
  | .symMu => acceptIf (zeroToOne v) { s with sym := { s.sym with mu := v } }
  | .symCnt => acceptIf (zeroToOne v) { s with sym := { s.sym with cnt := v } }
  | .symVi => acceptIf (isfinite v) { s with sym := { s.sym with vi := v } }
  | .symStrobe => some { s with sym := { s.sym with strobe := v.getLsbD 0 } }
  | .fsPlen =>
      acceptIf (inRange 1 s.par.maxPreLen v && decide (v.toNat ≤ s.fs.fsize.toNat))
        { s with fs := { s.fs with plen := v } }
  | .fsFsize =>
      acceptIf (inRange s.fs.plen.toNat s.par.fsyncCap v) { s with fs := { s.fs with fsize := v } }
  | .fsThresh => acceptIf (nonNeg v) { s with fs := { s.fs with thresh := v } }

end Sys2Proof.Machine
end

