-- ==== Sys2Proof/Machine/HostIf.lean ====
section
/-! DEFINITION. The host interface: reads and writes of the host map, the control register, and the
resets (`20_memory.md` R153, R154, R170, R171; `10_state.md` R54, R63; `70_reset_and_hazards.md` R500,
R501). -/

namespace Sys2Proof.Machine

open Sys2Proof.Config

/-! ### Resets -/

/-- The register and hidden-state part of a reset (R501, R116); memories, build and host side stay. -/
def State.softReset (s : State) : State :=
  State.resetValues s.par s.mem s.host s.hostRdata s.draws

/-- Makes the DMEM words of a range unwritten. -/
def forgetRange (m : Memory) (r : Range) : Memory := m.forget (dmemAddr r.base) (8 * r.len)

/-- Makes the output and aux ranges of a command unwritten, when its checks pass (R500). -/
def forgetBlocks (s : State) (i : Instr) : Memory :=
  match instrBlocks s i with
  | none => s.mem
  | some b =>
    match checkError s i b with
    | some _ => s.mem
    | none =>
      match b.aux with
      | none => forgetRange s.mem b.out
      | some a => forgetRange (forgetRange s.mem b.out) a

/-- The memories after an external reset that cuts the execution of a decoded descriptor (R500, U4; log
11): its output and aux ranges, when its checks pass, and its `W3` become unwritten. -/
def cutDescriptor (s : State) : Decoded → Memory
  | .instr i => forgetRange (forgetBlocks s i) ⟨s.ptr + 3, 1⟩
  | .illegalOpcode _ => forgetRange s.mem ⟨s.ptr + 3, 1⟩
  | .reservedField _ => forgetRange s.mem ⟨s.ptr + 3, 1⟩
  | .truncated => forgetRange s.mem ⟨s.ptr + 3, 1⟩

/-- The descriptor at `CMD_PTR` as the sequencer reads it, unwritten bytes being drawn (R164, U3; log
11). -/
def State.fetchDrawn (s : State) : Decoded :=
  decodeWords (s.mem.drawWord s.draws (dmemAddr s.ptr)) (s.mem.drawWord s.draws (dmemAddr (s.ptr + 1)))
    (s.mem.drawWord s.draws (dmemAddr (s.ptr + 2)))

/-- The memories after an external reset that cuts a run (R500; log 11). No descriptor can be fetched at
a bad pointer, so none was being executed. -/
def cutMemory (s : State) : Memory :=
  match fetchError s with
  | some _ => s.mem
  | none => cutDescriptor s s.fetchDrawn

/-- The external reset (R500). -/
def State.externalReset (s : State) : State :=
  if s.seq.run then State.softReset { s with mem := cutMemory s, draws := s.draws + 1 }
  else s.softReset

/-! ### Writes -/

/-- A write of `CTRL` (R54): `SOFTRESET` (bit 2) over `START` (bit 0) over `STOP` (bit 1). -/
def ctrlWrite (s : State) (v : Word32) : State :=
  if s.seq.run then
    if v.getLsbD 2 || v.getLsbD 0 then s.setIrq irqHaz
    else if v.getLsbD 1 then { s with seq := { s.seq with stopReq := true } }
    else s
  else
    if v.getLsbD 2 then s.softReset
    else if v.getLsbD 0 then s.start
    else s

/-- A rejected write (R63). -/
def State.reject (s : State) (a : Nat) : State :=
  State.setIrq { s with seq := { s.seq with cfgrejAddr := BitVec.ofNat 12 a } } irqCfgrej

/-- A write of a named register that answers. -/
def regStore (s : State) (r : Reg) (v : Word32) : State :=
  match r with
  | .ctrl => ctrlWrite s v
  | r =>
    match regWrite s v r with
    | some t => t
    | none => s.reject (regOffset r)

/-- A host write (R153, R154, R170, R171). -/
def hostWrite (s : State) (addr v : Word32) : State :=
  let a := addr.toNat
  if a % 4 ≠ 0 then s
  else if a < 0x1000 then
    match regAt a with
    | some r => if s.seq.run && !regLive r then s.setIrq irqHaz else regStore s r v
    | none => if s.seq.run then s.setIrq irqHaz else s
  else if s.seq.run then
    if isWindowAddr s.par a then s.setIrq irqHaz else s
  else if isMemAddr s.par a then { s with mem := s.mem.setHalf a v }
  else s

/-! ### Reads -/

/-- The result of a host read: a value that the rules give, or one they leave unspecified. -/
inductive ReadResult where
  | value (v : Word32)
  | unspecified
deriving DecidableEq, Repr

/-- A host read (R50, R153, R154, R164, R170). During a run the read of an aligned address at or above
0x1000 is unspecified everywhere: in the windows by R170, and elsewhere too, where R153 says 0 while
R518 and `93_implementation_defined.md` U5 let every read but a live register's return any value (log
27). -/
def hostReadResult (s : State) (addr : Word32) : ReadResult :=
  let a := addr.toNat
  if a % 4 ≠ 0 then .value 0#32
  else if a < 0x1000 then
    match regAt a with
    | some r => if s.seq.run && !regLive r then .unspecified else .value (regRead s r)
    | none => if s.seq.run then .unspecified else .value 0#32
  else if s.seq.run then .unspecified
  else if isMemAddr s.par a then
    match s.mem.getHalf a with
    | some v => .value v
    | none => .unspecified
  else .value 0#32

/-- A host read: what it returned, and a fresh draw where the value is unspecified (U3, U5; log 2). -/
def hostRead (s : State) (addr : Word32) : State :=
  match hostReadResult s addr with
  | .value v => { s with hostRdata := v }
  | .unspecified => { s with hostRdata := freeHostRead s.draws, draws := s.draws + 1 }

end Sys2Proof.Machine
end

