-- ==== Sys2Proof/Machine/Sequencer.lean ====
section
/-! DEFINITION. The sequencer's step (`40_control.md` R257) and the actions of the host agent. -/

namespace Sys2Proof.Machine

/-- A decoded descriptor: the command runs, or the error stop of code 2 or 3 is taken (R257). -/
def runDecoded (s : State) : Decoded → Result
  | .instr i => exec i s
  | .illegalOpcode opc => .next (s.errorStop ⟨2#8, opc.setWidth 32⟩)
  | .reservedField info => .next (s.errorStop ⟨3#8, info⟩)
  | .truncated => .fault .unwrittenDmem

/-- One step of the sequencer (R257). An idle sequencer keeps all state (`60_exceptions.md` R468). -/
def seqStep (s : State) : Result :=
  if s.seq.run then
    if s.seq.stopReq then .next s.takeStop
    else
      match fetchError s with
      | some e => .next (s.errorStop e)
      | none =>
        match s.fetch with
        | none => .fault .unwrittenDmem
        | some d => runDecoded s d
  else .next s

/-- One action of the host agent; `wait` leaves a step to the sequencer (`20_memory.md` R172,
`70_reset_and_hazards.md` R520). -/
def hostStep (a : HostAct) (s : State) : Result :=
  match a with
  | .write addr v => .next (hostWrite s addr v)
  | .read addr => .next (hostRead s addr)
  | .reset => .next s.externalReset
  | .wait => seqStep s

/-- The pointer at which a program word is placed: `CMD_PTR` if a descriptor can stand there, else
0. -/
def placePtr (s : State) : Word32 := if fetchError s = none then s.seq.cmdPtr else 0#32

/-- The state in which the sequencer is about to fetch the given words at its pointer: the words are
in DMEM, the sequencer is running with no stop request, and the host has nothing to do. -/
def placeProgram (s : State) (ws : List Word64) : State :=
  { s with
    mem := s.mem.writeBlock (placePtr s).toNat ws
    seq := { s.seq with cmdPtr := placePtr s, run := true, stopReq := false }
    host := [] }

end Sys2Proof.Machine
end

