-- ==== Sys2Proof/Machine/Step.lean ====
section
/-! DEFINITION. One step of the machine: the host's next action, or a step of the sequencer when the
host has none left (log 1). -/

namespace Sys2Proof.Machine

/-- One step of the machine. -/
def step (s : State) : Host.Outcome State Fault Refusal :=
  match s.host with
  | [] => seqStep s
  | a :: rest => hostStep a { s with host := rest }

/-- The state whose next step fetches and runs the descriptor with bits `w`, numbered as
`spec/opcode_table.json` numbers them (log 15). -/
def State.withFetchWord (s : State) (nbits w : Nat) : State := placeProgram s (tableWords nbits w)

end Sys2Proof.Machine
end

