-- ==== Sys2Proof/Safety.lean ====
section
/-! DEFINITION. What claims about the machine speak of: operands that fit, runs of several steps, what a
command completed and wrote, and the invariant of the machine. -/

namespace Sys2Proof.Machine

open Sys2Proof.Config

/-! ### Operands -/

/-- A range is empty or inside DMEM (`40_control.md` R263). -/
abbrev Range.Inside (r : Range) (p : Params) : Prop := r.len = 0 ∨ r.base + r.len ≤ p.dmemWords

/-- Two ranges share no address (`40_control.md` R264). -/
abbrev Range.Apart (a b : Range) : Prop :=
  a.len = 0 ∨ b.len = 0 ∨ a.base + a.len ≤ b.base ∨ b.base + b.len ≤ a.base

/-- The descriptor range (R262). -/
abbrev State.descRange (s : State) : Range := ⟨s.ptr, 4⟩

/-- The input and output ranges pass the checks of R263 and R264. -/
abbrev MainOperandsFit (s : State) (b : Blocks) : Prop :=
  b.inp.Inside s.par ∧ b.out.Inside s.par ∧ b.inp.Apart b.out ∧ b.out.Apart s.descRange

/-- The auxiliary range passes the checks of R263 and R264. -/
abbrev AuxOperandFits (s : State) (b : Blocks) (a : Range) : Prop :=
  a.Inside s.par ∧ b.inp.Apart a ∧ b.out.Apart a ∧ a.Apart s.descRange

/-- All operand ranges pass the checks of R263 and R264. -/
abbrev OperandsFit (s : State) (b : Blocks) : Prop :=
  MainOperandsFit s b ∧
  match b.aux with
  | none => True
  | some a => AuxOperandFits s b a

/-- A block of CFC or FSYNC is within its capacity (`45_cfc.md` R352, `48_framesync.md` R424); the other
commands have none. -/
def CapacityFits (s : State) : Instr → Prop
  | .cfc _ _ len _ _ => len.toNat ≤ s.cfc.nfft.toNat
  | .fsync _ _ len _ _ => s.fs.raw.length + len.toNat ≤ s.par.fsyncCap
  | .halt => True
  | .nop => True
  | .urst _ => True
  | .agc _ _ _ _ _ => True
  | .firdec _ _ _ => True
  | .scr _ _ _ => True
  | .dscr _ _ _ => True
  | .henc _ _ _ => True
  | .hdec _ _ _ _ _ => True
  | .pll _ _ _ => True
  | .symsync _ _ _ _ => True

/-! ### What a command leaves -/

/-- The sequencer registers after a completed descriptor other than HALT (R256). -/
def completedSeq (q : SeqRegs) (c : Counts) : SeqRegs :=
  { q with resConsumed := c.consumed, resProduced := c.produced, resAux := c.aux,
           cmdCount := q.cmdCount + 1#32, cmdPtr := q.cmdPtr + 4#32 }

/-- The words stand in DMEM from a word address on. -/
def HoldsWords (m : Memory) (base : Nat) (ws : List Word64) : Prop :=
  ∀ i (h : i < ws.length), m.getWord (dmemAddr (base + i)) = some ws[i]

/-- A byte address lies in the DMEM words of a range. -/
def Range.HasByte (r : Range) (a : Nat) : Prop := dmemAddr r.base ≤ a ∧ a < dmemAddr (r.base + r.len)

/-- Every byte outside the DMEM words of the ranges is as before. -/
def SameOutside (m m' : Memory) (rs : List Range) : Prop :=
  ∀ a, (∀ r ∈ rs, ¬ r.HasByte a) → m'.get a = m.get a

/-- What a completed block command did to the memory and the sequencer (R166, R256): it wrote exactly
these output and auxiliary words and its `W3`, and its registers report these counts. -/
def Completes (s t : State) (b : Blocks) (out aux : List Word64) (c : Counts) : Prop :=
  t.seq = completedSeq s.seq c ∧
  HoldsWords t.mem b.out.base out ∧
  HoldsWords t.mem (s.ptr + 3) [c.produced ++ c.consumed] ∧
  match b.aux with
  | none => SameOutside s.mem t.mem [⟨b.out.base, out.length⟩, ⟨s.ptr + 3, 1⟩]
  | some a => HoldsWords t.mem a.base aux ∧
      SameOutside s.mem t.mem [⟨b.out.base, out.length⟩, ⟨a.base, aux.length⟩, ⟨s.ptr + 3, 1⟩]

/-- What a completed URST or NOP did to the memory and the sequencer: `W3` is 0 and so are the result
registers (`40_control.md` R254 to R256). -/
def CompletesControl (s t : State) : Prop :=
  t.seq = completedSeq s.seq ⟨0#32, 0#32, 0#32⟩ ∧ HoldsWords t.mem (s.ptr + 3) [0#64] ∧
  SameOutside s.mem t.mem [⟨s.ptr + 3, 1⟩]

/-! ### What a reset leaves of the memories -/

/-- The bytes of the ranges are unwritten in `m'`, and every other byte is as in `m`. -/
def OnlyForgets (m m' : Memory) (rs : List Range) : Prop :=
  ∀ a, ((∃ r ∈ rs, r.HasByte a) → m'.get a = none) ∧
    ((∀ r ∈ rs, ¬ r.HasByte a) → m'.get a = m.get a)

/-- What an external reset leaves of the memories when it cuts the execution of a decoded descriptor
(`70_reset_and_hazards.md` R500): the words of its output and aux ranges, when its checks pass, and its
`W3` are unwritten, and every other byte is as before. -/
def CutBy (s t : State) (d : Decoded) : Prop :=
  (∀ i b, d = .instr i → instrBlocks s i = some b → OperandsFit s b → CapacityFits s i →
    OnlyForgets s.mem t.mem
      (match b.aux with
        | none => [b.out, ⟨s.ptr + 3, 1⟩]
        | some a => [b.out, a, ⟨s.ptr + 3, 1⟩])) ∧
  ((∀ i b, d = .instr i → instrBlocks s i = some b → ¬ (OperandsFit s b ∧ CapacityFits s i)) →
    OnlyForgets s.mem t.mem [⟨s.ptr + 3, 1⟩])

/-- A word has, at every byte of DMEM word `a` that has been written, the byte that stands there. -/
def AgreesWith (m : Memory) (a : Nat) (w : Word64) : Prop :=
  ∀ i v, i < 8 → m.get (dmemAddr a + i) = some v → byteOfWord w i = v

/-! ### Streams, stops and choices, as the rules describe them -/

/-- `parity(v)` (`00_scope.md` R8): whether `v` has an odd number of 1 bits. -/
def oddOnes (v : Word32) : Bool := decide (((List.range 32).countP fun i => v.getLsbD i) % 2 = 1)

/-- `w(i, k)` (`42_fir.md` R291): the value `k` samples before sample `i` of the block `xs`, reaching
into a delay line `dl` that is kept newest first. -/
def windowAt {α : Type} (d : α) (xs dl : List α) (i k : Nat) : α :=
  if k ≤ i then xs.getD (i - k) d else dl.getD (k - i - 1) d

/-- The state after the error stop of `60_exceptions.md` R452. -/
def State.stoppedWith (s : State) (code : BitVec 8) (info : Word32) : State :=
  { s with seq := { s.seq with
      run := false, stopReq := false, lastEnd := 2#2, errCode := code, errInfo := info,
      errPtr := s.seq.cmdPtr, irqStatus := s.seq.irqStatus ||| 0b00010#5 } }

/-- The state after a rejected write at a control offset (`10_state.md` R63). -/
def State.rejectedAt (s : State) (offset : BitVec 12) : State :=
  { s with seq := { s.seq with
      irqStatus := s.seq.irqStatus ||| 0b01000#5, cfgrejAddr := offset } }

/-- The state after a host hazard (`20_memory.md` R171). -/
def State.hazardSet (s : State) : State :=
  { s with seq := { s.seq with irqStatus := s.seq.irqStatus ||| 0b10000#5 } }

/-- `(x, y)` are a loop gain pair that the validations of `10_state.md` R87, R88 and R96 admit. -/
def GainsInRange (x y : F32) : Prop :=
  (isfinite x = true ∧ fle fzero x = true ∧ fle x fone = true) ∧
  (isfinite y = true ∧ fle fzero y = true ∧ fle y fone = true)

/-- `i0` is the least index whose magnitude reaches the threshold: `S[0]` of `48_framesync.md`
R421. -/
def FirstCandidate (thresh : F32) (mag : List F32) (i0 : Nat) : Prop :=
  i0 < mag.length ∧ fge (mag.getD i0 fzero) thresh = true ∧
  ∀ j, j < i0 → fge (mag.getD j fzero) thresh = false

/-- `best` is the chosen candidate of `48_framesync.md` R421: of the candidates within half a frame of
the first one, none is greater, and each earlier one is less. -/
def BestCandidate (thresh : F32) (fsize : Nat) (mag : List F32) (i0 best : Nat) : Prop :=
  (i0 ≤ best ∧ best < mag.length ∧ 2 * (best - i0) < fsize ∧
    fge (mag.getD best fzero) thresh = true) ∧
  ∀ j, i0 ≤ j → j < mag.length → 2 * (j - i0) < fsize → fge (mag.getD j fzero) thresh = true →
    fgt (mag.getD j fzero) (mag.getD best fzero) = false ∧
    (j < best → fgt (mag.getD best fzero) (mag.getD j fzero) = true)

/-- The rational value of a finite `f32` (`20_memory.md` R156); 0 for an infinity or a NaN. -/
def valueOf (x : F32) : Rat :=
  match unpack x with
  | .fin s m e => (if s then -1 else 1) * (m : Rat) * (2 : Rat) ^ e
  | _ => 0

/-- `r` is the roundTiesToEven value of the real number `x` (`00_scope.md` R12) among the finite `f32`
values: none is nearer, and an equally near one of another value is not even while `r` is. -/
def RoundsTo (x : ℝ) (r : F32) : Prop :=
  isfinite r = true ∧
  ∀ w : F32, isfinite w = true →
    |(valueOf r : ℝ) - x| ≤ |(valueOf w : ℝ) - x| ∧
    (|(valueOf w : ℝ) - x| = |(valueOf r : ℝ) - x| → valueOf w ≠ valueOf r → r.getLsbD 0 = false)

/-- `r` is what roundTiesToEven makes of the real number `x` (`00_scope.md` R12): the nearest finite `f32`
while `x` is below half a last place past the greatest one, `(2^24 - 1/2) * 2^104`, in magnitude; from
there on the infinity of its sign. -/
def RoundsWithOverflow (x : ℝ) (r : F32) : Prop :=
  (|x| < 2 ^ 128 - 2 ^ 103 → RoundsTo x r) ∧
  (2 ^ 128 - 2 ^ 103 ≤ x → r = 0x7F800000#32) ∧
  (x ≤ -(2 ^ 128 - 2 ^ 103) → r = 0xFF800000#32)

/-! ### Descriptors and registers, as the tables give them -/

/-- The `OPC` column of `30_encoding.md` R210. -/
def opcodeValue : Instr → BitVec 8
  | .halt => 0x00#8
  | .nop => 0x01#8
  | .urst _ => 0x02#8
  | .agc _ _ _ _ _ => 0x10#8
  | .firdec _ _ _ => 0x11#8
  | .scr _ _ _ => 0x12#8
  | .dscr _ _ _ => 0x13#8
  | .henc _ _ _ => 0x14#8
  | .hdec _ _ _ _ _ => 0x15#8
  | .cfc _ _ _ _ _ => 0x16#8
  | .pll _ _ _ => 0x17#8
  | .symsync _ _ _ _ => 0x18#8
  | .fsync _ _ _ _ _ => 0x19#8

/-- An `OPC` value that names no command (`30_encoding.md` R210, last row). -/
def IllegalOpcode (o : BitVec 8) : Prop :=
  (0x03 ≤ o.toNat ∧ o.toNat ≤ 0x0F) ∨ (0x1A ≤ o.toNat ∧ o.toNat ≤ 0xFF)

/-- The opcodes with an `AUX` block (`30_encoding.md` R211). -/
def HasAux (o : BitVec 8) : Prop := o = 0x10#8 ∨ o = 0x15#8 ∨ o = 0x16#8 ∨ o = 0x19#8

/-- Field `k`, numbered as in `30_encoding.md` R213, breaks R211 or R212. -/
def FieldFails (f : Fields) (k : Nat) : Prop :=
  (k = 1 ∧ f.rsv ≠ 0#19) ∨
  (k = 2 ∧ (if f.opc = 0x02#8 then 8 ≤ f.unit.toNat ∧ f.unit.toNat ≤ 14 else f.unit ≠ 0#4)) ∨
  (k = 3 ∧ f.auxw = true ∧ ¬ HasAux f.opc) ∨
  (k = 4 ∧ f.len ≠ 0#32 ∧ f.opc.toNat ≤ 0x02) ∨
  (k = 5 ∧ f.src ≠ 0#32 ∧ f.opc.toNat ≤ 0x02) ∨
  (k = 6 ∧ f.dst ≠ 0#32 ∧ f.opc.toNat ≤ 0x02) ∨
  (k = 7 ∧ f.aux ≠ 0#32 ∧ ¬ (f.auxw = true ∧ HasAux f.opc)) ∨
  (k = 8 ∧ f.maxout ≠ 0#32 ∧ f.opc ≠ 0x18#8)

/-- The sequencer is running, with no stop request, and it is its turn to step. -/
abbrev AtStep (s : State) : Prop :=
  s.host = [] ∧ s.seq.run = true ∧ s.seq.stopReq = false

/-- A descriptor can be fetched at `CMD_PTR` and its three decoded words are these
(`40_control.md` R252). -/
abbrev DescriptorAt (s : State) (w0 w1 w2 : Word64) : Prop :=
  s.ptr % 4 = 0 ∧ s.ptr + 4 ≤ s.par.dmemWords ∧ s.mem.readBlock s.ptr 3 = some [w0, w1, w2]

/-- The register part of the table of `10_state.md` R116, with the constants of R51 and R52. -/
def resetTable : List (Reg × Word32) :=
  [(.id, 0x53445231#32), (.version, 0x00010000#32), (.ctrl, 0#32), (.status, 0#32),
   (.cmdPtr, 0#32), (.cmdCount, 0#32), (.errCode, 0#32), (.errPtr, 0#32), (.errInfo, 0#32),
   (.resConsumed, 0#32), (.resProduced, 0#32), (.resAux, 0#32), (.irqStatus, 0#32),
   (.irqEnable, 0#32), (.cfgrejAddr, 0#32), (.modcfg, 0#32), (.agcRef, 0x3F800000#32),
   (.agcMaxGain, 0#32), (.agcK, 0#32), (.agcN, 1#32), (.agcGain, 0#32), (.agcGmax, 0#32),
   (.agcLnRef, 0#32), (.firFactor, 1#32), (.firNtaps, 1#32), (.scrLen, 1#32), (.scrPoly, 0#32),
   (.scrInit, 0#32), (.scrState, 0#32), (.dscrState, 0#32), (.cfcFs, 0x3F800000#32),
   (.cfcFres, 0x3F800000#32), (.cfcNfft, 1#32), (.cfcPhase, 0#32), (.cfcFest, 0#32),
   (.pllBw, 0#32), (.pllDamp, 0#32), (.pllAlpha, 0#32), (.pllBeta, 0#32),
   (.pllMinf, 0xBF800000#32), (.pllMaxf, 0x3F800000#32), (.pllPhase, 0#32), (.pllFreq, 0#32),
   (.symSps, 2#32), (.symBw, 0#32), (.symDamp, 0#32), (.symKd, 0x3F800000#32),
   (.symAlpha, 0#32), (.symBeta, 0#32), (.symMu, 0#32), (.symCnt, 0#32), (.symVi, 0#32),
   (.symStrobe, 0#32), (.fsPlen, 1#32), (.fsFsize, 1#32), (.fsThresh, 0x3F800000#32),
   (.fsBuflen, 0#32), (.fsState, 0#32)]

/-- The parameter registers hold the build parameters (`10_state.md` R53). -/
def ParamRegistersHold (s : State) : Prop :=
  (regRead s .param0).toNat = s.par.dmemWords ∧
  ((regRead s .param1).extractLsb' 0 16).toNat = s.par.maxFirTaps ∧
  ((regRead s .param1).extractLsb' 16 16).toNat = s.par.maxPreLen ∧
  ((regRead s .param2).extractLsb' 0 8).toNat = s.par.maxFftLog2 ∧
  ((regRead s .param2).extractLsb' 8 8).toNat = s.par.maxSps ∧
  ((regRead s .param2).extractLsb' 16 16).toNat = s.par.maxDecFactor ∧
  ((regRead s .param3).extractLsb' 0 16).toNat = s.par.maxAgcN ∧
  (regRead s .param3).extractLsb' 16 16 = 0#16 ∧
  (regRead s .param4).toNat = s.par.fsyncCap ∧
  (regRead s .hparam).extractLsb' 0 12 = s.par.hammingP ∧
  (regRead s .hparam).extractLsb' 12 20 = 0#20

/-- Every register and hidden state element holds its value of `10_state.md` R116, and the interrupt
output is low (`70_reset_and_hazards.md` R500). -/
def HoldsResetValues (s : State) : Prop :=
  s.irq = false ∧ (∀ p ∈ resetTable, regRead s p.1 = p.2) ∧ ParamRegistersHold s ∧ s.seq.stopReq = false ∧
  s.agc.ph = List.replicate s.par.maxAgcN 0#32 ∧
  s.fir.dl = List.replicate (s.par.maxFirTaps - 1) ⟨0#32, 0#32⟩ ∧
  s.cfc.buf = List.replicate s.par.maxFft ⟨0#32, 0#32⟩ ∧
  s.sym.h0 = ⟨0#32, 0#32⟩ ∧ s.sym.h1 = ⟨0#32, 0#32⟩ ∧ s.sym.h2 = ⟨0#32, 0#32⟩ ∧
  s.sym.tb = List.replicate s.par.maxSps ⟨0#32, 0#32⟩ ∧ s.sym.prev = ⟨0#32, 0#32⟩ ∧
  s.fs.dl = List.replicate (s.par.maxPreLen - 1) ⟨0#32, 0#32⟩ ∧ s.fs.raw = [] ∧ s.fs.mag = []

/-! ### Runs -/

/-- `n` steps of the machine, stopping at the first fault or refusal. -/
def runSteps : Nat → State → Result
  | 0, s => .next s
  | n + 1, s =>
    match step s with
    | .next t => runSteps n t
    | .fault r => .fault r
    | .refused r => .refused r

/-! ### The invariant -/

/-- The memory is canonical and every written byte lies in COEF, PRE or DMEM. -/
def MemOk (s : State) : Prop := s.mem.wf ∧ ∀ c ∈ s.mem, isMemAddr s.par c.1 = true

/-- Every hidden list has the length of `10_state.md` R108 to R113. -/
def SizesOk (s : State) : Prop :=
  s.agc.ph.length = s.par.maxAgcN ∧
  s.fir.dl.length = s.par.maxFirTaps - 1 ∧
  s.cfc.buf.length = s.par.maxFft ∧
  s.sym.tb.length = s.par.maxSps ∧
  s.fs.dl.length = s.par.maxPreLen - 1 ∧
  s.fs.mag.length = s.fs.raw.length ∧
  s.fs.raw.length ≤ s.par.fsyncCap

/-- The AGC configuration meets its validation conditions and derived values (R66 to R72). -/
def AgcOk (s : State) : Prop :=
  positive s.agc.ref = true ∧ isfinite s.agc.maxGain = true ∧ nonNeg s.agc.k = true ∧
  inRange 1 s.par.maxAgcN s.agc.n = true ∧
  s.agc.gmax = fmul (fdiv s.agc.maxGain ftwenty) ln10 ∧ s.agc.lnRef = fln s.par.trans s.agc.ref

/-- The FIR and scrambler configurations meet their validation conditions (R73, R74, R76). -/
def FirScrOk (s : State) : Prop :=
  inRange 1 s.par.maxDecFactor s.fir.factor = true ∧ inRange 1 s.par.maxFirTaps s.fir.ntaps = true ∧
  inRange 1 32 s.scr.len = true

/-- The CFC configuration meets its validation conditions, and `CFC_NFFT` is derived from it (R82 to
R84). -/
def CfcOk (s : State) : Prop :=
  positive s.cfc.fs = true ∧ positive s.cfc.fres = true ∧
  nfftOf s.par.maxFftLog2 s.cfc.fs s.cfc.fres = some s.cfc.nfft.toNat

/-- The PLL configuration meets its validation conditions (R87 to R92). -/
def PllOk (s : State) : Prop :=
  nonNeg s.pll.bw = true ∧ nonNeg s.pll.damp = true ∧ zeroToOne s.pll.alpha = true ∧
  zeroToOne s.pll.beta = true ∧ isfinite s.pll.minf = true ∧ isfinite s.pll.maxf = true ∧
  fle s.pll.minf s.pll.maxf = true

/-- The SYM configuration meets its validation conditions (R95 to R97). -/
def SymOk (s : State) : Prop :=
  inRange 2 s.par.maxSps s.sym.sps = true ∧ nonNeg s.sym.bw = true ∧ nonNeg s.sym.damp = true ∧
  positive s.sym.kd = true ∧ zeroToOne s.sym.alpha = true ∧ zeroToOne s.sym.beta = true

/-- The FSYNC configuration meets its validation conditions (R102 to R104). -/
def FsOk (s : State) : Prop :=
  inRange 1 s.par.maxPreLen s.fs.plen = true ∧ s.fs.plen.toNat ≤ s.fs.fsize.toNat ∧
  s.fs.fsize.toNat ≤ s.par.fsyncCap ∧ nonNeg s.fs.thresh = true

/-- The run control registers agree: a stop request is pending only during a run (R55, R258), and the
error registers are clear during one (R58, R251). -/
def SeqOk (s : State) : Prop :=
  (s.seq.stopReq = true → s.seq.run = true) ∧
  (s.seq.run = true → s.seq.errCode = 0#8 ∧ s.seq.errPtr = 0#32 ∧ s.seq.errInfo = 0#32) ∧
  s.seq.errCode.toNat ≤ 6

/-- The invariant of the machine. -/
structure State.Inv (s : State) : Prop where
  par : s.par.legal = true
  mem : MemOk s
  sizes : SizesOk s
  agc : AgcOk s
  firScr : FirScrOk s
  cfc : CfcOk s
  pll : PllOk s
  sym : SymOk s
  fs : FsOk s
  seq : SeqOk s

end Sys2Proof.Machine
end

