-- ==== Sys2Proof/Certificates/Slice0/Obligations.lean ====
section
/-! DEFINITION. The statements about the machine, for the provers. -/

open Sys2Proof Sys2Proof.Machine Sys2Proof.Config

/-! ### Encoding -/

/-- `30_encoding.md` R200, R211, R223: decoding the four words of a command gives the command back; the
one thing that makes a command ill-formed, an `AUX` field without `AUXW`, is refused as field 7. -/
def Obligations.DecodeOfEncodeIsTheCommand : Prop :=
  ∀ i : Instr,
    (i.wellFormed = true → decode (encodeBytes i) = .instr i) ∧
    (i.wellFormed = false → decode (encodeBytes i) = .reservedField 7#32)

/-- `30_encoding.md` R211, R213, R223: every descriptor that decodes is the encoding of what it decodes
to, so no bit of its three decoded words is dropped. -/
def Obligations.EncodeOfDecodedIsTheWords : Prop :=
  ∀ (w0 w1 w2 : Word64) (i : Instr), decodeWords w0 w1 w2 = .instr i →
    i.wellFormed = true ∧ encode i = [w0, w1, w2, 0#64]

/-- `30_encoding.md` R210: a command is read from its own `OPC` value only, and the values that are
refused as illegal are exactly those of the last row. -/
def Obligations.OpcodeMapIsTheTable : Prop :=
  ∀ w0 w1 w2 : Word64,
    (∀ i, decodeWords w0 w1 w2 = .instr i → w0.extractLsb' 0 8 = opcodeValue i) ∧
    (∀ o, decodeWords w0 w1 w2 = .illegalOpcode o ↔ o = w0.extractLsb' 0 8 ∧ IllegalOpcode o) ∧
    decodeWords w0 w1 w2 ≠ .truncated

/-- `30_encoding.md` R213: with a legal opcode, the least failing field of R211 and R212 stops the run
with code 3 and its number; with no failing field there is a command. -/
def Obligations.ReservedFieldsStopTheRun : Prop :=
  ∀ (s : State) (w0 w1 w2 : Word64), AtStep s → DescriptorAt s w0 w1 w2 →
    ¬ IllegalOpcode (w0.extractLsb' 0 8) →
    (∀ k, FieldFails (fieldsOfWords w0 w1 w2) k →
      (∀ j, j < k → ¬ FieldFails (fieldsOfWords w0 w1 w2) j) →
      step s = .next (s.stoppedWith 3#8 (BitVec.ofNat 32 k))) ∧
    ((∀ k, ¬ FieldFails (fieldsOfWords w0 w1 w2) k) → ∃ i, decodeWords w0 w1 w2 = .instr i)

/-- Sanity: the words of the three examples of `30_encoding.md` R223 and of every descriptor of the programs
P1 to P5 of `95_test_vectors.md` decode to their commands, and the illegal word of P3 is refused. -/
def Obligations.ExampleWordsDecode : Prop :=
  -- R223
  decodeWords 0x0000004000000011#64 0x0000020000000100#64 0#64
    = .instr (.firdec 0x200#32 0x100#32 64#32) ∧
  decodeWords 0x0000000000000F02#64 0#64 0#64 = .instr (.urst .all) ∧
  decodeWords 0x0000000800001010#64 0x0000004000000020#64 0x0000000000000060#64
    = .instr (.agc 0x40#32 0x20#32 8#32 true 0x60#32) ∧
  -- P1
  decodeWords 0x0000000500000011#64 0x0000005000000040#64 0#64
    = .instr (.firdec 0x50#32 0x40#32 5#32) ∧
  decodeWords 0#64 0#64 0#64 = .instr .halt ∧
  -- P2, which begins with `urst all` and ends with `halt`
  decodeWords 0x0000000400000014#64 0x0000011000000100#64 0#64
    = .instr (.henc 0x110#32 0x100#32 4#32) ∧
  decodeWords 0x0000000700000012#64 0x0000012000000110#64 0#64
    = .instr (.scr 0x120#32 0x110#32 7#32) ∧
  decodeWords 0x0000000700000013#64 0x0000013000000120#64 0#64
    = .instr (.dscr 0x130#32 0x120#32 7#32) ∧
  decodeWords 0x0000000700000015#64 0x0000014000000130#64 0#64
    = .instr (.hdec 0x140#32 0x130#32 7#32 false 0#32) ∧
  -- P3
  decodeWords 0x0000000000000001#64 0#64 0#64 = .instr .nop ∧
  decodeWords 0x03#64 0#64 0#64 = .illegalOpcode 0x03#8 ∧
  -- P4
  decodeWords 0x0000000000000702#64 0#64 0#64 = .instr (.urst .fsync) ∧
  decodeWords 0x0000000100001019#64 0x0000006000000040#64 0x0000000000000070#64
    = .instr (.fsync 0x60#32 0x40#32 1#32 true 0x70#32) ∧
  decodeWords 0x0000000300001019#64 0x0000006000000041#64 0x0000000000000071#64
    = .instr (.fsync 0x60#32 0x41#32 3#32 true 0x71#32) ∧
  -- P5
  decodeWords 0x0000000000000602#64 0#64 0#64 = .instr (.urst .sym) ∧
  decodeWords 0x0000000600000018#64 0x0000005000000040#64 0x0000000200000000#64
    = .instr (.symsync 0x50#32 0x40#32 6#32 2#32) ∧
  decodeWords 0x0000000200000018#64 0x0000005200000044#64 0#64
    = .instr (.symsync 0x52#32 0x44#32 2#32 0#32)

/-! ### The sequencer -/

/-- A step runs the decoded command (`40_control.md` R252, R257). The step adds nothing around exec but
taking the host's `wait`, if there is one. -/
def Obligations.StepRunsTheDecodedCommand : Prop :=
  ∀ (s : State) (w0 w1 w2 : Word64) (i : Instr) (rest : List HostAct),
    (s.host = [] ∧ rest = []) ∨ s.host = .wait :: rest →
    s.seq.run = true → s.seq.stopReq = false → DescriptorAt s w0 w1 w2 →
    decodeWords w0 w1 w2 = .instr i →
    step s = exec i { s with host := rest }

/-- `60_exceptions.md` R450, codes 1 and 2, with `40_control.md` R252: a misaligned pointer stops the run
with detail 0, an aligned one whose descriptor leaves DMEM with detail 1, and an opcode outside the
map stops it with code 2 and the opcode. -/
def Obligations.FetchErrorsStopTheRun : Prop :=
  (∀ s : State, AtStep s →
    (s.ptr % 4 ≠ 0 → step s = .next (s.stoppedWith 1#8 0#32)) ∧
    (s.ptr % 4 = 0 → s.par.dmemWords < s.ptr + 4 → step s = .next (s.stoppedWith 1#8 1#32))) ∧
  (∀ (s : State) (w0 w1 w2 : Word64), AtStep s → DescriptorAt s w0 w1 w2 →
    IllegalOpcode (w0.extractLsb' 0 8) →
    step s = .next (s.stoppedWith 2#8 ((w0.extractLsb' 0 8).setWidth 32)))

/-- `60_exceptions.md` R452: whenever a running sequencer ends a run with kind 2, the step was an error
stop: it recorded one of the errors of R450 and the pointer, and changed nothing else. -/
def Obligations.ErrorStopIsPrecise : Prop :=
  ∀ s t : State, s.host = [] → s.seq.run = true → step s = .next t →
    t.seq.run = false → t.seq.lastEnd = 2#2 →
    ∃ (code : BitVec 8) (info : Word32), t = s.stoppedWith code info ∧
      ((code = 1#8 ∧ info.toNat ≤ 1) ∨
       (code = 2#8 ∧ 3 ≤ info.toNat ∧ info.toNat ≤ 255) ∨
       (code = 3#8 ∧ 1 ≤ info.toNat ∧ info.toNat ≤ 8) ∨
       (code = 4#8 ∧ 1 ≤ info.toNat ∧ info.toNat ≤ 3) ∨
       (code = 5#8 ∧ 1 ≤ info.toNat ∧ info.toNat ≤ 5) ∨
       (code = 6#8 ∧ 1 ≤ info.toNat ∧ info.toNat ≤ 2))

/-- `40_control.md` R258: a write of STOP alone during a run makes the request, START or SOFTRESET
during a run only sets HAZ, and the request is taken before the next fetch. -/
def Obligations.StopRequestIsTaken : Prop :=
  (∀ (s : State) (v : Word32) (rest : List HostAct),
    s.host = .write 0x020#32 v :: rest → s.seq.run = true →
    (v.getLsbD 1 = true → v.getLsbD 0 = false → v.getLsbD 2 = false →
      step s = .next { s with host := rest, seq := { s.seq with stopReq := true } }) ∧
    (v.getLsbD 0 = true ∨ v.getLsbD 2 = true →
      step s = .next (State.hazardSet { s with host := rest }))) ∧
  (∀ s : State, s.host = [] → s.seq.run = true → s.seq.stopReq = true →
    step s = .next { s with seq := { s.seq with
      run := false, stopReq := false, lastEnd := 3#2,
      irqStatus := s.seq.irqStatus ||| 0b00100#5 } })

/-- `40_control.md` R250, R256, R257: everything that a step of a running sequencer can do when it gives
a next state: complete a descriptor, halt, take a stop request, or stop with an error. -/
def Obligations.StepOfARunIsOneOfFour : Prop :=
  ∀ s t : State, s.host = [] → s.seq.run = true → step s = .next t →
    (∃ c : Counts, t.seq = completedSeq s.seq c ∧
      t.mem.getWord (dmemAddr (s.ptr + 3)) = some (c.produced ++ c.consumed)) ∨
    t = { s with seq := { s.seq with
      cmdCount := s.seq.cmdCount + 1#32, cmdPtr := s.seq.cmdPtr + 4#32, run := false,
      stopReq := false, lastEnd := 1#2, irqStatus := s.seq.irqStatus ||| 0b00001#5 } } ∨
    t = { s with seq := { s.seq with
      run := false, stopReq := false, lastEnd := 3#2,
      irqStatus := s.seq.irqStatus ||| 0b00100#5 } } ∨
    (∃ code info, t = s.stoppedWith code info)

/-- `40_control.md` R250: every run ends within `floor(DMEM_WORDS / 4) + 1` steps, unless the sequencer
reads a word that nothing has written (the model's fault, log 3); it is never refused. -/
def Obligations.EveryRunEnds : Prop :=
  ∀ s : State, s.par.legal = true → s.host = [] → s.seq.run = true →
    ∃ n, n ≤ s.par.dmemWords / 4 + 1 ∧
      ((∃ t, runSteps n s = .next t ∧ t.seq.run = false) ∨ (∃ r, runSteps n s = .fault r))

/-- `60_exceptions.md` R468: an idle sequencer keeps all state (that it is a step of the model is the
model's choice, log 14). -/
def Obligations.IdleSequencerKeepsAllState : Prop :=
  ∀ s : State, s.seq.run = false →
    (s.host = [] → step s = .next s) ∧
    (∀ rest, s.host = .wait :: rest → step s = .next { s with host := rest })

/-- `20_memory.md` R150 to R152, `10_state.md` R75, R107: the sequencer writes DMEM only; no step of it
changes a byte of COEF or PRE or an address past the end of DMEM. -/
def Obligations.SequencerWritesDmemOnly : Prop :=
  ∀ s t : State, s.host = [] → step s = .next t →
    ∀ a, a < dmemBase ∨ dmemAddr s.par.dmemWords ≤ a → t.mem.get a = s.mem.get a

/-- `40_control.md` R265 and the register rules of `10_state.md`: a command writes no configuration
register, no build parameter and nothing of the host's side; it writes only the carried state of the
units, the sequencer registers and the memory. -/
def Obligations.CommandsKeepConfiguration : Prop :=
  ∀ (i : Instr) (s t : State), exec i s = .next t →
    t = { s with
      seq := t.seq
      mem := t.mem
      agc := { s.agc with gain := t.agc.gain, ph := t.agc.ph }
      fir := { s.fir with dl := t.fir.dl }
      scr := { s.scr with state := t.scr.state, dstate := t.scr.dstate }
      cfc := { s.cfc with phase := t.cfc.phase, fest := t.cfc.fest, buf := t.cfc.buf }
      pll := { s.pll with phase := t.pll.phase, freq := t.pll.freq }
      sym := { s.sym with mu := t.sym.mu, cnt := t.sym.cnt, vi := t.sym.vi,
                          strobe := t.sym.strobe, h0 := t.sym.h0, h1 := t.sym.h1,
                          h2 := t.sym.h2, tb := t.sym.tb, prev := t.sym.prev }
      fs := { s.fs with outcome := t.fs.outcome, dl := t.fs.dl, raw := t.fs.raw,
                        mag := t.fs.mag } }

/-- `40_control.md` R251: what a start does, and that it leaves everything else. -/
def Obligations.StartBeginsARun : Prop :=
  ∀ (s : State) (v : Word32) (rest : List HostAct),
    s.host = .write 0x020#32 v :: rest → s.seq.run = false →
    v.getLsbD 0 = true → v.getLsbD 2 = false →
    step s = .next { s with
      host := rest
      seq := { s.seq with run := true, stopReq := false, cmdCount := 0#32, errCode := 0#8,
                          errPtr := 0#32, errInfo := 0#32 } }

/-- `40_control.md` R250, R251, `70_reset_and_hazards.md` R504: nothing but a host write of START to
`CTRL` makes an idle sequencer run. -/
def Obligations.OnlyAStartBeginsARun : Prop :=
  ∀ s t : State, s.seq.run = false → step s = .next t → t.seq.run = true →
    ∃ (v : Word32) (rest : List HostAct), s.host = .write 0x020#32 v :: rest ∧
      v.getLsbD 0 = true ∧ v.getLsbD 2 = false

/-! ### The invariant -/

/-- Every step of the machine, the host's and the sequencer's, keeps the invariant: the memory stays
canonical and inside its windows, every hidden list keeps its length (`10_state.md` R108 to R113), every
configuration register keeps its validation condition and derived value (R66 to R104), and the run
control registers agree (R55, R58). -/
def Obligations.EveryStepKeepsTheInvariant : Prop :=
  ∀ s t : State, s.Inv → step s = .next t → t.Inv

/-- The state after power-on has the invariant. -/
def Obligations.ResetHasTheInvariant : Prop := State.reset.Inv

/-! ### Resets and the host interface -/

/-- `10_state.md` R116, `70_reset_and_hazards.md` R500: after power-on, an external reset and a soft reset,
every register and hidden state element holds its value of the table, and the interrupt output is low. -/
def Obligations.EveryResetGivesTheTable : Prop :=
  HoldsResetValues State.reset ∧
  (∀ (s t : State) (rest : List HostAct), s.par.legal = true → s.host = .reset :: rest →
    step s = .next t → HoldsResetValues t) ∧
  (∀ (s t : State) (v : Word32) (rest : List HostAct), s.par.legal = true →
    s.host = .write 0x020#32 v :: rest → s.seq.run = false → v.getLsbD 2 = true →
    step s = .next t → HoldsResetValues t)

/-- `70_reset_and_hazards.md` R500, R501, R503: a soft reset and an external reset complete in every state
that can take one, and keep COEF and PRE; a soft reset and an external reset of an idle core keep DMEM
too; an external reset during a run makes the output and aux ranges of the descriptor at `CMD_PTR`, when
its checks pass, and its `W3` unwritten, and keeps every other byte. An unwritten byte of that descriptor
is taken with some value; at a pointer where no descriptor can be fetched nothing is lost (log 11). That
the host's further actions stay is the model's choice (log 24). -/
def Obligations.ResetsAndTheMemories : Prop :=
  (∀ (s : State) (v : Word32) (rest : List HostAct),
    s.host = .write 0x020#32 v :: rest → s.seq.run = false → v.getLsbD 2 = true →
    ∃ t, step s = .next t ∧ t.mem = s.mem ∧ t.host = rest) ∧
  (∀ (s : State) (rest : List HostAct), s.host = .reset :: rest →
    ∃ t, step s = .next t ∧ t.host = rest ∧
      (∀ a, a < dmemBase → t.mem.get a = s.mem.get a) ∧
      (s.seq.run = false → t.mem = s.mem) ∧
      (s.seq.run = true → s.ptr % 4 ≠ 0 ∨ s.par.dmemWords < s.ptr + 4 → t.mem = s.mem) ∧
      (s.seq.run = true → ∀ w0 w1 w2, DescriptorAt s w0 w1 w2 →
        CutBy s t (decodeWords w0 w1 w2)) ∧
      (s.seq.run = true → s.ptr % 4 = 0 → s.ptr + 4 ≤ s.par.dmemWords →
        ∃ w0 w1 w2, AgreesWith s.mem s.ptr w0 ∧ AgreesWith s.mem (s.ptr + 1) w1 ∧
          AgreesWith s.mem (s.ptr + 2) w2 ∧ CutBy s t (decodeWords w0 w1 w2)))

/-- The range checks of the integer registers: `10_state.md` R65, R69, R73, R74, R76, R95, R102, R103,
read as unsigned integers (R64); a write out of range is rejected as R63 says. -/
def Obligations.IntegerRegistersAreRangeChecked : Prop :=
  ∀ (s : State) (v : Word32), s.seq.run = false → s.host = [] →
    let write := fun offset => step { s with host := [.write offset v] }
    write 0x054#32 = .next (if v.toNat ≤ 1 then
      { s with modcfg := if v = 1#32 then .qpsk else .bpsk } else s.rejectedAt 0x054#12) ∧
    write 0x10C#32 = .next (if 1 ≤ v.toNat ∧ v.toNat ≤ s.par.maxAgcN then
      { s with agc := { s.agc with n := v } } else s.rejectedAt 0x10C#12) ∧
    write 0x200#32 = .next (if 1 ≤ v.toNat ∧ v.toNat ≤ s.par.maxDecFactor then
      { s with fir := { s.fir with factor := v } } else s.rejectedAt 0x200#12) ∧
    write 0x204#32 = .next (if 1 ≤ v.toNat ∧ v.toNat ≤ s.par.maxFirTaps then
      { s with fir := { s.fir with ntaps := v } } else s.rejectedAt 0x204#12) ∧
    write 0x300#32 = .next (if 1 ≤ v.toNat ∧ v.toNat ≤ 32 then
      { s with scr := { s.scr with len := v } } else s.rejectedAt 0x300#12) ∧
    write 0x600#32 = .next (if 2 ≤ v.toNat ∧ v.toNat ≤ s.par.maxSps then
      { s with sym := { s.sym with sps := v } } else s.rejectedAt 0x600#12) ∧
    write 0x700#32 = .next (if 1 ≤ v.toNat ∧ v.toNat ≤ s.par.maxPreLen ∧
        v.toNat ≤ s.fs.fsize.toNat then
      { s with fs := { s.fs with plen := v } } else s.rejectedAt 0x700#12) ∧
    write 0x704#32 = .next (if s.fs.plen.toNat ≤ v.toNat ∧ v.toNat ≤ s.par.fsyncCap then
      { s with fs := { s.fs with fsize := v } } else s.rejectedAt 0x704#12)

/-- The writes of the `f32` registers whose check names no loop gain and no rate: `10_state.md` R66 to
R68, R70, R85, R89 to R94, R97 to R100, R104, with the derived updates of R66 and R67. -/
def Obligations.FloatRegistersAreChecked : Prop :=
  ∀ (s : State) (v : Word32), s.seq.run = false → s.host = [] →
    let write := fun offset => step { s with host := [.write offset v] }
    write 0x100#32 = .next (if isfinite v ∧ fgt v fzero then
      { s with agc := { s.agc with ref := v, lnRef := fln s.par.trans v } }
      else s.rejectedAt 0x100#12) ∧
    write 0x104#32 = .next (if isfinite v then
      { s with agc := { s.agc with maxGain := v, gmax := fmul (fdiv v ftwenty) ln10 } }
      else s.rejectedAt 0x104#12) ∧
    write 0x108#32 = .next (if isfinite v ∧ fge v fzero then
      { s with agc := { s.agc with k := v } } else s.rejectedAt 0x108#12) ∧
    write 0x110#32 = .next (if isfinite v then
      { s with agc := { s.agc with gain := v } } else s.rejectedAt 0x110#12) ∧
    write 0x40C#32 = .next (if isfinite v then
      { s with cfc := { s.cfc with phase := v } } else s.rejectedAt 0x40C#12) ∧
    write 0x508#32 = .next (if isfinite v ∧ fle fzero v ∧ fle v fone then
      { s with pll := { s.pll with alpha := v } } else s.rejectedAt 0x508#12) ∧
    write 0x50C#32 = .next (if isfinite v ∧ fle fzero v ∧ fle v fone then
      { s with pll := { s.pll with beta := v } } else s.rejectedAt 0x50C#12) ∧
    write 0x510#32 = .next (if isfinite v ∧ fle v s.pll.maxf then
      { s with pll := { s.pll with minf := v } } else s.rejectedAt 0x510#12) ∧
    write 0x514#32 = .next (if isfinite v ∧ fge v s.pll.minf then
      { s with pll := { s.pll with maxf := v } } else s.rejectedAt 0x514#12) ∧
    write 0x518#32 = .next (if isfinite v then
      { s with pll := { s.pll with phase := v } } else s.rejectedAt 0x518#12) ∧
    write 0x51C#32 = .next (if isfinite v then
      { s with pll := { s.pll with freq := v } } else s.rejectedAt 0x51C#12) ∧
    write 0x610#32 = .next (if isfinite v ∧ fle fzero v ∧ fle v fone then
      { s with sym := { s.sym with alpha := v } } else s.rejectedAt 0x610#12) ∧
    write 0x614#32 = .next (if isfinite v ∧ fle fzero v ∧ fle v fone then
      { s with sym := { s.sym with beta := v } } else s.rejectedAt 0x614#12) ∧
    write 0x618#32 = .next (if isfinite v ∧ fle fzero v ∧ fle v fone then
      { s with sym := { s.sym with mu := v } } else s.rejectedAt 0x618#12) ∧
    write 0x61C#32 = .next (if isfinite v ∧ fle fzero v ∧ fle v fone then
      { s with sym := { s.sym with cnt := v } } else s.rejectedAt 0x61C#12) ∧
    write 0x620#32 = .next (if isfinite v then
      { s with sym := { s.sym with vi := v } } else s.rejectedAt 0x620#12) ∧
    write 0x708#32 = .next (if isfinite v ∧ fge v fzero then
      { s with fs := { s.fs with thresh := v } } else s.rejectedAt 0x708#12)

/-- `10_state.md` R87, R88, R96: a write of a loop bandwidth, damping or detector gain is accepted
exactly when it is in range and gives gains in range, and then derives both gains. -/
def Obligations.LoopGainsAreDerived : Prop :=
  ∀ (s : State) (v : Word32), s.seq.run = false → s.host = [] →
    let write := fun offset => step { s with host := [.write offset v] }
    let pll := fun bw damp => { s with pll := { s.pll with
      bw := bw, damp := damp, alpha := gainsAlpha bw damp fone, beta := gainsBeta bw damp fone } }
    let sym := fun bw damp kd => { s with sym := { s.sym with
      bw := bw, damp := damp, kd := kd, alpha := gainsAlpha bw damp kd,
      beta := gainsBeta bw damp kd } }
    let decided := fun (offset : Word32) (ok : Prop) (t : State) =>
      (ok → write offset = .next t) ∧
      (¬ ok → write offset = .next (s.rejectedAt (offset.setWidth 12)))
    decided 0x500#32 ((isfinite v ∧ fge v fzero) ∧
      GainsInRange (gainsAlpha v s.pll.damp fone) (gainsBeta v s.pll.damp fone))
      (pll v s.pll.damp) ∧
    decided 0x504#32 ((isfinite v ∧ fge v fzero) ∧
      GainsInRange (gainsAlpha s.pll.bw v fone) (gainsBeta s.pll.bw v fone)) (pll s.pll.bw v) ∧
    decided 0x604#32 ((isfinite v ∧ fge v fzero) ∧
      GainsInRange (gainsAlpha v s.sym.damp s.sym.kd) (gainsBeta v s.sym.damp s.sym.kd))
      (sym v s.sym.damp s.sym.kd) ∧
    decided 0x608#32 ((isfinite v ∧ fge v fzero) ∧
      GainsInRange (gainsAlpha s.sym.bw v s.sym.kd) (gainsBeta s.sym.bw v s.sym.kd))
      (sym s.sym.bw v s.sym.kd) ∧
    decided 0x60C#32 ((isfinite v ∧ fgt v fzero) ∧
      GainsInRange (gainsAlpha s.sym.bw s.sym.damp v) (gainsBeta s.sym.bw s.sym.damp v))
      (sym s.sym.bw s.sym.damp v)

/-- `10_state.md` R82 to R84: a write of a rate is accepted exactly when it is finite and positive, the
rounded ratio is finite and a power of two up to `MAX_FFT` is at or above it; `CFC_NFFT` is then the
least such power. -/
def Obligations.FftSizeIsTheLeastPowerOfTwo : Prop :=
  ∀ (s : State) (v : Word32) (n : Nat), s.seq.run = false → s.host = [] →
    let least := fun (r : F32) => isfinite r ∧ n ≤ s.par.maxFftLog2 ∧
      fle r (i2f ((2 ^ n : Nat) : Int)) ∧ ∀ k, k < n → fle r (i2f ((2 ^ k : Nat) : Int)) = false
    let none := fun (r : F32) => ¬ isfinite r ∨
      ∀ k, k ≤ s.par.maxFftLog2 → fle r (i2f ((2 ^ k : Nat) : Int)) = false
    (isfinite v ∧ fgt v fzero → least (fdiv v s.cfc.fres) →
      step { s with host := [.write 0x400#32 v] } = .next { s with cfc := { s.cfc with
        fs := v, nfft := BitVec.ofNat 32 (2 ^ n) } }) ∧
    (¬ (isfinite v ∧ fgt v fzero) ∨ none (fdiv v s.cfc.fres) →
      step { s with host := [.write 0x400#32 v] } = .next (s.rejectedAt 0x400#12)) ∧
    (isfinite v ∧ fgt v fzero → least (fdiv s.cfc.fs v) →
      step { s with host := [.write 0x404#32 v] } = .next { s with cfc := { s.cfc with
        fres := v, nfft := BitVec.ofNat 32 (2 ^ n) } }) ∧
    (¬ (isfinite v ∧ fgt v fzero) ∨ none (fdiv s.cfc.fs v) →
      step { s with host := [.write 0x404#32 v] } = .next (s.rejectedAt 0x404#12))

/-- `10_state.md` R50, R54, R60, R61, R77 to R80, R101: an accepted write of an RW or RWV register is what
a read then returns, in the bits the register has; a write of an RO register changes nothing; the WO
register `CTRL` reads 0, and a write of it with neither START nor SOFTRESET changes nothing of an idle
core; 1 bits clear `IRQ_STATUS` bits and 0 bits do not. -/
def Obligations.WritesAreReadBack : Prop :=
  ∀ (s : State) (r : Reg) (v : Word32), s.seq.run = false → s.host = [] →
    let offset := BitVec.ofNat 32 (regOffset r)
    ∃ t, step { s with host := [.write offset v] } = .next t ∧
      ((regAccess r = .rw ∨ regAccess r = .rwv) →
        (regRead t r = (if r = .irqEnable then v &&& 0x1F#32 else if r = .symStrobe then v &&& 1#32
            else v) ∧ t.seq.irqStatus = s.seq.irqStatus) ∨
        (regAccess r = .rwv ∧ t = s.rejectedAt (BitVec.ofNat 12 (regOffset r)))) ∧
      (regAccess r = .ro → t = s) ∧
      (regAccess r = .wo → r = .ctrl ∧
        step { t with host := [.read 0x020#32] } = .next { t with hostRdata := 0#32 } ∧
        (v.getLsbD 0 = false → v.getLsbD 2 = false → t = s)) ∧
      (r = .irqStatus →
        t = { s with seq := { s.seq with irqStatus := s.seq.irqStatus &&& ~~~(v.setWidth 5) } })

/-- `20_memory.md` R171: during a run a write of a non-live register, or anywhere inside the windows,
sets HAZ and does nothing else, and so does START or SOFTRESET; outside the control space and the
windows a write sets no flag. -/
def Obligations.WritesDuringARunAreHazards : Prop :=
  ∀ (s : State) (addr v : Word32) (rest : List HostAct), s.host = .write addr v :: rest →
    s.seq.run = true → addr.toNat % 4 = 0 →
    let window := (0x1000 ≤ addr.toNat ∧ addr.toNat < 0x3000) ∨
      (0x100000 ≤ addr.toNat ∧ addr.toNat < 0x100000 + 8 * s.par.dmemWords)
    ((∃ r, regOffset r = addr.toNat ∧ regLive r = false) ∨ window →
      step s = .next (State.hazardSet { s with host := rest })) ∧
    (0x1000 ≤ addr.toNat → ¬ window → step s = .next { s with host := rest }) ∧
    (addr = 0x020#32 → v.getLsbD 0 = true ∨ v.getLsbD 2 = true →
      step s = .next (State.hazardSet { s with host := rest }))

/-- `20_memory.md` R154: an access whose address is not 4-byte aligned reads zero, writes nothing and
sets no flag. That it does so during a run too, where R170 and R171 could be read to say otherwise, is
the model's reading (log 13). -/
def Obligations.MisalignedAccessIsIgnored : Prop :=
  ∀ (s : State) (addr v : Word32) (rest : List HostAct), addr.toNat % 4 ≠ 0 →
    (s.host = .write addr v :: rest → step s = .next { s with host := rest }) ∧
    (s.host = .read addr :: rest → step s = .next { s with host := rest, hostRdata := 0#32 })

/-- `20_memory.md` R153, R155: of an idle core, two writes of the halves of a COEF, PRE or DMEM word put
the word there, low half first, and change no other byte; each half then reads back. -/
def Obligations.HostWritesMemoryWords : Prop :=
  ∀ (s : State) (base k : Nat) (lo hi : Word32), s.seq.run = false →
    ((base = 0x1000 ∧ k < s.par.maxFirTaps) ∨ (base = 0x2000 ∧ k < s.par.maxPreLen) ∨
      (base = 0x100000 ∧ k < s.par.dmemWords)) → s.par.legal = true →
    let a := base + 8 * k
    ∃ t, runSteps 2 { s with host :=
        [.write (BitVec.ofNat 32 a) lo, .write (BitVec.ofNat 32 (a + 4)) hi] } = .next t ∧
      t = { s with host := [], mem := t.mem } ∧
      t.mem.getWord a = some (hi ++ lo) ∧
      (∀ x, x < a ∨ a + 8 ≤ x → t.mem.get x = s.mem.get x) ∧
      step { t with host := [.read (BitVec.ofNat 32 a)] } =
        .next { t with hostRdata := lo } ∧
      step { t with host := [.read (BitVec.ofNat 32 (a + 4))] } = .next { t with hostRdata := hi }

/-- `20_memory.md` R175 and `10_state.md` R50, R55: a read changes nothing but what the host has read; of
an idle core it returns the register, and 0 at an offset that no rule names; `STATUS` always returns
`RUN` in bit 0, `STOPREQ` in bit 1, `LAST_END` in bits 5 and 4, and 0 in the others. -/
def Obligations.ReadsHaveNoSideEffect : Prop :=
  ∀ (s : State) (addr : Word32) (rest : List HostAct), s.host = .read addr :: rest →
    (∃ v n, step s = .next { s with host := rest, hostRdata := v, draws := n }) ∧
    (∀ r, regOffset r = addr.toNat → s.seq.run = false ∨ regLive r = true →
      step s = .next { s with host := rest, hostRdata := regRead s r }) ∧
    (let status := s.seq.run.toNat + 2 * s.seq.stopReq.toNat + 16 * s.seq.lastEnd.toNat
     addr = 0x024#32 →
      step s = .next { s with host := rest, hostRdata := BitVec.ofNat 32 status }) ∧
    (addr.toNat < 0x1000 → (∀ r, regOffset r ≠ addr.toNat) → s.seq.run = false →
      step s = .next { s with host := rest, hostRdata := 0#32 })

/-- `10_state.md` R60, R61, `60_exceptions.md` R460, R461: the interrupt output is high exactly when a bit
is set in both `IRQ_STATUS` and `IRQ_ENABLE`; an `IRQ_STATUS` bit is cleared only by a write of 1 to it
or by a reset, and each is set only by its own event: DONE, ERR and STOPPED by the end of a run of that
kind, CFGREJ by a write of an idle core, HAZ by a write during a run. -/
def Obligations.InterruptBitsFollowTheirEvents : Prop :=
  (∀ s : State, s.irq = true ↔
    ∃ b, b < 5 ∧ s.seq.irqStatus.getLsbD b = true ∧ s.seq.irqEnable.getLsbD b = true) ∧
  ∀ (s t : State) (b : Nat), step s = .next t →
    (s.seq.irqStatus.getLsbD b = true → t.seq.irqStatus.getLsbD b = false →
      (∃ v rest, s.host = .write 0x048#32 v :: rest ∧ v.getLsbD b = true) ∨
      (∃ rest, s.host = .reset :: rest) ∨
      (∃ v rest, s.host = .write 0x020#32 v :: rest ∧ v.getLsbD 2 = true ∧ s.seq.run = false)) ∧
    (s.seq.irqStatus.getLsbD b = false → t.seq.irqStatus.getLsbD b = true →
      (b ≤ 2 ∧ s.seq.run = true ∧ t.seq.run = false ∧ t.seq.lastEnd.toNat = b + 1) ∨
      (b = 3 ∧ s.seq.run = false ∧ ∃ a v rest, s.host = .write a v :: rest ∧
        t = State.rejectedAt { s with host := rest } (a.setWidth 12)) ∨
      (b = 4 ∧ s.seq.run = true ∧ ∃ a v rest, s.host = .write a v :: rest ∧
        t = State.hazardSet { s with host := rest }))

/-! ### Operand checks -/

/-- `40_control.md` R261: the ranges of every block command. -/
def Obligations.OperandRangesAreTheTable : Prop :=
  ∀ (s : State) (dst src len aux maxout : Word32) (auxw : Bool),
    let aux? := fun n => if auxw then some (⟨aux.toNat, n⟩ : Range) else none
    let blocks := fun n x => some (⟨⟨src.toNat, len.toNat⟩, ⟨dst.toNat, n⟩, x⟩ : Blocks)
    instrBlocks s (.agc dst src len auxw aux) = blocks len.toNat (aux? len.toNat) ∧
    instrBlocks s (.firdec dst src len) = blocks (len.toNat / s.fir.factor.toNat) none ∧
    instrBlocks s (.scr dst src len) = blocks len.toNat none ∧
    instrBlocks s (.dscr dst src len) = blocks len.toNat none ∧
    instrBlocks s (.henc dst src len) = blocks (7 * (len.toNat / 4)) none ∧
    instrBlocks s (.hdec dst src len auxw aux) =
      blocks (4 * (len.toNat / 7)) (aux? (len.toNat / 7)) ∧
    instrBlocks s (.cfc dst src len auxw aux) = blocks len.toNat (aux? 1) ∧
    instrBlocks s (.pll dst src len) = blocks len.toNat none ∧
    instrBlocks s (.symsync dst src len maxout) =
      blocks (if 0 < maxout.toNat then min len.toNat maxout.toNat else len.toNat) none ∧
    instrBlocks s (.fsync dst src len auxw aux) = blocks s.fs.fsize.toNat (aux? 1)

/-- `40_control.md` R263, R264: for every block command, the first failing check in the order of the
rules decides the error stop, and where none fails there is no operand error. -/
def Obligations.OperandErrorsComeInOrder : Prop :=
  ∀ (s : State) (i : Instr) (b : Blocks), instrBlocks s i = some b →
    let d := s.descRange
    (¬ b.inp.Inside s.par → exec i s = .next (s.stoppedWith 4#8 1#32)) ∧
    (b.inp.Inside s.par → ¬ b.out.Inside s.par → exec i s = .next (s.stoppedWith 4#8 2#32)) ∧
    (b.inp.Inside s.par → b.out.Inside s.par →
      (∀ a, b.aux = some a → ¬ a.Inside s.par → exec i s = .next (s.stoppedWith 4#8 3#32)) ∧
      ((∀ a, b.aux = some a → a.Inside s.par) →
        (¬ b.inp.Apart b.out → exec i s = .next (s.stoppedWith 5#8 1#32)) ∧
        (b.inp.Apart b.out →
          (∀ a, b.aux = some a → ¬ b.inp.Apart a →
            exec i s = .next (s.stoppedWith 5#8 2#32)) ∧
          (∀ a, b.aux = some a → b.inp.Apart a → ¬ b.out.Apart a →
            exec i s = .next (s.stoppedWith 5#8 3#32)) ∧
          ((∀ a, b.aux = some a → b.inp.Apart a ∧ b.out.Apart a) →
            (¬ b.out.Apart d → exec i s = .next (s.stoppedWith 5#8 4#32)) ∧
            (b.out.Apart d → ∀ a, b.aux = some a → ¬ a.Apart d →
              exec i s = .next (s.stoppedWith 5#8 5#32)))))) ∧
    (OperandsFit s b → ∀ info,
      exec i s ≠ .next (s.stoppedWith 4#8 info) ∧ exec i s ≠ .next (s.stoppedWith 5#8 info))

/-- `45_cfc.md` R352 and `48_framesync.md` R424: the capacity errors, after the operand checks and before
anything changes. -/
def Obligations.CapacityIsChecked : Prop :=
  ∀ (s : State) (dst src len : Word32) (auxw : Bool) (aux : Word32),
    (OperandsFit s (cfcBlocks dst src len auxw aux) → s.cfc.nfft.toNat < len.toNat →
      exec (.cfc dst src len auxw aux) s = .next (s.stoppedWith 6#8 1#32)) ∧
    (OperandsFit s (fsBlocks s.fs dst src len auxw aux) →
      s.par.fsyncCap < s.fs.raw.length + len.toNat →
      exec (.fsync dst src len auxw aux) s = .next (s.stoppedWith 6#8 2#32))

/-- `20_memory.md` R164 (U3, log 3): a sequencer read of a word that nothing has written is a fault: of a
descriptor, of the words that a command consumes of its input block, of a coefficient and of the
preamble. Of a word of format B only the byte of bit 0 is read, and words that no sample or whole group
consumes are not read (log 26). -/
def Obligations.UnwrittenReadsAreFaults : Prop :=
  (∀ s : State, AtStep s → s.ptr % 4 = 0 → s.ptr + 4 ≤ s.par.dmemWords →
    s.mem.readBlock s.ptr 3 = none → step s = .fault .unwrittenDmem) ∧
  (∀ (s : State) (dst src len aux : Word32) (auxw : Bool),
    let stops := fun (i : Instr) => ∀ b, instrBlocks s i = some b → OperandsFit s b →
      CapacityFits s i → exec i s = .fault .unwrittenDmem
    let bits := s.mem.readBits src.toNat
    (s.mem.readBlock src.toNat len.toNat = none →
      stops (.agc dst src len auxw aux) ∧ stops (.firdec dst src len) ∧
      stops (.cfc dst src len auxw aux) ∧ stops (.pll dst src len) ∧
      stops (.symsync dst src len 0#32) ∧ stops (.fsync dst src len auxw aux)) ∧
    (bits len.toNat = none → stops (.scr dst src len) ∧ stops (.dscr dst src len)) ∧
    (bits (4 * (len.toNat / 4)) = none → stops (.henc dst src len)) ∧
    (bits (7 * (len.toNat / 7)) = none → stops (.hdec dst src len auxw aux))) ∧
  (∀ (s : State) (dst src len : Word32) (ws : List Word64),
    OperandsFit s (firBlocks s.fir dst src len) →
    s.mem.readBlock src.toNat len.toNat = some ws → len.toNat / s.fir.factor.toNat ≠ 0 →
    s.mem.readCoef 0 s.fir.ntaps.toNat = none →
    exec (.firdec dst src len) s = .fault .unwrittenCoef) ∧
  (∀ (s : State) (dst src len : Word32) (auxw : Bool) (aux : Word32) (ws : List Word64),
    OperandsFit s (fsBlocks s.fs dst src len auxw aux) →
    s.fs.raw.length + len.toNat ≤ s.par.fsyncCap →
    s.mem.readBlock src.toNat len.toNat = some ws → len ≠ 0#32 →
    s.mem.readPre 0 s.fs.plen.toNat = none →
    exec (.fsync dst src len auxw aux) s = .fault .unwrittenPre)

/-! ### The commands -/

/-- `40_control.md` R253: HALT counts, moves past itself, ends the run with kind 1, sets DONE, and leaves
everything else. -/
def Obligations.HaltEndsTheRun : Prop :=
  ∀ s : State, exec .halt s = .next { s with seq := { s.seq with
    cmdCount := s.seq.cmdCount + 1#32, cmdPtr := s.seq.cmdPtr + 4#32, run := false,
    stopReq := false, lastEnd := 1#2, irqStatus := s.seq.irqStatus ||| 0b00001#5 } }

/-- `40_control.md` R255, R256: NOP clears the results and its `W3`, and leaves everything else. -/
def Obligations.NopCompletes : Prop :=
  ∀ s : State, ∃ t, exec .nop s = .next t ∧ CompletesControl s t ∧
    t = { s with seq := t.seq, mem := t.mem }

/-- `40_control.md` R254: URST gives the carried state of the named unit, or of every unit, its reset
value, the histories their seed `INIT_E`, and keeps everything else. -/
def Obligations.UrstResetsTheNamedUnit : Prop :=
  ∀ s : State,
    let z : C32 := ⟨0#32, 0#32⟩
    let seed := s.scr.init &&& BitVec.ofNat 32 (2 ^ s.scr.len.toNat - 1)
    let agc := { s.agc with gain := 0#32, ph := List.replicate s.par.maxAgcN 0#32 }
    let fir := { s.fir with dl := List.replicate (s.par.maxFirTaps - 1) z }
    let cfc := { s.cfc with buf := List.replicate (2 ^ s.par.maxFftLog2) z, phase := 0#32,
                            fest := 0#32 }
    let pll := { s.pll with phase := 0#32, freq := 0#32 }
    let sym := { s.sym with mu := 0#32, cnt := 0#32, vi := 0#32, strobe := false, h0 := z, h1 := z,
                            h2 := z, tb := List.replicate s.par.maxSps z, prev := z }
    let fs := { s.fs with dl := List.replicate (s.par.maxPreLen - 1) z, raw := [], mag := [],
                          outcome := .search }
    let does := fun (u : UnitSel) (r : State) => ∃ t, exec (.urst u) s = .next t ∧
      CompletesControl s t ∧ t = { r with seq := t.seq, mem := t.mem }
    does .agc { s with agc := agc } ∧
    does .fir { s with fir := fir } ∧
    does .scr { s with scr := { s.scr with state := seed } } ∧
    does .dscr { s with scr := { s.scr with dstate := seed } } ∧
    does .cfc { s with cfc := cfc } ∧
    does .pll { s with pll := pll } ∧
    does .sym { s with sym := sym } ∧
    does .fsync { s with fs := fs } ∧
    does .all { s with agc := agc, fir := fir, scr := { s.scr with state := seed, dstate := seed },
                       cfc := cfc, pll := pll, sym := sym, fs := fs }

/-- `41_agc.md` R271 to R273: the outputs, the error trace, the gain and the powers that AGC leaves, each
sample's power estimate taken over the window of the last `N` powers; every other state element and
every other byte is as before. That an estimate of 0 with `K > 0` sets even a NaN gain to `GMAX` is the
model's choice between the pseudocode of R271, which it follows, and the corner case of R271 (log 28),
and so is what a second infinite power, or a NaN sample with `K = 0`, does to the gain (log 32).
`AGC_PH` has its `MAX_AGC_N >= N` entries in every state that keeps the invariant. -/
def Obligations.AgcComputesTheLoop : Prop :=
  ∀ (s : State) (dst src len : Word32) (auxw : Bool) (aux : Word32) (ws : List Word64),
    OperandsFit s (agcBlocks dst src len auxw aux) →
    s.mem.readBlock src.toNat len.toNat = some ws →
    s.agc.ph.length = s.par.maxAgcN → s.agc.n.toNat ≤ s.par.maxAgcN →
    let x := fun i => complexOf (ws.getD i 0#64)
    let power := windowAt fzero (ws.map fun w => cabs2 (complexOf w)) s.agc.ph
    let c := fdiv fone (i2f s.agc.n.toNat)
    let p := fun i => (List.range s.agc.n.toNat).foldl
      (fun a k => fadd a (fmul c (power i k))) fzero
    ∃ (t : State) (g err : Nat → F32), exec (.agc dst src len auxw aux) s = .next t ∧
      g 0 = s.agc.gain ∧
      (∀ i, i < len.toNat →
        (feq (p i) fzero = true → err i = 0x7F800000#32 ∧
          g (i + 1) = if fgt s.agc.k fzero then s.agc.gmax else g i) ∧
        (feq (p i) fzero = false →
          err i = fsub s.agc.lnRef (fadd (fln s.par.trans (p i)) (fmul ftwo (g i))) ∧
          g (i + 1) = if fgt s.agc.k fzero then
            fmin (fadd (g i) (fmul s.agc.k (err i))) s.agc.gmax else g i)) ∧
      Completes s t (agcBlocks dst src len auxw aux)
        ((List.range len.toNat).map fun i => wordOfC (cscale (fexp s.par.trans (g i)) (x i)))
        ((List.range len.toNat).map fun i => wordOfR (err i)) ⟨len, len, 0#32⟩ ∧
      t = { s with seq := t.seq, mem := t.mem, agc := { s.agc with
        gain := g len.toNat,
        ph := (List.range s.par.maxAgcN).map fun m => power len.toNat (m + 1) } }

/-- `42_fir.md` R291, R292: output `j` of FIRDEC is the filter sum at input `j * F`, over the window that
reaches into the delay line; the delay line then holds the newest inputs. The taps are read only
where an output is computed (log 5). `FIR_DL` has its `MAX_FIR_TAPS - 1` entries, and `NT` is at most
`MAX_FIR_TAPS`, in every state that keeps the invariant. -/
def Obligations.FirdecFiltersAndDecimates : Prop :=
  ∀ (s : State) (dst src len : Word32) (ws coef : List Word64),
    OperandsFit s (firBlocks s.fir dst src len) →
    s.mem.readBlock src.toNat len.toNat = some ws →
    let nout := len.toNat / s.fir.factor.toNat
    (nout ≠ 0 → s.mem.readCoef 0 s.fir.ntaps.toNat = some coef) →
    s.fir.dl.length = s.par.maxFirTaps - 1 → s.fir.ntaps.toNat ≤ s.par.maxFirTaps →
    1 ≤ s.par.maxFirTaps →
    let w := windowAt czero (ws.map complexOf) s.fir.dl
    let y := fun i => (List.range s.fir.ntaps.toNat).foldl
      (fun acc k => cadd acc (cmul (complexOf (coef.getD k 0#64)) (w i k))) czero
    ∃ t, exec (.firdec dst src len) s = .next t ∧
      Completes s t (firBlocks s.fir dst src len)
        ((List.range nout).map fun j => wordOfC (y (j * s.fir.factor.toNat))) []
        ⟨len, BitVec.ofNat 32 nout, 0#32⟩ ∧
      t = { s with seq := t.seq, mem := t.mem, fir := { s.fir with
        dl := (List.range (s.par.maxFirTaps - 1)).map fun m => w len.toNat (m + 1) } }

/-- `43_scrambler.md` R310, `00_scope.md` R8: SCR outputs each bit XOR the parity of the tapped history,
and pushes its output. -/
def Obligations.ScrScrambles : Prop :=
  ∀ (s : State) (dst src len : Word32) (bs : List Bool),
    OperandsFit s (scrBlocks dst src len) → s.mem.readBits src.toNat len.toNat = some bs →
    let mask := BitVec.ofNat 32 (2 ^ s.scr.len.toNat - 1)
    ∃ (t : State) (hist : Nat → Word32) (y : Nat → Bool), exec (.scr dst src len) s = .next t ∧
      hist 0 = s.scr.state &&& mask ∧
      (∀ i, i < len.toNat →
        y i = (bs.getD i false ^^ oddOnes (hist i &&& (s.scr.poly &&& mask))) ∧
        hist (i + 1) = ((hist i <<< 1) ||| (BitVec.ofBool (y i)).setWidth 32) &&& mask) ∧
      Completes s t (scrBlocks dst src len) ((List.range len.toNat).map fun i => wordOfB (y i)) []
        ⟨len, len, 0#32⟩ ∧
      t = { s with seq := t.seq, mem := t.mem, scr := { s.scr with state := hist len.toNat } }

/-- `43_scrambler.md` R311, `00_scope.md` R8: DSCR computes the same parity and pushes its input. -/
def Obligations.DscrDescrambles : Prop :=
  ∀ (s : State) (dst src len : Word32) (bs : List Bool),
    OperandsFit s (scrBlocks dst src len) → s.mem.readBits src.toNat len.toNat = some bs →
    let mask := BitVec.ofNat 32 (2 ^ s.scr.len.toNat - 1)
    ∃ (t : State) (hist : Nat → Word32), exec (.dscr dst src len) s = .next t ∧
      hist 0 = s.scr.dstate &&& mask ∧
      (∀ i, i < len.toNat →
        hist (i + 1) = ((hist i <<< 1) |||
          (BitVec.ofBool (bs.getD i false)).setWidth 32) &&& mask) ∧
      Completes s t (scrBlocks dst src len) ((List.range len.toNat).map fun i =>
          wordOfB (bs.getD i false ^^ oddOnes (hist i &&& (s.scr.poly &&& mask)))) []
        ⟨len, len, 0#32⟩ ∧
      t = { s with seq := t.seq, mem := t.mem, scr := { s.scr with dstate := hist len.toNat } }

/-- `44_fec.md` R331, R333: HENC writes the codeword of every whole group, `c[i] = d[i]` and
`c[4 + j]` the XOR of `d[i] AND P[i][j]`; it carries no state. Only the bits of the whole groups need to
be written (log 26). -/
def Obligations.HencEncodesGroups : Prop :=
  ∀ (s : State) (dst src len : Word32) (bs : List Bool),
    let G := len.toNat / 4
    OperandsFit s (hencBlocks dst src len) → s.mem.readBits src.toNat (4 * G) = some bs →
    let d := fun g i => bs.getD (4 * g + i) false
    let P := fun i j => s.par.hammingP.getLsbD (3 * i + j)
    let c := fun g k => if k < 4 then d g k else
      ((d g 0 && P 0 (k - 4)) ^^ (d g 1 && P 1 (k - 4)) ^^ (d g 2 && P 2 (k - 4)) ^^
        (d g 3 && P 3 (k - 4)))
    ∃ t, exec (.henc dst src len) s = .next t ∧
      Completes s t (hencBlocks dst src len)
        ((List.range (7 * G)).map fun n => wordOfB (c (n / 7) (n % 7))) []
        ⟨BitVec.ofNat 32 (4 * G), BitVec.ofNat 32 (7 * G), BitVec.ofNat 32 G⟩ ∧
      t = { s with seq := t.seq, mem := t.mem }

/-- `44_fec.md` R332, R334, R335: HDEC corrects, in every whole group, the bit at the least column of `H`
that equals a non-zero syndrome, writes the data bits and the index or -1, and counts the groups
corrected; it carries no state. Only the bits of the whole groups need to be written (log 26). -/
def Obligations.HdecDecodesGroups : Prop :=
  ∀ (s : State) (dst src len : Word32) (auxw : Bool) (aux : Word32) (bs : List Bool),
    let G := len.toNat / 7
    s.par.legal = true → OperandsFit s (hdecBlocks dst src len auxw aux) →
    s.mem.readBits src.toNat (7 * G) = some bs →
    let c := fun g k => bs.getD (7 * g + k) false
    let H := fun j k => if k < 4 then s.par.hammingP.getLsbD (3 * k + j) else decide (k = 4 + j)
    let syn := fun g j => (List.range 7).foldl (fun b k => b ^^ (H j k && c g k)) false
    let matching := fun g k => ∀ j, j < 3 → H j k = syn g j
    ∃ (t : State) (idx : Nat → Option Nat), exec (.hdec dst src len auxw aux) s = .next t ∧
      (∀ g, g < G → match idx g with
        | none => ∀ j, j < 3 → syn g j = false
        | some k => (∃ j, j < 3 ∧ syn g j = true) ∧ k < 7 ∧ matching g k ∧
            ∀ k', k' < k → ¬ matching g k') ∧
      Completes s t (hdecBlocks dst src len auxw aux)
        ((List.range (4 * G)).map fun n =>
          wordOfB (c (n / 4) (n % 4) ^^ decide (idx (n / 4) = some (n % 4))))
        ((List.range G).map fun g => match idx g with
          | none => 0xFFFFFFFFFFFFFFFF#64
          | some k => BitVec.ofNat 64 k)
        ⟨BitVec.ofNat 32 (7 * G), BitVec.ofNat 32 (4 * G),
          BitVec.ofNat 32 ((List.range G).countP fun g => (idx g).isSome)⟩ ∧
      t = { s with seq := t.seq, mem := t.mem }

/-- `45_cfc.md` R351: CFC enters the `M`-th powers, takes the first greatest bin of the spectrum of the
`N` newest, oldest first, and rotates the block by the phase that advances by the estimate. `CFC_BUF`
has its `MAX_FFT` entries in every state that keeps the invariant. -/
def Obligations.CfcEstimatesAndRotates : Prop :=
  ∀ (s : State) (dst src len : Word32) (auxw : Bool) (aux : Word32) (ws : List Word64),
    OperandsFit s (cfcBlocks dst src len auxw aux) → len.toNat ≤ s.cfc.nfft.toNat →
    s.mem.readBlock src.toNat len.toNat = some ws →
    s.cfc.buf.length = s.par.maxFft → 1 ≤ s.cfc.nfft.toNat → s.cfc.nfft.toNat ≤ s.par.maxFft →
    let N := s.cfc.nfft.toNat
    let x := fun i => complexOf (ws.getD i 0#64)
    let M : Nat := if s.modcfg = .bpsk then 2 else 4
    let xm := fun (z : C32) => if M = 2 then cmul z z else cmul (cmul z z) (cmul z z)
    let entry := fun m =>
      windowAt czero (ws.map fun w => xm (complexOf w)) s.cfc.buf len.toNat (m + 1)
    let mag := specmag s.par.specmag N ((List.range N).map fun n => entry (N - 1 - n))
    ∃ (t : State) (kp : Nat) (phi : Nat → F32), exec (.cfc dst src len auxw aux) s = .next t ∧
      (kp < N ∧ ∃ best : Nat → Nat, best 0 = 0 ∧ best (N - 1) = kp ∧ ∀ k, 1 ≤ k → k < N →
        best k = if fgt (mag.getD k fzero) (mag.getD (best (k - 1)) fzero) then k
          else best (k - 1)) ∧
      (let ks : Int := if 2 * kp < N then (kp : Int) else (kp : Int) - (N : Int)
       let fest := fdiv (fdiv (fmul (i2f ks) s.cfc.fs) (i2f N)) (i2f M)
       let w := fdiv (fmul twoPi fest) s.cfc.fs
       phi 0 = s.cfc.phase ∧ (∀ i, i < len.toNat → phi (i + 1) = wrap (fadd (phi i) w)) ∧
       Completes s t (cfcBlocks dst src len auxw aux)
         ((List.range len.toNat).map fun i => wordOfC (rot s.par.trans (x i) (phi i)))
         [wordOfR fest] ⟨len, len, fest⟩ ∧
       t = { s with seq := t.seq, mem := t.mem, cfc := { s.cfc with
         phase := phi len.toNat, fest := fest,
         buf := (List.range s.par.maxFft).map entry } })

/-- `46_pll.md` R371: each output is the input rotated by the phase before its update; the phase takes
the frequency before the clamp. Twice this is the model's choice of the pseudocode of R371 against its
corner cases: the BPSK error of a sample with `y.re` a zero is the product `+0.0 * y.im`, not always `+0`
(log 29), and an infinite error leaves the phase and the frequency what the formulas give, not always a
NaN (log 30). -/
def Obligations.PllTracksThePhase : Prop :=
  ∀ (s : State) (dst src len : Word32) (ws : List Word64),
    OperandsFit s (pllBlocks dst src len) → s.mem.readBlock src.toNat len.toNat = some ws →
    ∃ (t : State) (phi f e : Nat → F32) (y : Nat → C32), exec (.pll dst src len) s = .next t ∧
      phi 0 = s.pll.phase ∧ f 0 = s.pll.freq ∧
      (∀ i, i < len.toNat →
        y i = rot s.par.trans (complexOf (ws.getD i 0#64)) (phi i) ∧
        e i = (if s.modcfg = .bpsk then fmul (sgn (y i).re) (y i).im
          else fsub (fmul (sgn (y i).re) (y i).im) (fmul (sgn (y i).im) (y i).re)) ∧
        (let f' := fadd (f i) (fmul s.pll.beta (e i))
         phi (i + 1) = wrap (fadd (phi i) (fadd f' (fmul s.pll.alpha (e i)))) ∧
         f (i + 1) = if flt f' s.pll.minf then s.pll.minf
           else if fgt f' s.pll.maxf then s.pll.maxf else f')) ∧
      Completes s t (pllBlocks dst src len) ((List.range len.toNat).map fun i => wordOfC (y i)) []
        ⟨len, len, 0#32⟩ ∧
      t = { s with seq := t.seq, mem := t.mem,
                   pll := { s.pll with phase := phi len.toNat, freq := f len.toNat } }

/-- `47_symsync.md` R391: the interpolants, the timing loop and the strobes of SYMSYNC, sample by sample,
the symbols it writes, and where the cap stops it. `ws` are the words of the block that can be read: all
of them, or those up to an unwritten one, which is a fault unless the cap stops the block before it (log
26). That a step `W` of minus infinity does not strobe, keeps `mu` and makes `cnt` NaN is the model's
choice of the pseudocode of R391, between two of its corner cases (log 31). `SYM_TB` has its `MAX_SPS`
entries and `2 <= SYM_SPS <= MAX_SPS` in every state that keeps the invariant. -/
def Obligations.SymsyncInterpolatesAndStrobes : Prop :=
  ∀ (s : State) (dst src len maxout : Word32) (ws : List Word64),
    OperandsFit s (symBlocks dst src len maxout) →
    ws.length ≤ len.toNat → s.mem.readBlock src.toNat ws.length = some ws →
    s.sym.tb.length = s.par.maxSps → 2 ≤ s.sym.sps.toNat → s.sym.sps.toNat ≤ s.par.maxSps →
    let C := maxout.toNat
    let h := windowAt czero (ws.map complexOf) [s.sym.h0, s.sym.h1, s.sym.h2]
    ∃ (used : Nat) (z prev : Nat → C32) (mu cnt vi : Nat → F32) (strobe : Nat → Bool),
      used ≤ ws.length ∧
      mu 0 = s.sym.mu ∧ cnt 0 = s.sym.cnt ∧ vi 0 = s.sym.vi ∧ strobe 0 = s.sym.strobe ∧
      prev 0 = s.sym.prev ∧
      (let tb := windowAt czero ((List.range used).map z) s.sym.tb
       let emitted := fun n => (List.range n).filter strobe
       (∀ i, i < used →
         (let c1 := cscale fhalf (csub (h i 0) (h i 2))
          let c2 := csub (cscale fhalf (cadd (h i 0) (h i 2))) (h i 1)
          z i = cadd (cscale (mu i) (cadd (cscale (mu i) c2) c1)) (h i 1)) ∧
         (let m := tb i (s.sym.sps.toNat / 2)
          let re := fmul m.re (fsub (sgn (z i).re) (sgn (prev i).re))
          let im := fmul m.im (fsub (sgn (z i).im) (sgn (prev i).im))
          let e := if strobe i then (if s.modcfg = .bpsk then re else fadd re im) else fzero
          let W := fadd (fdiv fone (i2f s.sym.sps.toNat))
            (fadd (vi (i + 1)) (fmul s.sym.alpha e))
          prev (i + 1) = (if strobe i then z i else prev i) ∧
          vi (i + 1) = fadd (vi i) (fmul s.sym.beta e) ∧
          strobe (i + 1) = flt (cnt i) W ∧
          mu (i + 1) = (if flt (cnt i) W then fdiv (cnt i) W else mu i) ∧
          cnt (i + 1) = (let v := fsub (cnt i) W; fsub v (ffloor v)))) ∧
       (C = 0 → used = ws.length) ∧
       (0 < C → (∀ i, i < used → (emitted i).length < C) ∧
         (used < ws.length → (emitted used).length = C)) ∧
       (ws.length = len.toNat ∨ (0 < C ∧ (emitted used).length = C) →
         ∃ t, exec (.symsync dst src len maxout) s = .next t ∧
           Completes s t (symBlocks dst src len maxout)
             ((emitted used).map fun i => wordOfC (z i)) []
             ⟨BitVec.ofNat 32 used, BitVec.ofNat 32 (emitted used).length, 0#32⟩ ∧
           t = { s with seq := t.seq, mem := t.mem, sym := { s.sym with
             mu := mu used, cnt := cnt used, vi := vi used, strobe := strobe used,
             prev := prev used, h0 := h used 1, h1 := h used 2, h2 := h used 3,
             tb := (List.range s.par.maxSps).map fun k => tb used (k + 1) } }) ∧
       (ws.length < len.toNat → C = 0 ∨ (emitted used).length < C →
         s.mem.getWord (dmemAddr (src.toNat + ws.length)) = none →
         exec (.symsync dst src len maxout) s = .fault .unwrittenDmem))

/-- `48_framesync.md` R421: the correlator, the candidates and the four outcomes of FSYNC. `FS_DL` has
its `MAX_PRE_LEN - 1` entries, the two buffers are alike in length and `1 <= FS_PLEN <= FS_FSIZE` and
`FS_PLEN <= MAX_PRE_LEN`, in every state that keeps the invariant. The preamble is read only for a
block that is not empty (log 5). -/
def Obligations.FsyncFindsFrames : Prop :=
  ∀ (s : State) (dst src len : Word32) (auxw : Bool) (aux : Word32) (ws pre : List Word64),
    OperandsFit s (fsBlocks s.fs dst src len auxw aux) →
    s.fs.raw.length + len.toNat ≤ s.par.fsyncCap →
    s.mem.readBlock src.toNat len.toNat = some ws →
    (len ≠ 0#32 → s.mem.readPre 0 s.fs.plen.toNat = some pre) →
    s.fs.dl.length = s.par.maxPreLen - 1 → s.fs.plen.toNat ≤ s.par.maxPreLen →
    s.fs.mag.length = s.fs.raw.length →
    1 ≤ s.fs.plen.toNat → s.fs.plen.toNat ≤ s.fs.fsize.toNat →
    let P := s.fs.plen.toNat
    let F := s.fs.fsize.toNat
    let w := windowAt czero (ws.map complexOf) s.fs.dl
    let corr := fun i => (List.range P).foldl (fun acc k =>
      cadd acc (cmul (cconj (complexOf (pre.getD (P - 1 - k) 0#64))) (w i k))) czero
    let raw := s.fs.raw ++ ws.map complexOf
    let mag := s.fs.mag ++ (List.range len.toNat).map fun i => cabs (corr i)
    let B := raw.length
    ∃ t, exec (.fsync dst src len auxw aux) s = .next t ∧
      (let ends := fun (o : FsOutcome) (code : Word32) (drop : Nat) (frame : List C32) =>
        Completes s t (fsBlocks s.fs dst src len auxw aux) (frame.map wordOfC)
          [code.setWidth 64] ⟨len, if code = 3#32 then s.fs.fsize else 0#32, code⟩ ∧
        t = { s with seq := t.seq, mem := t.mem, fs := { s.fs with
          outcome := o, raw := raw.drop drop, mag := mag.drop drop,
          dl := (List.range (s.par.maxPreLen - 1)).map fun m => w len.toNat (m + 1) } }
       ((∀ j, j < B → fge (mag.getD j fzero) s.fs.thresh = false) ∧
         ends .search 0#32 (B - min B (P - 1)) []) ∨
       ∃ i0 best, FirstCandidate s.fs.thresh mag i0 ∧ BestCandidate s.fs.thresh F mag i0 best ∧
         ((best + 1 < P ∧ ends .premature 2#32 (best + 1) []) ∨
          (P ≤ best + 1 ∧ B < best + 1 - P + F ∧ ends .incomplete 1#32 (best + 1 - P) []) ∨
          (P ≤ best + 1 ∧ best + 1 - P + F ≤ B ∧
            ends .emit 3#32 (best + 1 - P + F) ((raw.drop (best + 1 - P)).take F))))

/-! ### Properties of the units -/

/-- `43_scrambler.md` R313: with equal histories at the start, DSCR of what SCR wrote gives back the input
bits of SCR, and leaves equal histories. -/
def Obligations.DescramblerInvertsScrambler : Prop :=
  ∀ (s : State) (mid dst src len : Word32) (bs : List Bool),
    OperandsFit s (scrBlocks mid src len) → s.mem.readBits src.toNat len.toNat = some bs →
    (let mask := BitVec.ofNat 32 (2 ^ s.scr.len.toNat - 1)
     s.scr.state &&& mask = s.scr.dstate &&& mask) →
    ∃ t, exec (.scr mid src len) s = .next t ∧
      (OperandsFit t (scrBlocks dst mid len) →
        ∃ u, exec (.dscr dst mid len) t = .next u ∧
          HoldsWords u.mem dst.toNat (bs.map wordOfB) ∧
          u.scr.dstate = u.scr.state)

/-- `43_scrambler.md` R314, `46_pll.md` R374, `41_agc.md` R273, `42_fir.md` R294, `47_symsync.md` R397: a
block given to SCR, DSCR, PLL, AGC, SYMSYNC without a cap, or FIRDEC with factor 1, in two commands gives
the outputs and the unit state that it gives in one. `s` is before the whole block and `t` before its
second part; they may differ in anything but the unit and what it reads. -/
def Obligations.SplitBlocksGiveTheSameStream : Prop :=
  ∀ (s t : State) (xs ys : List Word64) (n m : Word32) (taps : List C32), n.toNat = xs.length →
    m.toNat = ys.length → (n + m).toNat = xs.length + ys.length →
    t.par = s.par → t.modcfg = s.modcfg →
    let bs := xs.map fun w => w.getLsbD 0
    let cs := ys.map fun w => w.getLsbD 0
    (t.scr = (scrEffect n s bs).st.scr →
      (scrEffect (n + m) s (bs ++ cs)).out = (scrEffect n s bs).out ++ (scrEffect m t cs).out ∧
      (scrEffect (n + m) s (bs ++ cs)).st.scr = (scrEffect m t cs).st.scr) ∧
    (t.scr = (dscrEffect n s bs).st.scr →
      (dscrEffect (n + m) s (bs ++ cs)).out = (dscrEffect n s bs).out ++ (dscrEffect m t cs).out ∧
      (dscrEffect (n + m) s (bs ++ cs)).st.scr = (dscrEffect m t cs).st.scr) ∧
    (t.pll = (pllEffect n s xs).st.pll →
      (pllEffect (n + m) s (xs ++ ys)).out = (pllEffect n s xs).out ++ (pllEffect m t ys).out ∧
      (pllEffect (n + m) s (xs ++ ys)).st.pll = (pllEffect m t ys).st.pll) ∧
    (t.agc = (agcEffect n s xs).st.agc →
      (agcEffect (n + m) s (xs ++ ys)).out = (agcEffect n s xs).out ++ (agcEffect m t ys).out ∧
      (agcEffect (n + m) s (xs ++ ys)).aux = (agcEffect n s xs).aux ++ (agcEffect m t ys).aux ∧
      (agcEffect (n + m) s (xs ++ ys)).st.agc = (agcEffect m t ys).st.agc) ∧
    (t.sym = (symEffect 0#32 s xs).st.sym →
      (symEffect 0#32 s (xs ++ ys)).out =
        (symEffect 0#32 s xs).out ++ (symEffect 0#32 t ys).out ∧
      (symEffect 0#32 s (xs ++ ys)).st.sym = (symEffect 0#32 t ys).st.sym) ∧
    (s.fir.factor = 1#32 → t.fir = (firEffect n s taps xs).st.fir →
      (firEffect (n + m) s taps (xs ++ ys)).out =
        (firEffect n s taps xs).out ++ (firEffect m t taps ys).out ∧
      (firEffect (n + m) s taps (xs ++ ys)).st.fir = (firEffect m t taps ys).st.fir)

/-- `47_symsync.md` R397: after a SYMSYNC that its cap stopped, giving the unconsumed rest to an uncapped
one produces the symbols and the unit state that one uncapped command produces. -/
def Obligations.CappedSymsyncCanBeResumed : Prop :=
  ∀ (s t u v : State) (dst dst2 src src2 len rest maxout : Word32) (ws : List Word64),
    t.par = s.par → t.modcfg = s.modcfg → t.sym = s.sym →
    OperandsFit s (symBlocks dst src len maxout) → OperandsFit t (symBlocks dst2 src2 len 0#32) →
    s.mem.readBlock src.toNat len.toNat = some ws →
    t.mem.readBlock src2.toNat len.toNat = some ws →
    exec (.symsync dst src len maxout) s = .next u →
    exec (.symsync dst2 src2 len 0#32) t = .next v →
    ∀ (s2 : State) (dst3 src3 : Word32),
      s2.par = s.par → s2.modcfg = s.modcfg → s2.sym = u.sym →
      rest.toNat = len.toNat - u.seq.resConsumed.toNat →
      OperandsFit s2 (symBlocks dst3 src3 rest 0#32) →
      s2.mem.readBlock src3.toNat rest.toNat = some (ws.drop u.seq.resConsumed.toNat) →
      ∃ w, exec (.symsync dst3 src3 rest 0#32) s2 = .next w ∧ w.sym = v.sym ∧
        w.seq.resConsumed = rest ∧
        ∃ zs1 zs2 : List Word64,
          HoldsWords u.mem dst.toNat zs1 ∧ zs1.length = u.seq.resProduced.toNat ∧
          HoldsWords w.mem dst3.toNat zs2 ∧ zs2.length = w.seq.resProduced.toNat ∧
          HoldsWords v.mem dst2.toNat (zs1 ++ zs2) ∧
          zs1.length + zs2.length = v.seq.resProduced.toNat

/-- `41_agc.md` R274: with the gain at or below its limit before the command and `K > 0`, the gain after
any AGC command is at or below the limit or a NaN. -/
def Obligations.AgcGainStaysBelowItsLimit : Prop :=
  ∀ (s t : State) (dst src len : Word32) (auxw : Bool) (aux : Word32),
    fgt s.agc.k fzero = true → fle s.agc.gain s.agc.gmax = true →
    exec (.agc dst src len auxw aux) s = .next t →
    fle t.agc.gain t.agc.gmax = true ∨ isnan t.agc.gain = true

/-- `44_fec.md` R336: for every legal parity part, every data group and every bit position, decoding the
codeword with that bit flipped gives the group and the position; unflipped, the group and none. -/
def Obligations.SingleBitErrorsAreCorrected : Prop :=
  ∀ p : Params, p.legalHamming = true → ∀ d0 d1 d2 d3 : Bool,
    hammingDecode p (hammingEncode p d0 d1 d2 d3) = ([d0, d1, d2, d3], none) ∧
    ∀ k, k < 7 →
      hammingDecode p (flipAt k (hammingEncode p d0 d1 d2 d3)) = ([d0, d1, d2, d3], some k)

/-- `44_fec.md` R333, R335, R336 at the machine: an HDEC block that holds the codewords of `data`, each
with at most one bit flipped, gives back `data`, reports each flipped position or -1, and counts the
flips. -/
def Obligations.FecLinkCorrectsOneErrorPerGroup : Prop :=
  ∀ (s : State) (dst src len : Word32) (auxw : Bool) (aux : Word32) (bs : List Bool)
    (data : Nat → Nat → Bool) (flip : Nat → Option Nat) (G : Nat),
    s.par.legal = true → len.toNat = 7 * G →
    OperandsFit s (hdecBlocks dst src len auxw aux) →
    s.mem.readBits src.toNat len.toNat = some bs →
    (∀ g, g < G → ∀ k, flip g = some k → k < 7) →
    (∀ g, g < G → ∀ k, k < 7 → bs.getD (7 * g + k) false =
      ((hammingEncode s.par (data g 0) (data g 1) (data g 2) (data g 3)).getD k false ^^
        decide (flip g = some k))) →
    ∃ t, exec (.hdec dst src len auxw aux) s = .next t ∧
      HoldsWords t.mem dst.toNat
        ((List.range (4 * G)).map fun n => wordOfB (data (n / 4) (n % 4))) ∧
      (auxw = true → HoldsWords t.mem aux.toNat ((List.range G).map fun g => match flip g with
        | none => 0xFFFFFFFFFFFFFFFF#64
        | some k => BitVec.ofNat 64 k)) ∧
      t.seq.resAux = BitVec.ofNat 32 ((List.range G).countP fun g => (flip g).isSome) ∧
      t.seq.resConsumed = len ∧ t.seq.resProduced = BitVec.ofNat 32 (4 * G)

/-- `48_framesync.md` R422, R423: after every completed FSYNC the two buffers are alike in length and
aligned, the block's samples and as many magnitudes having been appended and the same number of entries
dropped from the front of both; they hold at most `P - 1` entries after SEARCH, fewer than `FSIZE` after
INCOMPLETE, and never more than the capacity. -/
def Obligations.FrameBuffersStayBounded : Prop :=
  ∀ (s t : State) (dst src len : Word32) (auxw : Bool) (aux : Word32),
    s.fs.mag.length = s.fs.raw.length → OperandsFit s (fsBlocks s.fs dst src len auxw aux) →
    s.fs.raw.length + len.toNat ≤ s.par.fsyncCap →
    exec (.fsync dst src len auxw aux) s = .next t →
    t.fs.mag.length = t.fs.raw.length ∧ t.fs.raw.length ≤ s.par.fsyncCap ∧
    (t.fs.outcome = .search → t.fs.raw.length ≤ s.fs.plen.toNat - 1) ∧
    (t.fs.outcome = .incomplete → t.fs.raw.length < s.fs.fsize.toNat) ∧
    ∃ (ws : List Word64) (mags : List F32) (drop : Nat),
      s.mem.readBlock src.toNat len.toNat = some ws ∧ mags.length = len.toNat ∧
      t.fs.raw = (s.fs.raw ++ ws.map complexOf).drop drop ∧
      t.fs.mag = (s.fs.mag ++ mags).drop drop

/-- `48_framesync.md` R425, first sentence: with empty buffers, a block of exactly one frame whose
correlation reaches the threshold at the last preamble sample and nowhere else is emitted whole, and
leaves the buffers empty. -/
def Obligations.ExactFrameIsEmitted : Prop :=
  ∀ (s : State) (dst src len : Word32) (auxw : Bool) (aux : Word32) (ws pre : List Word64),
    OperandsFit s (fsBlocks s.fs dst src len auxw aux) → len.toNat ≤ s.par.fsyncCap →
    s.mem.readBlock src.toNat len.toNat = some ws →
    s.mem.readPre 0 s.fs.plen.toNat = some pre →
    s.fs.dl = List.replicate (s.par.maxPreLen - 1) czero → s.fs.raw = [] → s.fs.mag = [] →
    1 ≤ s.fs.plen.toNat → s.fs.plen.toNat ≤ s.par.maxPreLen →
    s.fs.plen.toNat ≤ s.fs.fsize.toNat → len = s.fs.fsize →
    let corr := fun i => (List.range s.fs.plen.toNat).foldl (fun acc k =>
      cadd acc (cmul (cconj (complexOf (pre.getD (s.fs.plen.toNat - 1 - k) 0#64)))
        (if k ≤ i then complexOf (ws.getD (i - k) 0#64) else czero))) czero
    (∀ i, i < len.toNat →
      (fge (cabs (corr i)) s.fs.thresh = true ↔ i = s.fs.plen.toNat - 1)) →
    ∃ t, exec (.fsync dst src len auxw aux) s = .next t ∧
      HoldsWords t.mem dst.toNat (ws.map fun w => wordOfC (complexOf w)) ∧
      t.fs.outcome = .emit ∧ t.fs.raw = [] ∧ t.fs.mag = [] ∧ t.seq.resAux = 3#32 ∧
      t.seq.resProduced = s.fs.fsize

/-! ### Numbers -/

/-- `00_scope.md` R20: what a model may assume of the transcendental functions holds of every build. -/
def Obligations.TranscendentalLawsHoldOfEveryBuild : Prop :=
  ∀ b : NumBuild,
    (fexp b 0x00000000#32 = fone ∧ fexp b 0x80000000#32 = fone ∧ fln b fone = 0x00000000#32 ∧
      fsin b 0x00000000#32 = 0x00000000#32 ∧ fsin b 0x80000000#32 = 0x80000000#32 ∧
      fcos b 0x00000000#32 = fone ∧ fcos b 0x80000000#32 = fone) ∧
    (fexp b 0x7F800000#32 = 0x7F800000#32 ∧ fexp b 0xFF800000#32 = 0x00000000#32 ∧
      fln b 0x00000000#32 = 0xFF800000#32 ∧ fln b 0x80000000#32 = 0xFF800000#32 ∧
      fln b 0x7F800000#32 = 0x7F800000#32) ∧
    (∀ x, flt x fzero = true → isnan (fln b x) = true) ∧
    (∀ x, isfinite x = false → isnan (fsin b x) = true ∧ isnan (fcos b x) = true) ∧
    (∀ x, isnan x = true → isnan (fexp b x) = true ∧ isnan (fln b x) = true ∧
      isnan (fsin b x) = true ∧ isnan (fcos b x) = true) ∧
    (∀ x, isfinite x = true →
      (isfinite (fsin b x) = true ∧ fle fnegone (fsin b x) = true ∧ fle (fsin b x) fone = true) ∧
      (isfinite (fcos b x) = true ∧ fle fnegone (fcos b x) = true ∧ fle (fcos b x) fone = true) ∧
      (fgt x fzero = true → isfinite (fln b x) = true))

/-- `00_scope.md` R21: what a model may assume of the spectrum holds of every build: `N` entries, each
`+0.0`, positive or NaN, and NaN only if a sample is not finite. -/
def Obligations.SpectrumLawsHoldOfEveryBuild : Prop :=
  ∀ (b : NumBuild) (n : Nat) (s : List C32),
    (specmag b n s).length = n ∧
    ∀ m ∈ specmag b n s,
      (m = 0x00000000#32 ∨ fgt m fzero = true ∨ isnan m = true) ∧
      ((∀ z ∈ s, isfinite z.re = true ∧ isfinite z.im = true) → isnan m = false)

/-- `00_scope.md` R12: the five arithmetic primitives give no NaN but `0x7FC00000`; and they give it for
every NaN operand, which IEEE 754 says (log 10). -/
def Obligations.NanResultsAreTheQuietNan : Prop :=
  ∀ a b : F32,
    (isnan (fadd a b) = true → fadd a b = 0x7FC00000#32) ∧
    (isnan (fsub a b) = true → fsub a b = 0x7FC00000#32) ∧
    (isnan (fmul a b) = true → fmul a b = 0x7FC00000#32) ∧
    (isnan (fdiv a b) = true → fdiv a b = 0x7FC00000#32) ∧
    (isnan (fsqrt a) = true → fsqrt a = 0x7FC00000#32) ∧
    (isnan a = true ∨ isnan b = true →
      isnan (fadd a b) = true ∧ isnan (fsub a b) = true ∧ isnan (fmul a b) = true ∧
      isnan (fdiv a b) = true) ∧
    (isnan a = true → isnan (fsqrt a) = true)

/-- `00_scope.md` R12: for finite operands, the sum, difference, product and quotient is the
roundTiesToEven value of the exact one where that one is below `2^128 - 2^103` in magnitude, and the
infinity of its sign elsewhere; a product and a quotient have the sign of their operands' signs, an exact
sum of 0 is `-0.0` only from two negative operands (a difference is the sum with the second sign turned
round), and a quotient by a zero is an infinity, or the quiet
NaN for `0/0`. The square root of a value that is not negative is the roundTiesToEven value of the exact
one, a zero is its own square root, and the square root of a negative value is the quiet NaN. All of it is
IEEE 754, taken from the standard (log 10). -/
def Obligations.ArithmeticRoundsToNearestEven : Prop :=
  ∀ a b : F32, isfinite a = true → isfinite b = true →
    (RoundsWithOverflow ((valueOf a : ℝ) + (valueOf b : ℝ)) (fadd a b) ∧
      (valueOf a + valueOf b = 0 →
        fadd a b = if a.msb && b.msb then 0x80000000#32 else 0x00000000#32)) ∧
    (RoundsWithOverflow ((valueOf a : ℝ) - (valueOf b : ℝ)) (fsub a b) ∧
      (valueOf a - valueOf b = 0 →
        fsub a b = if a.msb && !b.msb then 0x80000000#32 else 0x00000000#32)) ∧
    (RoundsWithOverflow ((valueOf a : ℝ) * (valueOf b : ℝ)) (fmul a b) ∧
      (fmul a b).msb = (a.msb != b.msb)) ∧
    (valueOf b ≠ 0 → RoundsWithOverflow ((valueOf a : ℝ) / (valueOf b : ℝ)) (fdiv a b) ∧
      (fdiv a b).msb = (a.msb != b.msb)) ∧
    (valueOf b = 0 → fdiv a b = if valueOf a = 0 then 0x7FC00000#32
      else if a.msb != b.msb then 0xFF800000#32 else 0x7F800000#32) ∧
    (0 ≤ valueOf a → RoundsTo (Real.sqrt (valueOf a : ℝ)) (fsqrt a)) ∧
    (valueOf a = 0 → fsqrt a = a) ∧
    (valueOf a < 0 → fsqrt a = 0x7FC00000#32)

/-- `00_scope.md` R17: the one correction of `WRAP` keeps a phase in `[-2 pi, 2 pi]` when the increment
added to it is at most `2 pi` in magnitude. -/
def Obligations.WrapKeepsThePhaseBounded : Prop :=
  ∀ p w : F32, fle (fneg twoPi) p = true → fle p twoPi = true →
    fle (fneg twoPi) w = true → fle w twoPi = true →
    fle (fneg twoPi) (wrap (fadd p w)) = true ∧ fle (wrap (fadd p w)) twoPi = true
end

