-- ==== Sys2Proof/Laws/Decode.lean ====
section
/-! SUPPORT. The words and bytes of a descriptor, and its fields. -/

namespace Sys2Proof

/-- A word is made of its bytes. -/
theorem wordOfBytes_byteOfWord (w : Word64) :
    wordOfBytes (byteOfWord w 0) (byteOfWord w 1) (byteOfWord w 2) (byteOfWord w 3)
      (byteOfWord w 4) (byteOfWord w 5) (byteOfWord w 6) (byteOfWord w 7) = w := by
  apply BitVec.eq_of_getLsbD_eq
  intro i hi
  unfold wordOfBytes byteOfWord
  simp only [BitVec.getLsbD_append, BitVec.getLsbD_extractLsb', Nat.reduceMul]
  interval_cases i <;> simp

/-- A run of whole words is read back from its bytes. -/
theorem wordsOfBytes_flatMap (ws : List Word64) : wordsOfBytes (ws.flatMap bytesOfWord) = ws := by
  induction ws with
  | nil => rfl
  | cons w ws ih =>
    have h : bytesOfWord w = [byteOfWord w 0, byteOfWord w 1, byteOfWord w 2, byteOfWord w 3,
        byteOfWord w 4, byteOfWord w 5, byteOfWord w 6, byteOfWord w 7] := rfl
    simp only [List.flatMap_cons, h, List.cons_append, List.nil_append, wordsOfBytes, ih,
      wordOfBytes_byteOfWord]

/-- The field cuts undo the field packing. -/
theorem fieldsOfWords_pack (f : Fields) :
    fieldsOfWords (f.len ++ f.rsv ++ BitVec.ofBool f.auxw ++ f.unit ++ f.opc) (f.dst ++ f.src)
      (f.maxout ++ f.aux) = f := by
  obtain ⟨opc, unit, auxw, rsv, len, src, dst, aux, maxout⟩ := f
  simp only [fieldsOfWords, Fields.mk.injEq]
  refine ⟨?_, ?_, ?_, ?_, ?_, ?_, ?_, ?_, ?_⟩
  case refine_3 =>
    rw [BitVec.getLsbD_append, BitVec.getLsbD_append, BitVec.getLsbD_append]
    cases auxw <;> simp
  all_goals
    apply BitVec.eq_of_getLsbD_eq
    intro i hi
    simp only [BitVec.getLsbD_extractLsb', BitVec.getLsbD_append]
    interval_cases i <;> simp

end Sys2Proof
end

