-- ==== Sys2Proof/Laws/Memory.lean ====
section
/-! SUPPORT. The memory operations: reading after writing, the bytes a write leaves alone, and the
canonical form. -/

namespace Sys2Proof.Machine

/-! ### One byte -/

@[simp] theorem Memory.get_set_same (m : Memory) (a : Nat) (v : Byte) :
    Memory.get (Memory.set m a v) a = some v := by
  induction m with
  | nil => simp [Memory.set, Memory.get]
  | cons c m ih =>
    simp only [Memory.set]
    split
    · simp [Memory.get]
    · split <;> simp [Memory.get, *]

theorem Memory.get_set_other (m : Memory) {a b : Nat} (v : Byte) (h : b ≠ a) :
    Memory.get (Memory.set m a v) b = Memory.get m b := by
  induction m with
  | nil => simp [Memory.set, Memory.get, h]
  | cons c m ih =>
    simp only [Memory.set]
    split
    · simp [Memory.get, h]
    · split
      · next h1 h2 => subst h2; simp [Memory.get, h]
      · simp [Memory.get, ih]

theorem Memory.get_set (m : Memory) (a b : Nat) (v : Byte) :
    Memory.get (Memory.set m a v) b = if b = a then some v else Memory.get m b := by
  split
  · next h => subst h; simp
  · next h => exact Memory.get_set_other m v h

theorem Memory.mem_set {m : Memory} {a : Nat} {v : Byte} {c : Host.Cell}
    (h : c ∈ Memory.set m a v) : c = (a, v) ∨ c ∈ m := by
  induction m with
  | nil => simpa [Memory.set] using h
  | cons d m ih =>
    simp only [Memory.set] at h
    split at h
    · simpa using h
    · split at h
      · simp only [List.mem_cons] at h ⊢; tauto
      · simp only [List.mem_cons] at h ⊢
        rcases h with h | h
        · tauto
        · have := ih h; tauto

/-- A write keeps the canonical form. -/
theorem Memory.wf_set {m : Memory} (h : Memory.wf m) (a : Nat) (v : Byte) :
    Memory.wf (Memory.set m a v) := by
  induction m with
  | nil => simp [Memory.set, Memory.wf]
  | cons c m ih =>
    have hc := List.pairwise_cons.1 h
    simp only [Memory.set]
    split
    · next h1 =>
      refine List.pairwise_cons.2 ⟨fun d hd => ?_, h⟩
      rcases List.mem_cons.1 hd with rfl | hd
      · exact h1
      · exact Nat.lt_trans h1 (hc.1 d hd)
    · split
      · next h1 h2 => exact List.pairwise_cons.2 ⟨fun d hd => by simpa [h2] using hc.1 d hd, hc.2⟩
      · next h1 h2 =>
        refine List.pairwise_cons.2 ⟨fun d hd => ?_, ih hc.2⟩
        rcases Memory.mem_set hd with rfl | hd
        · show c.1 < a; omega
        · exact hc.1 d hd

/-! ### Forgetting -/

theorem Memory.get_forget (m : Memory) (a n b : Nat) :
    Memory.get (Memory.forget m a n) b = if a ≤ b ∧ b < a + n then none else Memory.get m b := by
  induction m with
  | nil => simp [Memory.forget, Memory.get]
  | cons c m ih =>
    simp only [Memory.forget] at ih ⊢
    by_cases hc : a ≤ c.1 ∧ c.1 < a + n
    · rw [List.filter_cons_of_neg (by simp [hc])]
      rw [ih]
      simp only [Memory.get]
      split
      · rfl
      · next hb => rw [if_neg (by rintro rfl; exact hb hc)]
    · rw [List.filter_cons_of_pos (by simp; omega)]
      simp only [Memory.get, ih]
      split
      · next hb => subst hb; simp [hc]
      · rfl

theorem Memory.wf_forget {m : Memory} (h : Memory.wf m) (a n : Nat) :
    Memory.wf (Memory.forget m a n) := h.filter _

theorem Memory.mem_of_mem_forget {m : Memory} {a n : Nat} {c : Host.Cell}
    (h : c ∈ Memory.forget m a n) : c ∈ m := (List.mem_filter.1 h).1

/-! ### Consecutive bytes -/

theorem Memory.get_setBytes (m : Memory) (a : Nat) (bs : List Byte) (b : Nat) :
    Memory.get (Memory.setBytes m a bs) b =
      if h : a ≤ b ∧ b < a + bs.length then some (bs[b - a]'(by omega)) else Memory.get m b := by
  induction bs generalizing m a with
  | nil =>
    rw [dif_neg (by simp only [List.length_nil]; omega)]
    rfl
  | cons x bs ih =>
    rw [Memory.setBytes, ih, Memory.get_set]
    simp only [List.length_cons]
    by_cases hb : b = a
    · subst hb
      rw [dif_neg (by omega), if_pos rfl, dif_pos (by omega)]
      simp
    · by_cases h1 : a + 1 ≤ b ∧ b < a + 1 + bs.length
      · rw [dif_pos h1, dif_pos (by omega)]
        have : b - a = (b - (a + 1)) + 1 := by omega
        simp [this]
      · rw [dif_neg h1, if_neg hb, dif_neg (by omega)]

theorem Memory.get_setBytes_outside (m : Memory) {a b : Nat} {bs : List Byte}
    (h : b < a ∨ a + bs.length ≤ b) :
    Memory.get (Memory.setBytes m a bs) b = Memory.get m b := by
  rw [Memory.get_setBytes, dif_neg (by omega)]

theorem Memory.wf_setBytes {m : Memory} (h : Memory.wf m) (a : Nat) (bs : List Byte) :
    Memory.wf (Memory.setBytes m a bs) := by
  induction bs generalizing m a with
  | nil => exact h
  | cons x bs ih => exact ih (Memory.wf_set h a x) (a + 1)

theorem Memory.mem_setBytes {m : Memory} {a : Nat} {bs : List Byte} {c : Host.Cell}
    (h : c ∈ Memory.setBytes m a bs) : (a ≤ c.1 ∧ c.1 < a + bs.length) ∨ c ∈ m := by
  induction bs generalizing m a with
  | nil => exact .inr h
  | cons x bs ih =>
    rcases ih h with h | h
    · left; simp only [List.length_cons]; omega
    · rcases Memory.mem_set h with rfl | h
      · left; simp
      · exact .inr h

theorem Memory.getBytes_eq_some {m : Memory} {a n : Nat} {bs : List Byte} :
    Memory.getBytes m a n = some bs ↔
      bs.length = n ∧ ∀ i (h : i < bs.length), Memory.get m (a + i) = some bs[i] := by
  induction n generalizing a bs with
  | zero =>
    simp only [Memory.getBytes, Option.some.injEq]
    constructor
    · rintro rfl; simp
    · rintro ⟨h, -⟩; exact (List.length_eq_zero_iff.1 h).symm
  | succ n ih =>
    simp only [Memory.getBytes]
    cases bs with
    | nil =>
      simp only [List.length_nil]
      constructor
      · intro h; split at h <;> simp at h
      · rintro ⟨h, -⟩; omega
    | cons x bs =>
      have key : (∀ i (h : i < (x :: bs).length), Memory.get m (a + i) = some (x :: bs)[i]) ↔
          Memory.get m a = some x ∧ ∀ i (h : i < bs.length), Memory.get m (a + 1 + i) = some bs[i] := by
        constructor
        · intro h
          refine ⟨by simpa using h 0 (Nat.succ_pos _), fun i hi => ?_⟩
          have := h (i + 1) (by simp; omega)
          simpa [Nat.add_assoc, Nat.add_comm 1 i] using this
        · rintro ⟨h0, h⟩ i hi
          cases i with
          | zero => simpa using h0
          | succ i =>
            have := h i (by simp at hi; omega)
            simpa [Nat.add_assoc, Nat.add_comm 1 i] using this
      rw [key]
      have ih' := @ih (a + 1) bs
      cases hg : Memory.get m a with
      | none => simp
      | some y =>
        cases hb : Memory.getBytes m (a + 1) n with
        | none =>
          simp only [reduceCtorEq, false_iff, not_and, List.length_cons, Nat.add_right_cancel_iff]
          intro hl _ h
          have := ih'.2 ⟨hl, h⟩
          rw [hb] at this; cases this
        | some ys =>
          simp only [Option.some.injEq, List.cons.injEq, List.length_cons, Nat.add_right_cancel_iff]
          rw [hb] at ih'
          simp only [Option.some.injEq] at ih'
          rw [ih']; tauto

/-! ### Words -/

@[simp] theorem bytesOfWord_length (w : Word64) : (bytesOfWord w).length = 8 := rfl

@[simp] theorem bytesOfWord_getElem (w : Word64) (i : Nat) (h : i < (bytesOfWord w).length) :
    (bytesOfWord w)[i] = byteOfWord w i := by simp [bytesOfWord]

theorem bytesOfWord_eq (w : Word64) : bytesOfWord w =
    [byteOfWord w 0, byteOfWord w 1, byteOfWord w 2, byteOfWord w 3, byteOfWord w 4,
      byteOfWord w 5, byteOfWord w 6, byteOfWord w 7] := rfl

/-- The bits of a word made of bytes. -/
theorem wordOfBytes_getLsbD (b0 b1 b2 b3 b4 b5 b6 b7 : Byte) (i : Nat) :
    (wordOfBytes b0 b1 b2 b3 b4 b5 b6 b7).getLsbD i =
      if i < 8 then b0.getLsbD i else if i < 16 then b1.getLsbD (i - 8)
      else if i < 24 then b2.getLsbD (i - 16) else if i < 32 then b3.getLsbD (i - 24)
      else if i < 40 then b4.getLsbD (i - 32) else if i < 48 then b5.getLsbD (i - 40)
      else if i < 56 then b6.getLsbD (i - 48) else b7.getLsbD (i - 56) := by
  show ((b7 ++ b6 ++ b5 ++ b4 ++ b3 ++ b2 ++ b1 ++ b0 : BitVec (8+8+8+8+8+8+8+8))).getLsbD i = _
  simp only [BitVec.getLsbD_append, Nat.sub_sub]
  split_ifs <;> first | rfl | omega

/-- The word of a word's own bytes. -/
@[simp] theorem wordOfBytes_byteOfWord (w : Word64) :
    wordOfBytes (byteOfWord w 0) (byteOfWord w 1) (byteOfWord w 2) (byteOfWord w 3)
      (byteOfWord w 4) (byteOfWord w 5) (byteOfWord w 6) (byteOfWord w 7) = w := by
  apply BitVec.eq_of_getLsbD_eq
  intro i hi
  rw [wordOfBytes_getLsbD]
  simp only [byteOfWord, BitVec.getLsbD_extractLsb']
  split_ifs <;> simp <;> first | (intro; omega) | (rw [Nat.add_sub_cancel' (by omega)]; simp; omega)

/-- The bytes of a word made of bytes. -/
theorem byteOfWord_wordOfBytes (b0 b1 b2 b3 b4 b5 b6 b7 : Byte) (k : Nat) (hk : k < 8) :
    byteOfWord (wordOfBytes b0 b1 b2 b3 b4 b5 b6 b7) k =
      [b0, b1, b2, b3, b4, b5, b6, b7][k] := by
  apply BitVec.eq_of_getLsbD_eq
  intro i hi
  simp only [byteOfWord, BitVec.getLsbD_extractLsb', hi, decide_true, Bool.true_and,
    wordOfBytes_getLsbD]
  have : k = 0 ∨ k = 1 ∨ k = 2 ∨ k = 3 ∨ k = 4 ∨ k = 5 ∨ k = 6 ∨ k = 7 := by omega
  rcases this with rfl | rfl | rfl | rfl | rfl | rfl | rfl | rfl <;>
    (split_ifs <;> first | omega | (simp))

theorem bytesOfWord_wordOfBytes (b0 b1 b2 b3 b4 b5 b6 b7 : Byte) :
    bytesOfWord (wordOfBytes b0 b1 b2 b3 b4 b5 b6 b7) = [b0, b1, b2, b3, b4, b5, b6, b7] := by
  simp [bytesOfWord_eq, byteOfWord_wordOfBytes]

/-- The bytes of a word determine it. -/
theorem word_ext_bytes {v w : Word64} (h : ∀ i, i < 8 → byteOfWord v i = byteOfWord w i) :
    v = w := by
  rw [← wordOfBytes_byteOfWord v, ← wordOfBytes_byteOfWord w]
  simp [h]

/-- A word stands at an address when its eight bytes do. -/
theorem Memory.getWord_eq_some {m : Memory} {a : Nat} {w : Word64} :
    Memory.getWord m a = some w ↔ ∀ i, i < 8 → Memory.get m (a + i) = some (byteOfWord w i) := by
  constructor
  · intro h i hi
    unfold Memory.getWord at h
    split at h
    · next b0 b1 b2 b3 b4 b5 b6 b7 hb =>
      have hg := (Memory.getBytes_eq_some.1 hb).2 i hi
      simp only [Option.some.injEq] at h
      rw [hg, ← h, byteOfWord_wordOfBytes _ _ _ _ _ _ _ _ i hi]
    · cases h
  · intro h
    have hb : Memory.getBytes m a 8 = some (bytesOfWord w) :=
      Memory.getBytes_eq_some.2 ⟨rfl, fun i hi => by simpa using h i hi⟩
    unfold Memory.getWord
    rw [hb, bytesOfWord_eq]
    simp

/-- Reading a word looks at its eight bytes only. -/
theorem Memory.getWord_congr {m m' : Memory} {a : Nat}
    (h : ∀ i, i < 8 → Memory.get m' (a + i) = Memory.get m (a + i)) :
    Memory.getWord m' a = Memory.getWord m a := by
  apply Option.ext
  intro w
  rw [Memory.getWord_eq_some, Memory.getWord_eq_some]
  exact forall₂_congr fun i hi => by rw [h i hi]

theorem Memory.get_setWord (m : Memory) (a : Nat) (w : Word64) (b : Nat) :
    Memory.get (Memory.setWord m a w) b =
      if a ≤ b ∧ b < a + 8 then some (byteOfWord w (b - a)) else Memory.get m b := by
  simp only [Memory.setWord, Memory.get_setBytes, bytesOfWord_length, bytesOfWord_getElem]
  split <;> rfl

@[simp] theorem Memory.getWord_setWord_same (m : Memory) (a : Nat) (w : Word64) :
    Memory.getWord (Memory.setWord m a w) a = some w := by
  rw [Memory.getWord_eq_some]
  intro i hi
  rw [Memory.get_setWord, if_pos (by omega), Nat.add_sub_cancel_left]

theorem Memory.getWord_setWord_apart (m : Memory) {a b : Nat} (w : Word64)
    (h : b + 8 ≤ a ∨ a + 8 ≤ b) :
    Memory.getWord (Memory.setWord m a w) b = Memory.getWord m b :=
  Memory.getWord_congr fun i hi => by rw [Memory.get_setWord, if_neg (by omega)]

/-! ### Blocks of DMEM words -/

theorem dmemAddr_add (a n : Nat) : dmemAddr (a + n) = dmemAddr a + 8 * n := by
  unfold dmemAddr; omega

theorem Memory.get_writeBlock_outside (m : Memory) {base : Nat} {ws : List Word64} {a : Nat}
    (h : a < dmemAddr base ∨ dmemAddr (base + ws.length) ≤ a) :
    Memory.get (Memory.writeBlock m base ws) a = Memory.get m a := by
  induction ws generalizing m base with
  | nil => rfl
  | cons w ws ih =>
    simp only [List.length_cons] at h
    rw [Memory.writeBlock, ih, Memory.get_setWord, if_neg]
    · unfold dmemAddr at *; omega
    · unfold dmemAddr at *; omega

theorem Memory.getWord_writeBlock_outside (m : Memory) {base : Nat} {ws : List Word64} {a : Nat}
    (h : a < base ∨ base + ws.length ≤ a) :
    Memory.getWord (Memory.writeBlock m base ws) (dmemAddr a) = Memory.getWord m (dmemAddr a) :=
  Memory.getWord_congr fun i hi =>
    Memory.get_writeBlock_outside m (by unfold dmemAddr; omega)

theorem Memory.getWord_writeBlock_inside (m : Memory) {base : Nat} {ws : List Word64} {i : Nat}
    (h : i < ws.length) :
    Memory.getWord (Memory.writeBlock m base ws) (dmemAddr (base + i)) = some ws[i] := by
  induction ws generalizing m base i with
  | nil => simp at h
  | cons w ws ih =>
    cases i with
    | zero =>
      rw [Memory.writeBlock, Nat.add_zero, Memory.getWord_writeBlock_outside _ (by omega)]
      simp
    | succ i =>
      have := ih (m := Memory.setWord m (dmemAddr base) w) (base := base + 1) (i := i)
        (by simpa using h)
      rw [Memory.writeBlock, ← Nat.add_assoc, Nat.add_right_comm, this]
      simp

theorem Memory.wf_writeBlock {m : Memory} (h : Memory.wf m) (base : Nat) (ws : List Word64) :
    Memory.wf (Memory.writeBlock m base ws) := by
  induction ws generalizing m base with
  | nil => exact h
  | cons w ws ih => exact ih (Memory.wf_setBytes h _ _) _

theorem Memory.mem_writeBlock {m : Memory} {base : Nat} {ws : List Word64} {c : Host.Cell}
    (h : c ∈ Memory.writeBlock m base ws) :
    (dmemAddr base ≤ c.1 ∧ c.1 < dmemAddr (base + ws.length)) ∨ c ∈ m := by
  induction ws generalizing m base with
  | nil => exact .inr h
  | cons w ws ih =>
    simp only [List.length_cons]
    rcases ih h with h | h
    · left; unfold dmemAddr at *; omega
    · rcases Memory.mem_setBytes h with h | h
      · left; simp only [bytesOfWord_length] at h; unfold dmemAddr at *; omega
      · exact .inr h

theorem Memory.readBlock_eq_some {m : Memory} {a n : Nat} {ws : List Word64} :
    Memory.readBlock m a n = some ws ↔
      ws.length = n ∧ ∀ i (h : i < ws.length), Memory.getWord m (dmemAddr (a + i)) = some ws[i] := by
  induction n generalizing a ws with
  | zero =>
    simp only [Memory.readBlock, Option.some.injEq]
    constructor
    · rintro rfl; simp
    · rintro ⟨h, -⟩; exact (List.length_eq_zero_iff.1 h).symm
  | succ n ih =>
    simp only [Memory.readBlock]
    cases ws with
    | nil =>
      simp only [List.length_nil]
      constructor
      · intro h; split at h <;> simp at h
      · rintro ⟨h, -⟩; omega
    | cons x ws =>
      have key : (∀ i (h : i < (x :: ws).length),
            Memory.getWord m (dmemAddr (a + i)) = some (x :: ws)[i]) ↔
          Memory.getWord m (dmemAddr a) = some x ∧
            ∀ i (h : i < ws.length), Memory.getWord m (dmemAddr (a + 1 + i)) = some ws[i] := by
        constructor
        · intro h
          refine ⟨by simpa using h 0 (Nat.succ_pos _), fun i hi => ?_⟩
          have := h (i + 1) (by simp; omega)
          simpa [Nat.add_assoc, Nat.add_comm 1 i] using this
        · rintro ⟨h0, h⟩ i hi
          cases i with
          | zero => simpa using h0
          | succ i =>
            have := h i (by simp at hi; omega)
            simpa [Nat.add_assoc, Nat.add_comm 1 i] using this
      rw [key]
      have ih' := @ih (a + 1) ws
      cases hg : Memory.getWord m (dmemAddr a) with
      | none => simp
      | some y =>
        cases hb : Memory.readBlock m (a + 1) n with
        | none =>
          simp only [reduceCtorEq, false_iff, not_and, List.length_cons, Nat.add_right_cancel_iff]
          intro hl _ h
          have := ih'.2 ⟨hl, h⟩
          rw [hb] at this; cases this
        | some ys =>
          simp only [Option.some.injEq, List.cons.injEq, List.length_cons, Nat.add_right_cancel_iff]
          rw [hb] at ih'
          simp only [Option.some.injEq] at ih'
          rw [ih']; tauto

theorem Memory.readBlock_length {m : Memory} {a n : Nat} {ws : List Word64}
    (h : Memory.readBlock m a n = some ws) : ws.length = n := (Memory.readBlock_eq_some.1 h).1

theorem Memory.readBlock_writeBlock_same (m : Memory) (a : Nat) (ws : List Word64) :
    Memory.readBlock (Memory.writeBlock m a ws) a ws.length = some ws :=
  Memory.readBlock_eq_some.2 ⟨rfl, fun _ h => Memory.getWord_writeBlock_inside m h⟩

theorem Memory.readBlock_writeBlock_apart (m : Memory) {a n base : Nat} {ws : List Word64}
    (h : n = 0 ∨ ws.length = 0 ∨ a + n ≤ base ∨ base + ws.length ≤ a) :
    Memory.readBlock (Memory.writeBlock m base ws) a n = Memory.readBlock m a n := by
  apply Option.ext
  intro vs
  rw [Memory.readBlock_eq_some, Memory.readBlock_eq_some]
  refine and_congr_right fun hl => forall₂_congr fun i hi => ?_
  by_cases hw : ws.length = 0
  · rw [List.length_eq_zero_iff.1 hw]; rfl
  · rw [Memory.getWord_writeBlock_outside _ (by omega)]

theorem Memory.readCoef_length {m : Memory} {k n : Nat} {ws : List Word64}
    (h : Memory.readCoef m k n = some ws) : ws.length = n := by
  induction n generalizing k ws with
  | zero => simp only [Memory.readCoef, Option.some.injEq] at h; simp [← h]
  | succ n ih =>
    simp only [Memory.readCoef] at h
    split at h
    · next h2 => cases h; simp [ih h2]
    · cases h

theorem Memory.readPre_length {m : Memory} {k n : Nat} {ws : List Word64}
    (h : Memory.readPre m k n = some ws) : ws.length = n := by
  induction n generalizing k ws with
  | zero => simp only [Memory.readPre, Option.some.injEq] at h; simp [← h]
  | succ n ih =>
    simp only [Memory.readPre] at h
    split at h
    · next h2 => cases h; simp [ih h2]
    · cases h

/-! ### Bits of a block (format B) -/

/-- The bit of a word that stands in DMEM. -/
theorem Memory.getBit_of_getWord {m : Memory} {a : Nat} {w : Word64}
    (h : Memory.getWord m (dmemAddr a) = some w) : Memory.getBit m a = some (w.getLsbD 0) := by
  have h0 := Memory.getWord_eq_some.1 h 0 (by omega)
  simp only [Nat.add_zero] at h0
  simp [Memory.getBit, h0, byteOfWord]

theorem Memory.readBits_eq_some {m : Memory} {a n : Nat} {bs : List Bool} :
    Memory.readBits m a n = some bs ↔
      bs.length = n ∧ ∀ i (h : i < bs.length), Memory.getBit m (a + i) = some bs[i] := by
  induction n generalizing a bs with
  | zero =>
    simp only [Memory.readBits, Option.some.injEq]
    exact ⟨by rintro rfl; simp, fun h => (List.length_eq_zero_iff.1 h.1).symm⟩
  | succ n ih =>
    cases bs with
    | nil =>
      simp only [Memory.readBits, List.length_nil]
      exact ⟨fun h => by split at h <;> simp at h, fun h => absurd h.1 (by omega)⟩
    | cons x bs =>
      have key : (∀ i (h : i < (x :: bs).length), Memory.getBit m (a + i) = some (x :: bs)[i]) ↔
          Memory.getBit m a = some x ∧
            ∀ i (h : i < bs.length), Memory.getBit m (a + 1 + i) = some bs[i] := by
        constructor
        · intro h
          refine ⟨by simpa using h 0 (Nat.succ_pos _), fun i hi => ?_⟩
          have := h (i + 1) (by simp; omega)
          simpa [Nat.add_assoc, Nat.add_comm 1 i] using this
        · rintro ⟨h0, h⟩ i hi
          cases i with
          | zero => simpa using h0
          | succ i =>
            have := h i (by simp at hi; omega)
            simpa [Nat.add_assoc, Nat.add_comm 1 i] using this
      rw [key, List.length_cons, Nat.add_right_cancel_iff]
      have ih' := @ih (a + 1) bs
      simp only [Memory.readBits]
      cases hg : Memory.getBit m a with
      | none => simp
      | some y =>
        cases hb : Memory.readBits m (a + 1) n with
        | none =>
          rw [hb] at ih'
          have := ih'.not.1 (by simp)
          simp only [reduceCtorEq, false_iff]
          tauto
        | some ys =>
          rw [hb] at ih'
          simp only [Option.some.injEq] at ih'
          simp only [Option.some.injEq, List.cons.injEq, ih']
          tauto

theorem Memory.readBits_length {m : Memory} {a n : Nat} {bs : List Bool}
    (h : Memory.readBits m a n = some bs) : bs.length = n := (Memory.readBits_eq_some.1 h).1

/-- The bits of a block of written words. -/
theorem Memory.readBits_of_readBlock {m : Memory} {a n : Nat} {ws : List Word64}
    (h : Memory.readBlock m a n = some ws) :
    Memory.readBits m a n = some (ws.map fun w => w.getLsbD 0) := by
  obtain ⟨hl, hw⟩ := Memory.readBlock_eq_some.1 h
  refine Memory.readBits_eq_some.2 ⟨by simpa using hl, fun i hi => ?_⟩
  simp only [List.length_map] at hi
  rw [Memory.getBit_of_getWord (hw i hi), List.getElem_map]

/-! ### The written start of a block -/

/-- What the written start of a block is: its words stand in DMEM, and if it is shorter than the block
the word after it has not been written. -/
theorem Memory.readPrefix_spec (m : Memory) (a n : Nat) :
    (Memory.readPrefix m a n).length ≤ n ∧
    Memory.readBlock m a (Memory.readPrefix m a n).length = some (Memory.readPrefix m a n) ∧
    ((Memory.readPrefix m a n).length < n →
      Memory.getWord m (dmemAddr (a + (Memory.readPrefix m a n).length)) = none) := by
  induction n generalizing a with
  | zero => simp [Memory.readPrefix, Memory.readBlock]
  | succ n ih =>
    cases hg : Memory.getWord m (dmemAddr a) with
    | none => simp [Memory.readPrefix, hg, Memory.readBlock]
    | some w =>
      obtain ⟨h1, h2, h3⟩ := ih (a + 1)
      simp only [Memory.readPrefix, hg, List.length_cons, Memory.readBlock, h2]
      refine ⟨by omega, trivial, fun h => ?_⟩
      rw [← Nat.add_assoc, Nat.add_right_comm]
      exact h3 (by omega)

/-- The start of a block whose words stand in DMEM begins with them. -/
theorem Memory.readPrefix_of_readBlock {m : Memory} {a k n : Nat} {ws : List Word64}
    (h : Memory.readBlock m a k = some ws) (hk : k ≤ n) :
    Memory.readPrefix m a n = ws ++ Memory.readPrefix m (a + k) (n - k) := by
  induction k generalizing a n ws with
  | zero => simp only [Memory.readBlock, Option.some.injEq] at h; simp [← h]
  | succ k ih =>
    obtain ⟨n, rfl⟩ : ∃ i, n = i + 1 := ⟨n - 1, by omega⟩
    simp only [Memory.readBlock] at h
    split at h
    · next w vs hw hv =>
      cases h
      rw [Memory.readPrefix, hw, ih hv (by omega), List.cons_append, Nat.add_right_comm a 1 k,
        Nat.add_assoc, Nat.add_sub_add_right]
    · cases h

/-- A block that has been written is its own start. -/
theorem Memory.readPrefix_full {m : Memory} {a n : Nat} {ws : List Word64}
    (h : Memory.readBlock m a n = some ws) : Memory.readPrefix m a n = ws := by
  simpa [Memory.readPrefix] using Memory.readPrefix_of_readBlock h (Nat.le_refl n)

/-- The written start of a block that is not all written is shorter. -/
theorem Memory.readPrefix_short {m : Memory} {a n : Nat} (h : Memory.readBlock m a n = none) :
    (Memory.readPrefix m a n).length < n := by
  obtain ⟨h1, h2, -⟩ := Memory.readPrefix_spec m a n
  refine Nat.lt_of_le_of_ne h1 fun he => ?_
  rw [he, h] at h2
  cases h2

/-! ### Bytes drawn for unwritten ones -/

theorem Memory.drawByte_of_get {m : Memory} {n a : Nat} {v : Byte} (h : Memory.get m a = some v) :
    Memory.drawByte m n a = v := by simp [Memory.drawByte, h]

/-- A byte of a drawn word is the drawn byte. -/
theorem Memory.byteOfWord_drawWord (m : Memory) (n a i : Nat) (hi : i < 8) :
    byteOfWord (Memory.drawWord m n a) i = Memory.drawByte m n (a + i) := by
  rw [Memory.drawWord, byteOfWord_wordOfBytes _ _ _ _ _ _ _ _ i hi]
  interval_cases i <;> rfl

/-- A word that has been written is drawn as it stands. -/
theorem Memory.drawWord_of_getWord {m : Memory} {n a : Nat} {w : Word64}
    (h : Memory.getWord m a = some w) : Memory.drawWord m n a = w :=
  word_ext_bytes fun i hi => by
    rw [Memory.byteOfWord_drawWord m n a i hi]
    exact Memory.drawByte_of_get (Memory.getWord_eq_some.1 h i hi)

/-! ### The host's halves -/

@[simp] theorem bytesOfHalf_length (v : Word32) : (bytesOfHalf v).length = 4 := rfl

theorem bytesOfHalf_eq (v : Word32) : bytesOfHalf v =
    [v.extractLsb' 0 8, v.extractLsb' 8 8, v.extractLsb' 16 8, v.extractLsb' 24 8] := rfl

theorem halfOfBytes_getLsbD (b0 b1 b2 b3 : Byte) (i : Nat) :
    (halfOfBytes b0 b1 b2 b3).getLsbD i =
      if i < 8 then b0.getLsbD i else if i < 16 then b1.getLsbD (i - 8)
      else if i < 24 then b2.getLsbD (i - 16) else b3.getLsbD (i - 24) := by
  show ((b3 ++ b2 ++ b1 ++ b0 : BitVec (8+8+8+8))).getLsbD i = _
  simp only [BitVec.getLsbD_append, Nat.sub_sub]
  split_ifs <;> first | rfl | omega

@[simp] theorem halfOfBytes_extract (v : Word32) :
    halfOfBytes (v.extractLsb' 0 8) (v.extractLsb' 8 8) (v.extractLsb' 16 8)
      (v.extractLsb' 24 8) = v := by
  apply BitVec.eq_of_getLsbD_eq
  intro i hi
  rw [halfOfBytes_getLsbD]
  simp only [BitVec.getLsbD_extractLsb']
  split_ifs with h1 h2 h3
  · rw [decide_eq_true h1, Bool.true_and, Nat.zero_add]
  · rw [decide_eq_true (by omega), Bool.true_and, Nat.add_sub_cancel' (by omega)]
  · rw [decide_eq_true (by omega), Bool.true_and, Nat.add_sub_cancel' (by omega)]
  · rw [decide_eq_true (by omega), Bool.true_and, Nat.add_sub_cancel' (by omega)]

@[simp] theorem Memory.getHalf_setHalf_same (m : Memory) (a : Nat) (v : Word32) :
    Memory.getHalf (Memory.setHalf m a v) a = some v := by
  have : Memory.getBytes (Memory.setHalf m a v) a 4 = some (bytesOfHalf v) := by
    refine Memory.getBytes_eq_some.2 ⟨rfl, fun i hi => ?_⟩
    rw [Memory.setHalf, Memory.get_setBytes, dif_pos (by omega)]
    simp
  unfold Memory.getHalf
  rw [this, bytesOfHalf_eq]
  simp

theorem Memory.getHalf_congr {m m' : Memory} {a : Nat}
    (h : ∀ i, i < 4 → Memory.get m' (a + i) = Memory.get m (a + i)) :
    Memory.getHalf m' a = Memory.getHalf m a := by
  have : Memory.getBytes m' a 4 = Memory.getBytes m a 4 := by
    apply Option.ext
    intro bs
    rw [Memory.getBytes_eq_some, Memory.getBytes_eq_some]
    exact and_congr_right fun hl => forall₂_congr fun i hi => by rw [h i (by omega)]
  unfold Memory.getHalf
  rw [this]

theorem Memory.getHalf_setHalf_apart (m : Memory) {a b : Nat} (v : Word32)
    (h : b + 4 ≤ a ∨ a + 4 ≤ b) :
    Memory.getHalf (Memory.setHalf m a v) b = Memory.getHalf m b :=
  Memory.getHalf_congr fun i hi => by
    rw [Memory.setHalf, Memory.get_setBytes_outside m (by simp only [bytesOfHalf_length]; omega)]

theorem Memory.wf_setHalf {m : Memory} (h : Memory.wf m) (a : Nat) (v : Word32) :
    Memory.wf (Memory.setHalf m a v) := Memory.wf_setBytes h a _

/-! ### Canonical memories are determined by their bytes -/

theorem Memory.get_eq_none_of_lt {m : Memory} {a : Nat} (h : ∀ c ∈ m, a < c.1) :
    Memory.get m a = none := by
  induction m with
  | nil => rfl
  | cons c m ih =>
    have h1 := h c (by simp)
    rw [Memory.get, if_neg (by omega), ih fun d hd => h d (by simp [hd])]

/-- Two canonical memories that read alike everywhere are equal data. -/
theorem Memory.eq_of_get_eq {m m' : Memory} (h : Memory.wf m) (h' : Memory.wf m')
    (heq : ∀ a, Memory.get m a = Memory.get m' a) : m = m' := by
  induction m generalizing m' with
  | nil =>
    cases m' with
    | nil => rfl
    | cons d m' => have := heq d.1; simp [Memory.get] at this
  | cons c m ih =>
    have hc := List.pairwise_cons.1 h
    cases m' with
    | nil => have := heq c.1; simp [Memory.get] at this
    | cons d m' =>
      have hd := List.pairwise_cons.1 h'
      have e1 := heq c.1
      have e2 := heq d.1
      simp only [Memory.get, if_true] at e1 e2
      have hcd : c.1 = d.1 := by
        by_contra hne
        rw [if_neg hne] at e1
        rw [if_neg (Ne.symm hne)] at e2
        rcases Nat.lt_or_gt_of_ne hne with hlt | hlt
        · rw [Memory.get_eq_none_of_lt fun x hx => Nat.lt_trans hlt (hd.1 x hx)] at e1
          cases e1
        · rw [Memory.get_eq_none_of_lt fun x hx => Nat.lt_trans hlt (hc.1 x hx)] at e2
          cases e2
      rw [if_pos hcd] at e1
      have hcd' : c = d := Prod.ext hcd (Option.some.inj e1)
      subst hcd'
      rw [ih hc.2 hd.2 fun a => ?_]
      have ha := heq a
      simp only [Memory.get] at ha
      by_cases hac : a = c.1
      · rw [Memory.get_eq_none_of_lt fun x hx => hac ▸ hc.1 x hx,
          Memory.get_eq_none_of_lt fun x hx => hac ▸ hd.1 x hx]
      · rwa [if_neg hac, if_neg hac] at ha

end Sys2Proof.Machine
end

