-- ==== Sys2Proof/Laws/Operands.lean ====
section
/-! SUPPORT. The operand checks, the element formats, and the carried lists and loops over a block. -/

namespace Sys2Proof.Machine

open Sys2Proof.Config

/-! ### Element formats -/

theorem wordOfC_getLsbD (z : C32) (i : Nat) :
    (wordOfC z).getLsbD i = if i < 32 then z.re.getLsbD i else z.im.getLsbD (i - 32) := by
  show ((z.im ++ z.re : BitVec (32 + 32))).getLsbD i = _
  rw [BitVec.getLsbD_append]

@[simp] theorem complexOf_wordOfC (z : C32) : complexOf (wordOfC z) = z := by
  have h1 : (complexOf (wordOfC z)).re = z.re := by
    apply BitVec.eq_of_getLsbD_eq
    intro i hi
    simp only [complexOf, BitVec.getLsbD_extractLsb', hi, decide_true, Bool.true_and,
      wordOfC_getLsbD, Nat.zero_add, if_true]
  have h2 : (complexOf (wordOfC z)).im = z.im := by
    apply BitVec.eq_of_getLsbD_eq
    intro i hi
    simp only [complexOf, BitVec.getLsbD_extractLsb', hi, decide_true, Bool.true_and,
      wordOfC_getLsbD, Nat.add_sub_cancel_left]
    rw [if_neg (by omega)]
  cases z
  exact C32.mk.injEq .. ▸ ⟨h1, h2⟩

theorem wordOfB_bit (b : Bool) : (wordOfB b).getLsbD 0 = b := by cases b <;> rfl

/-- The bits of written bits. -/
theorem map_bit_wordOfB (bs : List Bool) :
    (bs.map wordOfB).map (fun w => w.getLsbD 0) = bs := by
  induction bs with
  | nil => rfl
  | cons b bs ih => rw [List.map_cons, List.map_cons, ih, wordOfB_bit]

@[simp] theorem map_complexOf_wordOfC (zs : List C32) : (zs.map wordOfC).map complexOf = zs := by
  induction zs with
  | nil => rfl
  | cons z zs ih => simp [ih]

/-! ### Operand checks -/

theorem rangeLegal_iff (p : Params) (r : Range) : rangeLegal p r = true ↔ r.Inside p := by
  simp [rangeLegal]

theorem rangeLegal_eq_false (p : Params) (r : Range) : rangeLegal p r = false ↔ ¬ r.Inside p := by
  rw [← rangeLegal_iff]; simp

theorem rangesOverlap_eq_false (a b : Range) : rangesOverlap a b = false ↔ a.Apart b := by
  simp only [rangesOverlap, Bool.and_eq_false_iff, decide_eq_false_iff_not]
  constructor <;> intro h <;> unfold Range.Apart at * <;> omega

theorem rangesOverlap_iff (a b : Range) : rangesOverlap a b = true ↔ ¬ a.Apart b := by
  rw [← rangesOverlap_eq_false]; simp

/-- The checks of R263 and R264 pass exactly when the operands fit. -/
theorem operandError_eq_none (s : State) (b : Blocks) :
    operandError s.par s.ptr b = none ↔ OperandsFit s b := by
  unfold OperandsFit MainOperandsFit AuxOperandFits operandError rangeError overlapError
  cases b.aux with
  | none =>
    simp only [← rangeLegal_iff, ← rangesOverlap_eq_false]
    generalize rangeLegal s.par b.inp = x1
    generalize rangeLegal s.par b.out = x2
    generalize rangesOverlap b.inp b.out = x3
    generalize rangesOverlap b.out _ = x4
    revert x1 x2 x3 x4
    decide
  | some a =>
    simp only [← rangeLegal_iff, ← rangesOverlap_eq_false]
    generalize rangeLegal s.par b.inp = x1
    generalize rangeLegal s.par b.out = x2
    generalize rangeLegal s.par a = x3
    generalize rangesOverlap b.inp b.out = x4
    generalize rangesOverlap b.inp a = x5
    generalize rangesOverlap b.out a = x6
    generalize rangesOverlap b.out _ = x7
    generalize rangesOverlap a _ = x8
    revert x1 x2 x3 x4 x5 x6 x7 x8
    decide

theorem rangeError_code {p : Params} {b : Blocks} {e : CmdError} (h : rangeError p b = some e) :
    e.code = 4#8 ∧ 1 ≤ e.info.toNat ∧ e.info.toNat ≤ 3 := by
  unfold rangeError at h
  cases hb : b.aux <;> rw [hb] at h <;> (repeat' split at h) <;>
    cases h <;> decide

theorem overlapError_code {d : Range} {b : Blocks} {e : CmdError} (h : overlapError d b = some e) :
    e.code = 5#8 ∧ 1 ≤ e.info.toNat ∧ e.info.toNat ≤ 5 := by
  unfold overlapError at h
  cases hb : b.aux <;> rw [hb] at h <;> (repeat' split at h) <;>
    cases h <;> decide

/-- The codes and details of the operand errors (`60_exceptions.md` R450). -/
theorem operandError_code {p : Params} {q : Nat} {b : Blocks} {e : CmdError}
    (h : operandError p q b = some e) :
    (e.code = 4#8 ∧ 1 ≤ e.info.toNat ∧ e.info.toNat ≤ 3) ∨
    (e.code = 5#8 ∧ 1 ≤ e.info.toNat ∧ e.info.toNat ≤ 5) := by
  unfold operandError at h
  split at h
  · next hr => cases h; exact .inl (rangeError_code hr)
  · exact .inr (overlapError_code h)

/-! ### Delay lines -/

theorem pushFront_length {α : Type} (n : Nat) (x : α) (l : List α) (h : l.length = n) :
    (pushFront n x l).length = n := by
  simp [pushFront, h]

/-- Entering a block's values one after the other leaves the newest `n` of them and of the old
ones. -/
theorem foldl_pushFront {α : Type} (n : Nat) (xs l : List α) (h : l.length = n) :
    xs.foldl (fun b x => pushFront n x b) l = (xs.reverse ++ l).take n := by
  induction xs generalizing l with
  | nil => simp [← h]
  | cons x xs ih =>
    rw [List.foldl_cons, ih _ (pushFront_length n x l h)]
    simp only [List.reverse_cons, List.append_assoc, List.singleton_append, pushFront]
    rw [List.take_append, List.take_append, List.take_take]
    congr 2
    omega

theorem getD_reverse_append {α : Type} (d : α) (xs dl : List α) (m : Nat) :
    (xs.reverse ++ dl).getD m d = windowAt d xs dl xs.length (m + 1) := by
  unfold windowAt
  simp only [List.getD_eq_getElem?_getD]
  by_cases h : m < xs.length
  · rw [List.getElem?_append_left (by simpa using h), if_pos (by omega),
      List.getElem?_reverse h]
    congr 2; omega
  · rw [List.getElem?_append_right (by simpa using h), if_neg (by omega)]
    congr 2; simp; omega

/-- The delay line after a block, entry by entry (`10_state.md` R108). -/
theorem take_reverse_append {α : Type} (d : α) (n : Nat) (xs dl : List α) (h : dl.length = n) :
    (xs.reverse ++ dl).take n =
      (List.range n).map fun m => windowAt d xs dl xs.length (m + 1) := by
  apply List.ext_getElem
  · simp [h]
  · intro m h1 h2
    simp only [List.length_map, List.length_range] at h2
    rw [List.getElem_take, List.getElem_map, List.getElem_range, ← getD_reverse_append,
      List.getD_eq_getElem?_getD, List.getElem?_eq_getElem (by simp; omega)]
    rfl

theorem windowAt_succ {α : Type} (d : α) (xs dl : List α) (i k : Nat) :
    windowAt d xs dl (i + 1) (k + 1) = windowAt d xs dl i k := by
  unfold windowAt
  by_cases h : k ≤ i
  · rw [if_pos h, if_pos (by omega)]; congr 1; omega
  · rw [if_neg h, if_neg (by omega)]; congr 1; omega

/-- A line that each value of a block enters at the front, entry by entry. -/
theorem line_trace {α : Type} (d : α) (n : Nat) (vs dl : List α) (line : Nat → List α)
    (h0 : line 0 = dl) (hl : dl.length = n)
    (hs : ∀ i (h : i < vs.length), line (i + 1) = pushFront n vs[i] (line i)) :
    ∀ i, i ≤ vs.length → line i = (List.range n).map fun m => windowAt d vs dl i (m + 1) := by
  intro i
  induction i with
  | zero =>
    intro _
    rw [h0]
    apply List.ext_getElem
    · simp [hl]
    · intro m h1 h2
      simp [windowAt, List.getD_eq_getElem?_getD, h1]
  | succ i ih =>
    intro hi
    rw [hs i (by omega), ih (by omega)]
    apply List.ext_getElem
    · simp [pushFront]
    · intro m h1 h2
      simp only [pushFront, List.getElem_take, List.getElem_map, List.getElem_range, windowAt_succ]
      cases m with
      | zero =>
        simp [windowAt, List.getD_eq_getElem?_getD, List.getElem?_eq_getElem (show i < vs.length by omega)]
      | succ m => simp

/-! ### Loops over a block -/

@[simp] theorem scanBlock_nil {σ α β : Type} (f : σ → α → σ × β) (s : σ) :
    scanBlock f s [] = (s, []) := rfl

theorem scanBlock_cons {σ α β : Type} (f : σ → α → σ × β) (s : σ) (x : α) (xs : List α) :
    scanBlock f s (x :: xs) =
      ((scanBlock f (f s x).1 xs).1, (f s x).2 :: (scanBlock f (f s x).1 xs).2) := rfl

@[simp] theorem scanBlock_length {σ α β : Type} (f : σ → α → σ × β) (s : σ) (xs : List α) :
    (scanBlock f s xs).2.length = xs.length := by
  induction xs generalizing s with
  | nil => rfl
  | cons x xs ih => simp [scanBlock_cons, ih]

/-- Splitting a block carries the state over. -/
theorem scanBlock_append {σ α β : Type} (f : σ → α → σ × β) (s : σ) (xs ys : List α) :
    scanBlock f s (xs ++ ys) =
      ((scanBlock f (scanBlock f s xs).1 ys).1,
        (scanBlock f s xs).2 ++ (scanBlock f (scanBlock f s xs).1 ys).2) := by
  induction xs generalizing s with
  | nil => rfl
  | cons x xs ih => simp [scanBlock_cons, ih]

/-- The trace of a loop: the state before each sample, the state after the block, and the output of
each sample. -/
theorem scanBlock_trace {σ α β : Type} (f : σ → α → σ × β) (s : σ) (xs : List α) :
    ∃ g : Nat → σ, g 0 = s ∧ (scanBlock f s xs).1 = g xs.length ∧
      ∀ i (h : i < xs.length), g (i + 1) = (f (g i) xs[i]).1 ∧
        (scanBlock f s xs).2[i]? = some (f (g i) xs[i]).2 := by
  refine ⟨fun i => (scanBlock f s (xs.take i)).1, rfl, by simp, fun i h => ?_⟩
  have ht : xs.take (i + 1) = xs.take i ++ [xs[i]] := by simp
  refine ⟨by beta_reduce; rw [ht, scanBlock_append]; rfl, ?_⟩
  beta_reduce
  have hx : xs.take i ++ xs[i] :: xs.drop (i + 1) = xs := by simp
  have hlen : (scanBlock f s (xs.take i)).2.length = i := by simp; omega
  have hs : (scanBlock f s xs).2 =
      (scanBlock f s (xs.take i ++ xs[i] :: xs.drop (i + 1))).2 := by rw [hx]
  rw [hs, scanBlock_append, List.getElem?_append_right (by omega), hlen, Nat.sub_self, scanBlock_cons]
  rfl

/-- The outputs of a loop, from its trace. -/
theorem outputs_of_trace {β : Type} {l : List β} {n : Nat} {o : Nat → β} (hl : l.length = n)
    (h : ∀ i, i < n → l[i]? = some (o i)) : l = (List.range n).map o := by
  apply List.ext_getElem?
  intro i
  by_cases hi : i < n
  · rw [h i hi]; simp [hi]
  · rw [List.getElem?_eq_none (by omega), List.getElem?_eq_none (by simp; omega)]

end Sys2Proof.Machine
end

