-- ==== Sys2Proof/Laws/State.lean ====
section
/-! SUPPORT. One lemma per field and per shared update of the state, so that no proof unfolds a record
update. -/

namespace Sys2Proof.Machine

variable (s : State)

/-! ### `State.setIrq` -/

@[simp] theorem State.setIrq_seq (b : BitVec 5) :
    (s.setIrq b).seq = { s.seq with irqStatus := s.seq.irqStatus ||| b } := rfl
@[simp] theorem State.setIrq_par (b : BitVec 5) : (s.setIrq b).par = s.par := rfl
@[simp] theorem State.setIrq_modcfg (b : BitVec 5) : (s.setIrq b).modcfg = s.modcfg := rfl
@[simp] theorem State.setIrq_agc (b : BitVec 5) : (s.setIrq b).agc = s.agc := rfl
@[simp] theorem State.setIrq_fir (b : BitVec 5) : (s.setIrq b).fir = s.fir := rfl
@[simp] theorem State.setIrq_scr (b : BitVec 5) : (s.setIrq b).scr = s.scr := rfl
@[simp] theorem State.setIrq_cfc (b : BitVec 5) : (s.setIrq b).cfc = s.cfc := rfl
@[simp] theorem State.setIrq_pll (b : BitVec 5) : (s.setIrq b).pll = s.pll := rfl
@[simp] theorem State.setIrq_sym (b : BitVec 5) : (s.setIrq b).sym = s.sym := rfl
@[simp] theorem State.setIrq_fs (b : BitVec 5) : (s.setIrq b).fs = s.fs := rfl
@[simp] theorem State.setIrq_mem (b : BitVec 5) : (s.setIrq b).mem = s.mem := rfl
@[simp] theorem State.setIrq_host (b : BitVec 5) : (s.setIrq b).host = s.host := rfl
@[simp] theorem State.setIrq_hostRdata (b : BitVec 5) : (s.setIrq b).hostRdata = s.hostRdata := rfl
@[simp] theorem State.setIrq_draws (b : BitVec 5) : (s.setIrq b).draws = s.draws := rfl
@[simp] theorem State.setIrq_ptr (b : BitVec 5) : (s.setIrq b).ptr = s.ptr := rfl

/-! ### `State.endRun` -/

@[simp] theorem State.endRun_seq (k : BitVec 2) :
    (s.endRun k).seq = { s.seq with run := false, stopReq := false, lastEnd := k } := rfl
@[simp] theorem State.endRun_par (k : BitVec 2) : (s.endRun k).par = s.par := rfl
@[simp] theorem State.endRun_modcfg (k : BitVec 2) : (s.endRun k).modcfg = s.modcfg := rfl
@[simp] theorem State.endRun_agc (k : BitVec 2) : (s.endRun k).agc = s.agc := rfl
@[simp] theorem State.endRun_fir (k : BitVec 2) : (s.endRun k).fir = s.fir := rfl
@[simp] theorem State.endRun_scr (k : BitVec 2) : (s.endRun k).scr = s.scr := rfl
@[simp] theorem State.endRun_cfc (k : BitVec 2) : (s.endRun k).cfc = s.cfc := rfl
@[simp] theorem State.endRun_pll (k : BitVec 2) : (s.endRun k).pll = s.pll := rfl
@[simp] theorem State.endRun_sym (k : BitVec 2) : (s.endRun k).sym = s.sym := rfl
@[simp] theorem State.endRun_fs (k : BitVec 2) : (s.endRun k).fs = s.fs := rfl
@[simp] theorem State.endRun_mem (k : BitVec 2) : (s.endRun k).mem = s.mem := rfl
@[simp] theorem State.endRun_host (k : BitVec 2) : (s.endRun k).host = s.host := rfl
@[simp] theorem State.endRun_hostRdata (k : BitVec 2) : (s.endRun k).hostRdata = s.hostRdata := rfl
@[simp] theorem State.endRun_draws (k : BitVec 2) : (s.endRun k).draws = s.draws := rfl
@[simp] theorem State.endRun_ptr (k : BitVec 2) : (s.endRun k).ptr = s.ptr := rfl

/-! ### `State.errorStop` -/

@[simp] theorem State.errorStop_seq (e : CmdError) :
    (s.errorStop e).seq = { s.seq with
      run := false, stopReq := false, lastEnd := 2#2, errCode := e.code, errInfo := e.info,
      errPtr := s.seq.cmdPtr, irqStatus := s.seq.irqStatus ||| irqErr } := rfl
@[simp] theorem State.errorStop_par (e : CmdError) : (s.errorStop e).par = s.par := rfl
@[simp] theorem State.errorStop_modcfg (e : CmdError) : (s.errorStop e).modcfg = s.modcfg := rfl
@[simp] theorem State.errorStop_agc (e : CmdError) : (s.errorStop e).agc = s.agc := rfl
@[simp] theorem State.errorStop_fir (e : CmdError) : (s.errorStop e).fir = s.fir := rfl
@[simp] theorem State.errorStop_scr (e : CmdError) : (s.errorStop e).scr = s.scr := rfl
@[simp] theorem State.errorStop_cfc (e : CmdError) : (s.errorStop e).cfc = s.cfc := rfl
@[simp] theorem State.errorStop_pll (e : CmdError) : (s.errorStop e).pll = s.pll := rfl
@[simp] theorem State.errorStop_sym (e : CmdError) : (s.errorStop e).sym = s.sym := rfl
@[simp] theorem State.errorStop_fs (e : CmdError) : (s.errorStop e).fs = s.fs := rfl
@[simp] theorem State.errorStop_mem (e : CmdError) : (s.errorStop e).mem = s.mem := rfl
@[simp] theorem State.errorStop_host (e : CmdError) : (s.errorStop e).host = s.host := rfl
@[simp] theorem State.errorStop_hostRdata (e : CmdError) : (s.errorStop e).hostRdata = s.hostRdata := rfl
@[simp] theorem State.errorStop_draws (e : CmdError) : (s.errorStop e).draws = s.draws := rfl
@[simp] theorem State.errorStop_ptr (e : CmdError) : (s.errorStop e).ptr = s.ptr := rfl

/-! ### `State.start` -/

@[simp] theorem State.start_seq :
    s.start.seq = { s.seq with
      run := true, stopReq := false, cmdCount := 0#32, errCode := 0#8, errPtr := 0#32,
      errInfo := 0#32 } := rfl
@[simp] theorem State.start_par : s.start.par = s.par := rfl
@[simp] theorem State.start_modcfg : s.start.modcfg = s.modcfg := rfl
@[simp] theorem State.start_agc : s.start.agc = s.agc := rfl
@[simp] theorem State.start_fir : s.start.fir = s.fir := rfl
@[simp] theorem State.start_scr : s.start.scr = s.scr := rfl
@[simp] theorem State.start_cfc : s.start.cfc = s.cfc := rfl
@[simp] theorem State.start_pll : s.start.pll = s.pll := rfl
@[simp] theorem State.start_sym : s.start.sym = s.sym := rfl
@[simp] theorem State.start_fs : s.start.fs = s.fs := rfl
@[simp] theorem State.start_mem : s.start.mem = s.mem := rfl
@[simp] theorem State.start_host : s.start.host = s.host := rfl
@[simp] theorem State.start_hostRdata : s.start.hostRdata = s.hostRdata := rfl
@[simp] theorem State.start_draws : s.start.draws = s.draws := rfl
@[simp] theorem State.start_ptr : s.start.ptr = s.ptr := rfl

/-! ### `State.takeStop` -/

@[simp] theorem State.takeStop_seq :
    s.takeStop.seq = { s.seq with
      run := false, stopReq := false, lastEnd := 3#2,
      irqStatus := s.seq.irqStatus ||| irqStopped } := rfl
@[simp] theorem State.takeStop_par : s.takeStop.par = s.par := rfl
@[simp] theorem State.takeStop_modcfg : s.takeStop.modcfg = s.modcfg := rfl
@[simp] theorem State.takeStop_agc : s.takeStop.agc = s.agc := rfl
@[simp] theorem State.takeStop_fir : s.takeStop.fir = s.fir := rfl
@[simp] theorem State.takeStop_scr : s.takeStop.scr = s.scr := rfl
@[simp] theorem State.takeStop_cfc : s.takeStop.cfc = s.cfc := rfl
@[simp] theorem State.takeStop_pll : s.takeStop.pll = s.pll := rfl
@[simp] theorem State.takeStop_sym : s.takeStop.sym = s.sym := rfl
@[simp] theorem State.takeStop_fs : s.takeStop.fs = s.fs := rfl
@[simp] theorem State.takeStop_mem : s.takeStop.mem = s.mem := rfl
@[simp] theorem State.takeStop_host : s.takeStop.host = s.host := rfl
@[simp] theorem State.takeStop_hostRdata : s.takeStop.hostRdata = s.hostRdata := rfl
@[simp] theorem State.takeStop_draws : s.takeStop.draws = s.draws := rfl
@[simp] theorem State.takeStop_ptr : s.takeStop.ptr = s.ptr := rfl

/-! ### `State.advance` -/

@[simp] theorem State.advance_seq :
    s.advance.seq = { s.seq with cmdCount := s.seq.cmdCount + 1#32, cmdPtr := s.seq.cmdPtr + 4#32 } := rfl
@[simp] theorem State.advance_par : s.advance.par = s.par := rfl
@[simp] theorem State.advance_modcfg : s.advance.modcfg = s.modcfg := rfl
@[simp] theorem State.advance_agc : s.advance.agc = s.agc := rfl
@[simp] theorem State.advance_fir : s.advance.fir = s.fir := rfl
@[simp] theorem State.advance_scr : s.advance.scr = s.scr := rfl
@[simp] theorem State.advance_cfc : s.advance.cfc = s.cfc := rfl
@[simp] theorem State.advance_pll : s.advance.pll = s.pll := rfl
@[simp] theorem State.advance_sym : s.advance.sym = s.sym := rfl
@[simp] theorem State.advance_fs : s.advance.fs = s.fs := rfl
@[simp] theorem State.advance_mem : s.advance.mem = s.mem := rfl
@[simp] theorem State.advance_host : s.advance.host = s.host := rfl
@[simp] theorem State.advance_hostRdata : s.advance.hostRdata = s.hostRdata := rfl
@[simp] theorem State.advance_draws : s.advance.draws = s.draws := rfl

/-! ### `State.setResults` -/

@[simp] theorem State.setResults_seq (c : Counts) :
    (s.setResults c).seq = { s.seq with
      resConsumed := c.consumed, resProduced := c.produced, resAux := c.aux } := rfl
@[simp] theorem State.setResults_par (c : Counts) : (s.setResults c).par = s.par := rfl
@[simp] theorem State.setResults_modcfg (c : Counts) : (s.setResults c).modcfg = s.modcfg := rfl
@[simp] theorem State.setResults_agc (c : Counts) : (s.setResults c).agc = s.agc := rfl
@[simp] theorem State.setResults_fir (c : Counts) : (s.setResults c).fir = s.fir := rfl
@[simp] theorem State.setResults_scr (c : Counts) : (s.setResults c).scr = s.scr := rfl
@[simp] theorem State.setResults_cfc (c : Counts) : (s.setResults c).cfc = s.cfc := rfl
@[simp] theorem State.setResults_pll (c : Counts) : (s.setResults c).pll = s.pll := rfl
@[simp] theorem State.setResults_sym (c : Counts) : (s.setResults c).sym = s.sym := rfl
@[simp] theorem State.setResults_fs (c : Counts) : (s.setResults c).fs = s.fs := rfl
@[simp] theorem State.setResults_mem (c : Counts) : (s.setResults c).mem = s.mem := rfl
@[simp] theorem State.setResults_host (c : Counts) : (s.setResults c).host = s.host := rfl
@[simp] theorem State.setResults_hostRdata (c : Counts) : (s.setResults c).hostRdata = s.hostRdata := rfl
@[simp] theorem State.setResults_draws (c : Counts) : (s.setResults c).draws = s.draws := rfl
@[simp] theorem State.setResults_ptr (c : Counts) : (s.setResults c).ptr = s.ptr := rfl

/-! ### `State.writeBlock` -/

@[simp] theorem State.writeBlock_seq (a : Nat) (ws : List Word64) :
    (s.writeBlock a ws).seq = s.seq := rfl
@[simp] theorem State.writeBlock_par (a : Nat) (ws : List Word64) : (s.writeBlock a ws).par = s.par := rfl
@[simp] theorem State.writeBlock_modcfg (a : Nat) (ws : List Word64) : (s.writeBlock a ws).modcfg = s.modcfg := rfl
@[simp] theorem State.writeBlock_agc (a : Nat) (ws : List Word64) : (s.writeBlock a ws).agc = s.agc := rfl
@[simp] theorem State.writeBlock_fir (a : Nat) (ws : List Word64) : (s.writeBlock a ws).fir = s.fir := rfl
@[simp] theorem State.writeBlock_scr (a : Nat) (ws : List Word64) : (s.writeBlock a ws).scr = s.scr := rfl
@[simp] theorem State.writeBlock_cfc (a : Nat) (ws : List Word64) : (s.writeBlock a ws).cfc = s.cfc := rfl
@[simp] theorem State.writeBlock_pll (a : Nat) (ws : List Word64) : (s.writeBlock a ws).pll = s.pll := rfl
@[simp] theorem State.writeBlock_sym (a : Nat) (ws : List Word64) : (s.writeBlock a ws).sym = s.sym := rfl
@[simp] theorem State.writeBlock_fs (a : Nat) (ws : List Word64) : (s.writeBlock a ws).fs = s.fs := rfl
@[simp] theorem State.writeBlock_mem (a : Nat) (ws : List Word64) : (s.writeBlock a ws).mem = s.mem.writeBlock a ws := rfl
@[simp] theorem State.writeBlock_host (a : Nat) (ws : List Word64) : (s.writeBlock a ws).host = s.host := rfl
@[simp] theorem State.writeBlock_hostRdata (a : Nat) (ws : List Word64) : (s.writeBlock a ws).hostRdata = s.hostRdata := rfl
@[simp] theorem State.writeBlock_draws (a : Nat) (ws : List Word64) : (s.writeBlock a ws).draws = s.draws := rfl
@[simp] theorem State.writeBlock_ptr (a : Nat) (ws : List Word64) : (s.writeBlock a ws).ptr = s.ptr := rfl

/-! ### `State.complete` -/

@[simp] theorem State.complete_seq (c : Counts) :
    (s.complete c).seq = completedSeq s.seq c := rfl
@[simp] theorem State.complete_par (c : Counts) : (s.complete c).par = s.par := rfl
@[simp] theorem State.complete_modcfg (c : Counts) : (s.complete c).modcfg = s.modcfg := rfl
@[simp] theorem State.complete_agc (c : Counts) : (s.complete c).agc = s.agc := rfl
@[simp] theorem State.complete_fir (c : Counts) : (s.complete c).fir = s.fir := rfl
@[simp] theorem State.complete_scr (c : Counts) : (s.complete c).scr = s.scr := rfl
@[simp] theorem State.complete_cfc (c : Counts) : (s.complete c).cfc = s.cfc := rfl
@[simp] theorem State.complete_pll (c : Counts) : (s.complete c).pll = s.pll := rfl
@[simp] theorem State.complete_sym (c : Counts) : (s.complete c).sym = s.sym := rfl
@[simp] theorem State.complete_fs (c : Counts) : (s.complete c).fs = s.fs := rfl
@[simp] theorem State.complete_mem (c : Counts) : (s.complete c).mem = s.mem.writeBlock (s.ptr + 3) [w3Word c] := rfl
@[simp] theorem State.complete_host (c : Counts) : (s.complete c).host = s.host := rfl
@[simp] theorem State.complete_hostRdata (c : Counts) : (s.complete c).hostRdata = s.hostRdata := rfl
@[simp] theorem State.complete_draws (c : Counts) : (s.complete c).draws = s.draws := rfl

/-! ### `State.reject` -/

@[simp] theorem State.reject_seq (a : Nat) :
    (s.reject a).seq = { s.seq with
      cfgrejAddr := BitVec.ofNat 12 a, irqStatus := s.seq.irqStatus ||| irqCfgrej } := rfl
@[simp] theorem State.reject_par (a : Nat) : (s.reject a).par = s.par := rfl
@[simp] theorem State.reject_modcfg (a : Nat) : (s.reject a).modcfg = s.modcfg := rfl
@[simp] theorem State.reject_agc (a : Nat) : (s.reject a).agc = s.agc := rfl
@[simp] theorem State.reject_fir (a : Nat) : (s.reject a).fir = s.fir := rfl
@[simp] theorem State.reject_scr (a : Nat) : (s.reject a).scr = s.scr := rfl
@[simp] theorem State.reject_cfc (a : Nat) : (s.reject a).cfc = s.cfc := rfl
@[simp] theorem State.reject_pll (a : Nat) : (s.reject a).pll = s.pll := rfl
@[simp] theorem State.reject_sym (a : Nat) : (s.reject a).sym = s.sym := rfl
@[simp] theorem State.reject_fs (a : Nat) : (s.reject a).fs = s.fs := rfl
@[simp] theorem State.reject_mem (a : Nat) : (s.reject a).mem = s.mem := rfl
@[simp] theorem State.reject_host (a : Nat) : (s.reject a).host = s.host := rfl
@[simp] theorem State.reject_hostRdata (a : Nat) : (s.reject a).hostRdata = s.hostRdata := rfl
@[simp] theorem State.reject_draws (a : Nat) : (s.reject a).draws = s.draws := rfl
@[simp] theorem State.reject_ptr (a : Nat) : (s.reject a).ptr = s.ptr := rfl

/-! ### `State.writeAux` -/

@[simp] theorem State.writeAux_none (ws : List Word64) : s.writeAux none ws = s := rfl
@[simp] theorem State.writeAux_some (r : Range) (ws : List Word64) :
    s.writeAux (some r) ws = s.writeBlock r.base ws := rfl
@[simp] theorem State.writeAux_seq (r : Option Range) (ws : List Word64) :
    (s.writeAux r ws).seq = s.seq := by cases r <;> rfl
@[simp] theorem State.writeAux_ptr (r : Option Range) (ws : List Word64) :
    (s.writeAux r ws).ptr = s.ptr := by cases r <;> rfl
@[simp] theorem State.writeAux_par (r : Option Range) (ws : List Word64) :
    (s.writeAux r ws).par = s.par := by cases r <;> rfl
@[simp] theorem State.writeAux_modcfg (r : Option Range) (ws : List Word64) :
    (s.writeAux r ws).modcfg = s.modcfg := by cases r <;> rfl
@[simp] theorem State.writeAux_agc (r : Option Range) (ws : List Word64) :
    (s.writeAux r ws).agc = s.agc := by cases r <;> rfl
@[simp] theorem State.writeAux_fir (r : Option Range) (ws : List Word64) :
    (s.writeAux r ws).fir = s.fir := by cases r <;> rfl
@[simp] theorem State.writeAux_scr (r : Option Range) (ws : List Word64) :
    (s.writeAux r ws).scr = s.scr := by cases r <;> rfl
@[simp] theorem State.writeAux_cfc (r : Option Range) (ws : List Word64) :
    (s.writeAux r ws).cfc = s.cfc := by cases r <;> rfl
@[simp] theorem State.writeAux_pll (r : Option Range) (ws : List Word64) :
    (s.writeAux r ws).pll = s.pll := by cases r <;> rfl
@[simp] theorem State.writeAux_sym (r : Option Range) (ws : List Word64) :
    (s.writeAux r ws).sym = s.sym := by cases r <;> rfl
@[simp] theorem State.writeAux_fs (r : Option Range) (ws : List Word64) :
    (s.writeAux r ws).fs = s.fs := by cases r <;> rfl
@[simp] theorem State.writeAux_host (r : Option Range) (ws : List Word64) :
    (s.writeAux r ws).host = s.host := by cases r <;> rfl
@[simp] theorem State.writeAux_hostRdata (r : Option Range) (ws : List Word64) :
    (s.writeAux r ws).hostRdata = s.hostRdata := by cases r <;> rfl
@[simp] theorem State.writeAux_draws (r : Option Range) (ws : List Word64) :
    (s.writeAux r ws).draws = s.draws := by cases r <;> rfl

/-- The memory after the optional auxiliary write. -/
def auxWritten (m : Memory) (r : Option Range) (ws : List Word64) : Memory :=
  match r with
  | none => m
  | some a => m.writeBlock a.base ws

@[simp] theorem auxWritten_none (m : Memory) (ws : List Word64) : auxWritten m none ws = m := rfl
@[simp] theorem auxWritten_some (m : Memory) (r : Range) (ws : List Word64) :
    auxWritten m (some r) ws = m.writeBlock r.base ws := rfl
@[simp] theorem State.writeAux_mem (r : Option Range) (ws : List Word64) :
    (s.writeAux r ws).mem = auxWritten s.mem r ws := by cases r <;> rfl

/-! ### `Effect.commit` -/

variable (e : Effect) (b : Blocks)

@[simp] theorem Effect.commit_seq : (e.commit b).seq = completedSeq e.st.seq e.counts := by
  simp [Effect.commit]
@[simp] theorem Effect.commit_mem :
    (e.commit b).mem = (auxWritten (e.st.mem.writeBlock b.out.base e.out) b.aux e.aux).writeBlock
      (e.st.ptr + 3) [w3Word e.counts] := by
  simp [Effect.commit]
@[simp] theorem Effect.commit_par : (e.commit b).par = e.st.par := by simp [Effect.commit]
@[simp] theorem Effect.commit_modcfg : (e.commit b).modcfg = e.st.modcfg := by simp [Effect.commit]
@[simp] theorem Effect.commit_agc : (e.commit b).agc = e.st.agc := by simp [Effect.commit]
@[simp] theorem Effect.commit_fir : (e.commit b).fir = e.st.fir := by simp [Effect.commit]
@[simp] theorem Effect.commit_scr : (e.commit b).scr = e.st.scr := by simp [Effect.commit]
@[simp] theorem Effect.commit_cfc : (e.commit b).cfc = e.st.cfc := by simp [Effect.commit]
@[simp] theorem Effect.commit_pll : (e.commit b).pll = e.st.pll := by simp [Effect.commit]
@[simp] theorem Effect.commit_sym : (e.commit b).sym = e.st.sym := by simp [Effect.commit]
@[simp] theorem Effect.commit_fs : (e.commit b).fs = e.st.fs := by simp [Effect.commit]
@[simp] theorem Effect.commit_host : (e.commit b).host = e.st.host := by simp [Effect.commit]
@[simp] theorem Effect.commit_hostRdata : (e.commit b).hostRdata = e.st.hostRdata := by simp [Effect.commit]
@[simp] theorem Effect.commit_draws : (e.commit b).draws = e.st.draws := by simp [Effect.commit]

/-! ### `State.softReset` -/

@[simp] theorem State.softReset_par : s.softReset.par = s.par := rfl
@[simp] theorem State.softReset_mem : s.softReset.mem = s.mem := rfl
@[simp] theorem State.softReset_host : s.softReset.host = s.host := rfl
@[simp] theorem State.softReset_hostRdata : s.softReset.hostRdata = s.hostRdata := rfl
@[simp] theorem State.softReset_draws : s.softReset.draws = s.draws := rfl
@[simp] theorem State.softReset_seq : s.softReset.seq = seqReset := rfl

end Sys2Proof.Machine
end

