-- ==== Sys2Proof/Laws/Ops.lean ====
section
/-! SUPPORT. What the shared operations of the sequencer can do: the frame of a block command, and what
its completion leaves in the memory and the registers. -/

namespace Sys2Proof.Machine

open Sys2Proof.Config

/-! ### The frame of a block command -/

/-- Everything that a block command can do when it gives a next state: an error stop of one of its
checks, or the completion of its effect. -/
theorem runBlock_next {s t : State} {b : Blocks} {cap : Option CmdError} {body : Computed}
    (h : runBlock s b cap body = .next t) :
    (∃ e, t = s.errorStop e ∧ operandError s.par s.ptr b = some e) ∨
    (∃ e, t = s.errorStop e ∧ OperandsFit s b ∧ cap = some e) ∨
    (∃ e, OperandsFit s b ∧ cap = none ∧ body = .next e ∧ t = e.commit b) := by
  unfold runBlock at h
  split at h
  · next e he => cases h; exact .inl ⟨e, rfl, he⟩
  · next he =>
    have hf := (operandError_eq_none s b).1 he
    split at h
    · next e => cases h; exact .inr (.inl ⟨e, rfl, hf, rfl⟩)
    · split at h
      · next e => cases h; exact .inr (.inr ⟨e, hf, rfl, rfl, rfl⟩)
      · cases h
      · cases h

/-- No block command refuses unless its body does. -/
theorem runBlock_not_refused {s : State} {b : Blocks} {cap : Option CmdError} {body : Computed}
    (hb : ∀ r, body ≠ .refused r) (r : Refusal) : runBlock s b cap body ≠ .refused r := by
  unfold runBlock
  split
  · simp
  · split
    · simp
    · split <;> simp_all

theorem runBlock_operandError {s : State} {b : Blocks} {cap : Option CmdError} {e : CmdError}
    {body : Computed} (h : operandError s.par s.ptr b = some e) :
    runBlock s b cap body = .next (s.errorStop e) := by
  unfold runBlock; rw [h]

theorem runBlock_capacity {s : State} {b : Blocks} {e : CmdError} {body : Computed}
    (h : OperandsFit s b) : runBlock s b (some e) body = .next (s.errorStop e) := by
  unfold runBlock; rw [(operandError_eq_none s b).2 h]

/-- A block command whose checks pass does what its body says. -/
theorem runBlock_body {s : State} {b : Blocks} {body : Computed} (h : OperandsFit s b) :
    runBlock s b none body = match body with
      | .next e => .next (e.commit b)
      | .fault r => .fault r
      | .refused r => .refused r := by
  cases body <;> simp only [runBlock, (operandError_eq_none s b).2 h]

theorem runBlock_complete {s : State} {b : Blocks} {e : Effect} {body : Computed}
    (h : OperandsFit s b) (hb : body = .next e) : runBlock s b none body = .next (e.commit b) := by
  rw [runBlock_body h, hb]

theorem runBlock_fault {s : State} {b : Blocks} {r : Fault} {body : Computed}
    (h : OperandsFit s b) (hb : body = .fault r) : runBlock s b none body = .fault r := by
  rw [runBlock_body h, hb]

/-! ### The reads of an input block -/

/-- What reading every word of the input block can give. -/
theorem withWords_eq (s : State) (r : Range) (f : List Word64 → Computed) :
    (s.mem.readBlock r.base r.len = none ∧ withWords s r f = .fault .unwrittenDmem) ∨
    (∃ ws, s.mem.readBlock r.base r.len = some ws ∧ withWords s r f = f ws) := by
  unfold withWords
  cases s.mem.readBlock r.base r.len <;> simp

theorem withWords_some {s : State} {r : Range} {f : List Word64 → Computed} {ws : List Word64}
    (h : s.mem.readBlock r.base r.len = some ws) : withWords s r f = f ws := by
  unfold withWords; rw [h]

theorem withWords_none {s : State} {r : Range} {f : List Word64 → Computed}
    (h : s.mem.readBlock r.base r.len = none) : withWords s r f = .fault .unwrittenDmem := by
  unfold withWords; rw [h]

/-- What reading the bits of the consumed words can give. -/
theorem withBits_eq (s : State) (base n : Nat) (f : List Bool → Effect) :
    (s.mem.readBits base n = none ∧ withBits s base n f = .fault .unwrittenDmem) ∨
    (∃ bs, s.mem.readBits base n = some bs ∧ withBits s base n f = .next (f bs)) := by
  unfold withBits
  cases s.mem.readBits base n <;> simp

theorem withBits_some {s : State} {base n : Nat} {f : List Bool → Effect} {bs : List Bool}
    (h : s.mem.readBits base n = some bs) : withBits s base n f = .next (f bs) := by
  unfold withBits; rw [h]

theorem withBits_none {s : State} {base n : Nat} {f : List Bool → Effect}
    (h : s.mem.readBits base n = none) : withBits s base n f = .fault .unwrittenDmem := by
  unfold withBits; rw [h]

/-! ### Completion -/

/-- Completion touches the sequencer registers and the memory only. -/
theorem Effect.commit_eq (e : Effect) (b : Blocks) :
    e.commit b = { e.st with seq := (e.commit b).seq, mem := (e.commit b).mem } := by
  cases hb : b.aux <;> simp only [Effect.commit, hb] <;> rfl

theorem holdsWords_writeBlock (m : Memory) (base : Nat) (ws : List Word64) :
    HoldsWords (m.writeBlock base ws) base ws := fun _ h => Memory.getWord_writeBlock_inside m h

theorem HoldsWords.writeBlock_apart {m : Memory} {base base' : Nat} {ws ws' : List Word64}
    (h : HoldsWords m base ws)
    (hd : ws.length = 0 ∨ ws'.length = 0 ∨ base + ws.length ≤ base' ∨
      base' + ws'.length ≤ base) : HoldsWords (m.writeBlock base' ws') base ws := by
  intro i hi
  rcases Nat.eq_zero_or_pos ws'.length with h0 | h0
  · rw [List.length_eq_zero_iff.1 h0]; exact h i hi
  · rw [Memory.getWord_writeBlock_outside _ (by omega)]; exact h i hi

/-- A completed effect that keeps within its ranges wrote exactly its blocks and its `W3`. -/
theorem Effect.commit_completes {s : State} {e : Effect} {b : Blocks} (hf : OperandsFit s b)
    (hseq : e.st.seq = s.seq) (hmem : e.st.mem = s.mem) (hout : e.out.length ≤ b.out.len)
    (haux : ∀ a, b.aux = some a → e.aux.length ≤ a.len) :
    Completes s (e.commit b) b e.out e.aux e.counts := by
  have hp : e.st.ptr = s.ptr := by simp [State.ptr, hseq]
  unfold Completes
  rw [Effect.commit_seq, Effect.commit_mem, hseq, hmem, hp]
  obtain ⟨⟨_, _, _, hod⟩, ha⟩ := hf
  unfold Range.Apart State.descRange at hod
  simp only at hod
  refine ⟨rfl, ?_, holdsWords_writeBlock _ _ _, ?_⟩
  · cases hb : b.aux with
    | none =>
      exact (holdsWords_writeBlock _ _ _).writeBlock_apart (by simp; omega)
    | some a =>
      rw [hb] at ha
      obtain ⟨_, _, hoa, _⟩ := ha
      have := haux a hb
      unfold Range.Apart at hoa
      exact ((holdsWords_writeBlock _ _ _).writeBlock_apart (by omega)).writeBlock_apart
        (by simp; omega)
  · cases hb : b.aux with
    | none =>
      intro x hx
      have h1 := hx ⟨b.out.base, e.out.length⟩ (by simp)
      have h2 := hx ⟨s.ptr + 3, 1⟩ (by simp)
      unfold Range.HasByte at h1 h2
      simp only at h1 h2
      rw [Memory.get_writeBlock_outside _ (by simp only [List.length_singleton]; omega),
        auxWritten_none, Memory.get_writeBlock_outside _ (by omega)]
    | some a =>
      rw [hb] at ha
      obtain ⟨_, _, _, had⟩ := ha
      have := haux a hb
      unfold Range.Apart at had
      simp only at had
      refine ⟨(holdsWords_writeBlock _ _ _).writeBlock_apart (by simp; omega), ?_⟩
      intro x hx
      have h1 := hx ⟨b.out.base, e.out.length⟩ (by simp)
      have h2 := hx ⟨a.base, e.aux.length⟩ (by simp)
      have h3 := hx ⟨s.ptr + 3, 1⟩ (by simp)
      unfold Range.HasByte at h1 h2 h3
      simp only at h1 h2 h3
      rw [Memory.get_writeBlock_outside _ (by simp only [List.length_singleton]; omega),
        auxWritten_some, Memory.get_writeBlock_outside _ (by omega),
        Memory.get_writeBlock_outside _ (by omega)]

/-- The error stop, written out. -/
theorem State.errorStop_eq (s : State) (e : CmdError) :
    s.errorStop e = s.stoppedWith e.code e.info := rfl

end Sys2Proof.Machine
end

