-- ==== Sys2Proof/Laws/Units.lean ====
section
/-! SUPPORT. The unit computations: lengths of what they write, and the streaming filters and search
loops entry by entry. -/

namespace Sys2Proof.Machine

open Sys2Proof.Config

/-! ### Filters -/

theorem foldl_range_succ_shift {β : Type} (n : Nat) (f : β → Nat → β) (b : β) :
    (List.range (n + 1)).foldl f b = (List.range n).foldl (fun a k => f a (k + 1)) (f b 0) := by
  rw [List.range_succ_eq_map, List.foldl_cons, List.foldl_map]

/-- The filter sum, tap by tap. -/
theorem tapSum_eq_foldl (acc : C32) (taps ws : List C32) :
    tapSum acc taps ws = (List.range taps.length).foldl
      (fun a k => cadd a (cmul (taps.getD k czero) (ws.getD k czero))) acc := by
  induction taps generalizing acc ws with
  | nil => rfl
  | cons c cs ih =>
    rw [tapSum, ih, List.length_cons, foldl_range_succ_shift]
    cases ws <;> simp

theorem filterRun_cons (n : Nat) (taps dl : List C32) (x : C32) (xs : List C32) :
    filterRun n taps dl (x :: xs) =
      ((filterRun n taps (pushFront n x dl) xs).1,
        tapSum czero taps (x :: dl) :: (filterRun n taps (pushFront n x dl) xs).2) := rfl

@[simp] theorem filterRun_length (n : Nat) (taps dl xs : List C32) :
    (filterRun n taps dl xs).2.length = xs.length := scanBlock_length _ _ _

/-- The delay line after a block. -/
theorem filterRun_line (n : Nat) (taps dl xs : List C32) (h : dl.length = n) :
    (filterRun n taps dl xs).1 = (xs.reverse ++ dl).take n := by
  induction xs generalizing dl with
  | nil => simp [filterRun, ← h]
  | cons x xs ih =>
    rw [filterRun_cons, ih _ (pushFront_length n x dl h)]
    simp only [List.reverse_cons, List.append_assoc, List.singleton_append, pushFront]
    rw [List.take_append, List.take_append, List.take_take]
    congr 2
    omega

/-- Output `i` of a streaming filter: the sum over its window (`42_fir.md` R291). -/
theorem filterRun_output (n : Nat) (taps dl xs : List C32) (h : dl.length = n)
    (ht : taps.length ≤ n + 1) (i : Nat) (hi : i < xs.length) :
    (filterRun n taps dl xs).2[i]? = some ((List.range taps.length).foldl
      (fun a k => cadd a (cmul (taps.getD k czero) (windowAt czero xs dl i k))) czero) := by
  induction xs generalizing dl i with
  | nil => simp at hi
  | cons x xs ih =>
    rw [filterRun_cons]
    cases i with
    | zero =>
      rw [List.getElem?_cons_zero, tapSum_eq_foldl]
      congr 2
      funext a k
      congr 2
      cases k <;> simp [windowAt]
    | succ i =>
      rw [List.getElem?_cons_succ, ih _ (pushFront_length n x dl h) i (by simpa using hi)]
      congr 1
      have key : ∀ k, k < n + 1 →
          windowAt czero xs (pushFront n x dl) i k = windowAt czero (x :: xs) dl (i + 1) k := by
        intro k hk
        unfold windowAt pushFront
        simp only [List.getD_eq_getElem?_getD]
        by_cases h1 : k ≤ i
        · rw [if_pos h1, if_pos (by omega)]
          have : i + 1 - k = (i - k) + 1 := by omega
          rw [this, List.getElem?_cons_succ]
        · rw [if_neg h1, List.getElem?_take_of_lt (by omega)]
          by_cases h2 : k = i + 1
          · subst h2; simp
          · rw [if_neg (by omega)]
            have : k - i - 1 = (k - (i + 1) - 1) + 1 := by omega
            rw [this, List.getElem?_cons_succ]
      refine List.foldl_ext _ _ _ fun a k hk => ?_
      rw [key k (by have := List.mem_range.1 hk; omega)]

/-! ### Scrambling -/

theorem foldl_xor_countP {α : Type} (f : α → Bool) (l : List α) (b : Bool) :
    l.foldl (fun b i => b ^^ f i) b = (b ^^ decide (l.countP f % 2 = 1)) := by
  induction l generalizing b with
  | nil => simp
  | cons x l ih =>
    rw [List.foldl_cons, ih, List.countP_cons]
    cases f x
    · simp
    · rcases Nat.mod_two_eq_zero_or_one (l.countP f) with h | h <;> cases b <;> simp [h, Nat.add_mod]

/-- The parity of a word is whether it has an odd number of 1 bits (`00_scope.md` R8). -/
theorem parity_eq_oddOnes (v : Word32) : parity v = oddOnes v := by
  rw [parity, foldl_xor_countP, oddOnes, Bool.false_xor]

/-! ### Forward error correction -/

theorem hammingDecode_length (p : Params) (c : List Bool) (h : c.length = 7) :
    (hammingDecode p c).1.length = 4 := by
  unfold hammingDecode
  split
  · simp [h]
  · split <;> simp [h, flipAt]

theorem encodeGroups_length (p : Params) (ds : List Bool) :
    (encodeGroups p ds).length = 7 * (ds.length / 4) := by
  match ds with
  | [] => rfl
  | [_] => simp [encodeGroups]
  | [_, _] => simp [encodeGroups]
  | [_, _, _] => simp [encodeGroups]
  | d0 :: d1 :: d2 :: d3 :: ds =>
    rw [encodeGroups, List.length_append, encodeGroups_length p ds]
    simp only [hammingEncode, List.length_cons, List.length_nil]
    omega

theorem decodeGroups_length (p : Params) (cs : List Bool) :
    (decodeGroups p cs).length = cs.length / 7 := by
  match cs with
  | [] => rfl
  | [_] => simp [decodeGroups]
  | [_, _] => simp [decodeGroups]
  | [_, _, _] => simp [decodeGroups]
  | [_, _, _, _] => simp [decodeGroups]
  | [_, _, _, _, _] => simp [decodeGroups]
  | [_, _, _, _, _, _] => simp [decodeGroups]
  | c0 :: c1 :: c2 :: c3 :: c4 :: c5 :: c6 :: cs =>
    rw [decodeGroups, List.length_cons, decodeGroups_length p cs]
    simp only [List.length_cons]
    omega

theorem decodeGroups_data_length (p : Params) (cs : List Bool) :
    ((decodeGroups p cs).flatMap fun g => g.1).length = 4 * (cs.length / 7) := by
  match cs with
  | [] => rfl
  | [_] => simp [decodeGroups]
  | [_, _] => simp [decodeGroups]
  | [_, _, _] => simp [decodeGroups]
  | [_, _, _, _] => simp [decodeGroups]
  | [_, _, _, _, _] => simp [decodeGroups]
  | [_, _, _, _, _, _] => simp [decodeGroups]
  | c0 :: c1 :: c2 :: c3 :: c4 :: c5 :: c6 :: cs =>
    rw [decodeGroups, List.flatMap_cons, List.length_append, decodeGroups_data_length p cs,
      hammingDecode_length _ _ rfl]
    simp only [List.length_cons]
    omega

/-- The codeword of group `g` stands at `7 * g`. -/
theorem encodeGroups_getElem (p : Params) (ds : List Bool) (g k : Nat) (hg : 4 * g + 4 ≤ ds.length)
    (hk : k < 7) :
    (encodeGroups p ds)[7 * g + k]? = (hammingEncode p (ds.getD (4 * g) false)
      (ds.getD (4 * g + 1) false) (ds.getD (4 * g + 2) false) (ds.getD (4 * g + 3) false))[k]? := by
  induction g generalizing ds with
  | zero =>
    match ds with
    | d0 :: d1 :: d2 :: d3 :: ds =>
      rw [encodeGroups, List.getElem?_append_left (by simp [hammingEncode]; omega)]
      simp
  | succ g ih =>
    match ds with
    | d0 :: d1 :: d2 :: d3 :: ds =>
      rw [encodeGroups, List.getElem?_append_right (by simp [hammingEncode]; omega)]
      have e : 7 * (g + 1) + k - (hammingEncode p d0 d1 d2 d3).length = 7 * g + k := by
        simp [hammingEncode]; omega
      rw [e, ih ds (by simp only [List.length_cons] at hg; omega)]
      simp [Nat.mul_add]

/-- Group `g` of a decoded block. -/
theorem decodeGroups_getElem (p : Params) (cs : List Bool) (g : Nat) (hg : 7 * g + 7 ≤ cs.length) :
    (decodeGroups p cs)[g]? =
      some (hammingDecode p ((List.range 7).map fun k => cs.getD (7 * g + k) false)) := by
  induction g generalizing cs with
  | zero =>
    match cs with
    | c0 :: c1 :: c2 :: c3 :: c4 :: c5 :: c6 :: cs => rw [decodeGroups]; rfl
  | succ g ih =>
    match cs with
    | c0 :: c1 :: c2 :: c3 :: c4 :: c5 :: c6 :: cs =>
      rw [decodeGroups, List.getElem?_cons_succ,
        ih cs (by simp only [List.length_cons] at hg; omega)]
      congr 2

/-! ### Symbol timing -/

theorem symRun_used_le (p : Params) (m : Modulation) (cap : Option Nat) (u : SymUnit)
    (xs : List C32) : (symRun p m cap u xs).used ≤ xs.length := by
  induction xs generalizing cap u with
  | nil => simp [symRun]
  | cons x xs ih =>
    unfold symRun
    split
    · next u' _ => have := ih cap u'; simp; omega
    · next u' z _ =>
      split
      · simp
      · have := ih (cap.map (· - 1)) u'; simp; omega

theorem symRun_syms_le (p : Params) (m : Modulation) (cap : Option Nat) (u : SymUnit)
    (xs : List C32) : (symRun p m cap u xs).syms.length ≤ (symRun p m cap u xs).used := by
  induction xs generalizing cap u with
  | nil => simp [symRun]
  | cons x xs ih =>
    unfold symRun
    split
    · next u' _ => have := ih cap u'; simp; omega
    · next u' z _ =>
      split
      · simp
      · have := ih (cap.map (· - 1)) u'; simp; omega

theorem symRun_syms_le_cap (p : Params) (m : Modulation) (c : Nat) (u : SymUnit) (xs : List C32)
    (hc : 0 < c) : (symRun p m (some c) u xs).syms.length ≤ c := by
  induction xs generalizing c u with
  | nil => simp [symRun]
  | cons x xs ih =>
    unfold symRun
    split
    · next u' _ => exact ih c u' hc
    · next u' z _ =>
      split
      · simp; omega
      · next h =>
        have hc2 : c ≠ 1 := fun hh => h (by rw [hh])
        have := ih (c - 1) u' (by omega)
        simp only [Option.map_some, List.length_cons]
        omega

theorem symRun_syms_le_range (p : Params) (m : Modulation) (len maxout : Word32) (u : SymUnit)
    (xs : List C32) (h : xs.length ≤ len.toNat) :
    (symRun p m (symCap maxout) u xs).syms.length ≤ symOutLen len maxout := by
  have h1 := Nat.le_trans (symRun_syms_le p m (symCap maxout) u xs) (symRun_used_le ..)
  unfold symOutLen symCap at *
  split
  · next h0 => rw [if_pos h0] at h1; omega
  · next h0 =>
    rw [if_neg h0] at h1
    have hpos : 0 < maxout.toNat := by
      rcases Nat.eq_zero_or_pos maxout.toNat with hz | hz
      · exact absurd (BitVec.eq_of_toNat_eq hz) h0
      · exact hz
    have := symRun_syms_le_cap p m maxout.toNat u xs hpos
    omega

/-- A run that its cap stopped does not depend on the samples after it. -/
theorem symRun_append_capped (p : Params) (m : Modulation) (c : Nat) (u : SymUnit)
    (xs ys : List C32) (hc : 0 < c) (h : (symRun p m (some c) u xs).syms.length = c) :
    symRun p m (some c) u (xs ++ ys) = symRun p m (some c) u xs := by
  induction xs generalizing c u with
  | nil => simp [symRun] at h; omega
  | cons x xs ih =>
    rw [List.cons_append]
    unfold symRun at h ⊢
    split at h
    · next u' he => rw [ih c u' hc h]
    · next u' z he =>
      split at h
      · next h1 => rw [if_pos h1, if_pos h1]
      · next h1 =>
        have hc2 : c ≠ 1 := fun hh => h1 (by rw [hh])
        simp only [Option.map_some, List.length_cons] at h
        rw [if_neg h1, if_neg h1, Option.map_some, ih (c - 1) u' (by omega) (by omega)]

theorem symSample_tb_length (p : Params) (m : Modulation) (u : SymUnit) (x : C32)
    (h : u.tb.length = p.maxSps) : (symSample p m u x).1.tb.length = p.maxSps :=
  pushFront_length _ _ _ h

theorem symRun_tb_length (p : Params) (m : Modulation) (cap : Option Nat) (u : SymUnit)
    (xs : List C32) (h : u.tb.length = p.maxSps) :
    (symRun p m cap u xs).unit.tb.length = p.maxSps := by
  induction xs generalizing cap u with
  | nil => exact h
  | cons x xs ih =>
    have h' := symSample_tb_length p m u x h
    unfold symRun
    split
    · next u' he => rw [he] at h'; exact ih cap u' h'
    · next u' z he =>
      rw [he] at h'
      split
      · exact h'
      · exact ih _ u' h'

/-! ### Frame search -/

theorem searchFrame_frame_length (plen fsize : Nat) (t : F32) (raw : List C32) (mag : List F32) :
    (searchFrame plen fsize t raw mag).frame.length ≤ fsize := by
  unfold searchFrame
  split
  · simp
  · unfold decideAt
    split
    · simp
    · split
      · simp
      · simp

/-- A decision emits a whole frame or nothing. -/
theorem decideAt_frame (plen fsize best : Nat) (raw : List C32) :
    (decideAt plen fsize best raw).frame.length =
      if (decideAt plen fsize best raw).outcome = .emit then fsize else 0 := by
  unfold decideAt
  split
  · simp
  · split
    · simp
    · simp; omega

/-- The search emits a whole frame or nothing. -/
theorem searchFrame_frame (plen fsize : Nat) (t : F32) (raw : List C32) (mag : List F32) :
    (searchFrame plen fsize t raw mag).frame.length =
      if (searchFrame plen fsize t raw mag).outcome = .emit then fsize else 0 := by
  unfold searchFrame
  split
  · simp
  · exact decideAt_frame ..

end Sys2Proof.Machine
end

