-- ==== Sys2Proof/Laws/Exec.lean ====
section
/-! SUPPORT. What each block command does once its checks pass: one lemma per meaning, and what its effect
keeps. -/

namespace Sys2Proof.Machine

open Sys2Proof.Config

variable {s : State} {dst src len maxout aux : Word32} {auxw : Bool} {ws : List Word64}
  {bs : List Bool}

/-! ### Completion -/

theorem execAgc_complete (hf : OperandsFit s (agcBlocks dst src len auxw aux))
    (hr : s.mem.readBlock src.toNat len.toNat = some ws) :
    execAgc dst src len auxw aux s =
      .next ((agcEffect len s ws).commit (agcBlocks dst src len auxw aux)) :=
  runBlock_complete hf (withWords_some hr)

theorem execFirdec_complete {taps : List Word64} (hf : OperandsFit s (firBlocks s.fir dst src len))
    (hr : s.mem.readBlock src.toNat len.toNat = some ws) (ht : firTaps s len = some taps) :
    execFirdec dst src len s =
      .next ((firEffect len s (taps.map complexOf) ws).commit (firBlocks s.fir dst src len)) :=
  runBlock_complete hf ((withWords_some hr).trans (by simp only [ht]))

theorem execScr_complete (hf : OperandsFit s (scrBlocks dst src len))
    (hr : s.mem.readBits src.toNat len.toNat = some bs) :
    execScr dst src len s = .next ((scrEffect len s bs).commit (scrBlocks dst src len)) :=
  runBlock_complete hf (withBits_some hr)

theorem execDscr_complete (hf : OperandsFit s (scrBlocks dst src len))
    (hr : s.mem.readBits src.toNat len.toNat = some bs) :
    execDscr dst src len s = .next ((dscrEffect len s bs).commit (scrBlocks dst src len)) :=
  runBlock_complete hf (withBits_some hr)

theorem execHenc_complete (hf : OperandsFit s (hencBlocks dst src len))
    (hr : s.mem.readBits src.toNat (4 * (len.toNat / 4)) = some bs) :
    execHenc dst src len s = .next ((hencEffect len s bs).commit (hencBlocks dst src len)) :=
  runBlock_complete hf (withBits_some hr)

theorem execHdec_complete (hf : OperandsFit s (hdecBlocks dst src len auxw aux))
    (hr : s.mem.readBits src.toNat (7 * (len.toNat / 7)) = some bs) :
    execHdec dst src len auxw aux s =
      .next ((hdecEffect len s bs).commit (hdecBlocks dst src len auxw aux)) :=
  runBlock_complete hf (withBits_some hr)

theorem execCfc_complete (hf : OperandsFit s (cfcBlocks dst src len auxw aux))
    (hc : len.toNat ≤ s.cfc.nfft.toNat) (hr : s.mem.readBlock src.toNat len.toNat = some ws) :
    execCfc dst src len auxw aux s =
      .next ((cfcEffect len s ws).commit (cfcBlocks dst src len auxw aux)) := by
  have hcap : cfcCapacity s len = none := if_neg (by omega)
  unfold execCfc
  rw [hcap]
  exact runBlock_complete hf (withWords_some hr)

theorem execPll_complete (hf : OperandsFit s (pllBlocks dst src len))
    (hr : s.mem.readBlock src.toNat len.toNat = some ws) :
    execPll dst src len s = .next ((pllEffect len s ws).commit (pllBlocks dst src len)) :=
  runBlock_complete hf (withWords_some hr)

theorem execFsync_complete {pre : List Word64}
    (hf : OperandsFit s (fsBlocks s.fs dst src len auxw aux))
    (hc : s.fs.raw.length + len.toNat ≤ s.par.fsyncCap)
    (hr : s.mem.readBlock src.toNat len.toNat = some ws) (hp : fsPreamble s len = some pre) :
    execFsync dst src len auxw aux s = .next
      ((fsEffect len s (pre.map complexOf) ws).commit (fsBlocks s.fs dst src len auxw aux)) := by
  have hcap : fsCapacity s len = none := if_neg (by omega)
  unfold execFsync
  rw [hcap]
  exact runBlock_complete hf ((withWords_some hr).trans (by simp only [hp]))

/-! ### SYMSYNC, which stops reading at its cap -/

/-- What SYMSYNC computes from a readable block. -/
theorem symCompute_full (hr : s.mem.readBlock src.toNat len.toNat = some ws) :
    symCompute src len maxout s = .next (symEffect maxout s ws) := by
  have hl := Memory.readBlock_length hr
  unfold symCompute
  rw [Memory.readPrefix_full hr]
  exact if_neg (by omega)

theorem symEffect_out_eq :
    (symEffect maxout s ws).out =
      (symRun s.par s.modcfg (symCap maxout) s.sym (ws.map complexOf)).syms.map wordOfC := rfl

/-- A SYMSYNC that its cap stopped within its words does not depend on the words after them. -/
theorem symEffect_append_capped (vs : List Word64)
    (hc : symCap maxout = some (symEffect maxout s ws).out.length) :
    symEffect maxout s (ws ++ vs) = symEffect maxout s ws := by
  have h0 : maxout ≠ 0#32 := fun h => by simp [symCap, h] at hc
  have hcap : symCap maxout = some maxout.toNat := if_neg h0
  have hpos : 0 < maxout.toNat := Nat.pos_of_ne_zero fun h => h0 (BitVec.eq_of_toNat_eq h)
  rw [symEffect_out_eq, hcap, List.length_map, Option.some.injEq] at hc
  unfold symEffect
  rw [hcap, List.map_append, symRun_append_capped _ _ _ _ _ _ hpos hc.symm]

/-- What SYMSYNC computes when its cap stops it within words that can be read: what stands after them
does not matter. -/
theorem symCompute_capped (hr : s.mem.readBlock src.toNat ws.length = some ws)
    (hl : ws.length ≤ len.toNat)
    (hc : symCap maxout = some (symEffect maxout s ws).out.length) :
    symCompute src len maxout s = .next (symEffect maxout s ws) := by
  unfold symCompute
  rw [Memory.readPrefix_of_readBlock hr hl]
  simp only [symEffect_append_capped _ hc]
  exact if_neg fun h => h.2 hc

/-- SYMSYNC needs the word after those it can read when its cap has not stopped it. -/
theorem symCompute_fault (hr : s.mem.readBlock src.toNat ws.length = some ws)
    (hl : ws.length < len.toNat) (hn : s.mem.getWord (dmemAddr (src.toNat + ws.length)) = none)
    (hc : symCap maxout ≠ some (symEffect maxout s ws).out.length) :
    symCompute src len maxout s = .fault .unwrittenDmem := by
  have e : s.mem.readPrefix src.toNat len.toNat = ws := by
    rw [Memory.readPrefix_of_readBlock hr (by omega)]
    obtain ⟨n, hn'⟩ : ∃ n, len.toNat - ws.length = n + 1 := ⟨len.toNat - ws.length - 1, by omega⟩
    simp [hn', Memory.readPrefix, hn]
  unfold symCompute
  rw [e]
  exact if_pos ⟨hl, hc⟩

/-- Everything that SYMSYNC can compute: its effect on the words up to its last or up to the first
unwritten one, of which it consumed no more; or the fault of that word. -/
theorem symCompute_cases (src len maxout : Word32) (s : State) :
    symCompute src len maxout s = .fault .unwrittenDmem ∨
    ∃ ws, ws.length ≤ len.toNat ∧ s.mem.readBlock src.toNat ws.length = some ws ∧
      symCompute src len maxout s = .next (symEffect maxout s ws) := by
  unfold symCompute
  dsimp only
  split
  · exact .inl rfl
  · exact .inr ⟨_, (Memory.readPrefix_spec ..).1, (Memory.readPrefix_spec ..).2.1, rfl⟩

theorem execSymsync_complete (hf : OperandsFit s (symBlocks dst src len maxout))
    (hr : s.mem.readBlock src.toNat len.toNat = some ws) :
    execSymsync dst src len maxout s =
      .next ((symEffect maxout s ws).commit (symBlocks dst src len maxout)) :=
  runBlock_complete hf (symCompute_full hr)

/-! ### What the effects write keeps within the ranges -/

@[simp] theorem agcEffect_out_length :
    (agcEffect len s ws).out.length = ws.length := by simp [agcEffect, agcRun]

@[simp] theorem agcEffect_aux_length :
    (agcEffect len s ws).aux.length = ws.length := by simp [agcEffect, agcRun]

@[simp] theorem firEffect_out_length (taps : List C32) :
    (firEffect len s taps ws).out.length = firOutputs s.fir len := by simp [firEffect, decimate]

@[simp] theorem scrEffect_out_length :
    (scrEffect len s bs).out.length = bs.length := by simp [scrEffect, scrRun]

@[simp] theorem dscrEffect_out_length :
    (dscrEffect len s bs).out.length = bs.length := by simp [dscrEffect, dscrRun]

@[simp] theorem hencEffect_out_length :
    (hencEffect len s bs).out.length = 7 * (bs.length / 4) := by
  simp [hencEffect, encodeGroups_length]

@[simp] theorem hdecEffect_out_length :
    (hdecEffect len s bs).out.length = 4 * (bs.length / 7) := by
  simpa [hdecEffect] using decodeGroups_data_length s.par bs

@[simp] theorem hdecEffect_aux_length :
    (hdecEffect len s bs).aux.length = bs.length / 7 := by
  simp [hdecEffect, decodeGroups_length]

@[simp] theorem cfcEffect_out_length :
    (cfcEffect len s ws).out.length = ws.length := by simp [cfcEffect]

@[simp] theorem cfcEffect_aux_length : (cfcEffect len s ws).aux.length = 1 := rfl

@[simp] theorem pllEffect_out_length :
    (pllEffect len s ws).out.length = ws.length := by simp [pllEffect, pllRun]

theorem symEffect_out_length (h : ws.length ≤ len.toNat) :
    (symEffect maxout s ws).out.length ≤ symOutLen len maxout := by
  simpa [symEffect] using symRun_syms_le_range s.par s.modcfg len maxout s.sym
    (ws.map complexOf) (by simpa using h)

theorem fsEffect_out_length (pre : List C32) :
    (fsEffect len s pre ws).out.length ≤ s.fs.fsize.toNat := by
  simpa [fsEffect] using searchFrame_frame_length ..

@[simp] theorem fsEffect_aux_length (pre : List C32) :
    (fsEffect len s pre ws).aux.length = 1 := rfl

/-! ### The words of a block by index -/

theorem map_getElem_of_readBlock {β : Type} (f : Word64 → β) {i : Nat} (hi : i < ws.length) :
    ∃ h : i < (ws.map f).length, (ws.map f)[i] = f (ws.getD i 0#64) := by
  refine ⟨by simpa using hi, ?_⟩
  simp [List.getD_eq_getElem?_getD, hi]

end Sys2Proof.Machine
end

