-- ==== Sys2Proof/Laws/Host.lean ====
section
/-! SUPPORT. What a host access, a reset and a step of an idle core do. -/

namespace Sys2Proof.Machine

open Sys2Proof.Config

@[simp] theorem regAt_regOffset (r : Reg) : regAt (regOffset r) = some r := by cases r <;> rfl

/-- Register offsets are aligned and in the control space. -/
theorem regOffset_spec (r : Reg) : regOffset r < 0x1000 ∧ regOffset r % 4 = 0 := by
  cases r <;> decide

theorem regAt_eq_some {a : Nat} {r : Reg} : regAt a = some r ↔ regOffset r = a := by
  constructor
  · intro h
    have := List.find?_some h
    simpa using this
  · rintro rfl; exact regAt_regOffset r

theorem step_write {s : State} {a v : Word32} {rest : List HostAct}
    (h : s.host = .write a v :: rest) : step s = .next (hostWrite { s with host := rest } a v) := by
  simp [step, h, hostStep]

theorem step_read {s : State} {a : Word32} {rest : List HostAct}
    (h : s.host = .read a :: rest) : step s = .next (hostRead { s with host := rest } a) := by
  simp [step, h, hostStep]

theorem step_reset {s : State} {rest : List HostAct} (h : s.host = .reset :: rest) :
    step s = .next (State.externalReset { s with host := rest }) := by
  simp [step, h, hostStep]

theorem step_wait {s : State} {rest : List HostAct} (h : s.host = .wait :: rest) :
    step s = seqStep { s with host := rest } := by
  simp [step, h, hostStep]

theorem step_seq {s : State} (h : s.host = []) : step s = seqStep s := by simp [step, h]

theorem State.reject_eq (s : State) (a : Nat) :
    s.reject a = s.rejectedAt (BitVec.ofNat 12 a) := rfl

theorem State.setIrq_haz (s : State) : s.setIrq irqHaz = s.hazardSet := rfl

/-- A write of a register by the host of an idle core. -/
theorem hostWrite_reg (s : State) (r : Reg) (v : Word32) (hr : s.seq.run = false) :
    hostWrite s (BitVec.ofNat 32 (regOffset r)) v = regStore s r v := by
  have h1 := regOffset_spec r
  have h2 : (BitVec.ofNat 32 (regOffset r)).toNat = regOffset r := by
    rw [BitVec.toNat_ofNat]; omega
  simp [hostWrite, h2, h1.1, h1.2, hr]

/-- A step in which the host of an idle core writes a register and has nothing more to do. -/
theorem step_reg (s : State) (r : Reg) (v : Word32) (hr : s.seq.run = false) (hh : s.host = []) :
    step { s with host := [.write (BitVec.ofNat 32 (regOffset r)) v] } =
      .next (regStore s r v) := by
  rw [step_write (s := { s with host := [.write (BitVec.ofNat 32 (regOffset r)) v] }) rfl]
  have e : ({ s with host := [] } : State) = s := by cases s; cases hh; rfl
  simp only [e]
  rw [hostWrite_reg s r v hr]

/-- What storing into a register other than CTRL answers, from its validation. -/
theorem regStore_eq (s : State) (r : Reg) (v : Word32) (h : r ≠ .ctrl) :
    regStore s r v = match regWrite s v r with
      | some t => t
      | none => s.rejectedAt (BitVec.ofNat 12 (regOffset r)) := by
  cases r <;> first | exact absurd rfl h | rfl

/-! ### Resets -/

/-- A descriptor can be fetched exactly at an aligned pointer inside DMEM (`40_control.md` R252). -/
theorem fetchError_eq_none {s : State} :
    fetchError s = none ↔ s.ptr % 4 = 0 ∧ s.ptr + 4 ≤ s.par.dmemWords := by
  unfold fetchError
  split
  · simp; omega
  · split <;> simp <;> omega

/-- A reset forgets the bytes of a range, and no other. -/
theorem get_forgetRange_inside {m : Memory} {r : Range} {a : Nat} (h : r.HasByte a) :
    (forgetRange m r).get a = none := by
  unfold Range.HasByte at h
  unfold forgetRange
  rw [Memory.get_forget, if_pos]
  unfold dmemAddr at *; omega

theorem get_forgetRange_outside {m : Memory} {r : Range} {a : Nat} (h : ¬ r.HasByte a) :
    (forgetRange m r).get a = m.get a := by
  unfold Range.HasByte at h
  unfold forgetRange
  rw [Memory.get_forget, if_neg]
  unfold dmemAddr at *; omega

/-- The checks of a block command pass exactly when its operands fit and its block is within the
capacity (`40_control.md` R257). -/
theorem checkError_eq_none {s : State} {i : Instr} {b : Blocks} :
    checkError s i b = none ↔ OperandsFit s b ∧ CapacityFits s i := by
  rw [← operandError_eq_none]
  unfold checkError CapacityFits
  cases operandError s.par s.ptr b with
  | some e => simp
  | none => cases i <;> simp [capacityError, cfcCapacity, fsCapacity]

/-- A written descriptor is drawn as it stands. -/
theorem fetchDrawn_of_readBlock {s : State} {w0 w1 w2 : Word64}
    (h : s.mem.readBlock s.ptr 3 = some [w0, w1, w2]) : s.fetchDrawn = decodeWords w0 w1 w2 := by
  have hw := (Memory.readBlock_eq_some.1 h).2
  have h0 := hw 0 (by simp)
  have h1 := hw 1 (by simp)
  have h2 := hw 2 (by simp)
  simp only [Nat.add_zero, List.getElem_cons_zero, List.getElem_cons_succ] at h0 h1 h2
  rw [State.fetchDrawn, Memory.drawWord_of_getWord h0, Memory.drawWord_of_getWord h1,
    Memory.drawWord_of_getWord h2]

/-- A drawn word agrees with what has been written. -/
theorem agreesWith_drawWord (m : Memory) (n a : Nat) :
    AgreesWith m a (m.drawWord n (dmemAddr a)) := fun i v hi hv => by
  rw [Memory.byteOfWord_drawWord m n _ i hi]
  exact Memory.drawByte_of_get hv

/-- The memories after an external reset in a run. -/
theorem externalReset_mem {s : State} (h : s.seq.run = true) :
    s.externalReset.mem = cutMemory s := by
  unfold State.externalReset; rw [if_pos h]; rfl

end Sys2Proof.Machine
end

