-- ==== Sys2Proof/Laws/PerInstr.lean ====
section
/-! SUPPORT. Statements for every command, one lemma per constructor of `Instr`. -/

namespace Sys2Proof.Laws

/-- The encoder writes the `OPC` value of the command's row (`30_encoding.md` R210), and the opcode map
has that row. -/
def EncodesItsOpcode.Statement (i : Instr) : Prop :=
  (fieldsOf i).opc = Machine.opcodeValue i ∧ (opcodeOf (Machine.opcodeValue i)).isSome = true

theorem EncodesItsOpcode.halt : EncodesItsOpcode.Statement .halt := ⟨rfl, rfl⟩

theorem EncodesItsOpcode.nop : EncodesItsOpcode.Statement .nop := ⟨rfl, rfl⟩

theorem EncodesItsOpcode.urst (u : UnitSel) : EncodesItsOpcode.Statement (.urst u) := ⟨rfl, rfl⟩

theorem EncodesItsOpcode.agc (dst src len : Word32) (auxw : Bool) (aux : Word32) :
    EncodesItsOpcode.Statement (.agc dst src len auxw aux) := ⟨rfl, rfl⟩

theorem EncodesItsOpcode.firdec (dst src len : Word32) :
    EncodesItsOpcode.Statement (.firdec dst src len) := ⟨rfl, rfl⟩

theorem EncodesItsOpcode.scr (dst src len : Word32) :
    EncodesItsOpcode.Statement (.scr dst src len) := ⟨rfl, rfl⟩

theorem EncodesItsOpcode.dscr (dst src len : Word32) :
    EncodesItsOpcode.Statement (.dscr dst src len) := ⟨rfl, rfl⟩

theorem EncodesItsOpcode.henc (dst src len : Word32) :
    EncodesItsOpcode.Statement (.henc dst src len) := ⟨rfl, rfl⟩

theorem EncodesItsOpcode.hdec (dst src len : Word32) (auxw : Bool) (aux : Word32) :
    EncodesItsOpcode.Statement (.hdec dst src len auxw aux) := ⟨rfl, rfl⟩

theorem EncodesItsOpcode.cfc (dst src len : Word32) (auxw : Bool) (aux : Word32) :
    EncodesItsOpcode.Statement (.cfc dst src len auxw aux) := ⟨rfl, rfl⟩

theorem EncodesItsOpcode.pll (dst src len : Word32) :
    EncodesItsOpcode.Statement (.pll dst src len) := ⟨rfl, rfl⟩

theorem EncodesItsOpcode.symsync (dst src len maxout : Word32) :
    EncodesItsOpcode.Statement (.symsync dst src len maxout) := ⟨rfl, rfl⟩

theorem EncodesItsOpcode.fsync (dst src len : Word32) (auxw : Bool) (aux : Word32) :
    EncodesItsOpcode.Statement (.fsync dst src len auxw aux) := ⟨rfl, rfl⟩

end Sys2Proof.Laws
end

