-- ==== Sys2Proof/Laws/SpecExact.lean ====
section
/-! SUPPORT. The exact comparison of a bin of the spectrum with a half way point is right: the lists of
SpecExact.lean evaluated at a root of unity, and the sign that they decide. -/

namespace Sys2Proof.Machine

open Complex

/-! ### Polynomials -/

/-- The value of a list of coefficients at `x`. -/
noncomputable def peval (x : ℂ) : List Int → ℂ
  | [] => 0
  | a :: p => a + x * peval x p

variable {x : ℂ}

@[simp] theorem peval_nil : peval x [] = 0 := rfl

@[simp] theorem peval_cons (a : Int) (p : List Int) : peval x (a :: p) = a + x * peval x p := rfl

theorem peval_append (p q : List Int) :
    peval x (p ++ q) = peval x p + x ^ p.length * peval x q := by
  induction p with
  | nil => simp
  | cons a p ih => simp [ih, pow_succ]; ring

theorem peval_map_mul (c : Int) (p : List Int) : peval x (p.map (c * ·)) = c * peval x p := by
  induction p with
  | nil => simp
  | cons a p ih => simp [ih]; ring

theorem peval_map_neg (p : List Int) : peval x (p.map (- ·)) = -peval x p := by
  induction p with
  | nil => simp
  | cons a p ih => simp [ih]; ring

theorem peval_zipWith (c d : Int) (p q : List Int) (h : p.length = q.length) :
    peval x (List.zipWith (fun u v => c * u + d * v) p q) = c * peval x p + d * peval x q := by
  induction p generalizing q with
  | nil => cases q with
    | nil => simp
    | cons b q => simp at h
  | cons a p ih =>
    cases q with
    | nil => simp at h
    | cons b q => simp [ih q (by simpa using h)]; ring

theorem peval_polyAdd (p q : List Int) (h : p.length = q.length) :
    peval x (polyAdd p q) = peval x p + peval x q := by
  simpa [polyAdd] using peval_zipWith (x := x) 1 1 p q h

theorem peval_replicate_zero (n : Nat) : peval x (List.replicate n 0) = 0 := by
  induction n with
  | zero => rfl
  | succ n ih => simp [List.replicate_succ, ih]

theorem peval_reverse (hx : x ≠ 0) (p : List Int) :
    x * peval x p.reverse = x ^ p.length * peval x⁻¹ p := by
  induction p with
  | nil => simp
  | cons a p ih =>
    rw [List.reverse_cons, peval_append, mul_add, ih]
    simp only [List.length_reverse, List.length_cons, peval_cons, peval_nil]
    field_simp
    ring

@[simp] theorem mulX_length (p : List Int) (h : p ≠ []) : (mulX p).length = p.length := by
  have := List.length_pos_iff.2 h
  simp [mulX]; omega

theorem peval_mulX (p : List Int) (h : p ≠ []) (hx : x ^ p.length = -1) :
    peval x (mulX p) = x * peval x p := by
  obtain ⟨l, b, rfl⟩ : ∃ l b, p = l ++ [b] := ⟨_, _, (List.dropLast_append_getLast h).symm⟩
  rw [List.length_append, List.length_singleton, pow_succ] at hx
  simp only [mulX, List.getLastD_eq_getLast?, List.getLast?_append, List.getLast?_singleton,
    Option.some_or, Option.getD_some, List.dropLast_concat, peval_cons, peval_append, peval_nil,
    Int.cast_neg]
  linear_combination (-(b : ℂ)) * hx

theorem polyMul_length (p q : List Int) (hq : q ≠ []) : (polyMul p q).length = q.length := by
  have hpos := List.length_pos_iff.2 hq
  induction p with
  | nil => simp [polyMul]
  | cons a p ih =>
    have hne : polyMul p q ≠ [] := List.length_pos_iff.1 (by omega)
    simp [polyMul, polyAdd, mulX_length _ hne, ih]

/-- The product of two lists has the product of their values. -/
theorem peval_polyMul (p q : List Int) (hq : q ≠ []) (hx : x ^ q.length = -1) :
    peval x (polyMul p q) = peval x p * peval x q := by
  have hpos := List.length_pos_iff.2 hq
  induction p with
  | nil => simp [polyMul, peval_replicate_zero]
  | cons a p ih =>
    have hl := polyMul_length p q hq
    have hne : polyMul p q ≠ [] := List.length_pos_iff.1 (by omega)
    rw [polyMul, peval_polyAdd _ _ (by simp [mulX_length _ hne, hl]), peval_map_mul,
      peval_mulX _ hne (by rw [hl]; exact hx), ih, peval_cons]
    ring

theorem polyConj_length (q : List Int) (h : q ≠ []) : (polyConj q).length = q.length := by
  have := List.length_pos_iff.2 h
  simp [polyConj]; omega

/-- The conjugate has the value at the inverse. -/
theorem peval_polyConj (q : List Int) (h : q ≠ []) (hx : x ^ q.length = -1) :
    peval x (polyConj q) = peval x⁻¹ q := by
  have h0 : x ≠ 0 := by
    rintro rfl
    rw [zero_pow (List.length_pos_iff.2 h).ne'] at hx
    norm_num at hx
  cases q with
  | nil => exact absurd rfl h
  | cons a q =>
    have hr := peval_reverse h0 q
    simp only [polyConj, List.headD_cons, List.tail_cons, peval_cons, peval_map_neg]
    rw [List.length_cons, pow_succ] at hx
    have hp : x ^ q.length = -x⁻¹ := by field_simp; linear_combination hx
    rw [hp] at hr
    linear_combination -hr

/-! ### Real combinations -/

/-- The value of a combination at the angle of `x`. -/
noncomputable def rval (x : ℂ) (r : List Int) : ℂ := peval x r + peval x⁻¹ r - (r.headD 0 : Int)

theorem rval_inv (r : List Int) : rval x⁻¹ r = rval x r := by
  unfold rval; rw [inv_inv]; ring

theorem polyOfReal_length (r : List Int) (h : r ≠ []) : (polyOfReal r).length = 2 * r.length := by
  have := List.length_pos_iff.2 h
  simp [polyOfReal]; omega

theorem peval_polyOfReal (r : List Int) (h : r ≠ []) (hx : x ^ (2 * r.length) = -1) :
    peval x (polyOfReal r) = rval x r := by
  have h0 : x ≠ 0 := by
    rintro rfl
    rw [zero_pow (by have := List.length_pos_iff.2 h; omega)] at hx
    norm_num at hx
  cases r with
  | nil => exact absurd rfl h
  | cons a r =>
    have hr := peval_reverse h0 r
    rw [List.length_cons] at hx
    have hp : x ^ (r.length + 1) * x ^ r.length = -x⁻¹ := by
      field_simp
      linear_combination hx
    simp only [polyOfReal, rval, peval_append, peval_cons, peval_map_neg, List.length_cons,
      List.tail_cons, List.headD_cons, Int.cast_zero]
    linear_combination (-(x ^ (r.length + 1))) * hr - peval x⁻¹ r * hp

theorem rval_zipWith (c : Int) (p q : List Int) (h : p.length = q.length) :
    rval x (List.zipWith (fun u v => c * u - v) p q) = c * rval x p - rval x q := by
  have h1 := peval_zipWith (x := x) c (-1) p q h
  have h2 := peval_zipWith (x := x⁻¹) c (-1) p q h
  have e : (fun u v : Int => c * u + -1 * v) = fun u v => c * u - v := by funext u v; ring
  have h3 : (List.zipWith (fun u v => c * u - v) p q).headD 0 = c * p.headD 0 - q.headD 0 := by
    cases p <;> cases q <;> simp_all
  rw [e] at h1 h2
  unfold rval
  rw [h1, h2, h3]
  push_cast
  ring

theorem twiceReal_length (q : List Int) (h : q ≠ []) :
    (twiceReal q).length = q.length / 2 := by
  simp [twiceReal, polyAdd, polyConj_length q h]
  omega

/-- The combination of a list of `2d` coefficients is its value and its value at the inverse. -/
theorem rval_twiceReal (q : List Int) (d : Nat) (hd : 0 < d) (hq : q.length = 2 * d)
    (hx : x ^ (2 * d) = -1) : rval x (twiceReal q) = peval x q + peval x⁻¹ q := by
  have h0 : x ≠ 0 := by
    rintro rfl
    rw [zero_pow (by omega)] at hx
    norm_num at hx
  obtain ⟨a, b, c, e, rfl, hb, he⟩ : ∃ a b c e, q = a :: (b ++ c :: e) ∧ b.length = d - 1 ∧
      e.length = d - 1 := by
    cases q with
    | nil => simp at hq; omega
    | cons a q =>
      rw [List.length_cons] at hq
      have hlt : d - 1 < q.length := by omega
      refine ⟨a, q.take (d - 1), q[d - 1], q.drop d, ?_, by simp; omega, by simp; omega⟩
      have : q.drop (d - 1) = q[d - 1] :: q.drop d := by
        rw [List.drop_eq_getElem_cons hlt]
        congr 2; omega
      rw [← this, List.take_append_drop]
  have ht : twiceReal (a :: (b ++ c :: e)) =
      (a + a) :: List.zipWith (fun u v => 1 * u + (-1) * v) b e.reverse := by
    unfold twiceReal polyAdd polyConj
    simp only [List.headD_cons, List.tail_cons, List.reverse_append, List.reverse_cons,
      List.map_append, List.map_cons, List.append_assoc, List.cons_append,
      List.nil_append, List.zipWith_cons_cons, hq]
    rw [List.zipWith_append (by simp [hb, he])]
    have hd' : 2 * d / 2 = (d - 1) + 1 := by omega
    rw [hd', List.take_succ_cons, List.take_append_of_le_length (by simp [hb, he]),
      List.take_of_length_le (by simp [hb, he])]
    congr 1
    rw [List.zipWith_map_right]
    simp
  have hr := peval_reverse h0 e
  have hr' := peval_reverse (inv_ne_zero h0) e
  rw [inv_inv] at hr'
  rw [ht]
  unfold rval
  have hl : b.length = e.reverse.length := by simp [hb, he]
  simp only [peval_cons, List.headD_cons, peval_zipWith 1 (-1) b _ hl, peval_append, hb]
  obtain ⟨k, rfl⟩ : ∃ k, d = k + 1 := ⟨d - 1, by omega⟩
  simp only [Nat.add_sub_cancel, he] at *
  have hxk : x ^ (k + 1) * x ^ (k + 1) = -1 := by rw [← pow_add, ← hx]; congr 1; omega
  have hxk' : x⁻¹ ^ (k + 1) = -x ^ (k + 1) := by
    rw [inv_pow]
    have : x ^ (k + 1) ≠ 0 := pow_ne_zero _ h0
    field_simp
    linear_combination hxk
  have e1 : x * x ^ k * x = -x⁻¹ ^ k := by
    have : x⁻¹ ^ k = x * x⁻¹ ^ (k + 1) := by rw [pow_succ]; field_simp
    rw [this, hxk']; ring
  have e2 : x⁻¹ * x⁻¹ ^ k * x⁻¹ = -x ^ k := by
    have : x ^ k = x⁻¹ * x ^ (k + 1) := by rw [pow_succ]; field_simp
    rw [this]
    have : x⁻¹ * x⁻¹ ^ k = x⁻¹ ^ (k + 1) := by rw [pow_succ]; ring
    rw [this, hxk']; ring
  have e3 : x * x ^ k = x ^ (k + 1) := by ring
  have e4 : x⁻¹ * x⁻¹ ^ k = -x ^ (k + 1) := by rw [← hxk']; ring
  push_cast
  linear_combination (-1 : ℂ) * hr - hr' - peval x e * e1 - peval x⁻¹ e * e2 - c * e3 - c * e4

theorem realMul_length (r s : List Int) (hs : s ≠ []) : (realMul r s).length = s.length := by
  have h1 := polyOfReal_length s hs
  have hpos := List.length_pos_iff.2 hs
  have hne : polyOfReal s ≠ [] := List.length_pos_iff.1 (by omega)
  have h2 := polyMul_length (polyOfReal r) _ hne
  rw [realMul, twiceReal_length _ (List.length_pos_iff.1 (by omega)), h2, h1]
  omega

/-- `realMul` doubles the product. -/
theorem rval_realMul (r s : List Int) (hs : s ≠ []) (hr : r.length = s.length)
    (hx : x ^ (2 * s.length) = -1) : rval x (realMul r s) = 2 * rval x r * rval x s := by
  have hpos := List.length_pos_iff.2 hs
  have hr0 : r ≠ [] := List.length_pos_iff.1 (by omega)
  have h1 := polyOfReal_length s hs
  have hne : polyOfReal s ≠ [] := List.length_pos_iff.1 (by omega)
  have hxi : x⁻¹ ^ (2 * s.length) = -1 := by rw [inv_pow, hx]; norm_num
  rw [realMul, rval_twiceReal _ s.length hpos (by rw [polyMul_length _ _ hne, h1]) hx,
    peval_polyMul _ _ hne (by rw [h1]; exact hx), peval_polyMul _ _ hne (by rw [h1]; exact hxi),
    peval_polyOfReal r hr0 (by rw [hr]; exact hx), peval_polyOfReal s hs hx,
    peval_polyOfReal r hr0 (by rw [hr]; exact hxi), peval_polyOfReal s hs hxi, rval_inv, rval_inv]
  ring

/-! ### The halves of a combination -/

theorem evens_length (r : List Int) : (evens r).length = (r.length + 1) / 2 := by
  match r with
  | [] => rfl
  | [_] => simp [evens]
  | a :: b :: r => rw [evens, List.length_cons, evens_length r]; simp only [List.length_cons]; omega

/-- A list is its even places and, one power on, its odd ones. -/
theorem peval_evens (r : List Int) :
    peval x r = peval (x ^ 2) (evens r) + x * peval (x ^ 2) (evens r.tail) := by
  match r with
  | [] => simp [evens]
  | [a] => simp [evens]
  | a :: b :: r =>
    have h := peval_evens r
    cases r with
    | nil => simp [evens]
    | cons c r =>
      simp only [List.tail_cons] at h
      simp only [evens, List.tail_cons, peval_cons] at h ⊢
      linear_combination (x ^ 2) * h

theorem evens_headD (r : List Int) : (evens r).headD 0 = r.headD 0 := by
  match r with
  | [] => rfl
  | [_] => rfl
  | _ :: _ :: _ => rfl

theorem altSums_length (r : List Int) : (altSums r).length = r.length := by
  induction r with
  | nil => rfl
  | cons a r ih => simp [altSums, ih]

theorem peval_altSums (y : ℂ) (o : List Int) :
    y * peval y o = (y + 1) * peval y (altSums o) - ((altSums o).headD 0 : Int) := by
  induction o with
  | nil => simp [altSums]
  | cons a o ih =>
    simp only [altSums, peval_cons, List.headD_cons]
    push_cast
    linear_combination y * ih

/-- A combination is that of its even places and `2 cos t` times that of the alternating sums of its odd
ones, at twice the angle. -/
theorem rval_halves (hx : x ≠ 0) (r : List Int) :
    rval x r = rval (x ^ 2) (evens r) + (x + x⁻¹) * rval (x ^ 2) (altSums (evens r.tail)) := by
  have h1 := peval_evens (x := x) r
  have h2 := peval_evens (x := x⁻¹) r
  have h3 := peval_altSums (x ^ 2) (evens r.tail)
  have h4 := peval_altSums ((x ^ 2)⁻¹) (evens r.tail)
  have hy : (x⁻¹) ^ 2 = (x ^ 2)⁻¹ := inv_pow x 2
  rw [hy] at h2
  have e1 : x * peval (x ^ 2) (evens r.tail) = x⁻¹ * (x ^ 2 * peval (x ^ 2) (evens r.tail)) := by
    field_simp
  have e2 : x⁻¹ * peval (x ^ 2)⁻¹ (evens r.tail) =
      x * ((x ^ 2)⁻¹ * peval (x ^ 2)⁻¹ (evens r.tail)) := by field_simp
  rw [e1, h3] at h1
  rw [e2, h4] at h2
  unfold rval
  rw [h1, h2, evens_headD]
  have e3 : x⁻¹ * x ^ 2 = x := by field_simp
  have e4 : x * (x ^ 2)⁻¹ = x⁻¹ := by field_simp
  linear_combination
    (peval (x ^ 2) (altSums (evens r.tail))) * e3 + (peval (x ^ 2)⁻¹ (altSums (evens r.tail))) * e4

/-- `cosSquared` is `(2 cos t)^2`. -/
theorem rval_cosSquared (hx : x ≠ 0) (d : Nat) (hd : 0 < d) (h : x ^ (4 * d) = -1) :
    rval (x ^ 2) (cosSquared d) = (x + x⁻¹) ^ 2 := by
  match d with
  | 1 =>
    have h4 : x ^ 4 = -1 := by simpa using h
    have : (x + x⁻¹) ^ 2 = 2 := by
      have : x ^ 2 + x⁻¹ ^ 2 = 0 := by field_simp; linear_combination h4
      have e : x * x⁻¹ = 1 := mul_inv_cancel₀ hx
      linear_combination this + 2 * e
    rw [this]
    norm_num [cosSquared, rval]
  | d + 2 =>
    have e : x * x⁻¹ = 1 := mul_inv_cancel₀ hx
    have e2 : (x ^ 2)⁻¹ = x⁻¹ ^ 2 := (inv_pow x 2).symm
    have ht : cosSquared (d + 2) = 2 :: 1 :: List.replicate d 0 := by
      simp [cosSquared, List.take_replicate]
    rw [ht]
    simp only [rval, peval_cons, peval_replicate_zero, List.headD_cons, e2]
    push_cast
    linear_combination -2 * e

theorem cosSquared_length (d : Nat) : (cosSquared d).length = d := by
  simp [cosSquared]; omega

/-! ### The sign -/

/-- The root of unity `e^(-j*pi/(2d))` of the combinations of `d = 2^l` terms. -/
noncomputable def root (l : Nat) : ℂ := Complex.exp (-(Real.pi / (2 * 2 ^ l) : ℝ) * I)

theorem root_ne_zero (l : Nat) : root l ≠ 0 := Complex.exp_ne_zero _

theorem root_sq (l : Nat) : root (l + 1) ^ 2 = root l := by
  unfold root
  rw [← Complex.exp_nat_mul]
  congr 1
  push_cast
  field_simp
  ring

theorem root_pow (l : Nat) : root l ^ (2 * 2 ^ l) = -1 := by
  unfold root
  rw [← Complex.exp_nat_mul, ← Complex.exp_neg_pi_mul_I]
  congr 1
  push_cast
  field_simp

theorem root_inv (l : Nat) : (root l)⁻¹ = (starRingEnd ℂ) (root l) := by
  unfold root
  rw [← Complex.exp_neg, ← Complex.exp_conj]
  congr 1
  rw [map_mul, Complex.conj_I, map_neg, Complex.conj_ofReal]
  ring

/-- `2 cos t`, which is positive. -/
theorem root_add_inv (l : Nat) :
    root (l + 1) + (root (l + 1))⁻¹ = ((2 * Real.cos (Real.pi / (2 * 2 ^ (l + 1))) : ℝ) : ℂ) ∧
    0 < 2 * Real.cos (Real.pi / (2 * 2 ^ (l + 1))) := by
  constructor
  · unfold root
    rw [← Complex.exp_neg]
    push_cast
    rw [Complex.cos]
    ring_nf
  · have hp : (2 : ℝ) ≤ 2 ^ (l + 1) := by
      have : (1 : ℝ) ≤ 2 ^ l := one_le_pow₀ (by norm_num)
      rw [pow_succ]; linarith
    have h : 0 < Real.pi / (2 * 2 ^ (l + 1)) := by positivity
    have h2 : Real.pi / (2 * 2 ^ (l + 1)) < Real.pi / 2 := by
      apply div_lt_div_of_pos_left Real.pi_pos <;> linarith
    have := Real.cos_pos_of_mem_Ioo ⟨by linarith [Real.pi_pos], h2⟩
    linarith

/-- A combination is a real number. -/
theorem peval_conj (y : ℂ) (p : List Int) :
    (starRingEnd ℂ) (peval y p) = peval ((starRingEnd ℂ) y) p := by
  induction p with
  | nil => simp
  | cons a p ih => simp [ih]

theorem rval_real (l : Nat) (r : List Int) : ((rval (root l) r).re : ℂ) = rval (root l) r := by
  rw [← Complex.conj_eq_iff_re]
  unfold rval
  rw [root_inv, map_sub, map_add, peval_conj, peval_conj, Complex.conj_conj, map_intCast]
  ring

/-- The sign of `a + c*b`, where the signs of `a` and `b` are opposite. -/
theorem sign_of_opposite {a b c : ℝ} (hc : 0 < c) (hb : SignType.sign b ≠ 0)
    (ha : SignType.sign a ≠ 0) (hab : SignType.sign a ≠ SignType.sign b) :
    SignType.sign (a + c * b) = SignType.sign a * SignType.sign (a * a - c * c * (b * b)) := by
  have hd : a * a - c * c * (b * b) = (a + c * b) * (a - c * b) := by ring
  have hs : SignType.sign (a - c * b) = SignType.sign a := by
    rcases lt_trichotomy a 0 with h | h | h
    · have hb' : 0 < b := by
        rcases lt_trichotomy b 0 with h' | h' | h'
        · exact absurd (by rw [sign_neg h, sign_neg h']) hab
        · exact absurd (by rw [h', sign_zero]) hb
        · exact h'
      rw [sign_neg h, sign_neg (by have := mul_pos hc hb'; linarith)]
    · exact absurd (by rw [h, sign_zero]) ha
    · have hb' : b < 0 := by
        rcases lt_trichotomy b 0 with h' | h' | h'
        · exact h'
        · exact absurd (by rw [h', sign_zero]) hb
        · exact absurd (by rw [sign_pos h, sign_pos h']) hab
      rw [sign_pos h, sign_pos (by have := mul_neg_of_pos_of_neg hc hb'; linarith)]
  rw [hd, sign_mul, hs, mul_comm (SignType.sign (a + c * b)), ← mul_assoc]
  have : SignType.sign a * SignType.sign a = 1 := by
    revert ha; generalize SignType.sign a = u; revert u; decide
  rw [this, one_mul]

/-- How `realSign` puts the sign of `a + c*b` together. -/
theorem sign_combine {a b c : ℝ} (hc : 0 < c) :
    (if ((SignType.sign b : SignType) : Int) = 0 ∨
        ((SignType.sign a : SignType) : Int) = (SignType.sign b : SignType) then
      ((SignType.sign a : SignType) : Int)
    else if ((SignType.sign a : SignType) : Int) = 0 then (SignType.sign b : SignType)
    else (SignType.sign a : SignType) *
      (SignType.sign (4 * (a * a - c * c * (b * b))) : SignType)) =
    ((SignType.sign (a + c * b) : SignType) : Int) := by
  have inj : ∀ u v : SignType, ((u : Int) = v ↔ u = v) := by decide
  have inj0 : ∀ u : SignType, ((u : Int) = 0 ↔ u = 0) := by decide
  have hmul : ∀ u v : SignType, ((u * v : SignType) : Int) = (u : Int) * v := by decide
  rw [sign_mul, sign_pos (show (0 : ℝ) < 4 by norm_num), one_mul]
  simp only [inj, inj0]
  by_cases hb : SignType.sign b = 0
  · rw [if_pos (.inl hb), sign_eq_zero_iff.1 hb, mul_zero, add_zero]
  · by_cases hab : SignType.sign a = SignType.sign b
    · rw [if_pos (.inr hab)]
      congr 1
      rcases lt_trichotomy b 0 with h | h | h
      · rw [sign_neg h] at hab
        have ha := sign_eq_neg_one_iff.1 hab
        rw [hab, sign_neg (by have := mul_neg_of_pos_of_neg hc h; linarith)]
      · exact absurd (by rw [h, sign_zero]) hb
      · rw [sign_pos h] at hab
        have ha := sign_eq_one_iff.1 hab
        rw [hab, sign_pos (by have := mul_pos hc h; linarith)]
    · rw [if_neg (by tauto)]
      by_cases ha : SignType.sign a = 0
      · rw [if_pos ha, sign_eq_zero_iff.1 ha, zero_add, sign_mul, sign_pos hc, one_mul]
      · rw [if_neg ha, sign_of_opposite hc hb ha hab, hmul]

/-- `realSign` is the sign of the combination. -/
theorem realSign_eq (l : Nat) (r : List Int) (hl : r.length = 2 ^ l) :
    realSign l r = (SignType.sign (rval (root l) r).re : Int) := by
  induction l generalizing r with
  | zero =>
    obtain ⟨a, rfl⟩ := List.length_eq_one_iff.1 hl
    simp only [realSign, List.headD_cons, rval, peval_cons, peval_nil]
    rw [Int.sign_eq_sign]
    congr 1
    simp
  | succ l ih =>
    have hpos : 0 < 2 ^ l := Nat.pos_of_ne_zero (by positivity)
    have ha : (evens r).length = 2 ^ l := by rw [evens_length, hl, pow_succ]; omega
    have hb : (altSums (evens r.tail)).length = 2 ^ l := by
      rw [altSums_length, evens_length, List.length_tail, hl, pow_succ]; omega
    have hbne : altSums (evens r.tail) ≠ [] := List.length_pos_iff.1 (by omega)
    have hane : evens r ≠ [] := List.length_pos_iff.1 (by omega)
    obtain ⟨c, hc, hcpos⟩ : ∃ c : ℝ, root (l + 1) + (root (l + 1))⁻¹ = c ∧ 0 < c :=
      ⟨_, root_add_inv l⟩
    have hx := rval_halves (root_ne_zero (l + 1)) r
    rw [root_sq, hc, ← rval_real l (evens r), ← rval_real l (altSums (evens r.tail)),
      ← rval_real (l + 1) r] at hx
    have hr := congrArg Complex.re hx
    norm_cast at hr
    set a := (rval (root l) (evens r)).re with hA
    set b := (rval (root l) (altSums (evens r.tail))).re with hB
    have hpow : root l ^ (2 * 2 ^ l) = -1 := root_pow l
    have hcs : rval (root l) (cosSquared (altSums (evens r.tail)).length) = ((c * c : ℝ) : ℂ) := by
      rw [← root_sq, rval_cosSquared (root_ne_zero (l + 1)) _ (by omega), hc]
      · push_cast; ring
      · rw [hb, show 4 * 2 ^ l = 2 * 2 ^ (l + 1) by rw [pow_succ]; ring]
        exact root_pow (l + 1)
    have hdiff : (rval (root l) (List.zipWith (fun u v => 2 * u - v)
        (realMul (evens r) (evens r)) (realMul (cosSquared (altSums (evens r.tail)).length)
          (realMul (altSums (evens r.tail)) (altSums (evens r.tail)))))).re =
        4 * (a * a - c * c * (b * b)) := by
      have hbb := realMul_length (altSums (evens r.tail)) _ hbne
      have hbbne : realMul (altSums (evens r.tail)) (altSums (evens r.tail)) ≠ [] :=
        List.length_pos_iff.1 (by omega)
      have haa := realMul_length (evens r) _ hane
      have hcbb := realMul_length (cosSquared (altSums (evens r.tail)).length) _ hbbne
      rw [rval_zipWith 2 _ _ (by omega), rval_realMul _ _ hane rfl (by rw [ha]; exact hpow),
        rval_realMul _ _ hbbne (by rw [cosSquared_length, hbb]) (by rw [hbb, hb]; exact hpow),
        rval_realMul _ _ hbne rfl (by rw [hb]; exact hpow), hcs, ← rval_real l (evens r),
        ← rval_real l (altSums (evens r.tail)), ← hA, ← hB]
      norm_cast
      ring
    have hdl : (List.zipWith (fun u v => 2 * u - v)
        (realMul (evens r) (evens r)) (realMul (cosSquared (altSums (evens r.tail)).length)
          (realMul (altSums (evens r.tail)) (altSums (evens r.tail))))).length = 2 ^ l := by
      have hbb := realMul_length (altSums (evens r.tail)) _ hbne
      have hbbne : realMul (altSums (evens r.tail)) (altSums (evens r.tail)) ≠ [] :=
        List.length_pos_iff.1 (by omega)
      rw [List.length_zipWith, realMul_length _ _ hane, realMul_length _ _ hbbne, hbb]
      omega
    simp only [realSign]
    rw [ih _ ha, ih _ hb, ih _ hdl, hdiff, ← hA, ← hB, hr]
    exact sign_combine hcpos

/-! ### A bin -/

theorem addPower_length (h e : Nat) (v : Int) (p : List Int) :
    (addPower h e v p).length = p.length := by
  unfold addPower; split <;> simp

theorem peval_modify (p : List Int) (k : Nat) (v : Int) (hk : k < p.length) :
    peval x (p.modify k (· + v)) = peval x p + v * x ^ k := by
  induction p generalizing k with
  | nil => simp at hk
  | cons a p ih =>
    cases k with
    | zero => simp; ring
    | succ k => simp [ih k (by simpa using hk)]; ring

/-- Adding a power of `x` adds it to the value. -/
theorem peval_addPower (h e : Nat) (v : Int) (p : List Int) (hp : p.length = h) (hh : 0 < h)
    (hx : x ^ h = -1) : peval x (addPower h e v p) = peval x p + v * x ^ e := by
  have hlt : e % (2 * h) < 2 * h := Nat.mod_lt _ (by omega)
  have hmod : x ^ e = x ^ (e % (2 * h)) := by
    conv_lhs => rw [← Nat.div_add_mod e (2 * h)]
    rw [pow_add, pow_mul, two_mul, pow_add, hx]
    norm_num
  rw [hmod]
  unfold addPower
  split
  · exact peval_modify p _ v (by omega)
  · have : (fun a : Int => a - v) = fun a => a + -v := by funext a; ring
    rw [this, peval_modify p _ (-v) (by omega)]
    have : x ^ (e % (2 * h)) = -x ^ (e % (2 * h) - h) := by
      conv_lhs => rw [← Nat.sub_add_cancel (show h ≤ e % (2 * h) by omega)]
      rw [pow_add, hx]
      ring
    rw [this]
    push_cast
    ring

/-- The sum of `s[n] * w^n`, every sample scaled by `2^149`. -/
noncomputable def dft (w : ℂ) : List C32 → ℂ
  | [] => 0
  | z :: zs => (scaledInt z.re + scaledInt z.im * I) + w * dft w zs

theorem binPoly_length (h step k n : Nat) (zs : List C32) (p : List Int) :
    (binPoly h step k n zs p).length = p.length := by
  induction zs generalizing n p with
  | nil => rfl
  | cons z zs ih => rw [binPoly, ih, addPower_length, addPower_length]

/-- The polynomial of a bin has its value. -/
theorem peval_binPoly (h step k n : Nat) (zs : List C32) (p : List Int) (hp : p.length = h)
    (hh : 0 < h) (hx : x ^ h = -1) (hi : x ^ (3 * h / 2) = I) :
    peval x (binPoly h step k n zs p) = peval x p + (x ^ (k * step)) ^ n * dft (x ^ (k * step)) zs := by
  induction zs generalizing n p with
  | nil => simp [binPoly, dft]
  | cons z zs ih =>
    have e : x ^ (k * n * step) = (x ^ (k * step)) ^ n := by rw [← pow_mul]; congr 1; ring
    rw [binPoly, ih _ _ (by rw [addPower_length, addPower_length, hp]),
      peval_addPower _ _ _ _ (by rw [addPower_length, hp]) hh hx, peval_addPower _ _ _ _ hp hh hx,
      pow_add, hi, e, dft, pow_succ]
    ring

/-- The half order of a power of two. -/
theorem halfOrder_eq (n : Nat) : halfOrder (2 ^ n) = 2 * 2 ^ (n - 2) := by
  unfold halfOrder
  match n with
  | 0 => rfl
  | 1 => rfl
  | n + 2 =>
    have : 0 < 2 ^ n := by positivity
    rw [Nat.add_sub_cancel, pow_add, Nat.max_eq_left (by omega)]
    omega

/-- `x^(k*step)` is the twiddle of the bin. -/
theorem root_step (n k : Nat) :
    root (n - 2) ^ (k * (2 * halfOrder (2 ^ n) / 2 ^ n)) =
      Complex.exp (-(2 * Real.pi * k / 2 ^ n : ℝ) * I) := by
  have hd : 2 * halfOrder (2 ^ n) / 2 ^ n * 2 ^ n = 4 * 2 ^ (n - 2) := by
    rw [halfOrder_eq]
    match n with
    | 0 => rfl
    | 1 => rfl
    | n + 2 =>
      rw [Nat.add_sub_cancel, pow_add]
      rw [show 2 * (2 * 2 ^ n) = 2 ^ n * 2 ^ 2 by ring, Nat.div_self (by positivity)]
      ring
  have hr : ((2 * halfOrder (2 ^ n) / 2 ^ n : Nat) : ℂ) * 2 ^ n = 4 * 2 ^ (n - 2) := by
    exact_mod_cast hd
  generalize 2 * halfOrder (2 ^ n) / 2 ^ n = m at hr
  unfold root
  rw [← Complex.exp_nat_mul]
  congr 1
  push_cast
  have h1 : (2 : ℂ) ^ n ≠ 0 := pow_ne_zero _ two_ne_zero
  have h2 : (2 : ℂ) ^ (n - 2) ≠ 0 := pow_ne_zero _ two_ne_zero
  field_simp
  linear_combination -(k : ℂ) * hr

theorem root_quarter (l : Nat) : root l ^ (3 * (2 * 2 ^ l) / 2) = I := by
  have : 3 * (2 * 2 ^ l) / 2 = 3 * 2 ^ l := by omega
  rw [this]
  unfold root
  rw [← Complex.exp_nat_mul]
  have : ((3 * 2 ^ l : Nat) : ℂ) * (-(Real.pi / (2 * 2 ^ l) : ℝ) * I) =
      Real.pi / 2 * I - 2 * Real.pi * I := by
    push_cast
    have h2 : (2 : ℂ) ^ l ≠ 0 := pow_ne_zero _ two_ne_zero
    field_simp
    ring
  rw [this, Complex.exp_sub, Complex.exp_two_pi_mul_I, div_one, Complex.exp_pi_div_two_mul_I]

/-- `binPower` is twice the squared magnitude of the bin. -/
theorem binPower_spec (n k : Nat) (s : List C32) :
    (binPower (2 ^ n) k s).length = 2 ^ (n - 2) ∧
    rval (root (n - 2)) (binPower (2 ^ n) k s) =
      ((2 * Complex.normSq (dft (Complex.exp (-(2 * Real.pi * k / 2 ^ n : ℝ) * I)) s) : ℝ) : ℂ) := by
  have hpos : 0 < 2 ^ (n - 2) := by positivity
  have hroot := root_pow (n - 2)
  have hh := halfOrder_eq n
  unfold binPower
  simp only
  generalize hq : binPoly (halfOrder (2 ^ n)) (2 * halfOrder (2 ^ n) / 2 ^ n) k 0 s
    (List.replicate (halfOrder (2 ^ n)) 0) = q
  have hl : q.length = 2 * 2 ^ (n - 2) := by
    rw [← hq, binPoly_length, List.length_replicate, hh]
  have hv : peval (root (n - 2)) q = dft (Complex.exp (-(2 * Real.pi * k / 2 ^ n : ℝ) * I)) s := by
    rw [← hq, peval_binPoly _ _ _ _ _ _ (List.length_replicate ..) (by omega) (by rw [hh]; exact hroot)
      (by rw [hh]; exact root_quarter _), root_step, peval_replicate_zero, pow_zero, one_mul, zero_add]
  have hne : q ≠ [] := List.length_pos_iff.1 (by omega)
  have hcl := polyConj_length q hne
  have hcne : polyConj q ≠ [] := List.length_pos_iff.1 (by omega)
  have hml := polyMul_length q (polyConj q) hcne
  have hxi : (root (n - 2))⁻¹ ^ (2 * 2 ^ (n - 2)) = -1 := by rw [inv_pow, hroot]; norm_num
  constructor
  · rw [twiceReal_length _ (List.length_pos_iff.1 (by omega)), hml, hcl, hl]; omega
  · rw [rval_twiceReal _ _ hpos (by rw [hml, hcl, hl]) hroot,
      peval_polyMul _ _ hcne (by rw [hcl, hl]; exact hroot),
      peval_polyMul _ _ hcne (by rw [hcl, hl]; exact hxi),
      peval_polyConj _ hne (by rw [hl]; exact hroot), peval_polyConj _ hne (by rw [hl]; exact hxi),
      inv_inv, root_inv, ← peval_conj, hv, mul_comm ((starRingEnd ℂ) _), Complex.mul_conj]
    push_cast
    ring

/-- `midpointSign` is right: it is the sign of four times the squared magnitude of the bin less the square
of twice the half way point, both scaled by `2^298`. -/
theorem midpointSign_eq {n k c m : Nat} {g : Bool} {e : Int} (s : List C32)
    (hc : unpack (BitVec.ofNat 32 c) = .fin g m e) :
    midpointSign (2 ^ n) k s c = (SignType.sign
      (4 * Complex.normSq (dft (Complex.exp (-(2 * Real.pi * k / 2 ^ n : ℝ) * I)) s) -
        ((2 * m + 1) ^ 2 * 4 ^ (e + 149).toNat : ℝ)) : SignType) := by
  obtain ⟨hl, hv⟩ := binPower_spec n k s
  have hpos : 0 < 2 ^ (n - 2) := by positivity
  unfold midpointSign
  rw [hc]
  simp only
  generalize binPower (2 ^ n) k s = d at hl hv
  rw [hl, Nat.log2_two_pow, realSign_eq _ _ (by simp [hl]; omega)]
  congr 2
  cases d with
  | nil => simp at hl; omega
  | cons a d =>
    have hd : ∀ y : ℂ, peval y (d.map (2 * ·)) = 2 * peval y d := fun y => by
      simpa using peval_map_mul (x := y) 2 d
    have : rval (root (n - 2)) ((2 * (a :: d).headD 0 -
        (((2 * m + 1) * (2 * m + 1) * 4 ^ (e + 149).toNat : Nat) : Int)) ::
          (a :: d).tail.map (2 * ·)) = 2 * rval (root (n - 2)) (a :: d) -
        ((2 * m + 1) ^ 2 * 4 ^ (e + 149).toNat : ℂ) := by
      simp only [rval, List.headD_cons, List.tail_cons, peval_cons, hd]
      push_cast
      ring
    rw [this, hv]
    norm_cast
    push_cast
    ring

/-- `nearerOf` is right: below the half way point the lower encoding, above it the upper one, and on it
the even one. -/
theorem nearerOf_spec {n k c m : Nat} {g : Bool} {e : Int} (s : List C32)
    (hc : unpack (BitVec.ofNat 32 c) = .fin g m e) :
    let power := 4 * Complex.normSq (dft (Complex.exp (-(2 * Real.pi * k / 2 ^ n : ℝ) * I)) s)
    let half : ℝ := (2 * m + 1) ^ 2 * 4 ^ (e + 149).toNat
    (power < half → nearerOf (2 ^ n) k s c = c) ∧
    (half < power → nearerOf (2 ^ n) k s c = c + 1) ∧
    (power = half → nearerOf (2 ^ n) k s c = c + c % 2) := by
  intro power half
  unfold nearerOf
  simp only [midpointSign_eq s hc]
  refine ⟨fun h => ?_, fun h => ?_, fun h => ?_⟩
  · rw [sign_neg (sub_neg.2 h)]; rfl
  · rw [sign_pos (sub_pos.2 h)]; rfl
  · rw [sub_eq_zero.2 h, sign_zero]; rfl

end Sys2Proof.Machine
end

