-- ==== Sys2Proof/Laws/Traces.lean ====
section
/-! SUPPORT. What the loops of SYMSYNC and of the frame search compute, as traces and choices. -/

namespace Sys2Proof.Machine

open Sys2Proof.Config

/-! ### SYMSYNC -/

/-- `g i` is the unit before sample `i` of a run with the cap `C`, 0 being no cap, that gave `r`. -/
structure SymTrace (par : Params) (m : Modulation) (xs : List C32) (C : Nat) (u0 : SymUnit)
    (r : SymResult) (g : Nat → SymUnit) : Prop where
  start : g 0 = u0
  used_le : r.used ≤ xs.length
  sample : ∀ i (_ : i < r.used) (h : i < xs.length), g (i+1) = (symSample par m (g i) xs[i]).1
  syms : r.syms = ((List.range r.used).filter fun i => (g i).strobe).map fun i =>
    farrow (g i).mu (xs.getD i czero) (g i).h0 (g i).h1
  fin : r.unit = g r.used
  cap0 : C = 0 → r.used = xs.length
  cap1 : 0 < C →
    (∀ i, i < r.used → ((List.range i).filter fun i => (g i).strobe).length < C) ∧
    (r.used < xs.length → ((List.range r.used).filter fun i => (g i).strobe).length = C)

/-- Every run of SYMSYNC on a block has such a sequence of units. -/
theorem symRun_trace (par : Params) (m : Modulation) (xs : List C32) (C : Nat) (u0 : SymUnit) :
    ∃ g, SymTrace par m xs C u0 (symRun par m (if C = 0 then none else some C) u0 xs) g := by
  induction xs generalizing C u0 with
  | nil =>
    refine ⟨fun _ => u0, ⟨rfl, by simp [symRun], by simp [symRun], by simp [symRun], rfl, by simp [symRun], by simp [symRun]⟩⟩
  | cons x xs ih =>
    have hs : (symSample par m u0 x).2 = if u0.strobe then some (farrow u0.mu x u0.h0 u0.h1) else none := rfl
    have fr : ∀ (g : Nat → SymUnit) n, (List.range (n+1)).filter (fun i => (Nat.casesOn i u0 g : SymUnit).strobe) = (if u0.strobe then [0] else []) ++ ((List.range n).filter fun i => (g i).strobe).map (·+1) := by
      intro g n
      rw [List.range_succ_eq_map, List.filter_cons, List.filter_map]
      split <;> simp_all <;> rfl
    cases hst : u0.strobe with
    | false =>
      rw [hst] at hs
      obtain ⟨g, t⟩ := ih C (symSample par m u0 x).1
      have e : symRun par m (if C = 0 then none else some C) u0 (x :: xs) = ⟨(symRun par m (if C = 0 then none else some C) (symSample par m u0 x).1 xs).unit, (symRun par m (if C = 0 then none else some C) (symSample par m u0 x).1 xs).syms, (symRun par m (if C = 0 then none else some C) (symSample par m u0 x).1 xs).used + 1⟩ := by
        conv_lhs => unfold symRun
        have : symSample par m u0 x = ((symSample par m u0 x).1, none) := by rw [← Prod.eta (symSample par m u0 x)]; simp [hs]
        rw [this]
      rw [e]
      generalize symRun par m (if C = 0 then none else some C) (symSample par m u0 x).1 xs = r at t
      refine ⟨fun i => Nat.casesOn i u0 g, ⟨rfl, ?_, ?_, ?_, t.fin, ?_, ?_⟩⟩
      · simpa using t.used_le
      · intro i h1 h2
        cases i with
        | zero => exact t.start
        | succ i => exact t.sample i (by simpa using h1) (by simpa using h2)
      · rw [fr, hst]; simp [t.syms]
      · intro h; simp [t.cap0 h]
      · intro h
        refine ⟨?_, ?_⟩
        · intro i hi
          cases i with
          | zero => simpa using h
          | succ i => rw [fr, hst]; simp; exact (t.cap1 h).1 i (by simpa using hi)
        · intro hi
          rw [fr, hst]; simp; exact (t.cap1 h).2 (by simpa using hi)
    | true =>
      rw [hst] at hs
      have hsm : symSample par m u0 x = ((symSample par m u0 x).1, some (farrow u0.mu x u0.h0 u0.h1)) := by rw [← Prod.eta (symSample par m u0 x)]; simp [hs]
      by_cases hC : C = 1
      · subst hC
        have e : symRun par m (if 1 = 0 then none else some 1) u0 (x :: xs) = ⟨(symSample par m u0 x).1, [farrow u0.mu x u0.h0 u0.h1], 1⟩ := by
          conv_lhs => unfold symRun
          rw [hsm]; simp
        rw [e]
        refine ⟨fun i => Nat.casesOn i u0 fun _ => (symSample par m u0 x).1, ⟨rfl, by simp, ?_, ?_, rfl, by simp, ?_⟩⟩
        · intro i h1 h2
          have : i = 0 := by simp at h1; omega
          subst this; rfl
        · simp [List.range_succ, hst]
        · intro _
          refine ⟨?_, ?_⟩
          · intro i hi
            have : i = 0 := by simp at hi; omega
            subst this; simp
          · intro _; simp [List.range_succ, hst]
      · obtain ⟨g, t⟩ := ih (C - 1) (symSample par m u0 x).1
        have ecap : (if C - 1 = 0 then none else some (C - 1)) = (if C = 0 then none else some C : Option Nat).map (· - 1) := by
          by_cases h0 : C = 0
          · simp [h0]
          · rw [if_neg h0, if_neg (by omega)]; rfl
        have e : symRun par m (if C = 0 then none else some C) u0 (x :: xs) = ⟨(symRun par m (if C - 1 = 0 then none else some (C - 1)) (symSample par m u0 x).1 xs).unit, farrow u0.mu x u0.h0 u0.h1 :: (symRun par m (if C - 1 = 0 then none else some (C - 1)) (symSample par m u0 x).1 xs).syms, (symRun par m (if C - 1 = 0 then none else some (C - 1)) (symSample par m u0 x).1 xs).used + 1⟩ := by
          rw [ecap]
          conv_lhs => unfold symRun
          rw [hsm]
          simp only
          rw [if_neg]
          intro hh
          by_cases h0 : C = 0
          · rw [if_pos h0] at hh; cases hh
          · rw [if_neg h0] at hh; exact hC (Option.some.inj hh)
        rw [e]
        generalize symRun par m (if C - 1 = 0 then none else some (C - 1)) (symSample par m u0 x).1 xs = r at t
        refine ⟨fun i => Nat.casesOn i u0 g, ⟨rfl, ?_, ?_, ?_, t.fin, ?_, ?_⟩⟩
        · simpa using t.used_le
        · intro i h1 h2
          cases i with
          | zero => exact t.start
          | succ i => exact t.sample i (by simpa using h1) (by simpa using h2)
        · rw [fr, hst]; simp [t.syms]
        · intro h; simp [t.cap0 (by omega)]
        · intro h
          refine ⟨?_, ?_⟩
          · intro i hi
            cases i with
            | zero => simpa using h
            | succ i => rw [fr, hst]; simp; have := (t.cap1 (by omega)).1 i (by simpa using hi); omega
          · intro hi
            rw [fr, hst]; simp; have := (t.cap1 (by omega)).2 (by simpa using hi); omega


variable {par : Params} {m : Modulation} {cap : Option Nat} {u : SymUnit} {x : C32} {xs : List C32}

theorem symRun_cons_none (h : (symSample par m u x).2 = none) :
    symRun par m cap u (x :: xs) =
      ⟨(symRun par m cap (symSample par m u x).1 xs).unit,
        (symRun par m cap (symSample par m u x).1 xs).syms,
        (symRun par m cap (symSample par m u x).1 xs).used + 1⟩ := by
  rw [symRun]
  split
  · next he => rw [he]
  · next he => rw [he] at h; cases h

theorem symRun_cons_last {z : C32} (h : (symSample par m u x).2 = some z) :
    symRun par m (some 1) u (x :: xs) = ⟨(symSample par m u x).1, [z], 1⟩ := by
  rw [symRun]
  split
  · next he => rw [he] at h; cases h
  · next he => rw [he] at h; cases h; rw [if_pos rfl, he]

theorem symRun_cons_some {z : C32} (h : (symSample par m u x).2 = some z) (hc : cap ≠ some 1) :
    symRun par m cap u (x :: xs) =
      ⟨(symRun par m (cap.map (· - 1)) (symSample par m u x).1 xs).unit,
        z :: (symRun par m (cap.map (· - 1)) (symSample par m u x).1 xs).syms,
        (symRun par m (cap.map (· - 1)) (symSample par m u x).1 xs).used + 1⟩ := by
  rw [symRun]
  split
  · next he => rw [he] at h; cases h
  · next he => rw [he] at h; cases h; rw [if_neg hc, he]

/-- The rest of a block after a capped run, run without a cap, continues it. -/
theorem symRun_resume (cap : Option Nat) (u : SymUnit) (xs : List C32) :
    symRun par m none u xs =
      ⟨(symRun par m none (symRun par m cap u xs).unit (xs.drop (symRun par m cap u xs).used)).unit,
        (symRun par m cap u xs).syms ++
          (symRun par m none (symRun par m cap u xs).unit
            (xs.drop (symRun par m cap u xs).used)).syms,
        (symRun par m cap u xs).used +
          (symRun par m none (symRun par m cap u xs).unit
            (xs.drop (symRun par m cap u xs).used)).used⟩ := by
  induction xs generalizing cap u with
  | nil => rfl
  | cons x xs ih =>
    cases h : (symSample par m u x).2 with
    | none =>
      rw [symRun_cons_none (cap := cap) h, symRun_cons_none (cap := none) h]
      simp only [List.drop_succ_cons]
      rw [ih cap (symSample par m u x).1]
      simp only [SymResult.mk.injEq]
      exact ⟨trivial, trivial, by omega⟩
    | some z =>
      rw [symRun_cons_some (cap := none) h (by simp)]
      by_cases hc : cap = some 1
      · subst hc
        rw [symRun_cons_last h]
        simp [Nat.add_comm]
      · rw [symRun_cons_some h hc]
        simp only [List.drop_succ_cons, Option.map_none, List.cons_append]
        rw [ih (cap.map (· - 1)) (symSample par m u x).1]
        simp only [SymResult.mk.injEq]
        exact ⟨trivial, trivial, by omega⟩

/-- An uncapped run of two blocks is the run of the second after the run of the first
(`47_symsync.md` R397). -/
theorem symRun_append_none (u : SymUnit) (xs ys : List C32) :
    symRun par m none u (xs ++ ys) =
      ⟨(symRun par m none (symRun par m none u xs).unit ys).unit,
        (symRun par m none u xs).syms ++ (symRun par m none (symRun par m none u xs).unit ys).syms,
        (symRun par m none u xs).used +
          (symRun par m none (symRun par m none u xs).unit ys).used⟩ := by
  induction xs generalizing u with
  | nil => simp [symRun]
  | cons x xs ih =>
    rw [List.cons_append]
    cases h : (symSample par m u x).2 with
    | none =>
      rw [symRun_cons_none h, symRun_cons_none h, ih]
      simp only [SymResult.mk.injEq]
      exact ⟨trivial, trivial, by omega⟩
    | some z =>
      rw [symRun_cons_some h (by simp), symRun_cons_some h (by simp), Option.map_none, ih]
      simp only [SymResult.mk.injEq, List.cons_append]
      exact ⟨trivial, trivial, by omega⟩

/-! ### The frame search -/

theorem fge_nan {a b : F32} (h : fge a b = true) : isnan a = false := by
  unfold fge fle at h; simp at h; exact h.1.2

theorem mem_cands {t : F32} {mag : List F32} {c : F32 × Nat} : c ∈ candidates t mag ↔ c.2 < mag.length ∧ mag.getD c.2 fzero = c.1 ∧ fge c.1 t = true := by
  unfold candidates
  rw [List.mem_filter, List.mem_zipIdx_iff_getElem?]
  constructor
  · rintro ⟨h1, h2⟩
    have := List.getElem?_eq_some_iff.1 h1
    obtain ⟨h3, h4⟩ := this
    exact ⟨h3, by rw [List.getD_eq_getElem?_getD, h1]; rfl, h2⟩
  · rintro ⟨h1, h2, h3⟩
    refine ⟨?_, h3⟩
    rw [List.getD_eq_getElem?_getD, List.getElem?_eq_getElem h1] at h2
    rw [List.getElem?_eq_getElem h1]; simpa using h2

theorem cands_sorted (t : F32) (mag : List F32) : (candidates t mag).Pairwise (fun a b => a.2 < b.2) := by
  unfold candidates
  apply List.Pairwise.filter
  have : (mag.zipIdx.map Prod.snd).Pairwise (· < ·) := by
    rw [List.zipIdx_map_snd]; exact List.pairwise_lt_range'
  rw [List.pairwise_map] at this
  exact this

theorem best_spec (fsize i0 : Nat) (cs pre : List (F32 × Nat)) (b : F32 × Nat)
    (hb : b ∈ pre) (hi0 : i0 ≤ b.2) (hbw : 2 * (b.2 - i0) < fsize)
    (hsort : (pre ++ cs).Pairwise (fun a b => a.2 < b.2))
    (hn : ∀ c ∈ pre ++ cs, isnan c.1 = false) (hge : ∀ c ∈ pre ++ cs, i0 ≤ c.2)
    (hmax : ∀ c ∈ pre, 2 * (c.2 - i0) < fsize → fgt c.1 b.1 = false ∧ (c.2 < b.2 → fgt b.1 c.1 = true)) :
    let r := cs.foldl (fun b c => if 2 * (c.2 - i0) < fsize ∧ fgt c.1 b.1 then c else b) b
    r ∈ pre ++ cs ∧ 2 * (r.2 - i0) < fsize ∧ ∀ c ∈ pre ++ cs, 2 * (c.2 - i0) < fsize → fgt c.1 r.1 = false ∧ (c.2 < r.2 → fgt r.1 c.1 = true) := by
  induction cs generalizing pre b with
  | nil => simpa using ⟨hb, hbw, fun a n hc => hmax (a, n) hc⟩
  | cons c cs ih =>
    have hcn := hn c (by simp)
    have hbn := hn b (by simp [hb])
    have hlt : ∀ x ∈ pre, x.2 < c.2 := fun x hx => (List.pairwise_append.1 hsort).2.2 x hx c (by simp)
    have step := ih (pre ++ [c]) (if 2 * (c.2 - i0) < fsize ∧ fgt c.1 b.1 then c else b)
      (by split <;> simp [hb]) (by split; exact hge c (by simp); exact hi0) (by split <;> first | exact hbw | (next h => exact h.1))
      (by simpa using hsort) (by simpa using hn) (by simpa using hge) ?_
    · simpa using step
    · intro x hx hxw
      have ord : ∀ p q : F32, isnan p = false → isnan q = false → (fgt p q = true ↔ orderKey q < orderKey p) := by
        intro p q hp hq; simp [fgt, flt, hp, hq]
      have hxn : isnan x.1 = false := hn x (by
        rcases List.mem_append.1 hx with h | h
        · exact List.mem_append_left _ h
        · rw [List.mem_singleton.1 h]; simp)
      rcases List.mem_append.1 hx with hx' | hx'
      · obtain ⟨m1, m2⟩ := hmax x hx' hxw
        split
        · next h =>
          have h2 := (ord _ _ hcn hbn).1 h.2
          have m1' : ¬ orderKey b.1 < orderKey x.1 := by rw [← ord _ _ hxn hbn]; simp [m1]
          refine ⟨?_, fun _ => (ord _ _ hcn hxn).2 (by omega)⟩
          have : ¬ fgt x.1 c.1 = true := by rw [ord _ _ hxn hcn]; omega
          simpa using this
        · exact ⟨m1, m2⟩
      · have : x = c := by simpa using hx'
        subst this
        split
        · refine ⟨?_, fun h => absurd h (by omega)⟩
          have : ¬ fgt x.1 x.1 = true := by rw [ord _ _ hxn hxn]; omega
          simpa using this
        · next h =>
          refine ⟨by simpa [hxw] using h, fun h => absurd h (by have := hlt b hb; omega)⟩


end Sys2Proof.Machine
end

