-- ==== Sys2Proof/Machine/Assembler.lean ====
section
/-! DEFINITION. The assembly language (`30_encoding.md` R220 to R223), on lines already split into a
mnemonic and its operands (log 25). No step of the machine uses it. -/

namespace Sys2Proof.Machine

/-- An operand: an unsigned integer, or the unit name of `urst`. -/
inductive AsmOperand where
  | num (n : Nat)
  | name (s : String)
deriving DecidableEq, Repr

/-- A line (R220, R222). -/
inductive AsmLine where
  | command (mnemonic : String) (operands : List AsmOperand)
  /-- `.org a`. -/
  | org (a : Nat)
  /-- `.c64 re, im`. -/
  | c64 (re im : F32)
  /-- `.w64 v`. -/
  | w64 (v : Word64)
  /-- `.bits b0, b1, ...`. -/
  | bits (bs : List Bool)
deriving DecidableEq, Repr

/-- The unit names of `urst` (R220). -/
def unitNamed (s : String) : Option UnitSel :=
  if s = "agc" then some .agc
  else if s = "fir" then some .fir
  else if s = "scr" then some .scr
  else if s = "dscr" then some .dscr
  else if s = "cfc" then some .cfc
  else if s = "pll" then some .pll
  else if s = "sym" then some .sym
  else if s = "fsync" then some .fsync
  else if s = "all" then some .all
  else none

/-- The 32-bit field values of numeric operands; a number that no field holds, or a name, is an
error. -/
def fieldsOfOperands : List AsmOperand → Option (List Word32)
  | [] => some []
  | .num n :: os =>
      if n < 2 ^ 32 then (fieldsOfOperands os).map (BitVec.ofNat 32 n :: ·) else none
  | .name _ :: _ => none

/-- The forms with numeric operands (R220): "The suffix `.a` sets `AUXW = 1` and requires the `aux`
operand". -/
def blockCommand (m : String) (ops : List Word32) : Option Instr :=
  match ops with
  | [] => if m = "halt" then some .halt else if m = "nop" then some .nop else none
  | [dst, src, len] =>
      if m = "agc" then some (.agc dst src len false 0#32)
      else if m = "firdec" then some (.firdec dst src len)
      else if m = "scr" then some (.scr dst src len)
      else if m = "dscr" then some (.dscr dst src len)
      else if m = "henc" then some (.henc dst src len)
      else if m = "hdec" then some (.hdec dst src len false 0#32)
      else if m = "cfc" then some (.cfc dst src len false 0#32)
      else if m = "pll" then some (.pll dst src len)
      else if m = "symsync" then some (.symsync dst src len 0#32)
      else if m = "fsync" then some (.fsync dst src len false 0#32)
      else none
  | [dst, src, len, x] =>
      if m = "agc.a" then some (.agc dst src len true x)
      else if m = "hdec.a" then some (.hdec dst src len true x)
      else if m = "cfc.a" then some (.cfc dst src len true x)
      else if m = "symsync" then some (.symsync dst src len x)
      else if m = "fsync.a" then some (.fsync dst src len true x)
      else none
  | _ => none

/-- The command of a line (R220), with the pseudo-instruction `reset`, which is `urst all` (R221). -/
def asmCommand (m : String) (ops : List AsmOperand) : Option Instr :=
  if m = "reset" ∧ ops = [] then some (.urst .all)
  else if m = "urst" then
    match ops with
    | [.name u] => (unitNamed u).map .urst
    | _ => none
  else
    match fieldsOfOperands ops with
    | some fs => blockCommand m fs
    | none => none

/-- The word addresses and words that a line emits at a location, and the location after it; "a
descriptor line must start at a multiple of 4" (R222). -/
def asmLine (loc : Nat) : AsmLine → Option (List Word64 × Nat)
  | .command m ops =>
      match asmCommand m ops with
      | some i => if loc % 4 = 0 then some (encode i, loc + 4) else none
      | none => none
  | .org a => some ([], a)
  | .c64 re im => some ([wordOfC ⟨re, im⟩], loc + 1)
  | .w64 v => some ([v], loc + 1)
  | .bits bs => some (bs.map wordOfB, loc + bs.length)

/-- The words of a program with their word addresses, from a start location. -/
def assemble : Nat → List AsmLine → Option (List (Nat × Word64))
  | _, [] => some []
  | loc, l :: ls =>
      match asmLine loc l with
      | some (ws, next) =>
          (assemble next ls).map (ws.zipIdx.map (fun w => (loc + w.2, w.1)) ++ ·)
      | none => none

end Sys2Proof.Machine
end

