-- ==== Sys2Proof/Tests/Slice0.lean ====
section
/-! SUPPORT. The tests: ill-formed commands, descriptors written out from the encoding rules, the
vectors of `95_test_vectors.md` one step at a time, and the witnesses of the statements. -/

namespace Sys2Proof.Tests

open Sys2Proof.Machine Sys2Proof.Config

-- One theorem at a time: many kernel evaluations at once need too much memory.
set_option Elab.async false

/-! ### A small machine -/

/-- A small legal build. -/
def par8 : Params where
  dmemWords := 64
  maxFirTaps := 8
  maxDecFactor := 4
  maxAgcN := 2
  maxFftLog2 := 2
  maxSps := 2
  maxPreLen := 2
  fsyncCap := 8
  hammingP := 0xFAB#12
  trans := .nearest
  specmag := .nearest

/-- That machine after power-on. -/
def idle : State := State.resetValues par8 [] [] 0#32 0

/-- That machine in a run. -/
def going : State := { idle with seq := { idle.seq with run := true } }

/-- That machine in a run with the given words from word address 8 on. -/
def loaded (ws : List Word64) : State := going.writeBlock 8 ws

/-- The descriptor of a command at address 0, in a machine that is in a run. -/
def ready (i : Instr) (s : State) : State :=
  { s with mem := s.mem.writeBlock 0 ((encode i).take 3),
           seq := { s.seq with run := true } }

/-- The words of a run of DMEM after a step. -/
def wordsOf (r : Result) (base n : Nat) : Option (List Word64) :=
  match r with
  | .next t => t.mem.readBlock base n
  | _ => none

/-- A value of the state after a step. -/
def after {α : Type} (r : Result) (f : State → α) : Option α :=
  match r with
  | .next t => some (f t)
  | _ => none

/-- The fault a step ends in. -/
def faultOf (r : Result) : Option Fault :=
  match r with
  | .fault f => some f
  | _ => none

/-- A step with one host action. -/
def host (a : HostAct) (s : State) : Result := step { s with host := [a] }

/-! ### Well-formed commands -/

theorem test_wf_agc : Instr.wellFormed (.agc 1#32 2#32 3#32 false 4#32) = false := rfl
theorem test_wf_hdec : Instr.wellFormed (.hdec 1#32 2#32 3#32 false 4#32) = false := rfl
theorem test_wf_cfc : Instr.wellFormed (.cfc 1#32 2#32 3#32 false 4#32) = false := rfl
theorem test_wf_fsync : Instr.wellFormed (.fsync 1#32 2#32 3#32 false 4#32) = false := rfl
theorem test_wf_agc_a : Instr.wellFormed (.agc 1#32 2#32 3#32 true 4#32) = true := rfl

/-! ### Decoding: words written out from `30_encoding.md` R200, R210, R212 -/

theorem test_decode_halt : decodeTableWord 32 0x00000000 = some .halt := by decide +kernel

theorem test_decode_nop : decodeTableWord 32 0x00000001 = some .nop := by decide +kernel

/-- R223: `urst all`. -/
theorem test_decode_urst : decodeTableWord 32 0x00000F02 = some (.urst .all) := by decide +kernel

/-- `agc.a 0x40, 0x20, 8, 0x60`. -/
theorem test_decode_agc : decodeWords 0x0000000800001010#64 0x0000004000000020#64
    0x0000000000000060#64 = .instr (.agc 0x40#32 0x20#32 8#32 true 0x60#32) := by decide +kernel

/-- R223: `firdec 0x200, 0x100, 64`. -/
theorem test_decode_firdec : decodeWords 0x0000004000000011#64 0x0000020000000100#64 0#64 =
    .instr (.firdec 0x200#32 0x100#32 64#32) := by decide +kernel

/-- Program P2, word 0x08. -/
theorem test_decode_scr : decodeWords 0x0000000700000012#64 0x0000012000000110#64 0#64 =
    .instr (.scr 0x120#32 0x110#32 7#32) := by decide +kernel

/-- Program P2, word 0x0C. -/
theorem test_decode_dscr : decodeWords 0x0000000700000013#64 0x0000013000000120#64 0#64 =
    .instr (.dscr 0x130#32 0x120#32 7#32) := by decide +kernel

/-- Program P2, word 0x04. -/
theorem test_decode_henc : decodeWords 0x0000000400000014#64 0x0000011000000100#64 0#64 =
    .instr (.henc 0x110#32 0x100#32 4#32) := by decide +kernel

/-- Program P2, word 0x10. -/
theorem test_decode_hdec : decodeWords 0x0000000700000015#64 0x0000014000000130#64 0#64 =
    .instr (.hdec 0x140#32 0x130#32 7#32 false 0#32) := by decide +kernel

theorem test_decode_cfc : decodeWords 0x0000000400001016#64 0x0000003000000020#64 0x38#64 =
    .instr (.cfc 0x30#32 0x20#32 4#32 true 0x38#32) := by decide +kernel

theorem test_decode_pll : decodeWords 0x0000000400000017#64 0x0000003000000020#64 0#64 =
    .instr (.pll 0x30#32 0x20#32 4#32) := by decide +kernel

/-- Program P5, word 0x04. -/
theorem test_decode_symsync : decodeWords 0x0000000600000018#64 0x0000005000000040#64
    0x0000000200000000#64 = .instr (.symsync 0x50#32 0x40#32 6#32 2#32) := by decide +kernel

/-- Program P4, word 0x04. -/
theorem test_decode_fsync : decodeWords 0x0000000100001019#64 0x0000006000000040#64
    0x0000000000000070#64 = .instr (.fsync 0x60#32 0x40#32 1#32 true 0x70#32) := by decide +kernel

/-- R213: `RSV` comes before every other field. -/
theorem test_decode_rsv : decodeWords 0x0000000100002100#64 0#64 0#64 = .reservedField 1#32 := by
  decide +kernel

/-- R212: `UNIT` 8 is reserved. -/
theorem test_decode_unit : decodeWords 0x0000000000000802#64 0#64 0#64 = .reservedField 2#32 := by
  decide +kernel

/-- R210: 0x1A names no command. -/
theorem test_decode_illegal : decodeWords 0x1A#64 0#64 0#64 = .illegalOpcode 0x1A#8 := by
  decide +kernel

/-- The words of a command come back through DMEM's bytes. -/
theorem test_decode_bytes : decode (encodeBytes (.symsync 0x50#32 0x40#32 6#32 2#32)) =
    .instr (.symsync 0x50#32 0x40#32 6#32 2#32) := by decide +kernel

/-- Program P1's descriptors and the start of its data. -/
theorem test_assemble_p1 : assemble 0
    [.command "firdec" [.num 0x50, .num 0x40, .num 5], .command "halt" [], .org 0x40,
      .c64 0x3F800000#32 0#32] =
    some [(0, 0x0000000500000011#64), (1, 0x0000005000000040#64), (2, 0#64), (3, 0#64), (4, 0#64),
      (5, 0#64), (6, 0#64), (7, 0#64), (0x40, 0x000000003F800000#64)] := by decide +kernel

/-- R221: `reset` is `urst all`; R220: `.a` needs its operand. -/
theorem test_assemble_forms : asmCommand "reset" [] = some (.urst .all) ∧
    asmCommand "urst" [.name "sym"] = some (.urst .sym) ∧
    asmCommand "fsync.a" [.num 1, .num 2, .num 3] = none ∧
    asmCommand "symsync" [.num 1, .num 2, .num 3, .num 4] = some (.symsync 1#32 2#32 3#32 4#32) := by
  decide +kernel

/-! ### Arithmetic: values worked by hand from `00_scope.md` R12 to R20 -/

/-- `2^24 + 1` is a tie between two binary32 values, and goes to the even one. -/
theorem test_fadd_tie : fadd 0x4B800000#32 0x3F800000#32 = 0x4B800000#32 := by decide +kernel

/-- `1.0 / 3.0`. -/
theorem test_fdiv_third : fdiv 0x3F800000#32 0x40400000#32 = 0x3EAAAAAB#32 := by decide +kernel

/-- `sqrt 2`. -/
theorem test_fsqrt_two : fsqrt 0x40000000#32 = 0x3FB504F3#32 := by decide +kernel

/-- The least subnormal times a half is a tie between 0 and itself. -/
theorem test_fmul_subnormal : fmul 0x00000001#32 0x3F000000#32 = 0x00000000#32 := by decide +kernel

/-- Opposite infinities give the quiet NaN. -/
theorem test_fadd_nan : fadd 0x7F800000#32 0xFF800000#32 = 0x7FC00000#32 := by decide +kernel

/-- A2: `fexp(LN10)` is 10.0. -/
theorem test_fexp_ln10 : fexp .nearest 0x40135D8E#32 = 0x41200000#32 := by decide +kernel

/-- A4: `-ln 5`, from `fln`. -/
theorem test_fln_five : fneg (fln .nearest 0x40A00000#32) = 0xBFCE0210#32 := by decide +kernel

/-- The third row of the gain table of section 2.6. -/
theorem test_gains : gainsAlpha 0x3C23D70A#32 0x3F350481#32 fone = 0x3CE472ED#32 ∧
    gainsBeta 0x3C23D70A#32 0x3F350481#32 fone = 0x39CEC536#32 := by decide +kernel

/-! ### The control commands -/

/-- R253, on a machine at rest at 0. -/
theorem test_halt : after (step (ready .halt going)) (fun t => (t.seq.run, t.seq.lastEnd,
    t.seq.cmdPtr, t.seq.cmdCount, t.seq.irqStatus)) = some (false, 1#2, 4#32, 1#32, 1#5) := by
  decide +kernel

/-- P3: NOP writes 0 to its `W3`. -/
theorem test_nop : wordsOf (step (ready .nop going)) 3 1 = some [0#64] := by decide +kernel

/-- S5: `urst scr` with `SCR_LEN = 3`, `SCR_INIT = 0xD`. -/
theorem test_urst_scr : after (step (ready (.urst .scr)
    { going with scr := ⟨3#32, 0#32, 0xD#32, 0#32, 0#32⟩ })) (fun t => (t.scr.state, t.scr.dstate))
    = some (5#32, 0#32) := by decide +kernel

/-- R254: `urst pll` leaves the other units. -/
theorem test_urst_pll : after (exec (.urst .pll) { going with
    pll := { going.pll with phase := fone, freq := fone }, cfc := { going.cfc with phase := fone } })
    (fun t => (t.pll.phase, t.pll.freq, t.cfc.phase)) = some (fzero, fzero, fone) := by
  decide +kernel

/-! ### AGC -/

/-- A1. -/
theorem test_agc_a1 : wordsOf (exec (.agc 16#32 8#32 1#32 true 24#32) (loaded [0x3F000000#64])) 16 1 =
    some [0x3F000000#64] ∧
    wordsOf (exec (.agc 16#32 8#32 1#32 true 24#32) (loaded [0x3F000000#64])) 24 1 =
    some [0x3FB17218#64] := by decide +kernel

/-- A4, whose window holds two powers. -/
theorem test_agc_a4 :
    let r := exec (.agc 16#32 8#32 3#32 true 24#32)
      { loaded [0x3F800000#64, 0x40400000#64, 0#64] with
        agc := { going.agc with n := 2#32, k := 0x3E800000#32 } }
    wordsOf r 16 3 = some [0x3F800000#64, 0x40400000#64, 0#64] ∧
    wordsOf r 24 3 = some [0x3F317218#64, 0xBFCE0210#64, 0xBF330928#64] ∧
    after r (fun t => t.agc.gain) = some 0xBF13C352#32 := by decide +kernel

/-! ### FIRDEC -/

/-- The taps 1, 2, 1. -/
def taps121 : Memory :=
  (((loaded []).mem.setWord (coefAddr 0) 0x3F800000#64).setWord (coefAddr 1) 0x40000000#64).setWord
    (coefAddr 2) 0x3F800000#64

/-- The state before F1. -/
def firState : State :=
  { going with
    mem := taps121.writeBlock 8 [0x3F800000#64, 0#64, 0#64, 0#64, 0x40000000#64]
    fir := { going.fir with factor := 2#32, ntaps := 3#32 } }

/-- F1. -/
theorem test_firdec_f1 : wordsOf (exec (.firdec 16#32 8#32 5#32) firState) 16 2 =
    some [0x3F800000#64, 0x3F800000#64] ∧
    after (exec (.firdec 16#32 8#32 5#32) firState) (fun t => (t.fir.dl.map C32.re,
      t.seq.resConsumed, t.seq.resProduced)) =
    some ([0x40000000#32, 0#32, 0#32, 0#32, 0x3F800000#32, 0#32, 0#32], 5#32, 2#32) := by
  decide +kernel

/-- F3: a complex tap. -/
theorem test_firdec_f3 : wordsOf (exec (.firdec 16#32 8#32 1#32)
    { going with
      mem := Memory.writeBlock
        (Memory.setWord [] (coefAddr 0) 0x3F80000000000000#64) 8 [0x400000003F800000#64] }) 16 1 =
    some [0x3F800000C0000000#64] := by decide +kernel

/-! ### SCR and DSCR -/

/-- The scrambler of section 2.3 with its start history in both units. -/
def scrUnit3 : ScrUnit := ⟨3#32, 6#32, 1#32, 1#32, 1#32⟩

/-- S1. -/
theorem test_scr_s1 :
    let r := exec (.scr 16#32 8#32 8#32)
      { loaded [1#64, 0#64, 1#64, 1#64, 0#64, 0#64, 0#64, 1#64] with scr := scrUnit3 }
    wordsOf r 16 8 = some [1#64, 1#64, 1#64, 1#64, 0#64, 0#64, 1#64, 1#64] ∧
    after r (fun t => (t.scr.state, t.scr.dstate)) = some (3#32, 1#32) := by decide +kernel

/-- S2. -/
theorem test_dscr_s2 :
    let r := exec (.dscr 16#32 8#32 8#32)
      { loaded [1#64, 1#64, 1#64, 1#64, 0#64, 0#64, 1#64, 1#64] with scr := scrUnit3 }
    wordsOf r 16 8 = some [1#64, 0#64, 1#64, 1#64, 0#64, 0#64, 0#64, 1#64] ∧
    after r (fun t => (t.scr.state, t.scr.dstate)) = some (1#32, 3#32) := by decide +kernel

/-! ### HENC and HDEC -/

/-- The codeword of 1011, with `L = 6`: one group, 4 consumed and 7 produced. -/
theorem test_henc_partial :
    let r := exec (.henc 16#32 8#32 6#32) (loaded [1#64, 0#64, 1#64, 1#64, 1#64, 1#64])
    wordsOf r 16 7 = some [1#64, 0#64, 1#64, 1#64, 0#64, 1#64, 0#64] ∧
    wordsOf r 3 1 = some [0x0000000700000004#64] := by decide +kernel

/-- R333 with R513: the two words past the whole group, and every byte but that of bit 0, may be
unwritten (log 26). -/
theorem test_henc_unwritten_rest :
    let m := [8, 9, 10, 11].foldl (fun m a => Memory.set m (dmemAddr a) 1) going.mem
    wordsOf (exec (.henc 16#32 8#32 6#32) { going with mem := m }) 16 7 =
      some [1#64, 1#64, 1#64, 1#64, 1#64, 1#64, 1#64] := by decide +kernel

/-- 1011010 with bit 1 flipped, then with bit 6 flipped: the data, the indices, and two corrections. -/
theorem test_hdec_flips :
    let r := exec (.hdec 32#32 8#32 14#32 true 48#32) (loaded
      [1#64, 1#64, 1#64, 1#64, 0#64, 1#64, 0#64, 1#64, 0#64, 1#64, 1#64, 0#64, 1#64, 1#64])
    wordsOf r 32 8 = some [1#64, 0#64, 1#64, 1#64, 1#64, 0#64, 1#64, 1#64] ∧
    wordsOf r 48 2 = some [1#64, 6#64] ∧ after r (fun t => t.seq.resAux) = some 2#32 := by
  decide +kernel

/-- Two errors, 0111010, give 0101 and index 2; a codeword gives -1. -/
theorem test_hdec_double :
    let r := exec (.hdec 32#32 8#32 14#32 true 48#32) (loaded
      [0#64, 1#64, 1#64, 1#64, 0#64, 1#64, 0#64, 1#64, 0#64, 1#64, 1#64, 0#64, 1#64, 0#64])
    wordsOf r 32 8 = some [0#64, 1#64, 0#64, 1#64, 1#64, 0#64, 1#64, 1#64] ∧
    wordsOf r 48 2 = some [2#64, 0xFFFFFFFFFFFFFFFF#64] := by decide +kernel

/-! ### CFC -/

/-- The configuration of C1. -/
def cfcUnit4 : CfcUnit := { going.cfc with fs := 0x40800000#32, nfft := 4#32 }

/-- The input of C1. -/
def cfcInput : List Word64 :=
  [0x000000003F800000#64, 0x3F3504F33F3504F3#64, 0x3F80000000000000#64, 0x3F3504F3BF3504F3#64]

/-- C1. -/
theorem test_cfc_c1 :
    let r := exec (.cfc 16#32 8#32 4#32 true 24#32) { loaded cfcInput with cfc := cfcUnit4 }
    wordsOf r 16 4 = some [0x000000003F800000#64, 0x000000003F7FFFFF#64, 0xB33BBD2E3F800000#64,
      0x000000003F7FFFFF#64] ∧
    wordsOf r 24 1 = some [0x3F000000#64] ∧
    after r (fun t => (t.cfc.phase, t.seq.resAux)) = some (0x40490FDB#32, 0x3F000000#32) := by
  decide +kernel

/-- C2: `L = 5` is over the capacity. -/
theorem test_cfc_c2 :
    after (exec (.cfc 16#32 8#32 5#32 false 0#32) { loaded cfcInput with cfc := cfcUnit4 }) id =
    some (State.stoppedWith { loaded cfcInput with cfc := cfcUnit4 } 6#8 1#32) := by
  decide +kernel

/-- The bin 1 of eight samples `s[1] = 2^24`, `s[5] = -1` has magnitude `2^24 + 1`, half way between two
binary32 values; the even one is `2^24` (R21, log 7). -/
theorem test_specmag_tie : (specmag .nearest 8 [czero, ⟨0x4B800000#32, 0#32⟩, czero, czero, czero,
    ⟨0xBF800000#32, 0#32⟩, czero, czero]).getD 1 0#32 = 0x4B800000#32 := by decide +kernel

/-- The bin 1 of `s[1] = 2^127`, `s[5] = -2^103`, `s[3] = 2^-149` is a little above the half way point
`2^127 + 2^103`, for `s[1] - s[5]` and `s[3]` stand at a right angle (R21). -/
theorem test_specmag_above : (specmag .nearest 8 [czero, ⟨0x7F000000#32, 0#32⟩, czero,
    ⟨0x00000001#32, 0#32⟩, czero, ⟨0xF3000000#32, 0#32⟩, czero, czero]).getD 1 0#32 =
    0x7F000001#32 := by decide +kernel

/-! ### PLL -/

/-- The gains of section 2.6. -/
def pllUnit2 : PllUnit := { going.pll with alpha := 0x3F000000#32, beta := 0x3E800000#32 }

/-- P2: QPSK. -/
theorem test_pll_p2 : after (exec (.pll 16#32 8#32 1#32)
    { loaded [0x3F0000003F800000#64] with pll := pllUnit2, modcfg := .qpsk })
    (fun t => (t.pll.phase, t.pll.freq)) = some (0xBEC00000#32, 0xBE000000#32) := by decide +kernel

/-- P5: the second output is rotated by the phase after the first. -/
theorem test_pll_p5 :
    let r := exec (.pll 16#32 8#32 2#32)
      { loaded [0x3F0000003F800000#64, 0x3F0000003F800000#64] with pll := pllUnit2 }
    wordsOf r 16 2 = some [0x3F0000003F800000#64, 0x3DCAB6B03F8E8BE2#64] ∧
    after r (fun t => (t.pll.phase, t.pll.freq)) = some (0x3F130120#32, 0x3E1956D6#32) := by
  decide +kernel

/-! ### SYMSYNC -/

/-- T2: the cap stops the block at four samples. -/
theorem test_symsync_t2 :
    let r := exec (.symsync 16#32 8#32 6#32 2#32) (loaded [0x3F800000#64, 0x40000000#64,
      0x40400000#64, 0x40800000#64, 0x40A00000#64, 0x40C00000#64])
    wordsOf r 16 2 = some [0x3F800000#64, 0x40400000#64] ∧
    wordsOf r 3 1 = some [0x0000000200000004#64] := by decide +kernel

/-- T2 without the samples after the capping one: they are not read (R391, log 26); without the cap the
first of them is needed. -/
theorem test_symsync_unwritten_rest :
    let s := loaded [0x3F800000#64, 0x40000000#64, 0x40400000#64, 0x40800000#64]
    wordsOf (exec (.symsync 16#32 8#32 6#32 2#32) s) 16 2 = some [0x3F800000#64, 0x40400000#64] ∧
    faultOf (exec (.symsync 16#32 8#32 6#32 0#32) s) = some .unwrittenDmem := by decide +kernel

/-- T5. -/
theorem test_symsync_t5 :
    let r := exec (.symsync 16#32 8#32 8#32 0#32)
      { loaded [0xBF800000#64, 0xBF800000#64, 0x3F800000#64, 0x3F800000#64, 0xBF800000#64,
          0xBF800000#64, 0x3F800000#64, 0x3F800000#64] with
        sym := { going.sym with alpha := 0x3D800000#32, beta := 0x3D000000#32 } }
    (wordsOf r 16 3).map (List.map fun w => w.setWidth 32) =
      some [0xBF800000#32, 0x3F800000#32, 0xBF9F58D1#32] ∧
    after r (fun t => (t.sym.mu, t.sym.cnt, t.sym.vi, t.sym.strobe)) =
      some (0x3EAAAAAB#32, 0x3F400000#32, 0xBE000000#32, true) := by decide +kernel

/-! ### FSYNC -/

/-- The preamble 1, -1. -/
def preMem : Memory :=
  (Memory.setWord [] (preAddr 0) 0x3F800000#64).setWord (preAddr 1) 0xBF800000#64

/-- The configuration of section 2.8 over an input block at word 8. -/
def fsState (ws : List Word64) : State :=
  { going with
    mem := preMem.writeBlock 8 ws
    fs := { going.fs with plen := 2#32, fsize := 4#32, thresh := 0x40000000#32 } }

/-- Y3a: a frame that is not whole yet. -/
theorem test_fsync_y3a : after (exec (.fsync 16#32 8#32 4#32 true 24#32)
    (fsState [0#64, 0x3F800000#64, 0xBF800000#64, 0x3F000000#64])) (fun t => (t.fs.outcome,
      t.fs.mag, t.seq.resProduced)) =
    some (.incomplete, [0x3F800000#32, 0x40000000#32, 0x3FC00000#32], 0#32) := by decide +kernel

/-- Y6: ties keep the first candidate. -/
theorem test_fsync_y6 :
    let r := exec (.fsync 16#32 8#32 6#32 true 24#32) (fsState [0x3F800000#64, 0xBF800000#64,
      0x3F800000#64, 0xBF800000#64, 0#64, 0#64])
    wordsOf r 16 4 = some [0x3F800000#64, 0xBF800000#64, 0x3F800000#64, 0xBF800000#64] ∧
    wordsOf r 24 1 = some [3#64] ∧
    after r (fun t => t.fs.mag) = some [0x3F800000#32, 0#32] := by decide +kernel

/-! ### The host -/

/-- R518, U5: a read during a run of an address that is not live returns any value, outside the windows
too (log 27). -/
theorem test_read_in_run : hostReadResult going 0x3000#32 = .unspecified ∧
    hostReadResult idle 0x3000#32 = .value 0#32 := by decide +kernel

/-- R500: a reset cuts a CFC over its capacity, of which only `W3` is lost, and one within it, of which
the output is lost too. -/
theorem test_reset_cfc :
    let s := fun len => ready (.cfc 16#32 8#32 len false 0#32)
      { loaded cfcInput with mem := (loaded cfcInput).mem.writeBlock 16 [1#64, 2#64, 3#64, 4#64],
                             cfc := cfcUnit4 }
    wordsOf (host .reset (s 5#32)) 16 4 = some [1#64, 2#64, 3#64, 4#64] ∧
    wordsOf (host .reset (s 5#32)) 3 1 = none ∧ wordsOf (host .reset (s 1#32)) 16 1 = none ∧
    wordsOf (host .reset (s 1#32)) 17 3 = some [2#64, 3#64, 4#64] := by decide +kernel

/-! ### Witnesses: states and operands that meet the hypotheses of the statements -/

/-- A step gives a next state that has a property. -/
def nextHas (r : Result) (p : State → Bool) : Bool :=
  match r with
  | .next t => p t
  | _ => false

theorem nextHas_spec {r : Result} {p : State → Bool} (h : nextHas r p = true) :
    ∃ t, r = .next t ∧ p t = true := by
  unfold nextHas at h
  split at h
  · exact ⟨_, rfl, h⟩
  · cases h

theorem fits {s : State} {b : Blocks} (h : operandError s.par s.ptr b = none) : OperandsFit s b :=
  (operandError_eq_none s b).mp h

/-- A descriptor of three words at address 0 of a machine in a run. -/
def placed (w0 w1 w2 : Word64) : State := going.writeBlock 0 [w0, w1, w2]

/-- Two input bits at words 8 and 9, and everything COEF and PRE hold written. -/
def bits2 : State :=
  { going with mem := (taps121.writeBlock 8 [1#64, 0#64]).setWord (preAddr 0) 0x3F800000#64 }

theorem witness_DecodeOfEncodeIsTheCommand :
    Instr.wellFormed (.agc 0#32 0xFFFFFFFF#32 1#32 true 0xFFFFFFFF#32) = true ∧
    Instr.wellFormed (.agc 0#32 0#32 0#32 false 1#32) = false := ⟨rfl, rfl⟩

theorem witness_EncodeOfDecodedIsTheWords :
    decodeWords 0x0000004000000011#64 0x0000020000000100#64 0#64 =
      .instr (.firdec 0x200#32 0x100#32 64#32) := test_decode_firdec

theorem witness_OpcodeMapIsTheTable :
    decodeWords 0x19#64 0#64 0#64 = .instr (.fsync 0#32 0#32 0#32 false 0#32) ∧
    decodeWords 0x03#64 0#64 0#64 = .illegalOpcode 0x03#8 ∧
    decodeWords 0x0F#64 0#64 0#64 = .illegalOpcode 0x0F#8 ∧
    decodeWords 0x1A#64 0#64 0#64 = .illegalOpcode 0x1A#8 ∧
    decodeWords 0xFF#64 0#64 0#64 = .illegalOpcode 0xFF#8 := by decide +kernel

/-- The least and the greatest field fail alone, and none fails. -/
theorem witness_ReservedFieldsStopTheRun :
    (AtStep (placed 0x2000#64 0#64 0#64) ∧
      DescriptorAt (placed 0x2000#64 0#64 0#64) 0x2000#64 0#64 0#64 ∧
      ¬ IllegalOpcode (BitVec.extractLsb' 0 8 0x2000#64) ∧
      FieldFails (fieldsOfWords 0x2000#64 0#64 0#64) 1 ∧
      ∀ j, j < 1 → ¬ FieldFails (fieldsOfWords 0x2000#64 0#64 0#64) j) ∧
    (AtStep (placed 0#64 0#64 0x100000000#64) ∧
      DescriptorAt (placed 0#64 0#64 0x100000000#64) 0#64 0#64 0x100000000#64 ∧
      ¬ IllegalOpcode (BitVec.extractLsb' 0 8 0#64) ∧
      FieldFails (fieldsOfWords 0#64 0#64 0x100000000#64) 8 ∧
      ∀ j, j < 8 → ¬ FieldFails (fieldsOfWords 0#64 0#64 0x100000000#64) j) ∧
    (AtStep (placed 1#64 0#64 0#64) ∧ DescriptorAt (placed 1#64 0#64 0#64) 1#64 0#64 0#64 ∧
      ¬ IllegalOpcode (BitVec.extractLsb' 0 8 1#64) ∧
      ∀ k, ¬ FieldFails (fieldsOfWords 1#64 0#64 0#64) k) := by
  refine ⟨⟨by decide +kernel, by decide +kernel, ?_, ?_, ?_⟩,
    ⟨by decide +kernel, by decide +kernel, ?_, ?_, ?_⟩,
    ⟨by decide +kernel, by decide +kernel, ?_, ?_⟩⟩ <;>
    (simp [IllegalOpcode, FieldFails, fieldsOfWords, HasAux]; try omega)

theorem witness_StepRunsTheDecodedCommand :
    (going.host = [] ∧ going.seq.run = true ∧ going.seq.stopReq = false ∧
      DescriptorAt (placed 1#64 0#64 0#64) 1#64 0#64 0#64 ∧
      decodeWords 1#64 0#64 0#64 = .instr .nop) ∧
    DescriptorAt { placed 1#64 0#64 0#64 with host := [.wait, .reset] } 1#64 0#64 0#64 := by
  decide +kernel

/-- A state at a pointer. -/
def pointed (p : Word32) (s : State) : State := { s with seq := { s.seq with cmdPtr := p } }

/-- A misaligned pointer, the first pointer past the last descriptor, and the ends of the illegal
opcodes. -/
theorem witness_FetchErrorsStopTheRun :
    (AtStep (pointed 63#32 going) ∧ (pointed 63#32 going).ptr % 4 ≠ 0) ∧
    (AtStep (pointed 64#32 going) ∧ (pointed 64#32 going).ptr % 4 = 0 ∧
      (pointed 64#32 going).par.dmemWords < (pointed 64#32 going).ptr + 4) ∧
    (AtStep (placed 0x03#64 0#64 0#64) ∧
      DescriptorAt (placed 0x03#64 0#64 0#64) 0x03#64 0#64 0#64) ∧
    IllegalOpcode 0x03#8 ∧ IllegalOpcode 0x0F#8 ∧ IllegalOpcode 0x1A#8 ∧ IllegalOpcode 0xFF#8 := by
  refine ⟨by decide +kernel, by decide +kernel, by decide +kernel, ?_⟩
  simp [IllegalOpcode]

theorem witness_ErrorStopIsPrecise :
    going.host = [] ∧ going.seq.run = true ∧ ∃ t, step (placed 0x03#64 0#64 0#64) = .next t ∧
      t.seq.run = false ∧ t.seq.lastEnd = 2#2 := by
  refine ⟨rfl, rfl, ?_⟩
  obtain ⟨t, h, ht⟩ := nextHas_spec (r := step (placed 0x03#64 0#64 0#64))
    (p := fun t => !t.seq.run && t.seq.lastEnd == 2#2) (by decide +kernel)
  exact ⟨t, h, by simpa using ht⟩

theorem witness_StopRequestIsTaken :
    going.seq.run = true ∧
    (BitVec.getLsbD 2#32 1 = true ∧ BitVec.getLsbD 2#32 0 = false ∧
      BitVec.getLsbD 2#32 2 = false) ∧
    BitVec.getLsbD 4#32 2 = true ∧
    (let s := { going with seq := { going.seq with stopReq := true } }
     s.host = [] ∧ s.seq.run = true ∧ s.seq.stopReq = true) := by decide +kernel

/-- One step of each kind: completed, halted, stopped by request, stopped by an error. -/
theorem witness_StepOfARunIsOneOfFour :
    (∃ t, step (placed 1#64 0#64 0#64) = .next t ∧ t.seq.run = true) ∧
    (∃ t, step (placed 0#64 0#64 0#64) = .next t ∧ (t.seq.lastEnd == 1#2) = true) ∧
    (∃ t, step { going with seq := { going.seq with stopReq := true } } = .next t ∧
      (t.seq.lastEnd == 3#2) = true) ∧
    (∃ t, step (pointed 1#32 going) = .next t ∧ (t.seq.lastEnd == 2#2) = true) :=
  ⟨nextHas_spec (by decide +kernel), nextHas_spec (by decide +kernel),
    nextHas_spec (by decide +kernel), nextHas_spec (by decide +kernel)⟩

theorem witness_EveryRunEnds :
    going.par.legal = true ∧ going.host = [] ∧ going.seq.run = true := by decide +kernel

theorem witness_IdleSequencerKeepsAllState :
    idle.seq.run = false ∧ idle.host = [] ∧
    State.host { idle with host := [.wait, .reset] } = .wait :: [.reset] := ⟨rfl, rfl, rfl⟩

theorem witness_SequencerWritesDmemOnly :
    going.host = [] ∧ (∃ t, step (placed 1#64 0#64 0#64) = .next t ∧ t.seq.run = true) ∧
    dmemBase - 1 < dmemBase ∧ dmemAddr going.par.dmemWords ≤ 0x100200 :=
  ⟨rfl, nextHas_spec (by decide +kernel), by decide, by decide⟩

theorem witness_CommandsKeepConfiguration :
    ∃ t, exec (.scr 16#32 8#32 2#32) bits2 = .next t ∧ t.seq.run = true :=
  nextHas_spec (by decide +kernel)

theorem witness_StartBeginsARun :
    State.host { idle with host := [.write 0x020#32 3#32] } = .write 0x020#32 3#32 :: [] ∧
    idle.seq.run = false ∧ BitVec.getLsbD 3#32 0 = true ∧ BitVec.getLsbD 3#32 2 = false := by
  decide

theorem witness_OnlyAStartBeginsARun :
    idle.seq.run = false ∧
    ∃ t, step { idle with host := [.write 0x020#32 1#32] } = .next t ∧ t.seq.run = true :=
  ⟨rfl, nextHas_spec (by decide +kernel)⟩

/-- A small machine in a run has the invariant, and steps. -/
theorem witness_EveryStepKeepsTheInvariant :
    (placed 1#64 0#64 0#64).Inv ∧
    ∃ t, step (placed 1#64 0#64 0#64) = .next t ∧ t.seq.run = true := by
  refine ⟨⟨by decide +kernel, ?_, ?_, ?_, ?_, ?_, ?_, ?_, ?_, ?_⟩,
    nextHas_spec (by decide +kernel)⟩
  · unfold MemOk; decide +kernel
  · unfold SizesOk; decide +kernel
  · unfold AgcOk; decide +kernel
  · unfold FirScrOk; decide +kernel
  · unfold CfcOk; decide +kernel
  · unfold PllOk; decide +kernel
  · unfold SymOk; decide +kernel
  · unfold FsOk; decide +kernel
  · unfold SeqOk; decide +kernel

theorem witness_EveryResetGivesTheTable :
    going.par.legal = true ∧ idle.seq.run = false ∧ BitVec.getLsbD 4#32 2 = true ∧
    (∃ t, step { going with host := [.reset] } = .next t ∧ (!t.seq.run) = true) ∧
    (∃ t, step { idle with host := [.write 0x020#32 4#32] } = .next t ∧
      (!t.seq.run) = true) :=
  ⟨by decide +kernel, rfl, rfl, nextHas_spec (by decide +kernel), nextHas_spec (by decide +kernel)⟩

/-- A soft reset; an external reset of an idle core and of a run: at a bad pointer, at `scr 16, 8, 2`, at
a CFC over its capacity, at an illegal opcode, and at a descriptor that nothing has written. -/
theorem witness_ResetsAndTheMemories :
    (idle.seq.run = false ∧ BitVec.getLsbD 4#32 2 = true) ∧
    (pointed 1#32 going).ptr % 4 ≠ 0 ∧
    (let s := ready (.scr 16#32 8#32 2#32) bits2
     s.seq.run = true ∧ DescriptorAt s 0x0000000200000012#64 0x0000001000000008#64 0#64 ∧
     decodeWords 0x0000000200000012#64 0x0000001000000008#64 0#64 =
       .instr (.scr 16#32 8#32 2#32) ∧
     instrBlocks s (.scr 16#32 8#32 2#32) = some (scrBlocks 16#32 8#32 2#32) ∧
     OperandsFit s (scrBlocks 16#32 8#32 2#32) ∧ CapacityFits s (.scr 16#32 8#32 2#32)) ∧
    (let s := ready (.cfc 16#32 8#32 2#32 false 0#32) bits2
     DescriptorAt s 0x0000000200000016#64 0x0000001000000008#64 0#64 ∧
     ¬ CapacityFits s (.cfc 16#32 8#32 2#32 false 0#32)) ∧
    DescriptorAt (placed 0x03#64 0#64 0#64) 0x03#64 0#64 0#64 ∧
    (going.ptr % 4 = 0 ∧ going.ptr + 4 ≤ going.par.dmemWords ∧
      going.mem.readBlock going.ptr 3 = none) := by
  refine ⟨⟨rfl, rfl⟩, by decide +kernel, ⟨rfl, by decide +kernel, by decide +kernel, rfl,
    fits (by decide +kernel), trivial⟩,
    ⟨by decide +kernel, (by decide +kernel : ¬ 2 ≤ bits2.cfc.nfft.toNat)⟩, by decide +kernel,
    by decide +kernel⟩

/-- The hypotheses of the five statements about register writes of an idle core:
IntegerRegistersAreRangeChecked, FloatRegistersAreChecked, LoopGainsAreDerived,
FftSizeIsTheLeastPowerOfTwo and WritesAreReadBack. -/
theorem witness_register_writes : idle.seq.run = false ∧ idle.host = [] := ⟨rfl, rfl⟩

/-- Both ends of the range of `AGC_N`, and the values next to them. -/
theorem witness_IntegerRegistersAreRangeChecked :
    after (host (.write 0x10C#32 1#32) idle) (fun t => t.agc.n) = some 1#32 ∧
    after (host (.write 0x10C#32 2#32) idle) (fun t => t.agc.n) = some 2#32 ∧
    after (host (.write 0x10C#32 3#32) idle) (fun t => t.seq.cfgrejAddr) = some 0x10C#12 ∧
    after (host (.write 0x10C#32 0#32) idle) (fun t => t.seq.irqStatus) = some 0b01000#5 := by
  decide +kernel

/-- Section 2.6: `PLL_BW = -0.1` is rejected. -/
theorem witness_FloatRegistersAreChecked :
    after (host (.write 0x500#32 0xBDCCCCCD#32) idle) (fun t => (t.seq.irqStatus, t.seq.cfgrejAddr,
      t.pll.bw)) = some (0b01000#5, 0x500#12, fzero) := by decide +kernel

/-- The first row of the gain table is accepted: its gains are in range. -/
theorem witness_LoopGainsAreDerived :
    GainsInRange (gainsAlpha 0x3D800000#32 0x3F000000#32 fone)
      (gainsBeta 0x3D800000#32 0x3F000000#32 fone) ∧
    ¬ GainsInRange (gainsAlpha 0x40000000#32 0x3F000000#32 fone)
      (gainsBeta 0x40000000#32 0x3F000000#32 fone) := by
  unfold GainsInRange; decide +kernel

/-- The rate 4.0 over 1.0 needs `n = 2`; 8.0 is over `MAX_FFT = 4`. -/
theorem witness_FftSizeIsTheLeastPowerOfTwo :
    (isfinite 0x40800000#32 ∧ fgt 0x40800000#32 fzero) ∧
    (isfinite (fdiv 0x40800000#32 idle.cfc.fres) ∧ 2 ≤ idle.par.maxFftLog2 ∧
      fle (fdiv 0x40800000#32 idle.cfc.fres) (i2f 4) ∧
      ∀ k, k < 2 → fle (fdiv 0x40800000#32 idle.cfc.fres) (i2f ((2 ^ k : Nat) : Int)) = false) ∧
    (∀ k, k ≤ idle.par.maxFftLog2 →
      fle (fdiv 0x41000000#32 idle.cfc.fres) (i2f ((2 ^ k : Nat) : Int)) = false) ∧
    ¬ fgt 0x00000000#32 fzero := by
  refine ⟨by decide +kernel, by decide +kernel, ?_, by decide +kernel⟩
  intro k hk
  have : k < 3 := Nat.lt_succ_of_le hk
  interval_cases k <;> decide +kernel

theorem witness_WritesDuringARunAreHazards :
    going.seq.run = true ∧
    (regOffset .cmdPtr = BitVec.toNat 0x028#32 ∧ regLive .cmdPtr = false) ∧
    (0x1000 ≤ BitVec.toNat 0x1000#32 ∧ BitVec.toNat 0x2FFC#32 < 0x3000) ∧
    (0x100000 ≤ BitVec.toNat 0x100000#32 ∧
      BitVec.toNat 0x1001FC#32 < 0x100000 + 8 * going.par.dmemWords) ∧
    (0x3000 ≤ BitVec.toNat 0x3000#32 ∧ ¬ BitVec.toNat 0x3000#32 < 0x3000 ∧
      ¬ 0x100000 ≤ BitVec.toNat 0x3000#32) ∧
    BitVec.getLsbD 1#32 0 = true := by decide +kernel

theorem witness_MisalignedAccessIsIgnored :
    BitVec.toNat 1#32 % 4 ≠ 0 ∧ BitVec.toNat 0xFFFFFFFF#32 % 4 ≠ 0 := by decide

/-- The last word of each memory. -/
theorem witness_HostWritesMemoryWords :
    idle.seq.run = false ∧ idle.par.legal = true ∧ 7 < idle.par.maxFirTaps ∧
    1 < idle.par.maxPreLen ∧ 63 < idle.par.dmemWords := by decide +kernel

theorem witness_ReadsHaveNoSideEffect :
    (regOffset .status = BitVec.toNat 0x024#32 ∧ regLive .status = true) ∧
    (BitVec.toNat 0x058#32 < 0x1000 ∧ (∀ r, regOffset r ≠ BitVec.toNat 0x058#32) ∧
      idle.seq.run = false) ∧
    after (host (.read 0x024#32) { going with seq := { going.seq with lastEnd := 2#2 } })
      (fun t => t.hostRdata) = some 0x21#32 :=
  ⟨⟨rfl, rfl⟩, ⟨by decide, fun r => by cases r <;> decide, rfl⟩, by decide +kernel⟩

/-- A bit enabled and one that is not, a bit cleared by a write of 1, and each kind of event. -/
theorem witness_InterruptBitsFollowTheirEvents :
    (State.irq { idle with seq := { idle.seq with irqStatus := 16#5, irqEnable := 16#5 } } = true ∧
      State.irq { idle with seq := { idle.seq with irqStatus := 16#5, irqEnable := 15#5 } } =
        false) ∧
    (let s := { idle with seq := { idle.seq with irqStatus := 1#5 } }
     ∃ t, step { s with host := [.write 0x048#32 1#32] } = .next t ∧
       (t.seq.irqStatus == 0#5) = true) ∧
    (∃ t, step (placed 0#64 0#64 0#64) = .next t ∧ t.seq.irqStatus.getLsbD 0 = true) ∧
    (∃ t, step { going with seq := { going.seq with stopReq := true } } = .next t ∧
      t.seq.irqStatus.getLsbD 2 = true) ∧
    (∃ t, step { idle with host := [.write 0x10C#32 0#32] } = .next t ∧
      t.seq.irqStatus.getLsbD 3 = true) ∧
    (∃ t, step { going with host := [.write 0x10C#32 1#32] } = .next t ∧
      t.seq.irqStatus.getLsbD 4 = true) :=
  ⟨by decide +kernel, nextHas_spec (by decide +kernel), nextHas_spec (by decide +kernel),
    nextHas_spec (by decide +kernel), nextHas_spec (by decide +kernel),
    nextHas_spec (by decide +kernel)⟩

/-- Operands for each outcome of the checks, in their order: the range of `SRC`, `DST` and `AUX`, then
each overlap, then none; the machine has 64 words and its descriptor at 0. -/
theorem witness_OperandErrorsComeInOrder :
    let b := fun dst src len aux => agcBlocks dst src len true aux
    let apart := fun (x y : Range) => decide (x.Apart y)
    (¬ (b 8#32 63#32 2#32 16#32).inp.Inside par8) ∧
    ((b 63#32 8#32 2#32 16#32).inp.Inside par8 ∧ ¬ (b 63#32 8#32 2#32 16#32).out.Inside par8) ∧
    ((b 16#32 62#32 2#32 63#32).inp.Inside par8 ∧ (b 16#32 62#32 2#32 63#32).out.Inside par8 ∧
      (b 16#32 62#32 2#32 63#32).aux = some ⟨63, 2⟩ ∧ ¬ Range.Inside ⟨63, 2⟩ par8) ∧
    apart ⟨8, 2⟩ ⟨9, 2⟩ = false ∧ apart ⟨8, 2⟩ ⟨10, 2⟩ = true ∧
    apart ⟨3, 2⟩ going.descRange = false ∧ apart ⟨4, 2⟩ going.descRange = true ∧
    apart ⟨3, 0⟩ going.descRange = true ∧
    operandError par8 0 (b 9#32 8#32 2#32 16#32) = some ⟨5#8, 1#32⟩ ∧
    operandError par8 0 (b 16#32 8#32 2#32 9#32) = some ⟨5#8, 2#32⟩ ∧
    operandError par8 0 (b 16#32 8#32 2#32 17#32) = some ⟨5#8, 3#32⟩ ∧
    operandError par8 0 (b 3#32 8#32 2#32 16#32) = some ⟨5#8, 4#32⟩ ∧
    operandError par8 0 (b 16#32 8#32 2#32 3#32) = some ⟨5#8, 5#32⟩ ∧
    operandError par8 0 (b 4#32 62#32 2#32 6#32) = none := by decide +kernel

/-- One sample more than the capacity. -/
theorem witness_CapacityIsChecked :
    (OperandsFit idle (cfcBlocks 16#32 8#32 2#32 true 24#32) ∧ idle.cfc.nfft.toNat < 2) ∧
    (OperandsFit idle (fsBlocks idle.fs 32#32 8#32 9#32 true 24#32) ∧
      idle.par.fsyncCap < idle.fs.raw.length + 9) :=
  ⟨⟨fits (by decide +kernel), by decide⟩, ⟨fits (by decide +kernel), by decide⟩⟩

theorem witness_UnwrittenReadsAreFaults :
    (AtStep going ∧ going.ptr % 4 = 0 ∧ going.ptr + 4 ≤ going.par.dmemWords ∧
      going.mem.readBlock going.ptr 3 = none) ∧
    (OperandsFit going (scrBlocks 16#32 8#32 7#32) ∧ CapacityFits going (.scr 16#32 8#32 7#32) ∧
      going.mem.readBlock 8 7 = none ∧ going.mem.readBits 8 7 = none ∧
      going.mem.readBits 8 (4 * (7 / 4)) = none ∧ going.mem.readBits 8 (7 * (7 / 7)) = none) ∧
    (OperandsFit (loaded [0#64]) (firBlocks (loaded [0#64]).fir 16#32 8#32 1#32) ∧
      (loaded [0#64]).mem.readBlock 8 1 = some [0#64] ∧
      1 / (loaded [0#64]).fir.factor.toNat ≠ 0 ∧ (loaded [0#64]).mem.readCoef 0 1 = none) ∧
    (OperandsFit (loaded [0#64]) (fsBlocks (loaded [0#64]).fs 16#32 8#32 1#32 false 0#32) ∧
      (loaded [0#64]).fs.raw.length + 1 ≤ (loaded [0#64]).par.fsyncCap ∧
      (loaded [0#64]).mem.readPre 0 1 = none) :=
  ⟨by decide +kernel, ⟨fits (by decide +kernel), trivial,
      by decide +kernel, by decide +kernel, by decide +kernel, by decide +kernel⟩,
    ⟨fits (by decide +kernel), by decide +kernel, by decide +kernel, by decide +kernel⟩,
    ⟨fits (by decide +kernel), by decide +kernel, by decide +kernel⟩⟩

theorem witness_AgcComputesTheLoop :
    OperandsFit bits2 (agcBlocks 16#32 8#32 2#32 true 24#32) ∧
    bits2.mem.readBlock 8 2 = some [1#64, 0#64] ∧ bits2.agc.ph.length = bits2.par.maxAgcN ∧
    bits2.agc.n.toNat ≤ bits2.par.maxAgcN :=
  ⟨fits (by decide +kernel), by decide +kernel, by decide +kernel, by decide +kernel⟩

theorem witness_FirdecFiltersAndDecimates :
    OperandsFit firState (firBlocks firState.fir 16#32 8#32 5#32) ∧
    firState.mem.readBlock 8 5 = some [0x3F800000#64, 0#64, 0#64, 0#64, 0x40000000#64] ∧
    firState.mem.readCoef 0 firState.fir.ntaps.toNat =
      some [0x3F800000#64, 0x40000000#64, 0x3F800000#64] ∧
    firState.fir.dl.length = firState.par.maxFirTaps - 1 ∧
    firState.fir.ntaps.toNat ≤ firState.par.maxFirTaps ∧ 1 ≤ firState.par.maxFirTaps :=
  ⟨fits (by decide +kernel), by decide +kernel, by decide +kernel, by decide +kernel,
    by decide +kernel, by decide +kernel⟩

/-- The hypotheses of ScrScrambles and of DscrDescrambles. -/
theorem witness_ScrScrambles :
    OperandsFit bits2 (scrBlocks 16#32 8#32 2#32) ∧
    bits2.mem.readBits 8 2 = some [true, false] := ⟨fits (by decide +kernel), by decide +kernel⟩

/-- The same for DSCR at its greatest block: all of the words from 8 to 35. -/
theorem witness_DscrDescrambles :
    OperandsFit (loaded (List.replicate 28 1#64)) (scrBlocks 36#32 8#32 28#32) ∧
    (loaded (List.replicate 28 1#64)).mem.readBits 8 28 = some (List.replicate 28 true) :=
  ⟨fits (by decide +kernel), by decide +kernel⟩

/-- A block of six words of which four are written. -/
theorem witness_HencEncodesGroups :
    OperandsFit (loaded (List.replicate 4 1#64)) (hencBlocks 16#32 8#32 6#32) ∧
    (loaded (List.replicate 4 1#64)).mem.readBits 8 (4 * (6 / 4)) =
      some (List.replicate 4 true) :=
  ⟨fits (by decide +kernel), by decide +kernel⟩

/-- A block of nine words of which seven are written. -/
theorem witness_HdecDecodesGroups :
    par8.legal = true ∧
    OperandsFit (loaded (List.replicate 7 1#64)) (hdecBlocks 32#32 8#32 9#32 true 48#32) ∧
    (loaded (List.replicate 7 1#64)).mem.readBits 8 (7 * (9 / 7)) =
      some (List.replicate 7 true) :=
  ⟨by decide +kernel, fits (by decide +kernel), by decide +kernel⟩

theorem witness_CfcEstimatesAndRotates :
    let s := { loaded cfcInput with cfc := cfcUnit4 }
    OperandsFit s (cfcBlocks 16#32 8#32 4#32 true 24#32) ∧ 4 ≤ s.cfc.nfft.toNat ∧
    s.mem.readBlock 8 4 = some cfcInput ∧ s.cfc.buf.length = s.par.maxFft ∧
    1 ≤ s.cfc.nfft.toNat ∧ s.cfc.nfft.toNat ≤ s.par.maxFft :=
  ⟨fits (by decide +kernel), by decide +kernel, by decide +kernel, by decide +kernel,
    by decide +kernel, by decide +kernel⟩

theorem witness_PllTracksThePhase :
    OperandsFit bits2 (pllBlocks 16#32 8#32 2#32) ∧
    bits2.mem.readBlock 8 2 = some [1#64, 0#64] := ⟨fits (by decide +kernel), by decide +kernel⟩

/-- A whole block; and a block of four words of which the first two are written, which a cap of 1 ends
after the first of them that strobes, and no cap leaves needing the third. -/
theorem witness_SymsyncInterpolatesAndStrobes :
    OperandsFit bits2 (symBlocks 16#32 8#32 2#32 1#32) ∧
    OperandsFit bits2 (symBlocks 16#32 8#32 4#32 1#32) ∧
    OperandsFit bits2 (symBlocks 16#32 8#32 4#32 0#32) ∧
    bits2.mem.readBlock 8 2 = some [1#64, 0#64] ∧ bits2.sym.tb.length = bits2.par.maxSps ∧
    2 ≤ bits2.sym.sps.toNat ∧ bits2.sym.sps.toNat ≤ bits2.par.maxSps ∧
    bits2.mem.getWord (dmemAddr (8 + 2)) = none ∧
    (∃ t, exec (.symsync 16#32 8#32 4#32 1#32) bits2 = .next t ∧
      (t.seq.resProduced == 1#32) = true) :=
  ⟨fits (by decide +kernel), fits (by decide +kernel), fits (by decide +kernel),
    by decide +kernel, by decide +kernel, by decide +kernel, by decide +kernel, by decide +kernel,
    nextHas_spec (by decide +kernel)⟩

theorem witness_FsyncFindsFrames :
    OperandsFit bits2 (fsBlocks bits2.fs 16#32 8#32 2#32 true 24#32) ∧
    bits2.fs.raw.length + 2 ≤ bits2.par.fsyncCap ∧
    bits2.mem.readBlock 8 2 = some [1#64, 0#64] ∧
    bits2.mem.readPre 0 bits2.fs.plen.toNat = some [0x3F800000#64] ∧
    bits2.fs.dl.length = bits2.par.maxPreLen - 1 ∧ bits2.fs.plen.toNat ≤ bits2.par.maxPreLen ∧
    bits2.fs.mag.length = bits2.fs.raw.length ∧ 1 ≤ bits2.fs.plen.toNat ∧
    bits2.fs.plen.toNat ≤ bits2.fs.fsize.toNat := by
  refine ⟨fits (by decide +kernel), ?_⟩
  decide +kernel

theorem witness_DescramblerInvertsScrambler :
    OperandsFit bits2 (scrBlocks 16#32 8#32 2#32) ∧
    bits2.mem.readBits 8 2 = some [true, false] ∧
    bits2.scr.state &&& BitVec.ofNat 32 (2 ^ bits2.scr.len.toNat - 1) =
      bits2.scr.dstate &&& BitVec.ofNat 32 (2 ^ bits2.scr.len.toNat - 1) :=
  ⟨fits (by decide +kernel), by decide +kernel, by decide +kernel⟩

/-- Blocks of one and two elements; the state between the parts is the one the first part leaves. -/
theorem witness_SplitBlocksGiveTheSameStream :
    BitVec.toNat 1#32 = [1#64].length ∧ BitVec.toNat 2#32 = [1#64, 0#64].length ∧
    (1#32 + 2#32).toNat = [1#64].length + [1#64, 0#64].length ∧
    (scrEffect 1#32 going [true]).st.par = going.par ∧
    (scrEffect 1#32 going [true]).st.modcfg = going.modcfg ∧
    (symEffect 0#32 going [1#64]).st.par = going.par ∧ going.fir.factor = 1#32 :=
  ⟨rfl, rfl, rfl, rfl, rfl, rfl, rfl⟩

/-- The input of T2, T1 and T3: a block capped at 2, the whole block, and the rest from word 12 on. -/
def symInput : State := loaded [0x3F800000#64, 0x40000000#64, 0x40400000#64, 0x40800000#64,
  0x40A00000#64, 0x40C00000#64]

theorem witness_CappedSymsyncCanBeResumed :
    OperandsFit symInput (symBlocks 16#32 8#32 6#32 2#32) ∧
    OperandsFit symInput (symBlocks 16#32 8#32 6#32 0#32) ∧
    ∃ u v ws, exec (.symsync 16#32 8#32 6#32 2#32) symInput = .next u ∧
      exec (.symsync 16#32 8#32 6#32 0#32) symInput = .next v ∧
      symInput.mem.readBlock 8 6 = some ws ∧
      BitVec.toNat 2#32 = 6 - u.seq.resConsumed.toNat ∧
      OperandsFit { symInput with sym := u.sym } (symBlocks 16#32 12#32 2#32 0#32) ∧
      symInput.mem.readBlock 12 2 = some (ws.drop u.seq.resConsumed.toNat) := by
  obtain ⟨u, hu, hc⟩ := nextHas_spec (r := exec (.symsync 16#32 8#32 6#32 2#32) symInput)
    (p := fun t => t.seq.resConsumed == 4#32) (by decide +kernel)
  obtain ⟨v, hv, -⟩ := nextHas_spec (r := exec (.symsync 16#32 8#32 6#32 0#32) symInput)
    (p := fun t => t.seq.resConsumed == 6#32) (by decide +kernel)
  have hc : u.seq.resConsumed = 4#32 := by simpa using hc
  refine ⟨fits (by decide +kernel), fits (by decide +kernel), u, v, [0x3F800000#64, 0x40000000#64,
    0x40400000#64, 0x40800000#64, 0x40A00000#64, 0x40C00000#64], hu, hv, by decide +kernel, ?_,
    ?_, ?_⟩
  · rw [hc]; rfl
  · exact fits (by show operandError par8 0 _ = none; decide +kernel)
  · rw [hc]; decide +kernel

theorem witness_AgcGainStaysBelowItsLimit :
    let s := { loaded [0x3F800000#64] with agc := { going.agc with k := fone } }
    fgt s.agc.k fzero = true ∧ fle s.agc.gain s.agc.gmax = true ∧
    ∃ t, exec (.agc 16#32 8#32 1#32 false 0#32) s = .next t ∧ t.seq.run = true :=
  ⟨by decide +kernel, by decide +kernel, nextHas_spec (by decide +kernel)⟩

theorem witness_SingleBitErrorsAreCorrected : defaultParams.legalHamming = true ∧ 6 < 7 := by
  decide +kernel

/-- A codeword of zeros with its last bit flipped. -/
theorem witness_FecLinkCorrectsOneErrorPerGroup :
    let bs := List.replicate 6 false ++ [true]
    let s := loaded (bs.map wordOfB)
    let data : Nat → Nat → Bool := fun _ _ => false
    let flip : Nat → Option Nat := fun _ => some 6
    s.par.legal = true ∧ BitVec.toNat 7#32 = 7 * 1 ∧
    OperandsFit s (hdecBlocks 32#32 8#32 7#32 true 48#32) ∧
    s.mem.readBits 8 7 = some bs ∧
    (∀ g, g < 1 → ∀ k, flip g = some k → k < 7) ∧
    (∀ g, g < 1 → ∀ k, k < 7 → bs.getD (7 * g + k) false =
      ((hammingEncode s.par (data g 0) (data g 1) (data g 2) (data g 3)).getD k false ^^
        decide (flip g = some k))) := by
  refine ⟨by decide +kernel, rfl, fits (by decide +kernel), by decide +kernel, ?_, ?_⟩
  · intro g _ k hk
    injection hk with hk
    omega
  · decide +kernel

/-- A full buffer's worth of samples. -/
theorem witness_FrameBuffersStayBounded :
    let s := fsState (List.replicate 8 0#64)
    s.fs.mag.length = s.fs.raw.length ∧ OperandsFit s (fsBlocks s.fs 16#32 8#32 8#32 false 0#32) ∧
    s.fs.raw.length + BitVec.toNat 8#32 ≤ s.par.fsyncCap ∧
    ∃ t, exec (.fsync 16#32 8#32 8#32 false 0#32) s = .next t ∧
      (t.fs.outcome == .search) = true :=
  ⟨rfl, fits (by decide +kernel), by decide +kernel, nextHas_spec (by decide +kernel)⟩

/-- Y1. -/
theorem witness_ExactFrameIsEmitted :
    let ws := [0x3F800000#64, 0xBF800000#64, 0x3F000000#64, 0x3F000000#64]
    let pre := [0x3F800000#64, 0xBF800000#64]
    let s := fsState ws
    OperandsFit s (fsBlocks s.fs 16#32 8#32 4#32 true 24#32) ∧
    (BitVec.toNat 4#32 ≤ s.par.fsyncCap ∧ s.mem.readBlock 8 4 = some ws ∧
    s.mem.readPre 0 s.fs.plen.toNat = some pre ∧
    s.fs.dl = List.replicate (s.par.maxPreLen - 1) czero ∧ s.fs.raw = [] ∧ s.fs.mag = [] ∧
    1 ≤ s.fs.plen.toNat ∧ s.fs.plen.toNat ≤ s.par.maxPreLen ∧
    s.fs.plen.toNat ≤ s.fs.fsize.toNat ∧ 4#32 = s.fs.fsize ∧
    (let corr := fun i => (List.range s.fs.plen.toNat).foldl (fun acc k =>
       cadd acc (cmul (cconj (complexOf (pre.getD (s.fs.plen.toNat - 1 - k) 0#64)))
         (if k ≤ i then complexOf (ws.getD (i - k) 0#64) else czero))) czero
     ∀ i, i < 4 → (fge (cabs (corr i)) s.fs.thresh = true ↔ i = s.fs.plen.toNat - 1))) := by
  refine ⟨fits (by decide +kernel), ?_⟩
  decide +kernel

/-- The hypotheses of the clauses about the transcendental functions. -/
theorem witness_TranscendentalLawsHoldOfEveryBuild :
    flt 0x80000001#32 fzero = true ∧ isfinite 0x7F800000#32 = false ∧ isnan 0x7F800001#32 = true ∧
    isfinite 0x7F7FFFFF#32 = true ∧ fgt 0x00000001#32 fzero = true := by decide +kernel

/-- A spectrum with an entry, of finite samples. -/
theorem witness_SpectrumLawsHoldOfEveryBuild :
    (fzero ∈ specmag .nearest 1 [czero]) ∧ isfinite czero.re = true ∧ isfinite czero.im = true := by
  decide +kernel

/-- A NaN operand, and two operands whose sum is NaN. -/
theorem witness_NanResultsAreTheQuietNan :
    isnan 0xFFC00001#32 = true ∧ isnan (fadd 0x7F800000#32 0xFF800000#32) = true ∧
    isnan (fdiv 0#32 0#32) = true ∧ isnan (fsqrt 0xBF800000#32) = true := by decide +kernel

/-- Values of either sign, and where overflow begins: the greatest value and `2^103` (or `-2^103`) reach
the bound, the `f32` next below `2^103` does not; a product past it and a quotient below it. -/
theorem witness_ArithmeticRoundsToNearestEven :
    (isfinite 0x7F7FFFFF#32 = true ∧ isfinite 0xFF7FFFFF#32 = true ∧ isfinite 0x73000000#32 = true ∧
      isfinite 0xF3000000#32 = true ∧ isfinite 0x72FFFFFF#32 = true) ∧
    (|(valueOf 0x7F7FFFFF#32 : ℝ) + (valueOf 0x72FFFFFF#32 : ℝ)| < 2 ^ 128 - 2 ^ 103 ∧
      2 ^ 128 - 2 ^ 103 ≤ (valueOf 0x7F7FFFFF#32 : ℝ) + (valueOf 0x73000000#32 : ℝ) ∧
      (valueOf 0xFF7FFFFF#32 : ℝ) - (valueOf 0x73000000#32 : ℝ) ≤ -(2 ^ 128 - 2 ^ 103)) ∧
    (|(valueOf 0x7F7FFFFF#32 : ℝ) * (valueOf 0x72FFFFFF#32 : ℝ)| ≥ 2 ^ 128 - 2 ^ 103 ∧
      |(valueOf 0x73000000#32 : ℝ) / (valueOf 0x7F7FFFFF#32 : ℝ)| < 2 ^ 128 - 2 ^ 103) ∧
    (valueOf 0x73000000#32 ≠ 0 ∧ valueOf 0x00000000#32 = 0 ∧ valueOf 0x80000000#32 = 0 ∧
      valueOf 0x73000000#32 + valueOf 0xF3000000#32 = 0 ∧
      valueOf 0x80000000#32 - valueOf 0x00000000#32 = 0 ∧
      0 ≤ valueOf 0x7F7FFFFF#32 ∧ valueOf 0xFF7FFFFF#32 < 0) := by
  have h1 : unpack 0x7F7FFFFF#32 = .fin false 0xFFFFFF 104 := by decide +kernel
  have h2 : unpack 0xFF7FFFFF#32 = .fin true 0xFFFFFF 104 := by decide +kernel
  have h3 : unpack 0x73000000#32 = .fin false 0x800000 80 := by decide +kernel
  have h4 : unpack 0xF3000000#32 = .fin true 0x800000 80 := by decide +kernel
  have h5 : unpack 0x72FFFFFF#32 = .fin false 0xFFFFFF 79 := by decide +kernel
  have h6 : unpack 0x00000000#32 = .fin false 0 (-149) := by decide +kernel
  have h7 : unpack 0x80000000#32 = .fin true 0 (-149) := by decide +kernel
  refine ⟨by decide +kernel, ?_, ?_, ?_⟩ <;>
    simp only [valueOf, h1, h2, h3, h4, h5, h6, h7] <;> norm_num [abs_lt]

/-- At the bound, and next below it, on either side: the greatest value plus or minus `2^103`. -/
theorem test_arithmetic_overflow :
    fadd 0x7F7FFFFF#32 0x73000000#32 = 0x7F800000#32 ∧ fadd 0x7F7FFFFF#32 0x72FFFFFF#32 = 0x7F7FFFFF#32 ∧
    fsub 0xFF7FFFFF#32 0x73000000#32 = 0xFF800000#32 ∧ fmul 0x7F7FFFFF#32 0x3F800001#32 = 0x7F800000#32 ∧
    fdiv 0x7F7FFFFF#32 0xBF7FFFFF#32 = 0xFF800000#32 := by decide +kernel

/-- The greatest phase and increment. -/
theorem witness_WrapKeepsThePhaseBounded :
    fle (fneg twoPi) twoPi = true ∧ fle twoPi twoPi = true ∧ fle (fneg twoPi) (fneg twoPi) = true := by
  decide +kernel

end Sys2Proof.Tests
end

section
/-! PROOFS. The binary32 words as numbers: their fields, their decoding, their values and their order. -/

namespace Sys2Proof.Machine

/-! ### The fields of an encoding -/

theorem toNat_fabs (x : F32) : (fabs x).toNat = x.toNat % 2 ^ 31 := by
  rw [fabs, BitVec.toNat_and]
  exact Nat.and_two_pow_sub_one_eq_mod _ 31

theorem toNat_fabs_lt (x : F32) : (fabs x).toNat < 2 ^ 31 := by
  rw [toNat_fabs]; exact Nat.mod_lt _ (by norm_num)

theorem expField_eq (x : F32) : expField x = (fabs x).toNat / 2 ^ 23 := by
  rw [toNat_fabs, expField, BitVec.extractLsb'_toNat, Nat.shiftRight_eq_div_pow]
  omega

theorem fracField_eq (x : F32) : fracField x = (fabs x).toNat % 2 ^ 23 := by
  rw [toNat_fabs, fracField, BitVec.extractLsb'_toNat, Nat.shiftRight_eq_div_pow]
  omega

theorem isfinite_iff (x : F32) : isfinite x = true ↔ (fabs x).toNat < 0x7F800000 := by
  have := toNat_fabs_lt x
  simp only [isfinite, expField_eq, bne_iff_ne, ne_eq]
  omega

theorem isnan_iff (x : F32) : isnan x = true ↔ 0x7F800000 < (fabs x).toNat := by
  have := toNat_fabs_lt x
  simp only [isnan, expField_eq, fracField_eq, Bool.and_eq_true, beq_iff_eq, bne_iff_ne, ne_eq]
  omega

theorem isnan_of_isfinite {x : F32} (h : isfinite x = true) : isnan x = false := by
  rw [Bool.eq_false_iff, ne_eq, isnan_iff]
  have := (isfinite_iff x).1 h
  omega

/-- A word is its sign bit and its magnitude. -/
theorem toNat_eq_fabs (x : F32) : x.toNat = (fabs x).toNat + if x.msb then 2 ^ 31 else 0 := by
  rw [toNat_fabs, BitVec.msb_eq_decide]
  have := x.isLt
  split <;> simp_all <;> omega

/-- Words with the same sign bit and the same magnitude are equal. -/
theorem eq_of_msb_of_fabs {x y : F32} (hs : x.msb = y.msb)
    (hm : (fabs x).toNat = (fabs y).toNat) : x = y :=
  BitVec.eq_of_toNat_eq (by rw [toNat_eq_fabs x, toNat_eq_fabs y, hs, hm])

/-! ### Words from a sign and a magnitude -/

theorem fabs_ofNat_sign {n : Nat} (h : n < 2 ^ 31) (neg : Bool) :
    (fabs (BitVec.ofNat 32 (n + if neg then 2 ^ 31 else 0))).toNat = n := by
  rw [toNat_fabs, BitVec.toNat_ofNat]
  cases neg <;> simp <;> omega

theorem msb_ofNat_sign {n : Nat} (h : n < 2 ^ 31) (neg : Bool) :
    (BitVec.ofNat 32 (n + if neg then 2 ^ 31 else 0)).msb = neg := by
  rw [BitVec.msb_eq_decide, BitVec.toNat_ofNat]
  cases neg <;> simp <;> omega

@[simp] theorem msb_fneg (x : F32) : (fneg x).msb = !x.msb := by
  have h : (0x80000000#32).msb = true := rfl
  simp [fneg, h]

@[simp] theorem fabs_fneg (x : F32) : fabs (fneg x) = fabs x := by
  apply BitVec.eq_of_getLsbD_eq
  intro i hi
  simp only [fabs, fneg, BitVec.getLsbD_and, BitVec.getLsbD_xor]
  interval_cases i <;> simp

@[simp] theorem msb_fabs (x : F32) : (fabs x).msb = false := by
  have h : (0x7FFFFFFF#32).msb = false := rfl
  simp [fabs, h]

@[simp] theorem fabs_fabs (x : F32) : fabs (fabs x) = fabs x := by
  simp [fabs, BitVec.and_assoc]

@[simp] theorem getLsbD_zero_fneg (x : F32) : (fneg x).getLsbD 0 = x.getLsbD 0 := by
  simp [fneg]

@[simp] theorem isfinite_fneg (x : F32) : isfinite (fneg x) = isfinite x := by
  rw [Bool.eq_iff_iff, isfinite_iff, isfinite_iff, fabs_fneg]

@[simp] theorem isnan_fneg (x : F32) : isnan (fneg x) = isnan x := by
  rw [Bool.eq_iff_iff, isnan_iff, isnan_iff, fabs_fneg]

theorem fneg_ofNat_sign {n : Nat} (h : n < 2 ^ 31) (neg : Bool) :
    fneg (BitVec.ofNat 32 (n + if neg then 2 ^ 31 else 0)) =
      BitVec.ofNat 32 (n + if !neg then 2 ^ 31 else 0) :=
  eq_of_msb_of_fabs (by simp only [msb_fneg, msb_ofNat_sign h])
    (by simp only [fabs_fneg, fabs_ofNat_sign h])

/-! ### Values of magnitudes -/

/-- The value of the encoding `n` with its sign bit clear. The exponent goes on past the finite ones: the
encoding of the infinity has the value `2^128`. -/
noncomputable def magValue (n : Nat) : ℝ :=
  if n / 2 ^ 23 = 0 then n * 2 ^ (-149 : Int)
  else ((n % 2 ^ 23 + 2 ^ 23 : Nat) : ℝ) * 2 ^ ((n / 2 ^ 23 : Nat) - 150 : Int)

/-- Counted in units of the last place, the encoding of `m` of them is `j * 2^23 + m`: the significand
`2^24` is the first of the next exponent. -/
theorem magValue_encode {j m : Nat} (hm : m ≤ 2 ^ 24) (hj : j = 0 ∨ 2 ^ 23 ≤ m) :
    magValue (j * 2 ^ 23 + m) = m * 2 ^ ((j : Int) - 149) := by
  rcases Nat.lt_or_ge m (2 ^ 23) with hlt | hge
  · have h0 : j = 0 := by omega
    subst h0
    rw [magValue, if_pos (by omega)]
    norm_num
  rcases Nat.lt_or_ge m (2 ^ 24) with h24 | h24
  · have hq : (j * 2 ^ 23 + m) / 2 ^ 23 = j + 1 := by omega
    have hr : (j * 2 ^ 23 + m) % 2 ^ 23 + 2 ^ 23 = m := by omega
    rw [magValue, if_neg (by omega), hq, hr]
    congr 2
    push_cast; ring
  · have hq : (j * 2 ^ 23 + m) / 2 ^ 23 = j + 2 := by omega
    have hr : (j * 2 ^ 23 + m) % 2 ^ 23 + 2 ^ 23 = 2 ^ 23 := by omega
    have hm2 : m = 2 ^ 24 := by omega
    have he : (((j + 2 : Nat) : Int) - 150) = (j - 149 : Int) + 1 := by push_cast; ring
    rw [magValue, if_neg (by omega), hq, hr, hm2, he, zpow_add_one₀ (by norm_num)]
    push_cast; ring

@[simp] theorem magValue_zero : magValue 0 = 0 := by simp [magValue]

/-- Every encoding counts less than `2^24` units of a last place, and normal ones at least `2^23`. -/
theorem exists_encode (n : Nat) :
    ∃ j m, m < 2 ^ 24 ∧ (j = 0 ∨ 2 ^ 23 ≤ m) ∧ n = j * 2 ^ 23 + m := by
  by_cases h : n < 2 ^ 23
  · exact ⟨0, n, by omega, .inl rfl, by omega⟩
  · exact ⟨n / 2 ^ 23 - 1, n % 2 ^ 23 + 2 ^ 23, by omega, .inr (by omega), by omega⟩

theorem magValue_lt_succ (n : Nat) : magValue n < magValue (n + 1) := by
  obtain ⟨j, m, hm, hj, rfl⟩ := exists_encode n
  rw [Nat.add_assoc, magValue_encode hm.le hj, magValue_encode hm (by omega)]
  push_cast
  gcongr
  linarith

theorem magValue_strictMono : StrictMono magValue := strictMono_nat_of_lt_succ magValue_lt_succ

theorem magValue_nonneg (n : Nat) : 0 ≤ magValue n := by
  simpa using magValue_strictMono.monotone (Nat.zero_le n)

@[simp] theorem magValue_eq_zero {n : Nat} : magValue n = 0 ↔ n = 0 := by
  rw [← magValue_zero, magValue_strictMono.injective.eq_iff]

theorem magValue_greatest : magValue 0x7F7FFFFF = 2 ^ 128 - 2 ^ 104 := by
  norm_num [magValue]

theorem magValue_infinite : magValue 0x7F800000 = 2 ^ 128 := by
  norm_num [magValue]

/-! ### Decoding -/

/-- A number with a sign bit. -/
def withSign (neg : Bool) (v : ℝ) : ℝ := if neg then -v else v

@[simp] theorem withSign_false (v : ℝ) : withSign false v = v := rfl
@[simp] theorem withSign_true (v : ℝ) : withSign true v = -v := rfl

theorem withSign_not (s : Bool) (v : ℝ) : withSign (!s) v = -withSign s v := by
  cases s <;> simp

theorem withSign_mul (s t : Bool) (u v : ℝ) :
    withSign s u * withSign t v = withSign (s != t) (u * v) := by
  cases s <;> cases t <;> simp

theorem withSign_div (s t : Bool) (u v : ℝ) :
    withSign s u / withSign t v = withSign (s != t) (u / v) := by
  cases s <;> cases t <;> simp [neg_div, div_neg]

theorem withSign_mul_right (neg : Bool) (v w : ℝ) : withSign neg v * w = withSign neg (v * w) := by
  cases neg <;> simp

@[simp] theorem withSign_eq_zero {s : Bool} {v : ℝ} : withSign s v = 0 ↔ v = 0 := by
  cases s <;> simp

theorem unpack_of_isnan {x : F32} (h : isnan x = true) : unpack x = .nan := by
  simp only [isnan, Bool.and_eq_true, beq_iff_eq, bne_iff_ne] at h
  rw [unpack, if_pos h.1, if_neg h.2]

theorem unpack_finf (neg : Bool) : unpack (finf neg) = .inf neg := by cases neg <;> rfl

theorem unpack_of_isfinite {x : F32} (h : isfinite x = true) :
    ∃ m e, unpack x = .fin x.msb m e ∧ m < 2 ^ 24 ∧ magValue (fabs x).toNat = m * 2 ^ e := by
  rw [unpack, if_neg (by simpa [isfinite] using h), expField_eq, fracField_eq]
  split
  · next h0 =>
    refine ⟨_, _, rfl, by omega, ?_⟩
    rw [magValue, if_pos h0, Nat.mod_eq_of_lt (by omega)]
  · next h0 =>
    exact ⟨_, _, rfl, by omega, by rw [magValue, if_neg h0]⟩

/-- What a word is, and what it decodes to: a NaN, an infinity, or a finite value. -/
theorem unpack_cases (x : F32) :
    (isnan x = true ∧ unpack x = .nan) ∨ (∃ s, x = finf s ∧ unpack x = .inf s) ∨
    (isfinite x = true ∧ ∃ m e, unpack x = .fin x.msb m e) := by
  rcases Nat.lt_trichotomy (fabs x).toNat 0x7F800000 with h | h | h
  · have hf := (isfinite_iff x).2 h
    obtain ⟨m, e, hu, _⟩ := unpack_of_isfinite hf
    exact .inr (.inr ⟨hf, m, e, hu⟩)
  · have hx : x = finf x.msb := eq_of_msb_of_fabs (by cases x.msb <;> rfl)
      (by rw [h]; cases x.msb <;> rfl)
    exact .inr (.inl ⟨x.msb, hx, (congrArg unpack hx).trans (unpack_finf _)⟩)
  · have hn := (isnan_iff x).2 h
    exact .inl ⟨hn, unpack_of_isnan hn⟩

/-- The value of a finite word is that of its magnitude, with its sign. -/
theorem valueOf_eq {x : F32} (h : isfinite x = true) :
    (valueOf x : ℝ) = withSign x.msb (magValue (fabs x).toNat) := by
  obtain ⟨m, e, hu, _, hm⟩ := unpack_of_isfinite h
  rw [hm, valueOf, hu]
  cases x.msb <;> simp

theorem valueOf_of_unpack {x : F32} {s : Bool} {m : Nat} {e : Int} (h : unpack x = .fin s m e) :
    (valueOf x : ℝ) = withSign s (m * 2 ^ e) := by
  rw [valueOf, h]
  cases s <;> simp

theorem valueOf_fneg {x : F32} (h : isfinite x = true) : valueOf (fneg x) = -valueOf x := by
  have hr : (valueOf (fneg x) : ℝ) = -valueOf x := by
    rw [valueOf_eq ((isfinite_fneg x).trans h), valueOf_eq h, msb_fneg, fabs_fneg, withSign_not]
  exact_mod_cast hr

/-- A finite value is 0 exactly when its significand is. -/
theorem valueOf_eq_zero {a : F32} {s : Bool} {m : Nat} {e : Int} (h : unpack a = .fin s m e) :
    valueOf a = 0 ↔ m = 0 := by
  have hv := valueOf_of_unpack h
  rw [← Rat.cast_eq_zero (α := ℝ), hv]
  simp [zpow_ne_zero]

theorem withSign_neg_iff {s : Bool} {v : ℝ} (hv : 0 < v) : withSign s v < 0 ↔ s = true := by
  cases s <;> simp [hv, hv.le]

theorem unpack_of_neg {a : F32} (ha : isfinite a = true) (h : valueOf a < 0) :
    ∃ m e, unpack a = .fin true m e ∧ m ≠ 0 := by
  obtain ⟨m, e, hu, _⟩ := unpack_of_isfinite ha
  have hm : m ≠ 0 := (valueOf_eq_zero hu).not.1 h.ne
  have hneg : (valueOf a : ℝ) < 0 := by exact_mod_cast h
  rw [valueOf_of_unpack hu, withSign_neg_iff (by positivity)] at hneg
  exact ⟨m, e, hneg ▸ hu, hm⟩

theorem unpack_of_pos {a : F32} (ha : isfinite a = true) (h : 0 < valueOf a) :
    ∃ m e, unpack a = .fin false m e ∧ m ≠ 0 := by
  obtain ⟨m, e, hu, _⟩ := unpack_of_isfinite ha
  have hm : m ≠ 0 := (valueOf_eq_zero hu).not.1 h.ne'
  have hpos : ¬ (valueOf a : ℝ) < 0 := by exact_mod_cast h.not_gt
  rw [valueOf_of_unpack hu, withSign_neg_iff (by positivity), Bool.not_eq_true] at hpos
  exact ⟨m, e, hpos ▸ hu, hm⟩

/-- The words whose value is 0 are the two zeros. -/
theorem eq_fzeroOf {a : F32} (ha : isfinite a = true) (h : valueOf a = 0) : a = fzeroOf a.msb := by
  have hr : (valueOf a : ℝ) = 0 := by exact_mod_cast h
  rw [valueOf_eq ha, withSign_eq_zero, magValue_eq_zero] at hr
  exact eq_of_msb_of_fabs (by cases a.msb <;> rfl) (by rw [hr]; cases a.msb <;> rfl)

theorem unpack_fzeroOf (neg : Bool) : unpack (fzeroOf neg) = .fin neg 0 (-149) := by
  cases neg <;> decide +kernel

/-! ### The order of the finite values -/

theorem orderKey_le_iff {a b : F32} (ha : isfinite a = true) (hb : isfinite b = true) :
    orderKey a ≤ orderKey b ↔ (valueOf a : ℝ) ≤ valueOf b := by
  rw [valueOf_eq ha, valueOf_eq hb, orderKey, orderKey]
  have ha0 := magValue_nonneg (fabs a).toNat
  have hb0 := magValue_nonneg (fabs b).toNat
  cases a.msb <;> cases b.msb <;>
    simp only [withSign_false, withSign_true, if_true, if_false, Bool.false_eq_true, Nat.cast_le,
      neg_le_neg_iff, magValue_strictMono.le_iff_le]
  case false.true =>
    have hz : (fabs a).toNat = 0 ∧ (fabs b).toNat = 0 ↔
        magValue (fabs a).toNat = 0 ∧ magValue (fabs b).toNat = 0 := by simp only [magValue_eq_zero]
    constructor
    · intro h
      obtain ⟨ha', hb'⟩ := hz.1 (by omega)
      rw [ha', hb', neg_zero]
    · intro h
      obtain ⟨ha', hb'⟩ := hz.2 ⟨by linarith, by linarith⟩
      omega
  case true.false =>
    exact iff_of_true (by omega) (by linarith)

theorem fle_iff {a b : F32} (ha : isfinite a = true) (hb : isfinite b = true) :
    fle a b = true ↔ (valueOf a : ℝ) ≤ valueOf b := by
  simp [fle, isnan_of_isfinite ha, isnan_of_isfinite hb, ← orderKey_le_iff ha hb]

theorem flt_iff {a b : F32} (ha : isfinite a = true) (hb : isfinite b = true) :
    flt a b = true ↔ (valueOf a : ℝ) < valueOf b := by
  rw [← not_le, ← orderKey_le_iff hb ha]
  simp [flt, isnan_of_isfinite ha, isnan_of_isfinite hb]

end Sys2Proof.Machine
end

section
/-! PROOFS. Rounding: `roundMag` and `fround` give the roundTiesToEven value of R12. An encoding is
rounded among all encodings, as if the exponents went on; overflow is where the result leaves them. -/

namespace Sys2Proof.Machine

/-! ### Rounding among all encodings -/

/-- `n` encodes the value nearest `x`, and of two equally near ones the even encoding, where the exponents
do not end at the infinity. -/
def NearestEncoding (x : ℝ) (n : Nat) : Prop :=
  ∀ d, |magValue n - x| ≤ |magValue d - x| ∧
    (|magValue d - x| = |magValue n - x| → d ≠ n → n % 2 = 0)

/-- Between two neighbours the lower one is nearest below their middle, and at it when it is even. -/
theorem nearestEncoding_lower {x : ℝ} {c : Nat} (hl : magValue c ≤ x)
    (hm : 2 * x ≤ magValue c + magValue (c + 1))
    (ht : 2 * x = magValue c + magValue (c + 1) → c % 2 = 0) : NearestEncoding x c := by
  intro d
  rw [abs_of_nonpos (by linarith)]
  rcases Nat.lt_trichotomy d c with h | h | h
  · have := magValue_strictMono h
    rw [abs_of_nonpos (by linarith)]
    exact ⟨by linarith, fun he => by linarith⟩
  · subst h
    exact ⟨(abs_of_nonpos (by linarith)).ge, fun _ hne => absurd rfl hne⟩
  · have := magValue_strictMono.monotone (Nat.succ_le_of_lt h)
    rw [abs_of_nonneg (by linarith [magValue_lt_succ c])]
    exact ⟨by linarith, fun he _ => ht (by linarith)⟩

/-- And the upper one above the middle, and at it when the lower one is odd. -/
theorem nearestEncoding_upper {x : ℝ} {c : Nat} (hl : x ≤ magValue (c + 1))
    (hm : magValue c + magValue (c + 1) ≤ 2 * x)
    (ht : 2 * x = magValue c + magValue (c + 1) → c % 2 = 1) : NearestEncoding x (c + 1) := by
  intro d
  rw [abs_of_nonneg (by linarith)]
  rcases Nat.lt_trichotomy d (c + 1) with h | h | h
  · have := magValue_strictMono.monotone (Nat.le_of_lt_succ h)
    rw [abs_of_nonpos (by linarith [magValue_lt_succ c])]
    exact ⟨by linarith, fun he _ => by have := ht (by linarith); omega⟩
  · subst h
    exact ⟨(abs_of_nonneg (by linarith)).ge, fun _ hne => absurd rfl hne⟩
  · have := magValue_strictMono h
    rw [abs_of_nonneg (by linarith)]
    exact ⟨by linarith, fun he => by linarith⟩

theorem nearestEncoding_self (n : Nat) : NearestEncoding (magValue n) n :=
  nearestEncoding_lower le_rfl (by linarith [magValue_lt_succ n])
    fun h => by linarith [magValue_lt_succ n]

/-- Below the overflow threshold the nearest value is finite. -/
theorem NearestEncoding.lt_infinite {x : ℝ} {n : Nat} (h : NearestEncoding x n)
    (hx : x < 2 ^ 128 - 2 ^ 103) : n < 0x7F800000 := by
  by_contra hn
  have hle := magValue_strictMono.monotone (Nat.le_of_not_lt hn)
  rw [magValue_infinite] at hle
  have hd := (h 0x7F7FFFFF).1
  rw [magValue_greatest, abs_of_nonneg (by linarith)] at hd
  have : |(2 : ℝ) ^ 128 - 2 ^ 104 - x| < 2 ^ 128 - x := by
    rw [abs_lt]; constructor <;> linarith
  linarith

/-- From the overflow threshold on it is not: the greatest finite encoding is odd. -/
theorem NearestEncoding.infinite_le {x : ℝ} {n : Nat} (h : NearestEncoding x n)
    (hx : 2 ^ 128 - 2 ^ 103 ≤ x) : 0x7F800000 ≤ n := by
  by_contra hn
  have hle := magValue_strictMono.monotone (show n ≤ 0x7F7FFFFF by omega)
  rw [magValue_greatest] at hle
  have hd := h 0x7F800000
  rw [magValue_infinite, abs_of_nonpos (by linarith)] at hd
  have hnear : |(2 : ℝ) ^ 128 - x| ≤ x - (2 ^ 128 - 2 ^ 104) := by
    rw [abs_le]; constructor <;> linarith
  have hv : magValue n = magValue 0x7F7FFFFF := by rw [magValue_greatest]; linarith [hd.1]
  have hn' := magValue_strictMono.injective hv
  have := hd.2 (by rw [hv, magValue_greatest] at hd ⊢; linarith [hd.1]) (by omega)
  omega

/-! ### Rounding to a word -/

/-- Of a value and its negation, the one that is not negative is no farther from `x`. -/
theorem abs_sub_le_abs_withSign_sub (s : Bool) {v x : ℝ} (hv : 0 ≤ v) (hx : 0 ≤ x) :
    |v - x| ≤ |withSign s v - x| := by
  cases s
  · rfl
  · rw [withSign_true, abs_of_nonpos (show -v - x ≤ 0 by linarith), abs_le]
    constructor <;> linarith

/-- And both are equally far only when they are the same, or from 0. -/
theorem withSign_eq_of_abs_sub_eq {s : Bool} {v x : ℝ} (hv : 0 ≤ v) (hx : 0 ≤ x)
    (h : |withSign s v - x| = |v - x|) : withSign s v = v ∨ x = 0 := by
  cases s
  · exact .inl rfl
  · rw [withSign_true, abs_of_nonpos (show -v - x ≤ 0 by linarith)] at h
    rw [withSign_true]
    rcases abs_cases (v - x) with ⟨ha, _⟩ | ⟨ha, _⟩
    · exact .inr (by linarith)
    · exact .inl (by linarith)

/-- The encoding nearest a value that is not negative is what R12 rounds it to. -/
theorem NearestEncoding.roundsTo {x : ℝ} {n : Nat} (h : NearestEncoding x n) (h0 : 0 ≤ x)
    (hn : n < 0x7F800000) : RoundsTo x (BitVec.ofNat 32 n) := by
  have hf : (fabs (BitVec.ofNat 32 n)).toNat = n := by
    simpa using fabs_ofNat_sign (show n < 2 ^ 31 by omega) false
  have hs : (BitVec.ofNat 32 n).msb = false := by
    simpa using msb_ofNat_sign (show n < 2 ^ 31 by omega) false
  have hfin : isfinite (BitVec.ofNat 32 n) = true := (isfinite_iff _).2 (by omega)
  refine ⟨hfin, fun w hw => ?_⟩
  rw [valueOf_eq hfin, valueOf_eq hw, hs, hf, withSign_false]
  obtain ⟨hd, ht⟩ := h (fabs w).toNat
  have hmag := abs_sub_le_abs_withSign_sub w.msb (magValue_nonneg (fabs w).toNat) h0
  refine ⟨hd.trans hmag, fun he hne => ?_⟩
  have heven : n % 2 = 0 := by
    by_cases hwn : (fabs w).toNat = n
    · rw [hwn] at he
      rcases withSign_eq_of_abs_sub_eq (magValue_nonneg n) h0 he with hv | rfl
      · refine absurd ?_ hne
        rw [← Rat.cast_inj (α := ℝ), valueOf_eq hfin, valueOf_eq hw, hs, hf, hwn, hv, withSign_false]
      · have hz : n = 0 := by simpa using (h 0).1
        rw [hz]
    · exact ht (le_antisymm (he ▸ hmag) hd) hwn
  rw [BitVec.getLsbD_ofNat]
  simp [Nat.testBit_zero, heven]

theorem RoundsTo.neg {x : ℝ} {r : F32} (h : RoundsTo x r) : RoundsTo (-x) (fneg r) := by
  refine ⟨(isfinite_fneg r).trans h.1, fun w hw => ?_⟩
  obtain ⟨hd, ht⟩ := h.2 (fneg w) ((isfinite_fneg w).trans hw)
  rw [valueOf_fneg hw] at hd ht
  rw [valueOf_fneg h.1, getLsbD_zero_fneg]
  push_cast at hd ht ⊢
  have e1 : |-(valueOf r : ℝ) - -x| = |(valueOf r : ℝ) - x| := by rw [← abs_neg]; ring_nf
  have e2 : |(valueOf w : ℝ) - -x| = |-(valueOf w : ℝ) - x| := by rw [← abs_neg]; ring_nf
  rw [e1, e2]
  exact ⟨hd, fun he hne => ht he fun hw' => hne (by linarith)⟩

theorem RoundsWithOverflow.neg {x : ℝ} {r : F32} (h : RoundsWithOverflow x r) :
    RoundsWithOverflow (-x) (fneg r) := by
  obtain ⟨hfin, hpos, hneg⟩ := h
  refine ⟨fun hx => (hfin (by rwa [abs_neg] at hx)).neg, fun hx => ?_, fun hx => ?_⟩
  · rw [hneg (by linarith)]; rfl
  · rw [hpos (by linarith)]; rfl

/-- The encoding nearest a value that is not negative, cut at the infinity, is what R12 rounds it to. -/
theorem NearestEncoding.roundsWithOverflow {x : ℝ} {n : Nat} (h : NearestEncoding x n)
    (h0 : 0 ≤ x) : RoundsWithOverflow x (BitVec.ofNat 32 (min n 0x7F800000)) := by
  refine ⟨fun hx => ?_, fun hx => ?_, fun hx => by linarith⟩
  · have hn := h.lt_infinite (abs_lt.1 hx).2
    rw [Nat.min_eq_left hn.le]
    exact h.roundsTo h0 hn
  · rw [Nat.min_eq_right (h.infinite_le hx)]

/-! ### What `roundMag` computes -/

/-- `m` and `sticky` are what is left of an exact value: `sticky` says that it is a little above `m`. -/
def TruncatesTo (y : ℝ) (m : Nat) (sticky : Bool) : Prop :=
  if sticky then (m : ℝ) < y ∧ y < m + 1 else y = m

/-- The rounding to a multiple of `2^k` chooses between the two around the value. -/
theorem shiftRightRound_cases {y : ℝ} {m k : Nat} {sticky : Bool} (h : TruncatesTo y m sticky)
    (hk : 0 < k) :
    (shiftRightRound m k sticky = m / 2 ^ k ∧ (m / 2 ^ k : Nat) * 2 ^ k ≤ y ∧
      2 * y ≤ (2 * (m / 2 ^ k : Nat) + 1) * 2 ^ k ∧
      (2 * y = (2 * (m / 2 ^ k : Nat) + 1) * 2 ^ k → m / 2 ^ k % 2 = 0)) ∨
    (shiftRightRound m k sticky = m / 2 ^ k + 1 ∧ y ≤ ((m / 2 ^ k : Nat) + 1) * 2 ^ k ∧
      (2 * (m / 2 ^ k : Nat) + 1) * 2 ^ k ≤ 2 * y ∧
      (2 * y = (2 * (m / 2 ^ k : Nat) + 1) * 2 ^ k → m / 2 ^ k % 2 = 1)) := by
  obtain ⟨p, hp⟩ : ∃ p, 2 ^ k = 2 * p :=
    ⟨2 ^ (k - 1), by rw [← pow_succ', Nat.sub_add_cancel hk]⟩
  have hpR : (2 : ℝ) ^ k = 2 * p := by exact_mod_cast hp
  have hdiv := Nat.div_add_mod' m (2 ^ k)
  have hlt := Nat.mod_lt m (Nat.two_pow_pos k)
  unfold shiftRightRound
  rw [hp] at *
  rw [hpR]
  generalize m / (2 * p) = f at *
  generalize m % (2 * p) = r at *
  have hdivR : (f : ℝ) * (2 * p) + r = m := by exact_mod_cast hdiv
  have hle : (r : ℝ) + 1 ≤ 2 * p := by exact_mod_cast hlt
  cases sticky
  · have hy : y = m := h
    subst hy
    split
    · next hup =>
      have hr : (p : ℝ) ≤ r := by exact_mod_cast (show p ≤ r by omega)
      refine .inr ⟨rfl, by linarith, by linarith, fun he => ?_⟩
      have : r = p := by exact_mod_cast (show (r : ℝ) = p by linarith)
      simp only [Bool.false_eq_true, false_or] at hup
      omega
    · next hdown =>
      have hr : (r : ℝ) ≤ p := by exact_mod_cast (show r ≤ p by omega)
      have hr0 : (0 : ℝ) ≤ r := r.cast_nonneg
      refine .inl ⟨rfl, by linarith, by linarith, fun he => ?_⟩
      have : r = p := by exact_mod_cast (show (r : ℝ) = p by linarith)
      simp only [Bool.false_eq_true, false_or] at hdown
      omega
  · obtain ⟨h1, h2⟩ : (m : ℝ) < y ∧ y < m + 1 := h
    split
    · next hup =>
      have hr : (p : ℝ) ≤ r := by exact_mod_cast (show p ≤ r by omega)
      exact .inr ⟨rfl, by linarith, by linarith, fun he => by linarith⟩
    · next hdown =>
      have hr : (r : ℝ) + 1 ≤ p := by
        simp only [true_or, and_true] at hdown
        exact_mod_cast (show r + 1 ≤ p by omega)
      have hr0 : (0 : ℝ) ≤ r := r.cast_nonneg
      exact .inl ⟨rfl, by linarith, by linarith, fun he => by linarith⟩

/-- The last place is the least multiple of which a value below `2^24` of it, or the least of all; a value
with fewer bits is not rounded. -/
theorem quantum_range {m : Nat} (e : Int) (hm : m ≠ 0) :
    (e < quantum m e ∧ m / 2 ^ (quantum m e - e).toNat < 2 ^ 24 ∧
      (quantum m e = -149 ∨ 2 ^ 23 ≤ m / 2 ^ (quantum m e - e).toNat)) ∨
    (quantum m e ≤ e ∧ m < 2 ^ 24 ∧ m * 2 ^ (e - quantum m e).toNat < 2 ^ 24 ∧
      (quantum m e = -149 ∨ 2 ^ 23 ≤ m * 2 ^ (e - quantum m e).toNat)) := by
  have hlo := Nat.log2_self_le hm
  have hhi := Nat.lt_log2_self (n := m)
  unfold quantum
  generalize Nat.log2 m = l at *
  rcases lt_or_ge e (max (e + l - 23) (-149)) with h | h
  · left
    refine ⟨h, ?_, ?_⟩
    · rw [Nat.div_lt_iff_lt_mul (Nat.two_pow_pos _), ← pow_add]
      exact hhi.trans_le (Nat.pow_le_pow_right (by omega) (by omega))
    · refine (Int.lt_or_le (e + l - 23) (-149)).imp (fun h => by omega) fun h => ?_
      rw [Nat.le_div_iff_mul_le (Nat.two_pow_pos _), ← pow_add]
      exact (Nat.pow_le_pow_right (by omega) (by omega)).trans hlo
  · right
    refine ⟨h, ?_, ?_, ?_⟩
    · exact hhi.trans_le (Nat.pow_le_pow_right (by omega) (by omega))
    · calc m * 2 ^ (e - max (e + l - 23) (-149)).toNat
          < 2 ^ (l + 1) * 2 ^ (e - max (e + l - 23) (-149)).toNat := by gcongr
        _ ≤ 2 ^ 24 := by rw [← pow_add]; exact Nat.pow_le_pow_right (by omega) (by omega)
    · refine (Int.lt_or_le (e + l - 23) (-149)).imp (fun h => by omega) fun h => ?_
      calc 2 ^ 23 ≤ 2 ^ l * 2 ^ (e - max (e + l - 23) (-149)).toNat := by
            rw [← pow_add]; exact Nat.pow_le_pow_right (by omega) (by omega)
        _ ≤ m * 2 ^ (e - max (e + l - 23) (-149)).toNat := by gcongr

/-- A value whose last place is below `2^e` is encoded as it is. -/
theorem nearestEncoding_exact {m j k : Nat} {e : Int} (hq : (j : Int) - 149 = e - k)
    (hhi : m * 2 ^ k < 2 ^ 24) (hlo : j = 0 ∨ 2 ^ 23 ≤ m * 2 ^ k) :
    NearestEncoding (m * 2 ^ e) (j * 2 ^ 23 + m * 2 ^ k) := by
  have hv : (m : ℝ) * 2 ^ e = magValue (j * 2 ^ 23 + m * 2 ^ k) := by
    rw [magValue_encode hhi.le hlo, Nat.cast_mul, Nat.cast_pow, Nat.cast_ofNat, mul_assoc,
      ← zpow_natCast, ← zpow_add₀ (by norm_num)]
    congr 2
    omega
  rw [hv]
  exact nearestEncoding_self _

/-- A value whose last place is `2^(e+k)` is encoded as its rounding to a multiple of that. -/
theorem nearestEncoding_rounded {y : ℝ} {m j k : Nat} {e : Int} {sticky : Bool}
    (h : TruncatesTo y m sticky) (hk : 0 < k) (hq : (j : Int) - 149 = e + k)
    (hhi : m / 2 ^ k < 2 ^ 24) (hlo : j = 0 ∨ 2 ^ 23 ≤ m / 2 ^ k) :
    NearestEncoding (y * 2 ^ e) (j * 2 ^ 23 + shiftRightRound m k sticky) := by
  have hP : (0 : ℝ) < 2 ^ e := by positivity
  have hpow : (2 : ℝ) ^ ((j : Int) - 149) = 2 ^ k * 2 ^ e := by
    rw [hq, zpow_add₀ (by norm_num), zpow_natCast, mul_comm]
  have hlow := magValue_encode hhi.le hlo
  have hup := magValue_encode (j := j) (m := m / 2 ^ k + 1) (by omega) (by omega)
  rw [hpow, ← mul_assoc] at hlow hup
  rw [← Nat.add_assoc, Nat.cast_add_one] at hup
  have hmid : 2 * (y * 2 ^ e) = magValue (j * 2 ^ 23 + m / 2 ^ k) +
        magValue (j * 2 ^ 23 + m / 2 ^ k + 1) →
      2 * y = (2 * (m / 2 ^ k : Nat) + 1) * 2 ^ k := by
    intro he
    rw [hlow, hup] at he
    exact mul_right_cancel₀ hP.ne' (by linarith)
  rcases shiftRightRound_cases h hk with ⟨hr, h1, h2, h3⟩ | ⟨hr, h1, h2, h3⟩
  all_goals
    rw [hr]
    have h1' := mul_le_mul_of_nonneg_right h1 hP.le
    have h2' := mul_le_mul_of_nonneg_right h2 hP.le
  · refine nearestEncoding_lower ?_ ?_ fun he => ?_
    · rw [hlow]; exact h1'
    · rw [hlow, hup]; linarith
    · have := h3 (hmid he); omega
  · rw [← Nat.add_assoc]
    refine nearestEncoding_upper ?_ ?_ fun he => ?_
    · rw [hup]; exact h1'
    · rw [hlow, hup]; linarith
    · have := h3 (hmid he); omega

/-- `roundMag` gives the nearest encoding, cut at the infinity. -/
theorem roundMag_nearest {y : ℝ} {m : Nat} {e : Int} {sticky : Bool}
    (h : TruncatesTo y m sticky) (hm : sticky = true → 2 ^ 25 ≤ m) :
    ∃ n, NearestEncoding (y * 2 ^ e) n ∧ roundMag m e sticky = min n 0x7F800000 := by
  by_cases h0 : m = 0
  · have hs : sticky = false := Bool.eq_false_iff.2 fun hs => by have := hm hs; omega
    subst h0 hs
    refine ⟨0, ?_, by simp [roundMag]⟩
    have hy : y = (0 : Nat) := h
    simpa [hy] using nearestEncoding_self 0
  obtain ⟨j, hj⟩ : ∃ j : Nat, quantum m e = j - 149 :=
    ⟨(quantum m e + 149).toNat, by have : -149 ≤ quantum m e := le_max_right _ _; omega⟩
  have hj' : (quantum m e + 149).toNat = j := by omega
  rw [roundMag, if_neg h0]
  refine ⟨_, ?_, rfl⟩
  simp only [hj']
  rcases quantum_range e h0 with ⟨hlt, hhi, hlo⟩ | ⟨hle, hm24, hhi, hlo⟩
  · rw [if_neg (by omega)]
    exact nearestEncoding_rounded h (by omega) (by omega) hhi (by omega)
  · have hs : sticky = false := Bool.eq_false_iff.2 fun hs => by have := hm hs; omega
    subst hs
    have hy : y = m := h
    rw [if_pos hle, hy]
    exact nearestEncoding_exact (by omega) hhi (by omega)

/-! ### What `fround` computes -/

theorem roundMag_le (m : Nat) (e : Int) (sticky : Bool) : roundMag m e sticky ≤ 0x7F800000 := by
  unfold roundMag
  split
  · exact Nat.zero_le _
  · exact Nat.min_le_right _ _

theorem ofNat_roundMag (m : Nat) (e : Int) (sticky : Bool) :
    BitVec.ofNat 32 (roundMag m e sticky) = fround false m e sticky := by simp [fround]

theorem isnan_fround (neg : Bool) (m : Nat) (e : Int) (sticky : Bool) :
    isnan (fround neg m e sticky) = false := by
  have h := roundMag_le m e sticky
  rw [Bool.eq_false_iff, ne_eq, isnan_iff, fround, fabs_ofNat_sign (by omega)]
  omega

@[simp] theorem msb_fround (neg : Bool) (m : Nat) (e : Int) (sticky : Bool) :
    (fround neg m e sticky).msb = neg := by
  have h := roundMag_le m e sticky
  exact msb_ofNat_sign (by omega) neg

theorem fround_not (neg : Bool) (m : Nat) (e : Int) (sticky : Bool) :
    fround (!neg) m e sticky = fneg (fround neg m e sticky) := by
  have h := roundMag_le m e sticky
  exact (fneg_ofNat_sign (by omega) neg).symm

/-- Encoding a rounded magnitude with its sign is the roundTiesToEven of R12. -/
theorem fround_rounds {y : ℝ} {m : Nat} {e : Int} {sticky : Bool} (neg : Bool)
    (h : TruncatesTo y m sticky) (hm : sticky = true → 2 ^ 25 ≤ m) :
    RoundsWithOverflow (withSign neg (y * 2 ^ e)) (fround neg m e sticky) := by
  have hy : 0 ≤ y := by
    have := m.cast_nonneg (α := ℝ)
    unfold TruncatesTo at h
    split at h <;> linarith
  have hpos : RoundsWithOverflow (y * 2 ^ e) (fround false m e sticky) := by
    obtain ⟨n, hn, hr⟩ := roundMag_nearest h hm (e := e)
    have := hn.roundsWithOverflow (by positivity)
    rwa [← hr] at this
  cases neg
  · exact hpos
  · exact (fround_not false m e sticky) ▸ hpos.neg

end Sys2Proof.Machine
end

section
/-! PROOFS. The NaN results of the five arithmetic primitives. -/

namespace Sys2Proof.Machine

theorem isnan_qNaN : isnan qNaN = true := by decide +kernel

theorem isnan_finf (neg : Bool) : isnan (finf neg) = false := by cases neg <;> decide +kernel

theorem isnan_fzeroOf (neg : Bool) : isnan (fzeroOf neg) = false := by cases neg <;> decide +kernel

/-- Of all NaNs, only the quiet one of R12 comes out. -/
def OnlyQuietNan (r : F32) : Prop := isnan r = true → r = qNaN

theorem onlyQuietNan_qNaN : OnlyQuietNan qNaN := fun _ => rfl

theorem onlyQuietNan_of_not_nan {r : F32} (h : isnan r = false) : OnlyQuietNan r :=
  fun h' => by simp [h] at h'

theorem onlyQuietNan_fadd (a b : F32) : OnlyQuietNan (fadd a b) := by
  unfold fadd
  split
  case h_1 | h_2 => exact onlyQuietNan_qNaN
  case h_3 =>
    split
    · exact onlyQuietNan_of_not_nan (isnan_finf _)
    · exact onlyQuietNan_qNaN
  case h_4 | h_5 => exact onlyQuietNan_of_not_nan (isnan_finf _)
  case h_6 =>
    dsimp only
    split
    · exact onlyQuietNan_of_not_nan (isnan_fzeroOf _)
    · exact onlyQuietNan_of_not_nan (isnan_fround ..)

theorem onlyQuietNan_fmul (a b : F32) : OnlyQuietNan (fmul a b) := by
  unfold fmul
  split
  case h_1 | h_2 => exact onlyQuietNan_qNaN
  case h_3 => exact onlyQuietNan_of_not_nan (isnan_finf _)
  case h_4 | h_5 =>
    split
    · exact onlyQuietNan_qNaN
    · exact onlyQuietNan_of_not_nan (isnan_finf _)
  case h_6 => exact onlyQuietNan_of_not_nan (isnan_fround ..)

theorem onlyQuietNan_fdiv (a b : F32) : OnlyQuietNan (fdiv a b) := by
  unfold fdiv
  split
  case h_1 | h_2 | h_3 => exact onlyQuietNan_qNaN
  case h_4 => exact onlyQuietNan_of_not_nan (isnan_finf _)
  case h_5 => exact onlyQuietNan_of_not_nan (isnan_fzeroOf _)
  case h_6 =>
    split
    · split
      · exact onlyQuietNan_qNaN
      · exact onlyQuietNan_of_not_nan (isnan_finf _)
    · exact onlyQuietNan_of_not_nan (isnan_fround ..)

theorem ofNat_sqrtMag (n : Nat) (h : Int) :
    ∃ m e sticky, BitVec.ofNat 32 (sqrtMag n h) = fround false m e sticky :=
  ⟨_, _, _, ofNat_roundMag ..⟩

theorem onlyQuietNan_fsqrt (a : F32) : OnlyQuietNan (fsqrt a) := by
  have hroot : ∀ n h, OnlyQuietNan (BitVec.ofNat 32 (sqrtMag n h)) := fun n h => by
    obtain ⟨m, e, sticky, hr⟩ := ofNat_sqrtMag n h
    exact hr ▸ onlyQuietNan_of_not_nan (isnan_fround ..)
  unfold fsqrt
  split
  case h_1 => exact onlyQuietNan_qNaN
  case h_2 =>
    split
    · exact onlyQuietNan_qNaN
    · exact onlyQuietNan_of_not_nan (isnan_finf _)
  case h_3 =>
    split
    · exact onlyQuietNan_of_not_nan (isnan_fzeroOf _)
    split
    · exact onlyQuietNan_qNaN
    split
    · exact hroot _ _
    · exact hroot _ _

theorem fadd_of_isnan {a b : F32} (h : isnan a = true ∨ isnan b = true) : fadd a b = qNaN := by
  unfold fadd
  rcases h with h | h
  · simp only [unpack_of_isnan h]
  · cases unpack a <;> simp only [unpack_of_isnan h]

theorem fsub_of_isnan {a b : F32} (h : isnan a = true ∨ isnan b = true) : fsub a b = qNaN :=
  fadd_of_isnan (by rwa [isnan_fneg])

theorem fmul_of_isnan {a b : F32} (h : isnan a = true ∨ isnan b = true) : fmul a b = qNaN := by
  unfold fmul
  rcases h with h | h
  · simp only [unpack_of_isnan h]
  · cases unpack a <;> simp only [unpack_of_isnan h]

theorem fdiv_of_isnan {a b : F32} (h : isnan a = true ∨ isnan b = true) : fdiv a b = qNaN := by
  unfold fdiv
  rcases h with h | h
  · simp only [unpack_of_isnan h]
  · cases unpack a <;> simp only [unpack_of_isnan h]

theorem fsqrt_of_isnan {a : F32} (h : isnan a = true) : fsqrt a = qNaN := by
  simp only [fsqrt, unpack_of_isnan h]

/-- Settles O58: no branch of a primitive but its `qNaN` ones gives a NaN. -/
theorem nanResultsAreTheQuietNan : Obligations.NanResultsAreTheQuietNan := by
  intro a b
  refine ⟨onlyQuietNan_fadd a b, onlyQuietNan_fadd a (fneg b), onlyQuietNan_fmul a b,
    onlyQuietNan_fdiv a b, onlyQuietNan_fsqrt a, fun h => ?_, fun h => ?_⟩
  · rw [fadd_of_isnan h, fsub_of_isnan h, fmul_of_isnan h, fdiv_of_isnan h]
    exact ⟨isnan_qNaN, isnan_qNaN, isnan_qNaN, isnan_qNaN⟩
  · rw [fsqrt_of_isnan h]
    exact isnan_qNaN

end Sys2Proof.Machine
end

section
/-! PROOFS. The five arithmetic primitives on finite operands: the exact result, rounded once. -/

namespace Sys2Proof.Machine

/-! ### Sums -/

theorem fzeroOf_rounds (neg : Bool) : RoundsWithOverflow 0 (fzeroOf neg) := by
  have h : TruncatesTo 0 0 false := Nat.cast_zero.symm
  have hz := fround_rounds (e := 0) neg h (by simp)
  have hr : fround neg 0 0 false = fzeroOf neg := by cases neg <;> rfl
  rw [hr] at hz
  cases neg <;> simpa using hz

theorem cast_signedShift (neg : Bool) (m k : Nat) :
    (signedShift neg m k : ℝ) = withSign neg (m * 2 ^ k) := by
  cases neg <;> simp [signedShift]

theorem two_pow_toNat_mul {e g : Int} (h : g ≤ e) :
    (2 : ℝ) ^ (e - g).toNat * 2 ^ g = 2 ^ e := by
  rw [← zpow_natCast, ← zpow_add₀ (by norm_num)]
  congr 1
  omega

/-- An integer is its magnitude with its sign. -/
theorem withSign_natAbs (x : Int) : withSign (decide (x < 0)) (x.natAbs : ℝ) = x := by
  rw [Nat.cast_natAbs, Int.cast_abs]
  by_cases h : x < 0
  · have : (x : ℝ) < 0 := by exact_mod_cast h
    simp [h, abs_of_neg this]
  · have : (0 : ℝ) ≤ x := by exact_mod_cast not_lt.1 h
    simp [h, abs_of_nonneg this]

theorem fadd_of_unpack {a b : F32} {s t : Bool} {m n : Nat} {e f : Int}
    (ha : unpack a = .fin s m e) (hb : unpack b = .fin t n f) :
    ∃ (x g : Int), (x : ℝ) * 2 ^ g = valueOf a + valueOf b ∧
      fadd a b = if x = 0 then fzeroOf (s && t) else fround (decide (x < 0)) x.natAbs g false := by
  refine ⟨signedShift s m (e - min e f).toNat + signedShift t n (f - min e f).toNat, min e f, ?_,
    by simp only [fadd, ha, hb]⟩
  rw [valueOf_of_unpack ha, valueOf_of_unpack hb, Int.cast_add, cast_signedShift, cast_signedShift,
    add_mul, withSign_mul_right, withSign_mul_right, mul_assoc, mul_assoc,
    two_pow_toNat_mul (min_le_left _ _), two_pow_toNat_mul (min_le_right _ _)]

/-- The sum of finite operands. -/
theorem fadd_rounds {a b : F32} (ha : isfinite a = true) (hb : isfinite b = true) :
    RoundsWithOverflow ((valueOf a : ℝ) + valueOf b) (fadd a b) := by
  obtain ⟨m, e, hua, _⟩ := unpack_of_isfinite ha
  obtain ⟨n, f, hub, _⟩ := unpack_of_isfinite hb
  obtain ⟨x, g, hx, hr⟩ := fadd_of_unpack hua hub
  rw [hr, ← hx]
  split
  · next h0 => simpa [h0] using fzeroOf_rounds _
  · have h : TruncatesTo (x.natAbs : ℝ) x.natAbs false := rfl
    have := fround_rounds (e := g) (decide (x < 0)) h (by simp)
    rwa [← withSign_mul_right, withSign_natAbs] at this

theorem fadd_of_sum_zero {a b : F32} (ha : isfinite a = true) (hb : isfinite b = true)
    (h : valueOf a + valueOf b = 0) : fadd a b = fzeroOf (a.msb && b.msb) := by
  obtain ⟨m, e, hua, _⟩ := unpack_of_isfinite ha
  obtain ⟨n, f, hub, _⟩ := unpack_of_isfinite hb
  obtain ⟨x, g, hx, hr⟩ := fadd_of_unpack hua hub
  have h0 : (x : ℝ) * 2 ^ g = 0 := by rw [hx]; exact_mod_cast h
  have hx0 : x = 0 := by
    simpa [zpow_ne_zero] using h0
  rw [hr, if_pos hx0]

/-! ### Differences -/

theorem fsub_rounds {a b : F32} (ha : isfinite a = true) (hb : isfinite b = true) :
    RoundsWithOverflow ((valueOf a : ℝ) - valueOf b) (fsub a b) := by
  have h := fadd_rounds ha ((isfinite_fneg b).trans hb)
  rwa [valueOf_fneg hb, Rat.cast_neg, ← sub_eq_add_neg] at h

theorem fsub_of_difference_zero {a b : F32} (ha : isfinite a = true) (hb : isfinite b = true)
    (h : valueOf a - valueOf b = 0) : fsub a b = fzeroOf (a.msb && !b.msb) := by
  rw [← msb_fneg]
  exact fadd_of_sum_zero ha ((isfinite_fneg b).trans hb)
    (by rwa [valueOf_fneg hb, ← sub_eq_add_neg])

/-! ### Products -/

theorem fmul_of_unpack {a b : F32} {s t : Bool} {m n : Nat} {e f : Int}
    (ha : unpack a = .fin s m e) (hb : unpack b = .fin t n f) :
    fmul a b = fround (s != t) (m * n) (e + f) false := by
  simp only [fmul, ha, hb]

theorem fmul_rounds {a b : F32} (ha : isfinite a = true) (hb : isfinite b = true) :
    RoundsWithOverflow ((valueOf a : ℝ) * valueOf b) (fmul a b) := by
  obtain ⟨m, e, hua, _⟩ := unpack_of_isfinite ha
  obtain ⟨n, f, hub, _⟩ := unpack_of_isfinite hb
  have hv : (valueOf a : ℝ) * valueOf b =
      withSign (a.msb != b.msb) (((m * n : Nat) : ℝ) * 2 ^ (e + f)) := by
    rw [valueOf_of_unpack hua, valueOf_of_unpack hub, withSign_mul, zpow_add₀ (by norm_num)]
    push_cast
    congr 1
    ring
  rw [hv, fmul_of_unpack hua hub]
  exact fround_rounds _ rfl (by simp)

theorem msb_fmul {a b : F32} (ha : isfinite a = true) (hb : isfinite b = true) :
    (fmul a b).msb = (a.msb != b.msb) := by
  obtain ⟨m, e, hua, _⟩ := unpack_of_isfinite ha
  obtain ⟨n, f, hub, _⟩ := unpack_of_isfinite hb
  rw [fmul_of_unpack hua hub, msb_fround]

/-! ### Quotients -/

theorem truncatesTo_div (m : Nat) {n : Nat} (hn : n ≠ 0) :
    TruncatesTo ((m : ℝ) / n) (m / n) (decide (m % n ≠ 0)) := by
  have hpos : (0 : ℝ) < n := by positivity
  have hdiv : ((m / n : Nat) : ℝ) * n + (m % n : Nat) = m := by exact_mod_cast Nat.div_add_mod' m n
  have hlt : ((m % n : Nat) : ℝ) < n := by exact_mod_cast Nat.mod_lt m (Nat.pos_of_ne_zero hn)
  by_cases h : m % n = 0
  · simp only [TruncatesTo, h, ne_eq, not_true, decide_false]
    rw [h, Nat.cast_zero, add_zero] at hdiv
    rw [if_neg (by simp), ← hdiv, mul_div_cancel_right₀ _ hpos.ne']
  · have hr : (0 : ℝ) < (m % n : Nat) := by exact_mod_cast Nat.pos_of_ne_zero h
    simp only [TruncatesTo, h, ne_eq, not_false_eq_true, decide_true, if_true]
    rw [lt_div_iff₀ hpos, div_lt_iff₀ hpos]
    constructor <;> linarith

theorem fdiv_of_unpack {a b : F32} {s t : Bool} {m n : Nat} {e f : Int}
    (ha : unpack a = .fin s m e) (hb : unpack b = .fin t n f) (hn : n ≠ 0) :
    fdiv a b = fround (s != t) (m * 2 ^ 50 / n) (e - f - 50) (decide (m * 2 ^ 50 % n ≠ 0)) := by
  simp only [fdiv, ha, hb, if_neg hn]

theorem fdiv_rounds {a b : F32} (ha : isfinite a = true) (hb : isfinite b = true)
    (h : valueOf b ≠ 0) : RoundsWithOverflow ((valueOf a : ℝ) / valueOf b) (fdiv a b) := by
  obtain ⟨m, e, hua, _⟩ := unpack_of_isfinite ha
  obtain ⟨n, f, hub, hn24, _⟩ := unpack_of_isfinite hb
  have hn : n ≠ 0 := (valueOf_eq_zero hub).not.1 h
  have hv : (valueOf a : ℝ) / valueOf b =
      withSign (a.msb != b.msb) (((m * 2 ^ 50 : Nat) : ℝ) / n * 2 ^ (e - f - 50)) := by
    rw [valueOf_of_unpack hua, valueOf_of_unpack hub, withSign_div, zpow_sub₀ (by norm_num),
      zpow_sub₀ (by norm_num)]
    push_cast
    congr 1
    field_simp
    norm_num
  rw [hv, fdiv_of_unpack hua hub hn]
  refine fround_rounds _ (truncatesTo_div _ hn) fun hs => ?_
  have hm : m ≠ 0 := by rintro rfl; simp at hs
  rw [Nat.le_div_iff_mul_le (Nat.pos_of_ne_zero hn)]
  have := Nat.pos_of_ne_zero hm
  omega

theorem msb_fdiv {a b : F32} (ha : isfinite a = true) (hb : isfinite b = true)
    (h : valueOf b ≠ 0) : (fdiv a b).msb = (a.msb != b.msb) := by
  obtain ⟨m, e, hua, _⟩ := unpack_of_isfinite ha
  obtain ⟨n, f, hub, _⟩ := unpack_of_isfinite hb
  rw [fdiv_of_unpack hua hub ((valueOf_eq_zero hub).not.1 h), msb_fround]

theorem fdiv_by_zero {a b : F32} (ha : isfinite a = true) (hb : isfinite b = true)
    (h : valueOf b = 0) :
    fdiv a b = if valueOf a = 0 then qNaN else finf (a.msb != b.msb) := by
  obtain ⟨m, e, hua, _⟩ := unpack_of_isfinite ha
  obtain ⟨n, f, hub, _⟩ := unpack_of_isfinite hb
  simp only [fdiv, hua, hub, if_pos ((valueOf_eq_zero hub).1 h), valueOf_eq_zero hua]

/-! ### Square roots -/

/-- The bits of the root are found from the highest on: `r` is below the root and `r + 2^i` above. -/
theorem isqrtFrom_spec {n : Nat} (i r : Nat) (hlo : r * r ≤ n)
    (hhi : n < (r + 2 ^ i) * (r + 2 ^ i)) :
    isqrtFrom i n r * isqrtFrom i n r ≤ n ∧
      n < (isqrtFrom i n r + 1) * (isqrtFrom i n r + 1) := by
  induction i generalizing r with
  | zero => exact ⟨hlo, hhi⟩
  | succ i ih =>
    rw [isqrtFrom]
    split
    · next h =>
      refine ih _ h ?_
      rwa [Nat.add_assoc, ← Nat.two_mul, ← pow_succ']
    · next h => exact ih _ hlo (Nat.lt_of_not_le h)

/-- The radicand after its shift has enough bits for a result, and few enough for the 34 steps. -/
theorem shifted_radicand_range {n : Nat} (hn : n ≠ 0) :
    2 ^ 64 ≤ n * 2 ^ 64 / 4 ^ sqrtShift (n * 2 ^ 64) ∧
      n * 2 ^ 64 / 4 ^ sqrtShift (n * 2 ^ 64) < 2 ^ 68 := by
  have h0 : n * 2 ^ 64 ≠ 0 := by positivity
  have hlo := Nat.log2_self_le h0
  have hhi := Nat.lt_log2_self (n := n * 2 ^ 64)
  have h64 : 64 ≤ Nat.log2 (n * 2 ^ 64) := (Nat.le_log2 h0).2 (Nat.le_mul_of_pos_left _ (by omega))
  have hfour : 4 ^ sqrtShift (n * 2 ^ 64) = 2 ^ (2 * sqrtShift (n * 2 ^ 64)) := by
    rw [pow_mul]; norm_num
  rw [hfour, Nat.le_div_iff_mul_le (Nat.two_pow_pos _), Nat.div_lt_iff_lt_mul (Nat.two_pow_pos _),
    ← pow_add, ← pow_add]
  unfold sqrtShift
  exact ⟨(Nat.pow_le_pow_right (by omega) (by omega)).trans hlo,
    hhi.trans_le (Nat.pow_le_pow_right (by omega) (by omega))⟩

/-- The real root of the shifted radicand truncates to the integer root. -/
theorem truncatesTo_sqrt {n r d : Nat} (hd : 0 < d) (hlo : r * r ≤ n / d)
    (hhi : n / d < (r + 1) * (r + 1)) :
    TruncatesTo (Real.sqrt ((n : ℝ) / d)) r (decide (r * r * d ≠ n)) := by
  have hdR : (0 : ℝ) < d := by exact_mod_cast hd
  have hloN : r * r * d ≤ n := (Nat.le_div_iff_mul_le hd).1 hlo
  have hhiN : n < (r + 1) * (r + 1) * d := (Nat.div_lt_iff_lt_mul hd).1 hhi
  by_cases h : r * r * d = n
  · simp only [TruncatesTo, h, ne_eq, not_true, decide_false]
    rw [if_neg (by simp), ← h]
    push_cast
    rw [mul_div_cancel_right₀ _ hdR.ne', Real.sqrt_mul_self r.cast_nonneg]
  · have hloR : (r : ℝ) * r * d < n := by exact_mod_cast lt_of_le_of_ne hloN h
    have hhiR : (n : ℝ) < (r + 1) * (r + 1) * d := by exact_mod_cast hhiN
    simp only [TruncatesTo, h, ne_eq, not_false_eq_true, decide_true, if_true]
    constructor
    · rw [Real.lt_sqrt r.cast_nonneg, lt_div_iff₀ hdR]
      linarith
    · rw [Real.sqrt_lt' (by positivity), div_lt_iff₀ hdR]
      linarith

theorem sqrtMag_rounds {n : Nat} (hn : n ≠ 0) (h : Int) :
    RoundsWithOverflow (Real.sqrt n * 2 ^ h) (BitVec.ofNat 32 (sqrtMag n h)) := by
  obtain ⟨hbig, hsmall⟩ := shifted_radicand_range hn
  rw [sqrtMag, ofNat_roundMag]
  generalize sqrtShift (n * 2 ^ 64) = k at *
  obtain ⟨hlo, hhi⟩ := isqrtFrom_spec 34 0 (Nat.zero_le _) (hsmall.trans_le (by norm_num))
  generalize isqrtFrom 34 (n * 2 ^ 64 / 4 ^ k) 0 = r at *
  have hr : 2 ^ 25 ≤ r := by
    by_contra hr
    have : (r + 1) * (r + 1) ≤ 2 ^ 25 * 2 ^ 25 := Nat.mul_le_mul (by omega) (by omega)
    omega
  have hx : Real.sqrt n * 2 ^ h =
      Real.sqrt ((n * 2 ^ 64 : Nat) / (4 ^ k : Nat)) * 2 ^ (h - 32 + k) := by
    have h64 : ((n * 2 ^ 64 : Nat) : ℝ) / (4 ^ k : Nat) = n * (2 ^ 32 / 2 ^ k) ^ 2 := by
      push_cast
      rw [div_pow, pow_right_comm 2 k 2]
      norm_num
      ring
    rw [h64, Real.sqrt_mul n.cast_nonneg, Real.sqrt_sq (by positivity), zpow_add₀ (by norm_num),
      zpow_sub₀ (by norm_num), zpow_natCast]
    field_simp
  rw [hx]
  exact fround_rounds false (truncatesTo_sqrt (by positivity) hlo hhi) fun _ => hr

theorem fsqrt_of_zero {a : F32} (ha : isfinite a = true) (h : valueOf a = 0) : fsqrt a = a := by
  rw [eq_fzeroOf ha h]
  simp only [fsqrt, unpack_fzeroOf, if_true]

/-- A finite value lies below the values of the infinities' exponent. -/
theorem abs_valueOf_lt {a : F32} (ha : isfinite a = true) : |(valueOf a : ℝ)| < 2 ^ 128 := by
  have h := magValue_strictMono ((isfinite_iff a).1 ha)
  have h0 := magValue_nonneg (fabs a).toNat
  rw [magValue_infinite] at h
  rw [valueOf_eq ha]
  cases a.msb <;> simp [abs_of_nonneg h0, h]

theorem fsqrt_of_neg {a : F32} (ha : isfinite a = true) (h : valueOf a < 0) : fsqrt a = qNaN := by
  obtain ⟨m, e, hu, hm⟩ := unpack_of_neg ha h
  simp only [fsqrt, hu, if_neg hm, if_true]

theorem fsqrt_rounds_of_pos {a : F32} (ha : isfinite a = true) (h : 0 < valueOf a) :
    RoundsWithOverflow (Real.sqrt (valueOf a)) (fsqrt a) := by
  obtain ⟨m, e, hu, hm⟩ := unpack_of_pos ha h
  rw [valueOf_of_unpack hu, withSign_false]
  simp only [fsqrt, hu, if_neg hm, Bool.false_eq_true, if_false]
  split
  · next he =>
    have hx : Real.sqrt (m * 2 ^ e) = Real.sqrt m * 2 ^ (e / 2) := by
      have hpow : (2 : ℝ) ^ e = (2 ^ (e / 2)) ^ 2 := by
        rw [← zpow_natCast, ← zpow_mul]
        congr 1
        push_cast
        omega
      rw [hpow, Real.sqrt_mul m.cast_nonneg, Real.sqrt_sq (by positivity)]
    rw [hx]
    exact sqrtMag_rounds hm _
  · next he =>
    have hx : Real.sqrt (m * 2 ^ e) = Real.sqrt (2 * m : Nat) * 2 ^ ((e - 1) / 2) := by
      have hpow : (m : ℝ) * 2 ^ e = (2 * m : Nat) * (2 ^ ((e - 1) / 2)) ^ 2 := by
        rw [← zpow_natCast, ← zpow_mul, Nat.cast_mul, mul_comm (_ : ℝ) (m : ℝ), mul_assoc]
        congr 1
        rw [Nat.cast_ofNat, ← zpow_one_add₀ (by norm_num)]
        congr 1
        push_cast
        omega
      rw [hpow, Real.sqrt_mul (Nat.cast_nonneg _), Real.sqrt_sq (by positivity)]
    rw [hx]
    exact sqrtMag_rounds (by omega) _

/-- A root is far below the overflow threshold. -/
theorem sqrt_lt_threshold {v : ℝ} (h : v < 2 ^ 128) : |Real.sqrt v| < 2 ^ 128 - 2 ^ 103 := by
  rw [abs_of_nonneg (Real.sqrt_nonneg v), Real.sqrt_lt' (by norm_num)]
  exact h.trans_le (by norm_num)

/-- A finite value is its own rounding. -/
theorem roundsTo_valueOf {a : F32} (ha : isfinite a = true) : RoundsTo (valueOf a) a := by
  refine ⟨ha, fun w _ => ⟨by simp, fun he hne => ?_⟩⟩
  rw [sub_self, abs_zero, abs_eq_zero, sub_eq_zero] at he
  exact absurd (by exact_mod_cast he) hne

theorem fsqrt_rounds {a : F32} (ha : isfinite a = true) (h : 0 ≤ valueOf a) :
    RoundsTo (Real.sqrt (valueOf a)) (fsqrt a) := by
  rcases h.eq_or_lt with h0 | hpos
  · have hs : Real.sqrt (valueOf a) = valueOf a := by simp [← h0]
    rw [hs, fsqrt_of_zero ha h0.symm]
    exact roundsTo_valueOf ha
  · exact (fsqrt_rounds_of_pos ha hpos).1 (sqrt_lt_threshold (abs_lt.1 (abs_valueOf_lt ha)).2)

/-- Settles O59: each primitive rounds its exact result once, and `roundMag` is the rounding of R12. -/
theorem arithmeticRoundsToNearestEven : Obligations.ArithmeticRoundsToNearestEven := by
  intro a b ha hb
  refine ⟨⟨fadd_rounds ha hb, fadd_of_sum_zero ha hb⟩,
    ⟨fsub_rounds ha hb, fsub_of_difference_zero ha hb⟩,
    ⟨fmul_rounds ha hb, msb_fmul ha hb⟩,
    fun h => ⟨fdiv_rounds ha hb h, msb_fdiv ha hb h⟩,
    fdiv_by_zero ha hb, fsqrt_rounds ha, fsqrt_of_zero ha, fsqrt_of_neg ha⟩

end Sys2Proof.Machine
end

section
/-! PROOFS. The phase wrap: roundings do not pass a bound that is a word itself. -/

namespace Sys2Proof.Machine

/-- Rounding does not pass a finite value. -/
theorem RoundsTo.le {x : ℝ} {r t : F32} (h : RoundsTo x r) (ht : isfinite t = true)
    (hx : x ≤ valueOf t) : (valueOf r : ℝ) ≤ valueOf t := by
  have hd := (h.2 t ht).1
  rw [abs_of_nonneg (sub_nonneg.2 hx)] at hd
  linarith [le_abs_self ((valueOf r : ℝ) - x)]

theorem RoundsTo.ge {x : ℝ} {r t : F32} (h : RoundsTo x r) (ht : isfinite t = true)
    (hx : (valueOf t : ℝ) ≤ x) : (valueOf t : ℝ) ≤ valueOf r := by
  have hd := (h.2 t ht).1
  rw [abs_of_nonpos (sub_nonpos.2 hx)] at hd
  linarith [neg_abs_le ((valueOf r : ℝ) - x)]

theorem isfinite_iff_orderKey (x : F32) :
    isfinite x = true ↔ -0x7F800000 < orderKey x ∧ orderKey x < 0x7F800000 := by
  rw [isfinite_iff, orderKey]
  split <;> omega

theorem orderKey_le_of_fle {a b : F32} (h : fle a b = true) : orderKey a ≤ orderKey b := by
  simp only [fle, Bool.and_eq_true, decide_eq_true_eq] at h
  exact h.2

/-- A word between two finite ones is finite. -/
theorem isfinite_of_between {a x b : F32} (ha : isfinite a = true) (hb : isfinite b = true)
    (h1 : fle a x = true) (h2 : fle x b = true) : isfinite x = true := by
  rw [isfinite_iff_orderKey] at *
  have := orderKey_le_of_fle h1
  have := orderKey_le_of_fle h2
  omega

theorem valueOf_twoPi : valueOf twoPi = 13176795 / 2 ^ 21 := by
  have h : unpack twoPi = .fin false 13176795 (-21) := by decide +kernel
  rw [valueOf, h]
  norm_num

/-- Twice `TWO_PI`, which is a word as well: the bound of a phase and an increment added up. -/
abbrev fourPi : F32 := 0x41490FDB#32

theorem valueOf_fourPi : valueOf fourPi = 2 * valueOf twoPi := by
  have h : unpack fourPi = .fin false 13176795 (-20) := by decide +kernel
  rw [valueOf_twoPi, valueOf, h]
  norm_num

theorem isfinite_twoPi : isfinite twoPi = true := by decide +kernel

theorem isfinite_fourPi : isfinite fourPi = true := by decide +kernel

/-- The phase is in `[-2 pi, 2 pi]` (R17). -/
def PhaseBounded (p : F32) : Prop := fle (fneg twoPi) p = true ∧ fle p twoPi = true

theorem phaseBounded_iff {p : F32} (h : isfinite p = true) :
    PhaseBounded p ↔ |(valueOf p : ℝ)| ≤ valueOf twoPi := by
  rw [PhaseBounded, fle_iff ((isfinite_fneg _).trans isfinite_twoPi) h, fle_iff h isfinite_twoPi,
    valueOf_fneg isfinite_twoPi, Rat.cast_neg, abs_le]

theorem isfinite_of_phaseBounded {p : F32} (h : PhaseBounded p) : isfinite p = true :=
  isfinite_of_between ((isfinite_fneg _).trans isfinite_twoPi) isfinite_twoPi h.1 h.2

/-- A rounding keeps a bound on the magnitude that is a word itself. -/
theorem RoundsWithOverflow.abs_valueOf_le {x : ℝ} {r t : F32} (h : RoundsWithOverflow x r)
    (ht : isfinite t = true) (hlt : (valueOf t : ℝ) < 2 ^ 128 - 2 ^ 103) (hx : |x| ≤ valueOf t) :
    isfinite r = true ∧ |(valueOf r : ℝ)| ≤ valueOf t := by
  have hr := h.1 (hx.trans_lt hlt)
  obtain ⟨h1, h2⟩ := abs_le.1 hx
  refine ⟨hr.1, abs_le.2 ⟨?_, hr.le ht h2⟩⟩
  have := hr.ge ((isfinite_fneg t).trans ht) (by rwa [valueOf_fneg ht, Rat.cast_neg])
  rwa [valueOf_fneg ht, Rat.cast_neg] at this

theorem phaseBounded_of_rounds {x : ℝ} {r : F32} (h : RoundsWithOverflow x r)
    (hx : |x| ≤ valueOf twoPi) : PhaseBounded r := by
  obtain ⟨hr, hle⟩ := h.abs_valueOf_le isfinite_twoPi (by rw [valueOf_twoPi]; norm_num) hx
  exact (phaseBounded_iff hr).2 hle

/-- One correction brings a phase of up to `4 pi` back. -/
theorem wrap_bounded {x : F32} (hx : isfinite x = true) (h : |(valueOf x : ℝ)| ≤ valueOf fourPi) :
    PhaseBounded (wrap x) := by
  rw [valueOf_fourPi, Rat.cast_mul, Rat.cast_ofNat] at h
  obtain ⟨hlo, hhi⟩ := abs_le.1 h
  have hneg := (isfinite_fneg twoPi).trans isfinite_twoPi
  have hv : (valueOf (fneg twoPi) : ℝ) = -valueOf twoPi := by
    rw [valueOf_fneg isfinite_twoPi, Rat.cast_neg]
  unfold wrap
  split
  · next hgt =>
    rw [fgt, flt_iff isfinite_twoPi hx] at hgt
    exact phaseBounded_of_rounds (fsub_rounds hx isfinite_twoPi)
      (abs_le.2 ⟨by linarith, by linarith⟩)
  next hgt =>
  split
  · next hlt =>
    rw [flt_iff hx hneg, hv] at hlt
    exact phaseBounded_of_rounds (fadd_rounds hx isfinite_twoPi)
      (abs_le.2 ⟨by linarith, by linarith⟩)
  · next hlt =>
    rw [fgt, flt_iff isfinite_twoPi hx] at hgt
    rw [flt_iff hx hneg, hv] at hlt
    exact (phaseBounded_iff hx).2 (abs_le.2 ⟨by linarith, by linarith⟩)

/-- Settles O60: the sum of a phase and an increment rounds to at most `4 pi`, itself a word. -/
theorem wrapKeepsThePhaseBounded : Obligations.WrapKeepsThePhaseBounded := by
  intro p w hp1 hp2 hw1 hw2
  have hp : PhaseBounded p := ⟨hp1, hp2⟩
  have hw : PhaseBounded w := ⟨hw1, hw2⟩
  have hpf := isfinite_of_phaseBounded hp
  have hwf := isfinite_of_phaseBounded hw
  rw [phaseBounded_iff hpf] at hp
  rw [phaseBounded_iff hwf] at hw
  have hsum : |(valueOf p : ℝ) + valueOf w| ≤ valueOf fourPi := by
    rw [valueOf_fourPi, Rat.cast_mul, Rat.cast_ofNat]
    linarith [abs_add_le (valueOf p : ℝ) (valueOf w)]
  obtain ⟨hf, hle⟩ := (fadd_rounds hpf hwf).abs_valueOf_le isfinite_fourPi
    (by rw [valueOf_fourPi, valueOf_twoPi]; norm_num) hsum
  exact wrap_bounded hf hle

end Sys2Proof.Machine
end

section
/-! PROOFS. The transcendental functions: what holds of every build. -/

namespace Sys2Proof.Machine

open Sys2Proof.Config

/-! ### The fixed values -/

theorem fexp_fzeroOf (b : NumBuild) (neg : Bool) : fexp b (fzeroOf neg) = fone := by
  simp only [fexp, unpack_fzeroOf, if_true]

theorem fexp_finf (b : NumBuild) (neg : Bool) :
    fexp b (finf neg) = if neg then fzero else finf false := by
  simp only [fexp, unpack_finf]

theorem fln_fzeroOf (b : NumBuild) (neg : Bool) : fln b (fzeroOf neg) = finf true := by
  simp only [fln, unpack_fzeroOf, if_true]

theorem fln_finf (b : NumBuild) (neg : Bool) :
    fln b (finf neg) = if neg then qNaN else finf false := by
  simp only [fln, unpack_finf]

theorem fln_fone (b : NumBuild) : fln b fone = fzero := by
  have hu : unpack fone = .fin false (2 ^ 23) (-23) := by decide +kernel
  simp only [fln, hu, if_true]
  rfl

theorem fsin_fzeroOf (b : NumBuild) (neg : Bool) : fsin b (fzeroOf neg) = fzeroOf neg := by
  simp only [fsin, unpack_fzeroOf, if_true]

theorem fcos_fzeroOf (b : NumBuild) (neg : Bool) : fcos b (fzeroOf neg) = fone := by
  simp only [fcos, unpack_fzeroOf, if_true]

/-! ### NaN and infinite arguments -/

theorem fexp_of_isnan (b : NumBuild) {x : F32} (h : isnan x = true) : fexp b x = qNaN := by
  simp only [fexp, unpack_of_isnan h]

theorem fln_of_isnan (b : NumBuild) {x : F32} (h : isnan x = true) : fln b x = qNaN := by
  simp only [fln, unpack_of_isnan h]

theorem fsin_of_not_finite (b : NumBuild) {x : F32} (h : isfinite x = false) : fsin b x = qNaN := by
  rcases unpack_cases x with ⟨_, hu⟩ | ⟨_, _, hu⟩ | ⟨hf, _⟩
  · simp only [fsin, hu]
  · simp only [fsin, hu]
  · simp [h] at hf

theorem fcos_of_not_finite (b : NumBuild) {x : F32} (h : isfinite x = false) : fcos b x = qNaN := by
  rcases unpack_cases x with ⟨_, hu⟩ | ⟨_, _, hu⟩ | ⟨hf, _⟩
  · simp only [fcos, hu]
  · simp only [fcos, hu]
  · simp [h] at hf

theorem isfinite_false_of_isnan {x : F32} (h : isnan x = true) : isfinite x = false :=
  Bool.eq_false_iff.2 fun hf => by simp [isnan_of_isfinite hf] at h

theorem isfinite_fzero : isfinite fzero = true := by decide +kernel

theorem valueOf_fzero : valueOf fzero = 0 := (valueOf_eq_zero (unpack_fzeroOf false)).2 rfl

theorem fln_of_neg (b : NumBuild) {x : F32} (h : flt x fzero = true) : fln b x = qNaN := by
  rcases unpack_cases x with ⟨_, hu⟩ | ⟨s, rfl, hu⟩ | ⟨hf, m, e, hu⟩
  · simp only [fln, hu]
  · have hs : s = true := by
      cases s
      · exact absurd h (by decide +kernel)
      · rfl
    simp only [fln, hu, if_pos hs]
  · rw [flt_iff hf isfinite_fzero, valueOf_fzero, Rat.cast_zero, Rat.cast_lt_zero] at h
    obtain ⟨m, e, hu, hm⟩ := unpack_of_neg hf h
    simp only [fln, hu, if_neg hm, if_true]

/-! ### Ranges of the results -/

/-- `r` is finite and in `[-1.0, 1.0]`. -/
def InUnitRange (r : F32) : Prop :=
  isfinite r = true ∧ fle fnegone r = true ∧ fle r fone = true

theorem inUnitRange_fzeroOf (neg : Bool) : InUnitRange (fzeroOf neg) := by
  cases neg <;> exact ⟨by decide +kernel, by decide +kernel, by decide +kernel⟩

theorem inUnitRange_fone : InUnitRange fone :=
  ⟨by decide +kernel, by decide +kernel, by decide +kernel⟩

theorem inUnitRange_forceUnit (x : F32) : InUnitRange (forceUnit x) := by
  unfold forceUnit
  split
  · next h =>
    obtain ⟨h1, h2⟩ := (Bool.and_eq_true ..).mp h
    exact ⟨isfinite_of_between (by decide +kernel) (by decide +kernel) h1 h2, h1, h2⟩
  · exact inUnitRange_fzeroOf false

theorem inUnitRange_fsin (b : NumBuild) {x : F32} (h : isfinite x = true) :
    InUnitRange (fsin b x) := by
  obtain ⟨m, e, hu, _⟩ := unpack_of_isfinite h
  simp only [fsin, hu]
  split
  · next h0 =>
    rw [eq_fzeroOf h ((valueOf_eq_zero hu).2 h0)]
    exact inUnitRange_fzeroOf _
  · exact inUnitRange_forceUnit _

theorem inUnitRange_fcos (b : NumBuild) {x : F32} (h : isfinite x = true) :
    InUnitRange (fcos b x) := by
  obtain ⟨m, e, hu, _⟩ := unpack_of_isfinite h
  simp only [fcos, hu]
  split
  · exact inUnitRange_fone
  · exact inUnitRange_forceUnit _

theorem isfinite_forceFinite (x : F32) : isfinite (forceFinite x) = true := by
  unfold forceFinite
  split
  · assumption
  · decide +kernel

theorem isfinite_fln_of_pos (b : NumBuild) {x : F32} (h : isfinite x = true)
    (hpos : fgt x fzero = true) : isfinite (fln b x) = true := by
  rw [fgt, flt_iff isfinite_fzero h, valueOf_fzero, Rat.cast_zero, Rat.cast_pos] at hpos
  obtain ⟨m, e, hu, hm⟩ := unpack_of_pos h hpos
  simp only [fln, hu, if_neg hm, Bool.false_eq_true, if_false]
  split
  · exact isfinite_fzero
  · exact isfinite_forceFinite _

/-- Settles O56: the fixed values, the NaN results and the ranges, whatever the build's free values are. -/
theorem transcendentalLawsHoldOfEveryBuild : Obligations.TranscendentalLawsHoldOfEveryBuild := by
  intro b
  refine ⟨⟨fexp_fzeroOf b false, fexp_fzeroOf b true, fln_fone b, fsin_fzeroOf b false,
      fsin_fzeroOf b true, fcos_fzeroOf b false, fcos_fzeroOf b true⟩,
    ⟨fexp_finf b false, fexp_finf b true, fln_fzeroOf b false, fln_fzeroOf b true,
      fln_finf b false⟩,
    fun x h => ?_, fun x h => ?_, fun x h => ?_, fun x h =>
      ⟨inUnitRange_fsin b h, inUnitRange_fcos b h, isfinite_fln_of_pos b h⟩⟩
  · rw [fln_of_neg b h]; exact isnan_qNaN
  · rw [fsin_of_not_finite b h, fcos_of_not_finite b h]; exact ⟨isnan_qNaN, isnan_qNaN⟩
  · have hf := isfinite_false_of_isnan h
    rw [fexp_of_isnan b h, fln_of_isnan b h, fsin_of_not_finite b hf, fcos_of_not_finite b hf]
    exact ⟨isnan_qNaN, isnan_qNaN, isnan_qNaN, isnan_qNaN⟩

end Sys2Proof.Machine
end

section
/-! PROOFS. The spectrum: what every entry is forced to. -/

namespace Sys2Proof.Machine

open Sys2Proof.Config

theorem isnan_fabs (x : F32) : isnan (fabs x) = isnan x := by
  rw [Bool.eq_iff_iff, isnan_iff, isnan_iff, fabs_fabs]

/-- A magnitude that is not a NaN is `+0.0` or positive. -/
theorem fabs_zero_or_pos {x : F32} (h : isnan x = false) :
    fabs x = 0x00000000#32 ∨ fgt (fabs x) fzero = true := by
  refine or_iff_not_imp_left.2 fun h0 => ?_
  have hpos : 0 < (fabs x).toNat := Nat.pos_of_ne_zero fun h => h0 (BitVec.eq_of_toNat_eq h)
  have hz : orderKey fzero = 0 := by decide +kernel
  have hnz : isnan fzero = false := by decide +kernel
  have hk : orderKey (fabs x) = (fabs x).toNat := by simp [orderKey]
  simp [fgt, flt, isnan_fabs, h, hz, hnz, hk, hpos]

theorem forceMagnitude_law (s : List C32) (x : F32) :
    (forceMagnitude s x = 0x00000000#32 ∨ fgt (forceMagnitude s x) fzero = true ∨
        isnan (forceMagnitude s x) = true) ∧
      (s.all cfinite = true → isnan (forceMagnitude s x) = false) := by
  unfold forceMagnitude
  split
  · split
    · exact ⟨.inl rfl, fun _ => by decide +kernel⟩
    · next h => exact ⟨.inr (.inr isnan_qNaN), fun h' => absurd h' h⟩
  · next h =>
    have h : isnan x = false := by simpa using h
    exact ⟨(fabs_zero_or_pos h).imp_right .inl, fun _ => by rw [isnan_fabs, h]⟩

theorem specmagBin_forced (b : NumBuild) (size : Nat) (tw : List Twiddle) (s : List C32) (k : Nat) :
    ∃ y, specmagBin b size tw s k = forceMagnitude s y := ⟨_, rfl⟩

/-- Settles O57: every entry is forced to what R21 says. -/
theorem spectrumLawsHoldOfEveryBuild : Obligations.SpectrumLawsHoldOfEveryBuild := by
  intro b n s
  refine ⟨by simp [specmag], fun m hm => ?_⟩
  obtain ⟨k, -, rfl⟩ := List.mem_map.1 hm
  obtain ⟨y, hy⟩ := specmagBin_forced b n ((List.range n).map (twiddle n)) s k
  obtain ⟨hform, hnan⟩ := forceMagnitude_law s y
  rw [hy]
  refine ⟨hform, fun hs => hnan (List.all_eq_true.2 fun z hz => ?_)⟩
  rw [cfinite, (hs z hz).1, (hs z hz).2]
  rfl

end Sys2Proof.Machine
end

section
/-! PROOFS. SCR and DSCR: the trace of the loop over a block of bits. -/

namespace Sys2Proof.Machine

/-- The trace of a loop with the samples by index: the states, and the outputs as a list. -/
theorem scanBlock_states {σ α β : Type} (f : σ → α → σ × β) (s : σ) (xs : List α) (d : α) :
    ∃ g : Nat → σ, g 0 = s ∧ (scanBlock f s xs).1 = g xs.length ∧
      (∀ i, i < xs.length → g (i + 1) = (f (g i) (xs.getD i d)).1) ∧
      (scanBlock f s xs).2 = (List.range xs.length).map fun i => (f (g i) (xs.getD i d)).2 := by
  obtain ⟨g, h0, hlast, hstep⟩ := scanBlock_trace f s xs
  have hd : ∀ i (h : i < xs.length), xs.getD i d = xs[i] := fun i h => by simp [h]
  refine ⟨g, h0, hlast, fun i h => ?_, ?_⟩
  · rw [hd i h]; exact (hstep i h).1
  · exact outputs_of_trace (scanBlock_length f s xs) fun i h => by rw [hd i h]; exact (hstep i h).2

/-- Entering a bit at the front of a history, as R309 writes it. -/
theorem pushHist_eq (m hist : Word32) (b : Bool) :
    pushHist m hist b = ((hist <<< 1) ||| (BitVec.ofBool b).setWidth 32) &&& m := by
  cases b <;> rfl

section Completion

variable {s : State} {dst src len : Word32} {bs : List Bool}

theorem scrEffect_completes (hf : OperandsFit s (scrBlocks dst src len))
    (hl : bs.length = len.toNat) :
    Completes s ((scrEffect len s bs).commit (scrBlocks dst src len)) (scrBlocks dst src len)
      ((scrRun s.scr bs).2.map wordOfB) [] ⟨len, len, 0#32⟩ :=
  Effect.commit_completes hf rfl rfl (by rw [scrEffect_out_length, hl]; rfl) (by simp [scrBlocks])

theorem dscrEffect_completes (hf : OperandsFit s (scrBlocks dst src len))
    (hl : bs.length = len.toNat) :
    Completes s ((dscrEffect len s bs).commit (scrBlocks dst src len)) (scrBlocks dst src len)
      ((dscrRun s.scr bs).2.map wordOfB) [] ⟨len, len, 0#32⟩ :=
  Effect.commit_completes hf rfl rfl (by rw [dscrEffect_out_length, hl]; rfl) (by simp [scrBlocks])

end Completion

/-- Settles O40, by the trace of the loop over the block. -/
theorem scrScrambles : Obligations.ScrScrambles := by
  intro s dst src len bs hf hr
  have hl := Memory.readBits_length hr
  obtain ⟨hist, h0, hlast, hstep, hout⟩ := scanBlock_states
    (scrStep (maskBits s.scr.len.toNat) (polyE s.scr)) (s.scr.state &&& maskBits s.scr.len.toNat)
    bs false
  rw [hl] at hlast hstep hout
  refine ⟨_, hist, fun i => bs.getD i false ^^ oddOnes (hist i &&& polyE s.scr),
    execScr_complete hf hr, h0, fun i hi => ⟨rfl, ?_⟩, ?_, ?_⟩
  · rw [hstep i hi, scrStep, pushHist_eq, parity_eq_oddOnes]
    rfl
  · have hc := scrEffect_completes hf hl
    rw [scrRun, hout, List.map_map] at hc
    simp only [Function.comp_def, scrStep, parity_eq_oddOnes] at hc
    exact hc
  · rw [← hlast]
    exact Effect.commit_eq _ _

/-- Settles O41, by the trace of the loop over the block. -/
theorem dscrDescrambles : Obligations.DscrDescrambles := by
  intro s dst src len bs hf hr
  have hl := Memory.readBits_length hr
  obtain ⟨hist, h0, hlast, hstep, hout⟩ := scanBlock_states
    (dscrStep (maskBits s.scr.len.toNat) (polyE s.scr)) (s.scr.dstate &&& maskBits s.scr.len.toNat)
    bs false
  rw [hl] at hlast hstep hout
  refine ⟨_, hist, execDscr_complete hf hr, h0, fun i hi => ?_, ?_, ?_⟩
  · rw [hstep i hi, dscrStep, pushHist_eq]
    rfl
  · have hc := dscrEffect_completes hf hl
    rw [dscrRun, hout, List.map_map] at hc
    simp only [Function.comp_def, dscrStep, parity_eq_oddOnes] at hc
    exact hc
  · rw [← hlast]
    exact Effect.commit_eq _ _

end Sys2Proof.Machine
end

section
/-! PROOFS. Writes of the validated registers: what a write of an idle core answers, from the
condition of its validation; the integer and floating-point registers, the loop gains, the rates. -/

namespace Sys2Proof.Machine

open Sys2Proof.Config

/-! ### Accepted and rejected writes -/

theorem acceptIf_eq_some {c : Bool} {t u : State} : acceptIf c t = some u ↔ c = true ∧ t = u := by
  cases c <;> simp [acceptIf]

theorem acceptIf_eq_none {c : Bool} {t : State} : acceptIf c t = none ↔ c = false := by
  cases c <;> simp [acceptIf]

section Writes

variable {s t : State} {r : Reg} {v : Word32}

theorem regStore_accepted (hr : r ≠ .ctrl) (h : regWrite s v r = some t) : regStore s r v = t := by
  rw [regStore_eq s r v hr, h]

theorem regStore_rejected (h : regWrite s v r = none) :
    regStore s r v = s.rejectedAt (BitVec.ofNat 12 (regOffset r)) := by
  have hr : r ≠ .ctrl := by rintro rfl; cases h
  rw [regStore_eq s r v hr, h]

variable (hidle : s.seq.run = false) (hhost : s.host = [])
include hidle hhost

theorem step_write_accepted (hr : r ≠ .ctrl) (h : regWrite s v r = some t) :
    step { s with host := [.write (BitVec.ofNat 32 (regOffset r)) v] } = .next t := by
  rw [step_reg s r v hidle hhost, regStore_accepted hr h]

theorem step_write_rejected (h : regWrite s v r = none) :
    step { s with host := [.write (BitVec.ofNat 32 (regOffset r)) v] } =
      .next (s.rejectedAt (BitVec.ofNat 12 (regOffset r))) := by
  rw [step_reg s r v hidle hhost, regStore_rejected h]

/-- A write whose validation is a check that holds exactly under `P`. -/
theorem step_write_acceptIf {P : Prop} {c : Bool} (hr : r ≠ .ctrl)
    (h : regWrite s v r = acceptIf c t) (hc : c = true ↔ P) :
    (P → step { s with host := [.write (BitVec.ofNat 32 (regOffset r)) v] } = .next t) ∧
    (¬ P → step { s with host := [.write (BitVec.ofNat 32 (regOffset r)) v] } =
      .next (s.rejectedAt (BitVec.ofNat 12 (regOffset r)))) :=
  ⟨fun hp => step_write_accepted hidle hhost hr (h.trans (acceptIf_eq_some.2 ⟨hc.2 hp, rfl⟩)),
    fun hp => step_write_rejected hidle hhost
      (h.trans (acceptIf_eq_none.2 (Bool.eq_false_of_not_eq_true (mt hc.1 hp))))⟩

theorem step_write_ite {P : Prop} [Decidable P] {c : Bool} (hr : r ≠ .ctrl)
    (h : regWrite s v r = acceptIf c t) (hc : c = true ↔ P) :
    step { s with host := [.write (BitVec.ofNat 32 (regOffset r)) v] } =
      .next (if P then t else s.rejectedAt (BitVec.ofNat 12 (regOffset r))) := by
  obtain ⟨hyes, hno⟩ := step_write_acceptIf hidle hhost hr h hc
  split
  · next hp => exact hyes hp
  · next hp => exact hno hp

end Writes

/-! ### The integer registers -/

theorem inRange_iff {lo hi : Nat} {v : Word32} :
    inRange lo hi v = true ↔ lo ≤ v.toNat ∧ v.toNat ≤ hi := decide_eq_true_iff

theorem eq_zero_or_one {v : Word32} (h : v.toNat ≤ 1) : v = 0#32 ∨ v = 1#32 :=
  (Nat.le_one_iff_eq_zero_or_eq_one.1 h).imp BitVec.eq_of_toNat_eq BitVec.eq_of_toNat_eq

/-- In its range the written value of `MODCFG` is its bit 0. -/
theorem modOf_eq {v : Word32} (h : v.toNat ≤ 1) :
    modOf v = if v = 1#32 then .qpsk else .bpsk := by
  rcases eq_zero_or_one h with rfl | rfl <;> rfl

/-- Settles O21: each write is one checked write, and its check is its range. -/
theorem integerRegistersAreRangeChecked : Obligations.IntegerRegistersAreRangeChecked := by
  intro s v hidle hhost
  refine ⟨?modcfg, step_write_ite hidle hhost (r := .agcN) nofun rfl inRange_iff,
    step_write_ite hidle hhost (r := .firFactor) nofun rfl inRange_iff,
    step_write_ite hidle hhost (r := .firNtaps) nofun rfl inRange_iff,
    step_write_ite hidle hhost (r := .scrLen) nofun rfl inRange_iff,
    step_write_ite hidle hhost (r := .symSps) nofun rfl inRange_iff,
    step_write_ite hidle hhost (r := .fsPlen) nofun rfl ?plen,
    step_write_ite hidle hhost (r := .fsFsize) nofun rfl inRange_iff⟩
  case modcfg =>
    refine (step_write_ite hidle hhost (r := .modcfg) nofun rfl
      (inRange_iff.trans (and_iff_right (Nat.zero_le _)))).trans ?_
    split
    · next h => rw [modOf_eq h]
    · rfl
  case plen => rw [Bool.and_eq_true, inRange_iff, decide_eq_true_iff, and_assoc]

/-! ### The floating-point registers -/

theorem nonNeg_iff {v : F32} : nonNeg v = true ↔ isfinite v = true ∧ fge v fzero = true :=
  Bool.and_eq_true_iff

theorem positive_iff {v : F32} : positive v = true ↔ isfinite v = true ∧ fgt v fzero = true :=
  Bool.and_eq_true_iff

theorem zeroToOne_iff {v : F32} :
    zeroToOne v = true ↔ isfinite v = true ∧ fle fzero v = true ∧ fle v fone = true := by
  rw [zeroToOne, Bool.and_eq_true, Bool.and_eq_true, and_assoc]

/-- Settles O22: each write is one checked write, under the condition of its register. -/
theorem floatRegistersAreChecked : Obligations.FloatRegistersAreChecked := by
  intro s v hidle hhost
  exact ⟨step_write_ite hidle hhost (r := .agcRef) nofun rfl positive_iff,
    step_write_ite hidle hhost (r := .agcMaxGain) nofun rfl .rfl,
    step_write_ite hidle hhost (r := .agcK) nofun rfl nonNeg_iff,
    step_write_ite hidle hhost (r := .agcGain) nofun rfl .rfl,
    step_write_ite hidle hhost (r := .cfcPhase) nofun rfl .rfl,
    step_write_ite hidle hhost (r := .pllAlpha) nofun rfl zeroToOne_iff,
    step_write_ite hidle hhost (r := .pllBeta) nofun rfl zeroToOne_iff,
    step_write_ite hidle hhost (r := .pllMinf) nofun rfl Bool.and_eq_true_iff,
    step_write_ite hidle hhost (r := .pllMaxf) nofun rfl Bool.and_eq_true_iff,
    step_write_ite hidle hhost (r := .pllPhase) nofun rfl .rfl,
    step_write_ite hidle hhost (r := .pllFreq) nofun rfl .rfl,
    step_write_ite hidle hhost (r := .symAlpha) nofun rfl zeroToOne_iff,
    step_write_ite hidle hhost (r := .symBeta) nofun rfl zeroToOne_iff,
    step_write_ite hidle hhost (r := .symMu) nofun rfl zeroToOne_iff,
    step_write_ite hidle hhost (r := .symCnt) nofun rfl zeroToOne_iff,
    step_write_ite hidle hhost (r := .symVi) nofun rfl .rfl,
    step_write_ite hidle hhost (r := .fsThresh) nofun rfl nonNeg_iff⟩

/-! ### The loop gains -/

/-- The check of a write that derives a pair of loop gains. -/
theorem gainsCheck_iff {ok : Bool} {P : Prop} {x y : F32} (hok : ok = true ↔ P) :
    (ok && zeroToOne x && zeroToOne y) = true ↔ P ∧ GainsInRange x y := by
  rw [Bool.and_eq_true, Bool.and_eq_true, hok, zeroToOne_iff, zeroToOne_iff, and_assoc]
  rfl

/-- Settles O23: each write is one checked write, whose check holds the condition on the written
value and the two gains. -/
theorem loopGainsAreDerived : Obligations.LoopGainsAreDerived := by
  intro s v hidle hhost
  exact ⟨step_write_acceptIf hidle hhost (r := .pllBw) nofun rfl (gainsCheck_iff nonNeg_iff),
    step_write_acceptIf hidle hhost (r := .pllDamp) nofun rfl (gainsCheck_iff nonNeg_iff),
    step_write_acceptIf hidle hhost (r := .symBw) nofun rfl (gainsCheck_iff nonNeg_iff),
    step_write_acceptIf hidle hhost (r := .symDamp) nofun rfl (gainsCheck_iff nonNeg_iff),
    step_write_acceptIf hidle hhost (r := .symKd) nofun rfl (gainsCheck_iff positive_iff)⟩

/-! ### The rates -/

/-- `NFFT` is the least power of two at or above a finite ratio (`10_state.md` R84). -/
theorem nfftOf_eq_some {m n : Nat} {fs fres : F32} (hfin : isfinite (fdiv fs fres) = true)
    (hn : n ≤ m) (hle : fle (fdiv fs fres) (i2f ((2 ^ n : Nat) : Int)) = true)
    (hleast : ∀ k, k < n → fle (fdiv fs fres) (i2f ((2 ^ k : Nat) : Int)) = false) :
    nfftOf m fs fres = some (2 ^ n) := by
  rw [nfftOf, if_pos hfin, List.find?_range_eq_some.2 ⟨hle, List.mem_range.2 (by omega), ?_⟩]
  · rfl
  · intro k hk
    rw [hleast k hk]; rfl

theorem nfftOf_eq_none {m : Nat} {fs fres : F32} (h : ¬ isfinite (fdiv fs fres) = true ∨
      ∀ k, k ≤ m → fle (fdiv fs fres) (i2f ((2 ^ k : Nat) : Int)) = false) :
    nfftOf m fs fres = none := by
  rw [nfftOf]
  split
  · next hfin =>
    rw [List.find?_range_eq_none.2, Option.map_none]
    intro k hk
    rw [h.resolve_left (not_not_intro hfin) k (by omega)]; rfl
  · rfl

theorem writeCfcRates_accepted {s : State} {ok : Bool} {fs fres : F32} {n : Nat} (hok : ok = true)
    (h : nfftOf s.par.maxFftLog2 fs fres = some n) : writeCfcRates s ok fs fres =
      some { s with cfc := { s.cfc with fs := fs, fres := fres, nfft := BitVec.ofNat 32 n } } := by
  rw [writeCfcRates, h, hok]; rfl

theorem writeCfcRates_eq_none {s : State} {ok : Bool} {fs fres : F32} :
    writeCfcRates s ok fs fres = none ↔ ok = false ∨ nfftOf s.par.maxFftLog2 fs fres = none := by
  rw [writeCfcRates]
  cases nfftOf s.par.maxFftLog2 fs fres with
  | none => simp
  | some n => simp [acceptIf_eq_none]

/-- Settles O24: both writes check the written rate and the ratio that they leave. -/
theorem fftSizeIsTheLeastPowerOfTwo : Obligations.FftSizeIsTheLeastPowerOfTwo := by
  intro s v n hidle hhost
  have rejected (fs fres : F32) (h : ¬ (isfinite v = true ∧ fgt v fzero = true) ∨
      (¬ isfinite (fdiv fs fres) = true ∨ ∀ k, k ≤ s.par.maxFftLog2 →
        fle (fdiv fs fres) (i2f ((2 ^ k : Nat) : Int)) = false)) :
      writeCfcRates s (positive v) fs fres = none :=
    writeCfcRates_eq_none.2 (h.imp
      (fun h => Bool.eq_false_of_not_eq_true (mt positive_iff.1 h)) nfftOf_eq_none)
  exact ⟨fun hv ⟨hfin, hn, hle, hleast⟩ => step_write_accepted hidle hhost (r := .cfcFs) nofun
      (writeCfcRates_accepted (positive_iff.2 hv) (nfftOf_eq_some hfin hn hle hleast)),
    fun h => step_write_rejected hidle hhost (r := .cfcFs) (rejected _ _ h),
    fun hv ⟨hfin, hn, hle, hleast⟩ => step_write_accepted hidle hhost (r := .cfcFres) nofun
      (writeCfcRates_accepted (positive_iff.2 hv) (nfftOf_eq_some hfin hn hle hleast)),
    fun h => step_write_rejected hidle hhost (r := .cfcFres) (rejected _ _ h)⟩

end Sys2Proof.Machine
end

section
/-! PROOFS. The resets: the reset values have the invariant in the default build, and in every legal
build they are those of the table. -/

namespace Sys2Proof.Machine

open Sys2Proof.Config

/-! ### The invariant after power-on -/

theorem cfcOk_reset : CfcOk State.reset := by
  have hone : positive fone = true := by decide +kernel
  have hsize : nfftOf defaultParams.maxFftLog2 fone fone = some 1 := by decide +kernel
  exact ⟨hone, hone, hsize⟩

/-- Settles O18: the lists are replicated, and the configuration values are checked one by one. -/
theorem resetHasTheInvariant : Obligations.ResetHasTheInvariant where
  par := by decide +kernel
  mem := ⟨.nil, nofun⟩
  sizes := ⟨List.length_replicate, List.length_replicate, List.length_replicate,
    List.length_replicate, List.length_replicate, rfl, Nat.zero_le _⟩
  agc := ⟨by decide +kernel, by decide +kernel, by decide +kernel, by decide +kernel,
    by decide +kernel, (fln_fone _).symm⟩
  firScr := ⟨by decide +kernel, by decide +kernel, by decide +kernel⟩
  cfc := cfcOk_reset
  pll := by unfold PllOk; decide +kernel
  sym := by unfold SymOk; decide +kernel
  fs := by unfold FsOk; decide +kernel
  seq := ⟨nofun, nofun, by decide⟩

/-! ### The table -/

section ResetValues

variable (par : Params) (mem : Memory) (host : List HostAct) (hostRdata : Word32) (draws : Nat)

theorem irq_resetValues : (State.resetValues par mem host hostRdata draws).irq = false := by
  simp [State.irq, State.resetValues, seqReset]

theorem regRead_status_resetValues :
    regRead (State.resetValues par mem host hostRdata draws) .status = 0#32 :=
  show statusWord seqReset = 0#32 from rfl

/-- The registers of the table have its values, compared column with column. -/
theorem regRead_resetValues :
    ∀ p ∈ resetTable, regRead (State.resetValues par mem host hostRdata draws) p.1 = p.2 := by
  refine List.map_inj_left.1 ?_
  simp only [resetTable, List.map_cons, List.map_nil, regRead_status_resetValues]
  rfl

end ResetValues

/-- The bounds of a legal build (`00_scope.md` R6) that keep its parameters within their fields. -/
theorem bounds_of_legal {p : Params} (h : p.legal = true) :
    p.dmemWords < 2 ^ 32 ∧ p.maxFirTaps < 2 ^ 16 ∧ p.maxDecFactor < 2 ^ 16 ∧ p.maxAgcN < 2 ^ 16 ∧
    p.maxFftLog2 < 2 ^ 8 ∧ p.maxSps < 2 ^ 8 ∧ p.maxPreLen < 2 ^ 16 ∧ p.fsyncCap < 2 ^ 32 := by
  obtain ⟨hlegal, -⟩ := Bool.and_eq_true_iff.1 h
  have := of_decide_eq_true hlegal
  omega

/-- A field that is extracted as the word of a number has that number. -/
theorem toNat_field {w n : Nat} {f : BitVec w} (h : f = BitVec.ofNat w n) (hn : n < 2 ^ w) :
    f.toNat = n := by
  rw [h, BitVec.toNat_ofNat, Nat.mod_eq_of_lt hn]

theorem paramRegistersHold {s : State} (h : s.par.legal = true) : ParamRegistersHold s := by
  obtain ⟨hdmem, hfir, hdec, hagc, hfft, hsps, hpre, hcap⟩ := bounds_of_legal h
  refine ⟨toNat_field rfl hdmem, toNat_field BitVec.extractLsb'_append_eq_right hfir,
    toNat_field BitVec.extractLsb'_append_eq_left hpre,
    toNat_field BitVec.extractLsb'_append_eq_right hfft, toNat_field ?sps hsps,
    toNat_field ?dec hdec, toNat_field BitVec.extractLsb'_append_eq_right hagc,
    BitVec.extractLsb'_append_eq_left, toNat_field rfl hcap, ?ham, ?zero⟩
  case sps =>
    exact (BitVec.extractLsb'_append_eq_of_le (by omega)).trans BitVec.extractLsb'_append_eq_right
  case dec =>
    exact (BitVec.extractLsb'_append_eq_of_le (by omega)).trans BitVec.extractLsb'_append_eq_left
  case ham =>
    exact (BitVec.extractLsb'_setWidth_of_le (by omega)).trans BitVec.extractLsb'_eq_self
  case zero =>
    ext i hi
    simp [regRead]

theorem holdsResetValues_resetValues {par : Params} (h : par.legal = true) (mem : Memory)
    (host : List HostAct) (hostRdata : Word32) (draws : Nat) :
    HoldsResetValues (State.resetValues par mem host hostRdata draws) :=
  ⟨irq_resetValues .., regRead_resetValues par mem host hostRdata draws, paramRegistersHold h,
    rfl, rfl, rfl, rfl, rfl, rfl, rfl, rfl, rfl, rfl, rfl, rfl⟩

theorem holdsResetValues_externalReset {s : State} (h : s.par.legal = true) :
    HoldsResetValues s.externalReset := by
  unfold State.externalReset
  split
  · exact holdsResetValues_resetValues h ..
  · exact holdsResetValues_resetValues h ..

/-- A write of `CTRL` with `SOFTRESET` resets an idle core (`10_state.md` R54). -/
theorem step_softReset {s : State} {v : Word32} {rest : List HostAct}
    (hhost : s.host = .write 0x020#32 v :: rest) (hidle : s.seq.run = false)
    (hv : v.getLsbD 2 = true) : step s = .next (State.softReset { s with host := rest }) := by
  rw [step_write hhost]
  congr 1
  refine (hostWrite_reg { s with host := rest } .ctrl v hidle).trans ?_
  simp [regStore, ctrlWrite, hidle, hv]

/-- Settles O19: each reset gives the reset values of its build. -/
theorem everyResetGivesTheTable : Obligations.EveryResetGivesTheTable := by
  refine ⟨holdsResetValues_resetValues (by decide +kernel) .., ?_, ?_⟩
  · intro s t rest hlegal hhost hstep
    cases (step_reset hhost).symm.trans hstep
    exact holdsResetValues_externalReset hlegal
  · intro s t v rest hlegal hhost hidle hv hstep
    cases (step_softReset hhost hidle hv).symm.trans hstep
    exact holdsResetValues_resetValues hlegal ..

end Sys2Proof.Machine
end

section
/-! PROOFS. The access classes: what an accepted write of a register leaves to be read, and what the
writes of the other classes do. -/

namespace Sys2Proof.Machine

open Sys2Proof.Config

/-! ### Accepted writes -/

/-- What a read returns after a value has been accepted: the bits that the register has
(`10_state.md` R61, R101). -/
def storedBits (r : Reg) (v : Word32) : Word32 :=
  if r = .irqEnable then v &&& 0x1F#32 else if r = .symStrobe then v &&& 1#32 else v

theorem storedBits_irqEnable (v : Word32) :
    storedBits .irqEnable v = (v.setWidth 5).setWidth 32 := by
  show v &&& 0x1F#32 = _
  apply BitVec.eq_of_toNat_eq
  rw [BitVec.toNat_and, BitVec.toNat_setWidth_of_le (by omega), BitVec.toNat_setWidth]
  exact Nat.and_two_pow_sub_one_eq_mod _ 5

theorem storedBits_symStrobe (v : Word32) :
    storedBits .symStrobe v = if v.getLsbD 0 then 1#32 else 0#32 := by
  show v &&& 1#32 = _
  rw [BitVec.and_one_eq_setWidth_ofBool_getLsbD]
  cases v.getLsbD 0 <;> rfl

theorem modWord_modOf {v : Word32} (h : v.toNat ≤ 1) : modWord (modOf v) = v := by
  rcases eq_zero_or_one h with rfl | rfl <;> rfl

/-- An accepted write of a rate changes the rates and `CFC_NFFT` only. -/
theorem writeCfcRates_eq_some {s t : State} {ok : Bool} {fs fres : F32}
    (h : writeCfcRates s ok fs fres = some t) :
    ∃ n, t = { s with cfc := { s.cfc with fs := fs, fres := fres, nfft := n } } := by
  rw [writeCfcRates] at h
  split at h
  · cases h
  · exact ⟨_, (acceptIf_eq_some.1 h).2.symm⟩

/-- A write of an RW register is accepted, and read back. -/
theorem regWrite_rw {r : Reg} (h : regAccess r = .rw) (s : State) (v : Word32) :
    ∃ t, regWrite s v r = some t ∧ regRead t r = storedBits r v ∧
      t.seq.irqStatus = s.seq.irqStatus := by
  cases r with
  | irqEnable => exact ⟨_, rfl, (storedBits_irqEnable v).symm, rfl⟩
  | symStrobe => exact ⟨_, rfl, (storedBits_symStrobe v).symm, rfl⟩
  | cmdPtr | scrPoly | scrInit | scrState | dscrState => exact ⟨_, rfl, rfl, rfl⟩
  | _ => cases h

/-- An accepted write of an RWV register is read back. -/
theorem regWrite_rwv {r : Reg} (h : regAccess r = .rwv) {s t : State} {v : Word32}
    (hw : regWrite s v r = some t) :
    regRead t r = storedBits r v ∧ t.seq.irqStatus = s.seq.irqStatus := by
  cases r with
  | cfcFs | cfcFres =>
    obtain ⟨n, rfl⟩ := writeCfcRates_eq_some hw
    exact ⟨rfl, rfl⟩
  | modcfg =>
    obtain ⟨hc, rfl⟩ := acceptIf_eq_some.1 hw
    exact ⟨modWord_modOf (inRange_iff.1 hc).2, rfl⟩
  | agcRef | agcMaxGain | agcK | agcN | agcGain | firFactor | firNtaps | scrLen | cfcPhase | pllBw
  | pllDamp | pllAlpha | pllBeta | pllMinf | pllMaxf | pllPhase | pllFreq | symSps | symBw | symDamp
  | symKd | symAlpha | symBeta | symMu | symCnt | symVi | fsPlen | fsFsize | fsThresh =>
    obtain ⟨-, rfl⟩ := acceptIf_eq_some.1 hw
    exact ⟨rfl, rfl⟩
  | _ => cases h

theorem regWrite_ro {r : Reg} (h : regAccess r = .ro) (s : State) (v : Word32) :
    regWrite s v r = some s := by
  cases r with
  | id | version | param0 | param1 | param2 | param3 | param4 | hparam | status | cmdCount | errCode
  | errPtr | errInfo | resConsumed | resProduced | resAux | cfgrejAddr | agcGmax | agcLnRef
  | cfcNfft | cfcFest | fsBuflen | fsState => rfl
  | _ => cases h

/-! ### CTRL -/

theorem ctrlWrite_host (s : State) (v : Word32) : (ctrlWrite s v).host = s.host := by
  unfold ctrlWrite
  split_ifs <;> rfl

theorem ctrlWrite_idle {s : State} {v : Word32} (hidle : s.seq.run = false)
    (hstart : v.getLsbD 0 = false) (hreset : v.getLsbD 2 = false) : ctrlWrite s v = s := by
  simp only [ctrlWrite, hidle, hstart, hreset, Bool.false_eq_true, if_false]

/-- `CTRL` reads 0, in a run too. -/
theorem step_read_ctrl {t : State} (hhost : t.host = []) :
    step { t with host := [.read 0x020#32] } = .next { t with hostRdata := 0#32 } := by
  rw [step_read (s := { t with host := [.read 0x020#32] }) rfl]
  have hat : regAt 32 = some .ctrl := regAt_regOffset .ctrl
  have hread : hostReadResult { t with host := [] } 0x020#32 = .value 0#32 := by
    simp [hostReadResult, hat, regLive, regRead]
  rw [hostRead, hread, ← hhost]

/-- Settles O25: a case for each access class. -/
theorem writesAreReadBack : Obligations.WritesAreReadBack := by
  intro s r v hidle hhost
  refine ⟨regStore s r v, step_reg s r v hidle hhost, ?_, ?_, ?_, ?_⟩
  · rintro (hrw | hrwv)
    · obtain ⟨t, ht, hread, hirq⟩ := regWrite_rw hrw s v
      rw [regStore_accepted (by rintro rfl; cases hrw) ht]
      exact .inl ⟨hread, hirq⟩
    · cases hw : regWrite s v r with
      | none => exact .inr ⟨hrwv, regStore_rejected hw⟩
      | some t =>
        rw [regStore_accepted (by rintro rfl; cases hrwv) hw]
        exact .inl (regWrite_rwv hrwv hw)
  · intro hro
    exact regStore_accepted (by rintro rfl; cases hro) (regWrite_ro hro s v)
  · intro hwo
    obtain rfl : r = .ctrl := by
      cases r with
      | ctrl => rfl
      | _ => cases hwo
    exact ⟨rfl, step_read_ctrl ((ctrlWrite_host s v).trans hhost), ctrlWrite_idle hidle⟩
  · rintro rfl
    rfl

end Sys2Proof.Machine
end

section
/-! PROOFS. The interrupt bits: the output, and what a step can do to `IRQ_STATUS`. -/

namespace Sys2Proof.Machine

open Sys2Proof.Config

/-- The interrupt output is a bit that both registers have (`60_exceptions.md` R460). -/
theorem irq_eq_true_iff (s : State) : s.irq = true ↔
    ∃ b, b < 5 ∧ s.seq.irqStatus.getLsbD b = true ∧ s.seq.irqEnable.getLsbD b = true := by
  rw [State.irq, bne_iff_ne, ne_eq, ← not_iff_not]
  push Not
  constructor
  · intro h b hb hs
    have := congrArg (BitVec.getLsbD · b) h
    simpa [hs] using this
  · intro h
    ext b hb
    simpa [BitVec.getLsbD_eq_getElem hb] using h b hb

/-! ### The commands -/

/-- What a block command computes leaves the sequencer registers to its completion. -/
def KeepsSeq (s : State) (body : Computed) : Prop := ∀ e, body = .next e → e.st.seq = s.seq

section Bodies

variable {s t : State}

theorem keepsSeq_next {e : Effect} (h : e.st.seq = s.seq) : KeepsSeq s (.next e) := by
  rintro _ ⟨⟩
  exact h

theorem keepsSeq_fault (r : Fault) : KeepsSeq s (.fault r) := by rintro _ ⟨⟩

theorem keepsSeq_withWords {r : Range} {f : List Word64 → Computed} (h : ∀ ws, KeepsSeq s (f ws)) :
    KeepsSeq s (withWords s r f) := by
  rcases withWords_eq s r f with ⟨-, hw⟩ | ⟨ws, -, hw⟩
  · rw [hw]; exact keepsSeq_fault _
  · rw [hw]; exact h ws

theorem keepsSeq_withBits {base n : Nat} {f : List Bool → Effect}
    (h : ∀ bs, (f bs).st.seq = s.seq) : KeepsSeq s (withBits s base n f) := by
  rcases withBits_eq s base n f with ⟨-, hw⟩ | ⟨bs, -, hw⟩
  · rw [hw]; exact keepsSeq_fault _
  · rw [hw]; exact keepsSeq_next (h bs)

theorem keepsSeq_symCompute (src len maxout : Word32) :
    KeepsSeq s (symCompute src len maxout s) := by
  rcases symCompute_cases src len maxout s with hw | ⟨ws, -, -, hw⟩
  · rw [hw]; exact keepsSeq_fault _
  · rw [hw]; exact keepsSeq_next rfl

/-- The sequencer registers after a step of a block command. -/
theorem runBlock_next_seq {b : Blocks} {cap : Option CmdError} {body : Computed}
    (h : runBlock s b cap body = .next t) (hb : KeepsSeq s body) :
    (∃ e, t = s.errorStop e) ∨ ∃ c, t.seq = completedSeq s.seq c := by
  rcases runBlock_next h with ⟨e, rfl, -⟩ | ⟨e, rfl, -⟩ | ⟨e, -, -, he, rfl⟩
  · exact .inl ⟨e, rfl⟩
  · exact .inl ⟨e, rfl⟩
  · exact .inr ⟨e.counts, by rw [Effect.commit_seq, hb e he]⟩

@[simp] theorem resetAgc_seq (s : State) : (resetAgc s).seq = s.seq := rfl
@[simp] theorem resetFir_seq (s : State) : (resetFir s).seq = s.seq := rfl
@[simp] theorem resetScr_seq (s : State) : (resetScr s).seq = s.seq := rfl
@[simp] theorem resetDscr_seq (s : State) : (resetDscr s).seq = s.seq := rfl
@[simp] theorem resetCfc_seq (s : State) : (resetCfc s).seq = s.seq := rfl
@[simp] theorem resetPll_seq (s : State) : (resetPll s).seq = s.seq := rfl
@[simp] theorem resetSym_seq (s : State) : (resetSym s).seq = s.seq := rfl
@[simp] theorem resetFs_seq (s : State) : (resetFs s).seq = s.seq := rfl

@[simp] theorem resetUnit_seq (u : UnitSel) (s : State) : (resetUnit u s).seq = s.seq := by
  cases u <;> simp [resetUnit]

/-- The sequencer registers after a command: HALT's end of the run, an error stop, or those of a
completion. -/
theorem exec_next_seq {i : Instr} (h : exec i s = .next t) :
    t = (s.advance.endRun 1#2).setIrq irqDone ∨ (∃ e, t = s.errorStop e) ∨
    ∃ c, t.seq = completedSeq s.seq c := by
  cases i with
  | halt => cases h; exact .inl rfl
  | nop => cases h; exact .inr (.inr ⟨_, State.complete_seq _ _⟩)
  | urst u => cases h; exact .inr (.inr ⟨_, by rw [State.complete_seq, resetUnit_seq]⟩)
  | agc =>
    unfold exec execAgc at h
    exact .inr (runBlock_next_seq h (keepsSeq_withWords fun _ => keepsSeq_next rfl))
  | firdec =>
    unfold exec execFirdec at h
    refine .inr (runBlock_next_seq h (keepsSeq_withWords fun _ => ?_))
    split
    · exact keepsSeq_fault _
    · exact keepsSeq_next rfl
  | scr =>
    unfold exec execScr at h
    exact .inr (runBlock_next_seq h (keepsSeq_withBits fun _ => rfl))
  | dscr =>
    unfold exec execDscr at h
    exact .inr (runBlock_next_seq h (keepsSeq_withBits fun _ => rfl))
  | henc =>
    unfold exec execHenc at h
    exact .inr (runBlock_next_seq h (keepsSeq_withBits fun _ => rfl))
  | hdec =>
    unfold exec execHdec at h
    exact .inr (runBlock_next_seq h (keepsSeq_withBits fun _ => rfl))
  | cfc =>
    unfold exec execCfc at h
    exact .inr (runBlock_next_seq h (keepsSeq_withWords fun _ => keepsSeq_next rfl))
  | pll =>
    unfold exec execPll at h
    exact .inr (runBlock_next_seq h (keepsSeq_withWords fun _ => keepsSeq_next rfl))
  | symsync =>
    unfold exec execSymsync at h
    exact .inr (runBlock_next_seq h (keepsSeq_symCompute _ _ _))
  | fsync =>
    unfold exec execFsync at h
    refine .inr (runBlock_next_seq h (keepsSeq_withWords fun _ => ?_))
    split
    · exact keepsSeq_fault _
    · exact keepsSeq_next rfl

end Bodies

/-! ### The sequencer -/

/-- The end of a run of kind `b + 1`, which sets bit `b` (`40_control.md` R259;
`10_state.md` R60). -/
structure EndsRun (b : Nat) (q q' : SeqRegs) : Prop where
  kind : b ≤ 2
  before : q.run = true
  after : q'.run = false
  lastEnd : q'.lastEnd.toNat = b + 1
  irqStatus : q'.irqStatus = q.irqStatus ||| BitVec.twoPow 5 b

theorem endsRun_halt {s : State} (h : s.seq.run = true) :
    EndsRun 0 s.seq ((s.advance.endRun 1#2).setIrq irqDone).seq :=
  ⟨by decide, h, rfl, rfl, rfl⟩

theorem endsRun_errorStop {s : State} (h : s.seq.run = true) (e : CmdError) :
    EndsRun 1 s.seq (s.errorStop e).seq :=
  ⟨by decide, h, rfl, rfl, rfl⟩

theorem endsRun_takeStop {s : State} (h : s.seq.run = true) : EndsRun 2 s.seq s.takeStop.seq :=
  ⟨by decide, h, rfl, rfl, rfl⟩

/-- The sequencer changes the interrupt bits only where it ends a run. -/
theorem seqStep_irqStatus {s t : State} (h : seqStep s = .next t) :
    t.seq.irqStatus = s.seq.irqStatus ∨ ∃ b, EndsRun b s.seq t.seq := by
  unfold seqStep at h
  split at h
  case isFalse => cases h; exact .inl rfl
  case isTrue hrun =>
  split at h
  case isTrue => cases h; exact .inr ⟨2, endsRun_takeStop hrun⟩
  case isFalse =>
  split at h
  case h_1 e _ => cases h; exact .inr ⟨1, endsRun_errorStop hrun e⟩
  case h_2 =>
  split at h
  case h_1 => cases h
  case h_2 d _ =>
  cases d with
  | illegalOpcode opc => cases h; exact .inr ⟨1, endsRun_errorStop hrun _⟩
  | reservedField info => cases h; exact .inr ⟨1, endsRun_errorStop hrun _⟩
  | truncated => cases h
  | instr i =>
    rcases exec_next_seq h with rfl | ⟨e, rfl⟩ | ⟨c, hc⟩
    · exact .inr ⟨0, endsRun_halt hrun⟩
    · exact .inr ⟨1, endsRun_errorStop hrun e⟩
    · exact .inl (by rw [hc]; rfl)

/-! ### The host -/

/-- What a step did to the interrupt bits. -/
inductive IrqChange (s t : State) : Prop where
  | kept (h : t.seq.irqStatus = s.seq.irqStatus)
  | runEnd (b : Nat) (h : EndsRun b s.seq t.seq)
  | cleared (v : Word32) (rest : List HostAct) (hhost : s.host = .write 0x048#32 v :: rest)
      (h : t.seq.irqStatus = s.seq.irqStatus &&& ~~~(v.setWidth 5))
  | externalReset (rest : List HostAct) (hhost : s.host = .reset :: rest)
      (h : t.seq.irqStatus = 0#5)
  | softReset (v : Word32) (rest : List HostAct) (hhost : s.host = .write 0x020#32 v :: rest)
      (hv : v.getLsbD 2 = true) (hidle : s.seq.run = false) (h : t.seq.irqStatus = 0#5)
  | rejected (a v : Word32) (rest : List HostAct) (hhost : s.host = .write a v :: rest)
      (hidle : s.seq.run = false)
      (h : t = State.rejectedAt { s with host := rest } (a.setWidth 12))
  | hazard (a v : Word32) (rest : List HostAct) (hhost : s.host = .write a v :: rest)
      (hrun : s.seq.run = true) (h : t = State.hazardSet { s with host := rest })

/-- A register whose write can be rejected is not live. -/
theorem regLive_of_rejected {s : State} {v : Word32} {r : Reg} (h : regWrite s v r = none) :
    regLive r = false := by
  cases r with
  | id | version | param0 | param1 | param2 | param3 | param4 | hparam | ctrl | status | irqStatus
  | irqEnable => cases h
  | _ => rfl

/-- An accepted write of any other register keeps the interrupt bits. -/
theorem regWrite_irqStatus {s t : State} {v : Word32} {r : Reg} (hr : r ≠ .irqStatus)
    (hw : regWrite s v r = some t) : t.seq.irqStatus = s.seq.irqStatus := by
  cases hc : regAccess r with
  | rw =>
    obtain ⟨u, hu, -, hirq⟩ := regWrite_rw hc s v
    cases hu.symm.trans hw
    exact hirq
  | rwv => exact (regWrite_rwv hc hw).2
  | ro =>
    cases (regWrite_ro hc s v).symm.trans hw
    rfl
  | wo =>
    cases r with
    | ctrl => cases hw; rfl
    | _ => cases hc
  | w1c =>
    cases r with
    | irqStatus => exact absurd rfl hr
    | _ => cases hc

section Host

variable {s : State} {a v : Word32} {rest : List HostAct} (hhost : s.host = .write a v :: rest)
include hhost

theorem irqChange_ctrlWrite (ha : a = 0x020#32) :
    IrqChange s (ctrlWrite { s with host := rest } v) := by
  subst ha
  unfold ctrlWrite
  split
  case isTrue hrun =>
    split
    · exact .hazard _ v rest hhost hrun rfl
    · split <;> exact .kept rfl
  case isFalse hidle =>
    split
    case isTrue hv => exact .softReset v rest hhost hv (Bool.eq_false_of_not_eq_true hidle) rfl
    case isFalse => split <;> exact .kept rfl

/-- The write of a register that answers: the idle core's, or a live register's. -/
theorem irqChange_regStore {r : Reg} (hoff : regOffset r = a.toNat)
    (hlive : s.seq.run = true → regLive r = true) :
    IrqChange s (regStore { s with host := rest } r v) := by
  by_cases hctrl : r = .ctrl
  · subst hctrl
    exact irqChange_ctrlWrite hhost (BitVec.eq_of_toNat_eq hoff.symm)
  cases hw : regWrite { s with host := rest } v r with
  | none =>
    have hidle : s.seq.run = false := by
      cases hrun : s.seq.run with
      | false => rfl
      | true => exact absurd (hlive hrun) (by simp [regLive_of_rejected hw])
    rw [regStore_rejected hw, hoff, BitVec.ofNat_toNat]
    exact .rejected a v rest hhost hidle rfl
  | some t =>
    rw [regStore_accepted hctrl hw]
    by_cases hr : r = .irqStatus
    · subst hr
      cases hw
      have ha : a = 0x048#32 := BitVec.eq_of_toNat_eq hoff.symm
      exact .cleared v rest (ha ▸ hhost) rfl
    · have hirq := regWrite_irqStatus hr hw
      exact .kept hirq

theorem irqChange_hostWrite : IrqChange s (hostWrite { s with host := rest } a v) := by
  unfold hostWrite
  dsimp only
  split
  case isTrue => exact .kept rfl
  case isFalse =>
  split
  case isTrue =>
    split
    case h_1 r hat =>
      split
      case isTrue h => exact .hazard a v rest hhost (Bool.and_eq_true_iff.1 h).1 rfl
      case isFalse h =>
        exact irqChange_regStore hhost (regAt_eq_some.1 hat) (by simpa using h)
    case h_2 =>
      split
      case isTrue hrun => exact .hazard a v rest hhost hrun rfl
      case isFalse => exact .kept rfl
  case isFalse =>
    split
    case isTrue hrun =>
      split
      · exact .hazard a v rest hhost hrun rfl
      · exact .kept rfl
    case isFalse => split <;> exact .kept rfl

end Host

theorem hostRead_seq (s : State) (a : Word32) : (hostRead s a).seq = s.seq := by
  unfold hostRead
  split <;> rfl

theorem externalReset_seq (s : State) : s.externalReset.seq = seqReset := by
  unfold State.externalReset
  split <;> rfl

theorem irqChange_of_seqStep {s t u : State} (h : seqStep u = .next t) (hu : u.seq = s.seq) :
    IrqChange s t := by
  rcases seqStep_irqStatus h with hirq | ⟨b, hend⟩
  · exact .kept (hu ▸ hirq)
  · exact .runEnd b (hu ▸ hend)

/-- Everything that a step can do to the interrupt bits. -/
theorem irqChange_of_step {s t : State} (h : step s = .next t) : IrqChange s t := by
  cases hhost : s.host with
  | nil => exact irqChange_of_seqStep ((step_seq hhost).symm.trans h) rfl
  | cons act rest =>
    cases act with
    | write a v => cases (step_write hhost).symm.trans h; exact irqChange_hostWrite hhost
    | read a =>
      cases (step_read hhost).symm.trans h
      exact .kept (by rw [hostRead_seq])
    | reset =>
      cases (step_reset hhost).symm.trans h
      exact .externalReset rest hhost (by rw [externalReset_seq]; rfl)
    | wait => exact irqChange_of_seqStep ((step_wait hhost).symm.trans h) rfl

section Bits

variable {s t : State} {b : Nat}

theorem IrqChange.cleared_cases (h : IrqChange s t) (hs : s.seq.irqStatus.getLsbD b = true)
    (ht : t.seq.irqStatus.getLsbD b = false) :
    (∃ v rest, s.host = .write 0x048#32 v :: rest ∧ v.getLsbD b = true) ∨
    (∃ rest, s.host = .reset :: rest) ∨
    (∃ v rest, s.host = .write 0x020#32 v :: rest ∧ v.getLsbD 2 = true ∧ s.seq.run = false) := by
  cases h with
  | kept h => simp [h, hs] at ht
  | runEnd k h => simp [h.irqStatus, hs] at ht
  | cleared v rest hhost h =>
    refine .inl ⟨v, rest, hhost, ?_⟩
    have hb : b < 5 := BitVec.lt_of_getLsbD hs
    simpa [h, hs, hb] using ht
  | externalReset rest hhost h => exact .inr (.inl ⟨rest, hhost⟩)
  | softReset v rest hhost hv hidle h => exact .inr (.inr ⟨v, rest, hhost, hv, hidle⟩)
  | rejected a v rest hhost hidle h => simp [h, State.rejectedAt, hs] at ht
  | hazard a v rest hhost hrun h => simp [h, State.hazardSet, hs] at ht

/-- The bit that an OR with one bit set is that bit. -/
theorem eq_of_set {x : BitVec 5} {k : Nat} (hs : x.getLsbD b = false)
    (ht : (x ||| BitVec.twoPow 5 k).getLsbD b = true) : b = k := by
  rw [BitVec.getLsbD_or, hs, Bool.false_or, BitVec.getLsbD_twoPow, Bool.and_eq_true] at ht
  exact (of_decide_eq_true ht.2).symm

theorem IrqChange.set_cases (h : IrqChange s t) (hs : s.seq.irqStatus.getLsbD b = false)
    (ht : t.seq.irqStatus.getLsbD b = true) :
    (b ≤ 2 ∧ s.seq.run = true ∧ t.seq.run = false ∧ t.seq.lastEnd.toNat = b + 1) ∨
    (b = 3 ∧ s.seq.run = false ∧ ∃ a v rest, s.host = .write a v :: rest ∧
      t = State.rejectedAt { s with host := rest } (a.setWidth 12)) ∨
    (b = 4 ∧ s.seq.run = true ∧ ∃ a v rest, s.host = .write a v :: rest ∧
      t = State.hazardSet { s with host := rest }) := by
  cases h with
  | kept h => simp [h, hs] at ht
  | runEnd k h =>
    obtain rfl : b = k := eq_of_set hs (h.irqStatus ▸ ht)
    exact .inl ⟨h.kind, h.before, h.after, h.lastEnd⟩
  | cleared v rest hhost h => simp [h, hs] at ht
  | externalReset rest hhost h => simp [h] at ht
  | softReset v rest hhost hv hidle h => simp [h] at ht
  | rejected a v rest hhost hidle h =>
    subst h
    exact .inr (.inl ⟨eq_of_set (k := 3) hs ht, hidle, a, v, rest, hhost, rfl⟩)
  | hazard a v rest hhost hrun h =>
    subst h
    exact .inr (.inr ⟨eq_of_set (k := 4) hs ht, hrun, a, v, rest, hhost, rfl⟩)

end Bits

/-- Settles O30: the output is an AND, and a step does one of seven things to the bits. -/
theorem interruptBitsFollowTheirEvents : Obligations.InterruptBitsFollowTheirEvents :=
  ⟨irq_eq_true_iff, fun _ _ _ h =>
    ⟨(irqChange_of_step h).cleared_cases, (irqChange_of_step h).set_cases⟩⟩

end Sys2Proof.Machine
end

section
/-! PROOFS. What a step of the sequencer can do: what each command's effect keeps and how much it
writes, the outcomes of a step by name, and the blocks of DMEM that a step writes. -/

namespace Sys2Proof.Machine

open Sys2Proof.Config

/-! ### Writes inside DMEM -/

/-- `m'` is `m` after writes of blocks that are empty or inside DMEM. -/
inductive DmemWrites (p : Params) (m : Memory) : Memory → Prop where
  | refl : DmemWrites p m m
  | block {m' : Memory} (h : DmemWrites p m m') (base : Nat) (ws : List Word64)
      (hin : ws.length = 0 ∨ base + ws.length ≤ p.dmemWords) :
      DmemWrites p m (m'.writeBlock base ws)

theorem DmemWrites.get_outside {p : Params} {m m' : Memory} (h : DmemWrites p m m') {a : Nat}
    (ha : a < dmemBase ∨ dmemAddr p.dmemWords ≤ a) : m'.get a = m.get a := by
  induction h with
  | refl => rfl
  | block h base ws hin ih =>
    refine (Memory.get_writeBlock_outside _ ?_).trans ih
    unfold dmemAddr at *
    omega

theorem DmemWrites.wf {p : Params} {m m' : Memory} (h : DmemWrites p m m') (hm : m.wf) :
    m'.wf := by
  induction h with
  | refl => exact hm
  | block h base ws hin ih => exact Memory.wf_writeBlock ih base ws

theorem DmemWrites.mem_cell {p : Params} {m m' : Memory} (h : DmemWrites p m m') {c : Host.Cell}
    (hc : c ∈ m') : (dmemBase ≤ c.1 ∧ c.1 < dmemAddr p.dmemWords) ∨ c ∈ m := by
  induction h with
  | refl => exact .inr hc
  | block h base ws hin ih =>
    rcases Memory.mem_writeBlock hc with hb | hc
    · left
      unfold dmemAddr at *
      omega
    · exact ih hc

/-! ### The configuration -/

/-- The SYM registers that commands do not write. -/
def SymUnit.config (u : SymUnit) : SymUnit :=
  { u with mu := fzero, cnt := fzero, vi := fzero, strobe := false, h0 := czero, h1 := czero,
           h2 := czero, tb := [], prev := czero }

/-- The state with everything that a command may write made blank (`40_control.md` R265): the
carried state of the units, the sequencer registers and the memory. -/
def State.config (s : State) : State :=
  { s with
    seq := seqReset
    mem := []
    agc := { s.agc with gain := fzero, ph := [] }
    fir := { s.fir with dl := [] }
    scr := { s.scr with state := 0#32, dstate := 0#32 }
    cfc := { s.cfc with phase := fzero, fest := fzero, buf := [] }
    pll := { s.pll with phase := fzero, freq := fzero }
    sym := s.sym.config
    fs := { s.fs with outcome := .search, dl := [], raw := [], mag := [] } }

/-! ### Loops keep what each sample keeps -/

theorem scanBlock_keeps {σ α β : Type} {P : σ → Prop} {f : σ → α → σ × β}
    (hf : ∀ st x, P st → P (f st x).1) {st : σ} (h : P st) (xs : List α) :
    P (scanBlock f st xs).1 := by
  induction xs generalizing st with
  | nil => exact h
  | cons x xs ih => exact ih (hf st x h)

theorem symRun_keeps {P : SymUnit → Prop} {p : Params} {m : Modulation}
    (hf : ∀ u x, P u → P (symSample p m u x).1) (cap : Option Nat) {u : SymUnit} (h : P u)
    (xs : List C32) : P (symRun p m cap u xs).unit := by
  induction xs generalizing cap u with
  | nil => exact h
  | cons x xs ih =>
    have h' := hf u x h
    unfold symRun
    split
    · next u' he => rw [he] at h'; exact ih cap h'
    · next u' z he =>
      rw [he] at h'
      split
      · exact h'
      · exact ih _ h'

theorem symRun_config (p : Params) (m : Modulation) (cap : Option Nat) (u : SymUnit)
    (xs : List C32) : (symRun p m cap u xs).unit.config = u.config :=
  symRun_keeps (P := fun v => v.config = u.config) (fun _ _ h => h) cap rfl xs

theorem agcRun_ph_length {p : Params} {u : AgcUnit} (h : u.ph.length = p.maxAgcN)
    (xs : List C32) : (agcRun p u xs).1.ph.length = p.maxAgcN :=
  scanBlock_keeps (P := fun st : AgcLoop => st.ph.length = p.maxAgcN)
    (fun st x => pushFront_length _ (cabs2 x) st.ph) h xs

theorem filterRun_line_length {n : Nat} {dl : List C32} (h : dl.length = n)
    (taps xs : List C32) : (filterRun n taps dl xs).1.length = n :=
  scanBlock_keeps (P := fun dl : List C32 => dl.length = n)
    (fun dl x => pushFront_length n x dl) h xs

theorem cfcFill_length {p : Params} {buf : List C32} (h : buf.length = p.maxFft) (m : Modulation)
    (xs : List C32) : (cfcFill p m buf xs).length = p.maxFft := by
  induction xs generalizing buf with
  | nil => exact h
  | cons x xs ih => exact ih (pushFront_length _ (powerM m x) buf h)

/-! ### The effects of the commands -/

/-- An effect that keeps the configuration, the sequencer registers and the memory, keeps the
lengths of the hidden lists, and writes no more words than its ranges have. -/
structure Effect.Within (s : State) (b : Blocks) (e : Effect) : Prop where
  seq : e.st.seq = s.seq
  mem : e.st.mem = s.mem
  config : e.st.config = s.config
  sizes : SizesOk s → SizesOk e.st
  out_le : e.out.length ≤ b.out.len
  aux_le : ∀ a, b.aux = some a → e.aux.length ≤ a.len

theorem len_of_auxRange {auxw : Bool} {aux : Word32} {n : Nat} {a : Range}
    (h : auxRange auxw aux n = some a) : a.len = n := by
  cases auxw with
  | false => cases h
  | true => cases h; rfl

section Effects

variable {s : State} {dst src len maxout aux : Word32} {auxw : Bool} {ws : List Word64}
  {bs : List Bool}

theorem agcEffect_within (hl : ws.length = len.toNat) :
    (agcEffect len s ws).Within s (agcBlocks dst src len auxw aux) where
  seq := rfl
  mem := rfl
  config := rfl
  sizes := fun ⟨hph, hrest⟩ => ⟨agcRun_ph_length hph _, hrest⟩
  out_le := by rw [agcEffect_out_length, hl]; exact Nat.le_refl _
  aux_le a ha := by rw [agcEffect_aux_length, hl, len_of_auxRange ha]

theorem firEffect_within (taps : List C32) :
    (firEffect len s taps ws).Within s (firBlocks s.fir dst src len) where
  seq := rfl
  mem := rfl
  config := rfl
  sizes := fun ⟨hph, hdl, hrest⟩ => ⟨hph, filterRun_line_length hdl _ _, hrest⟩
  out_le := by rw [firEffect_out_length]; exact Nat.le_refl _
  aux_le := nofun

theorem scrEffect_within (hl : bs.length = len.toNat) :
    (scrEffect len s bs).Within s (scrBlocks dst src len) where
  seq := rfl
  mem := rfl
  config := rfl
  sizes := id
  out_le := by rw [scrEffect_out_length, hl]; exact Nat.le_refl _
  aux_le := nofun

theorem dscrEffect_within (hl : bs.length = len.toNat) :
    (dscrEffect len s bs).Within s (scrBlocks dst src len) where
  seq := rfl
  mem := rfl
  config := rfl
  sizes := id
  out_le := by rw [dscrEffect_out_length, hl]; exact Nat.le_refl _
  aux_le := nofun

theorem hencEffect_within (hl : bs.length = 4 * (len.toNat / 4)) :
    (hencEffect len s bs).Within s (hencBlocks dst src len) where
  seq := rfl
  mem := rfl
  config := rfl
  sizes := id
  out_le := by
    rw [hencEffect_out_length, hl, Nat.mul_div_cancel_left _ (by omega)]
    exact Nat.le_refl _
  aux_le := nofun

theorem hdecEffect_within (hl : bs.length = 7 * (len.toNat / 7)) :
    (hdecEffect len s bs).Within s (hdecBlocks dst src len auxw aux) where
  seq := rfl
  mem := rfl
  config := rfl
  sizes := id
  out_le := by
    rw [hdecEffect_out_length, hl, Nat.mul_div_cancel_left _ (by omega)]
    exact Nat.le_refl _
  aux_le a ha := by
    rw [hdecEffect_aux_length, hl, Nat.mul_div_cancel_left _ (by omega), len_of_auxRange ha]

theorem cfcEffect_within (hl : ws.length = len.toNat) :
    (cfcEffect len s ws).Within s (cfcBlocks dst src len auxw aux) where
  seq := rfl
  mem := rfl
  config := rfl
  sizes := fun ⟨hph, hdl, hbuf, hrest⟩ => ⟨hph, hdl, cfcFill_length hbuf _ _, hrest⟩
  out_le := by rw [cfcEffect_out_length, hl]; exact Nat.le_refl _
  aux_le a ha := by rw [cfcEffect_aux_length, len_of_auxRange ha]

theorem pllEffect_within (hl : ws.length = len.toNat) :
    (pllEffect len s ws).Within s (pllBlocks dst src len) where
  seq := rfl
  mem := rfl
  config := rfl
  sizes := id
  out_le := by rw [pllEffect_out_length, hl]; exact Nat.le_refl _
  aux_le := nofun

theorem symEffect_within (hl : ws.length ≤ len.toNat) :
    (symEffect maxout s ws).Within s (symBlocks dst src len maxout) where
  seq := rfl
  mem := rfl
  config := congrArg (fun u => { s.config with sym := u }) (symRun_config ..)
  sizes := fun ⟨hph, hdl, hbuf, htb, hrest⟩ =>
    ⟨hph, hdl, hbuf, symRun_tb_length _ _ _ _ _ htb, hrest⟩
  out_le := symEffect_out_length hl
  aux_le := nofun

theorem cfcCapacity_eq_none : cfcCapacity s len = none ↔ len.toNat ≤ s.cfc.nfft.toNat := by
  simp [cfcCapacity]

theorem fsCapacity_eq_none :
    fsCapacity s len = none ↔ s.fs.raw.length + len.toNat ≤ s.par.fsyncCap := by
  simp [fsCapacity]

/-- The sample buffer of FSYNC stays within its capacity because the block was checked against it
(`48_framesync.md` R424). -/
theorem fsEffect_within (pre : List C32) (hcap : fsCapacity s len = none)
    (hl : ws.length = len.toNat) :
    (fsEffect len s pre ws).Within s (fsBlocks s.fs dst src len auxw aux) where
  seq := rfl
  mem := rfl
  config := rfl
  sizes := by
    rintro ⟨hph, hdl, hbuf, htb, hline, hmag, -⟩
    have hroom := fsCapacity_eq_none.1 hcap
    refine ⟨hph, hdl, hbuf, htb, filterRun_line_length hline _ _, ?_, ?_⟩
    · simp [fsEffect, hmag]
    · simp only [fsEffect, List.length_drop, List.length_append, List.length_map, hl]
      omega
  out_le := fsEffect_out_length pre
  aux_le a ha := by rw [fsEffect_aux_length, len_of_auxRange ha]

end Effects

/-! ### The control commands as effects -/

/-- The operand ranges of a command that has none. -/
def noBlocks : Blocks := ⟨⟨0, 0⟩, ⟨0, 0⟩, none⟩

/-- What a control command does before it completes: nothing to memory, with zero counts. -/
def controlEffect (s : State) : Effect := ⟨s, [], [], ⟨0#32, 0#32, 0#32⟩⟩

theorem complete_eq_commit (s : State) :
    s.complete ⟨0#32, 0#32, 0#32⟩ = (controlEffect s).commit noBlocks := rfl

theorem operandsFit_noBlocks (s : State) : OperandsFit s noBlocks :=
  ⟨⟨.inl rfl, .inl rfl, .inl rfl, .inl rfl⟩, trivial⟩

theorem sizesOk_resetUnit {s : State} (u : UnitSel) (h : SizesOk s) : SizesOk (resetUnit u s) := by
  obtain ⟨hph, hdl, hbuf, htb, hline, hmag, hraw⟩ := h
  cases u with
  | agc => exact ⟨List.length_replicate, hdl, hbuf, htb, hline, hmag, hraw⟩
  | fir => exact ⟨hph, List.length_replicate, hbuf, htb, hline, hmag, hraw⟩
  | cfc => exact ⟨hph, hdl, List.length_replicate, htb, hline, hmag, hraw⟩
  | sym => exact ⟨hph, hdl, hbuf, List.length_replicate, hline, hmag, hraw⟩
  | fsync => exact ⟨hph, hdl, hbuf, htb, List.length_replicate, rfl, Nat.zero_le _⟩
  | scr | dscr | pll => exact ⟨hph, hdl, hbuf, htb, hline, hmag, hraw⟩
  | all =>
    exact ⟨List.length_replicate, List.length_replicate, List.length_replicate,
      List.length_replicate, List.length_replicate, rfl, Nat.zero_le _⟩

@[simp] theorem resetAgc_config (s : State) : (resetAgc s).config = s.config := rfl
@[simp] theorem resetFir_config (s : State) : (resetFir s).config = s.config := rfl
@[simp] theorem resetScr_config (s : State) : (resetScr s).config = s.config := rfl
@[simp] theorem resetDscr_config (s : State) : (resetDscr s).config = s.config := rfl
@[simp] theorem resetCfc_config (s : State) : (resetCfc s).config = s.config := rfl
@[simp] theorem resetPll_config (s : State) : (resetPll s).config = s.config := rfl
@[simp] theorem resetSym_config (s : State) : (resetSym s).config = s.config := rfl
@[simp] theorem resetFs_config (s : State) : (resetFs s).config = s.config := rfl

@[simp] theorem resetUnit_config (u : UnitSel) (s : State) :
    (resetUnit u s).config = s.config := by
  cases u <;> simp [resetUnit]

theorem nopEffect_within (s : State) : (controlEffect s).Within s noBlocks :=
  ⟨rfl, rfl, rfl, id, Nat.le_refl _, nofun⟩

theorem urstEffect_within (u : UnitSel) (s : State) :
    (controlEffect (resetUnit u s)).Within s noBlocks where
  seq := resetUnit_seq u s
  mem := by cases u <;> rfl
  config := resetUnit_config u s
  sizes := sizesOk_resetUnit u
  out_le := Nat.le_refl _
  aux_le := nofun

/-! ### The outcomes of a step -/

/-- What a step of the sequencer leaves (`40_control.md` R257): an idle core, a stop request taken,
an error stop, the end of a run by HALT, or a completed command whose descriptor lies inside DMEM. -/
inductive StepOutcome (s : State) : State → Prop where
  | idle : StepOutcome s s
  | stopTaken : StepOutcome s s.takeStop
  | stopped (e : CmdError) (hcode : e.code.toNat ≤ 6) : StepOutcome s (s.errorStop e)
  | halted : StepOutcome s ((s.advance.endRun 1#2).setIrq irqDone)
  | completed (b : Blocks) (e : Effect) (hptr : s.ptr + 4 ≤ s.par.dmemWords)
      (hfit : OperandsFit s b) (hwithin : e.Within s b) : StepOutcome s (e.commit b)

theorem withWords_next {s : State} {r : Range} {f : List Word64 → Computed} {e : Effect}
    (h : withWords s r f = .next e) :
    ∃ ws, ws.length = r.len ∧ f ws = .next e := by
  rcases withWords_eq s r f with ⟨-, hw⟩ | ⟨ws, hr, hw⟩
  · cases hw.symm.trans h
  · exact ⟨ws, Memory.readBlock_length hr, hw.symm.trans h⟩

theorem withBits_next {s : State} {base n : Nat} {f : List Bool → Effect} {e : Effect}
    (h : withBits s base n f = .next e) : ∃ bs, bs.length = n ∧ f bs = e := by
  rcases withBits_eq s base n f with ⟨-, hw⟩ | ⟨bs, hr, hw⟩
  · cases hw.symm.trans h
  · cases hw.symm.trans h
    exact ⟨bs, Memory.readBits_length hr, rfl⟩

section Outcomes

variable {s t : State}

theorem operandError_code_le {b : Blocks} {e : CmdError}
    (h : operandError s.par s.ptr b = some e) : e.code.toNat ≤ 6 := by
  rcases operandError_code h with ⟨hc, -⟩ | ⟨hc, -⟩ <;> rw [hc] <;> decide

theorem cfcCapacity_code_le {len : Word32} {e : CmdError} (h : cfcCapacity s len = some e) :
    e.code.toNat ≤ 6 := by
  unfold cfcCapacity at h
  split at h
  · cases h; decide
  · cases h

theorem fsCapacity_code_le {len : Word32} {e : CmdError} (h : fsCapacity s len = some e) :
    e.code.toNat ≤ 6 := by
  unfold fsCapacity at h
  split at h
  · cases h; decide
  · cases h

theorem fetchError_code_le {e : CmdError} (h : fetchError s = some e) : e.code.toNat ≤ 6 := by
  unfold fetchError at h
  split at h
  · cases h; decide
  · split at h
    · cases h; decide
    · cases h

variable (hptr : s.ptr + 4 ≤ s.par.dmemWords)
include hptr

theorem runBlock_outcome {b : Blocks} {cap : Option CmdError} {body : Computed}
    (hcap : ∀ e, cap = some e → e.code.toNat ≤ 6)
    (hbody : ∀ e, cap = none → body = .next e → e.Within s b)
    (h : runBlock s b cap body = .next t) : StepOutcome s t := by
  rcases runBlock_next h with ⟨e, rfl, he⟩ | ⟨e, rfl, -, he⟩ | ⟨e, hfit, hnone, he, rfl⟩
  · exact .stopped e (operandError_code_le he)
  · exact .stopped e (hcap e he)
  · exact .completed b e hptr hfit (hbody e hnone he)

theorem runBlock_outcome_uncapped {b : Blocks} {body : Computed}
    (hbody : ∀ e, body = .next e → e.Within s b) (h : runBlock s b none body = .next t) :
    StepOutcome s t :=
  runBlock_outcome hptr (cap := none) nofun (fun e _ => hbody e) h

theorem withBits_outcome {b : Blocks} {base n : Nat} {f : List Bool → Effect}
    (hf : ∀ bs, bs.length = n → (f bs).Within s b)
    (h : runBlock s b none (withBits s base n f) = .next t) : StepOutcome s t := by
  refine runBlock_outcome_uncapped hptr (fun e he => ?_) h
  obtain ⟨bs, hl, rfl⟩ := withBits_next he
  exact hf bs hl

/-- Everything that a command can do whose descriptor lies inside DMEM. -/
theorem exec_outcome {i : Instr} (h : exec i s = .next t) : StepOutcome s t := by
  cases i with
  | halt => cases h; exact .halted
  | nop =>
    cases h
    rw [complete_eq_commit]
    exact .completed noBlocks (controlEffect s) hptr (operandsFit_noBlocks s) (nopEffect_within s)
  | urst u =>
    cases h
    rw [complete_eq_commit]
    exact .completed noBlocks (controlEffect (resetUnit u s)) hptr (operandsFit_noBlocks s)
      (urstEffect_within u s)
  | agc dst src len auxw aux =>
    refine runBlock_outcome_uncapped hptr (fun e he => ?_) h
    obtain ⟨ws, hl, ⟨⟩⟩ := withWords_next he
    exact agcEffect_within hl
  | firdec dst src len =>
    refine runBlock_outcome_uncapped hptr (fun e he => ?_) h
    obtain ⟨ws, -, he⟩ := withWords_next he
    split at he
    · cases he
    · cases he; exact firEffect_within _
  | scr => exact withBits_outcome hptr (fun _ => scrEffect_within) h
  | dscr => exact withBits_outcome hptr (fun _ => dscrEffect_within) h
  | henc => exact withBits_outcome hptr (fun _ => hencEffect_within) h
  | hdec => exact withBits_outcome hptr (fun _ => hdecEffect_within) h
  | cfc dst src len auxw aux =>
    refine runBlock_outcome hptr (fun e => cfcCapacity_code_le) (fun e _ he => ?_) h
    obtain ⟨ws, hl, ⟨⟩⟩ := withWords_next he
    exact cfcEffect_within hl
  | pll dst src len =>
    refine runBlock_outcome_uncapped hptr (fun e he => ?_) h
    obtain ⟨ws, hl, ⟨⟩⟩ := withWords_next he
    exact pllEffect_within hl
  | symsync dst src len maxout =>
    refine runBlock_outcome_uncapped hptr (fun e he => ?_) h
    rcases symCompute_cases src len maxout s with hw | ⟨ws, hl, -, hw⟩
    · cases hw.symm.trans he
    · cases hw.symm.trans he
      exact symEffect_within hl
  | fsync dst src len auxw aux =>
    refine runBlock_outcome hptr (fun e => fsCapacity_code_le) (fun e hcap he => ?_) h
    obtain ⟨ws, hl, he⟩ := withWords_next he
    split at he
    · cases he
    · cases he; exact fsEffect_within _ hcap hl

omit hptr

/-- Everything that a step of the sequencer can do. -/
theorem seqStep_outcome (h : seqStep s = .next t) : StepOutcome s t := by
  unfold seqStep at h
  split at h
  case isFalse => cases h; exact .idle
  case isTrue =>
  split at h
  case isTrue => cases h; exact .stopTaken
  case isFalse =>
  split at h
  case h_1 e he => cases h; exact .stopped e (fetchError_code_le he)
  case h_2 hfetch =>
  split at h
  case h_1 => cases h
  case h_2 d _ =>
  cases d with
  | illegalOpcode opc => cases h; exact .stopped _ (show (2#8).toNat ≤ 6 by decide)
  | reservedField info => cases h; exact .stopped _ (show (3#8).toNat ≤ 6 by decide)
  | truncated => cases h
  | instr i => exact exec_outcome (fetchError_eq_none.1 hfetch).2 h

/-! ### What a step writes -/

/-- A completed command writes its output and auxiliary blocks and its `W3`, all inside DMEM. -/
theorem Effect.Within.dmemWrites {b : Blocks} {e : Effect} (hw : e.Within s b)
    (hptr : s.ptr + 4 ≤ s.par.dmemWords) (hfit : OperandsFit s b) :
    DmemWrites s.par s.mem (e.commit b).mem := by
  have hst : e.st.ptr = s.ptr := congrArg (fun q => q.cmdPtr.toNat) hw.seq
  rw [Effect.commit_mem, hw.mem, hst]
  obtain ⟨⟨-, hout, -, -⟩, haux⟩ := hfit
  have hle := hw.out_le
  have hblock : DmemWrites s.par s.mem (s.mem.writeBlock b.out.base e.out) :=
    DmemWrites.refl.block _ _ (by unfold Range.Inside at *; omega)
  refine DmemWrites.block ?_ _ _ (.inr (by simp only [List.length_singleton]; omega))
  cases hb : b.aux with
  | none => exact hblock
  | some a =>
    rw [hb] at haux
    obtain ⟨hin, -⟩ := haux
    have hle := hw.aux_le a hb
    exact hblock.block _ _ (by unfold Range.Inside at *; omega)

theorem StepOutcome.dmemWrites (h : StepOutcome s t) : DmemWrites s.par s.mem t.mem := by
  cases h with
  | idle | stopTaken | stopped | halted => exact .refl
  | completed b e hptr hfit hwithin => exact hwithin.dmemWrites hptr hfit

end Outcomes

/-- Settles O13: a step writes blocks inside DMEM and nothing else. -/
theorem sequencerWritesDmemOnly : Obligations.SequencerWritesDmemOnly := by
  intro s t hhost hstep a ha
  exact (seqStep_outcome ((step_seq hhost).symm.trans hstep)).dmemWrites.get_outside ha

end Sys2Proof.Machine
end

section
/-! PROOFS. Host accesses: what each kind of read and write does, in a run and of an idle core. -/

namespace Sys2Proof.Machine

open Sys2Proof.Config

/-! ### The windows -/

theorem isMemAddr_iff {p : Params} {a : Nat} : isMemAddr p a = true ↔
    (0x1000 ≤ a ∧ a < 0x1000 + 8 * p.maxFirTaps) ∨ (0x2000 ≤ a ∧ a < 0x2000 + 8 * p.maxPreLen) ∨
    (0x100000 ≤ a ∧ a < 0x100000 + 8 * p.dmemWords) := by
  simp only [isMemAddr, Bool.or_eq_true, Bool.and_eq_true, decide_eq_true_eq, or_assoc]
  rfl

theorem isWindowAddr_iff {p : Params} {a : Nat} : isWindowAddr p a = true ↔
    (0x1000 ≤ a ∧ a < 0x3000) ∨ (0x100000 ≤ a ∧ a < 0x100000 + 8 * p.dmemWords) := by
  simp only [isWindowAddr, Bool.or_eq_true, Bool.and_eq_true, decide_eq_true_eq]
  rfl

/-! ### Writes -/

section Writes

variable {s : State} {a v : Word32}

theorem hostWrite_misaligned (h : a.toNat % 4 ≠ 0) : hostWrite s a v = s := if_pos h

theorem hostWrite_control {r : Reg} (ha : regOffset r = a.toNat) : hostWrite s a v =
    if s.seq.run && !regLive r then s.setIrq irqHaz else regStore s r v := by
  obtain ⟨hlt, halign⟩ := regOffset_spec r
  rw [ha] at hlt halign
  have hat : regAt a.toNat = some r := regAt_eq_some.2 ha
  simp only [hostWrite, halign, hlt, hat, ne_eq, not_true_eq_false, if_false, if_true]

theorem hostWrite_unnamed (halign : a.toNat % 4 = 0) (hlt : a.toNat < 0x1000)
    (hat : regAt a.toNat = none) :
    hostWrite s a v = if s.seq.run then s.setIrq irqHaz else s := by
  simp only [hostWrite, halign, hlt, hat, ne_eq, not_true_eq_false, if_false, if_true]

theorem hostWrite_above (halign : a.toNat % 4 = 0) (hge : 0x1000 ≤ a.toNat) :
    hostWrite s a v =
      if s.seq.run then if isWindowAddr s.par a.toNat then s.setIrq irqHaz else s
      else if isMemAddr s.par a.toNat then { s with mem := s.mem.setHalf a.toNat v } else s := by
  simp only [hostWrite, halign, Nat.not_lt.2 hge, ne_eq, not_true_eq_false, if_false]

/-- Everything that a host write can do (`20_memory.md` R153, R154, R171). -/
inductive WriteOutcome (s : State) (a v : Word32) : State → Prop where
  | ignored : WriteOutcome s a v s
  | hazard : WriteOutcome s a v (s.setIrq irqHaz)
  | register (r : Reg) : WriteOutcome s a v (regStore s r v)
  | memory (halign : a.toNat % 4 = 0) (hin : isMemAddr s.par a.toNat = true) :
      WriteOutcome s a v { s with mem := s.mem.setHalf a.toNat v }

theorem hostWrite_outcome (s : State) (a v : Word32) : WriteOutcome s a v (hostWrite s a v) := by
  by_cases halign : a.toNat % 4 = 0
  case neg => rw [hostWrite_misaligned halign]; exact .ignored
  by_cases hlt : a.toNat < 0x1000
  case pos =>
    cases hat : regAt a.toNat with
    | some r =>
      rw [hostWrite_control (regAt_eq_some.1 hat)]
      split
      · exact .hazard
      · exact .register r
    | none =>
      rw [hostWrite_unnamed halign hlt hat]
      split
      · exact .hazard
      · exact .ignored
  case neg =>
    rw [hostWrite_above halign (Nat.not_lt.1 hlt)]
    split
    · split
      · exact .hazard
      · exact .ignored
    · split
      · next hin => exact .memory halign hin
      · exact .ignored

end Writes

/-! ### Reads -/

section Reads

variable {s : State} {a : Word32}

theorem hostRead_value {v : Word32} (h : hostReadResult s a = .value v) :
    hostRead s a = { s with hostRdata := v } := by
  rw [hostRead, h]

/-- A read changes what the host has read and the counter of free values. -/
theorem hostRead_eq (s : State) (a : Word32) :
    ∃ v n, hostRead s a = { s with hostRdata := v, draws := n } := by
  unfold hostRead
  split
  · exact ⟨_, s.draws, rfl⟩
  · exact ⟨_, _, rfl⟩

theorem hostRead_misaligned (h : a.toNat % 4 ≠ 0) :
    hostRead s a = { s with hostRdata := 0#32 } := hostRead_value (if_pos h)

theorem hostRead_control {r : Reg} (ha : regOffset r = a.toNat)
    (hr : s.seq.run = false ∨ regLive r = true) :
    hostRead s a = { s with hostRdata := regRead s r } := by
  obtain ⟨hlt, halign⟩ := regOffset_spec r
  rw [ha] at hlt halign
  have hat : regAt a.toNat = some r := regAt_eq_some.2 ha
  have hans : (s.seq.run && !regLive r) = false := by
    rcases hr with hr | hr <;> simp [hr]
  refine hostRead_value ?_
  simp only [hostReadResult, halign, hlt, hat, hans, ne_eq, not_true_eq_false, if_false, if_true,
    Bool.false_eq_true]

theorem hostRead_memory {v : Word32} (hidle : s.seq.run = false) (halign : a.toNat % 4 = 0)
    (hin : isMemAddr s.par a.toNat = true) (hv : s.mem.getHalf a.toNat = some v) :
    hostRead s a = { s with hostRdata := v } := by
  have hge : ¬ a.toNat < 0x1000 := by
    have := isMemAddr_iff.1 hin
    omega
  refine hostRead_value ?_
  simp only [hostReadResult, halign, hge, hidle, hin, hv, ne_eq, not_true_eq_false, if_false,
    if_true, Bool.false_eq_true]

/-- The control offsets that no rule names read 0 (`10_state.md` R50). -/
theorem hostRead_unnamed (hidle : s.seq.run = false) (hlt : a.toNat < 0x1000)
    (hno : ∀ r, regOffset r ≠ a.toNat) : hostRead s a = { s with hostRdata := 0#32 } := by
  by_cases halign : a.toNat % 4 = 0
  case neg => exact hostRead_misaligned halign
  have hat : regAt a.toNat = none := by
    cases h : regAt a.toNat with
    | none => rfl
    | some r => exact absurd (regAt_eq_some.1 h) (hno r)
  refine hostRead_value ?_
  simp only [hostReadResult, halign, hlt, hat, hidle, ne_eq, not_true_eq_false, if_false, if_true,
    Bool.false_eq_true]

end Reads

/-! ### The statements -/

/-- Settles O27: both accesses look at the alignment first. -/
theorem misalignedAccessIsIgnored : Obligations.MisalignedAccessIsIgnored := by
  intro s addr v rest halign
  constructor
  · intro hhost
    rw [step_write hhost, hostWrite_misaligned halign]
  · intro hhost
    rw [step_read hhost, hostRead_misaligned halign]

/-- Settles O26: in a run the control space, the windows and the rest of the host map each have
their answer. -/
theorem writesDuringARunAreHazards : Obligations.WritesDuringARunAreHazards := by
  intro s addr v rest hhost hrun halign window
  rw [step_write hhost]
  refine ⟨?forbidden, ?outside, ?control⟩
  case forbidden =>
    rintro (⟨r, hoff, hlive⟩ | hwin)
    · rw [hostWrite_control hoff]
      simp [hrun, hlive, State.setIrq_haz]
    · have hge : 0x1000 ≤ addr.toNat := by omega
      rw [hostWrite_above halign hge]
      simp [hrun, isWindowAddr_iff.2 hwin, State.setIrq_haz]
  case outside =>
    intro hge hwin
    rw [hostWrite_above halign hge]
    simp [hrun, mt isWindowAddr_iff.1 hwin]
  case control =>
    rintro rfl hv
    rw [hostWrite_control (r := .ctrl) rfl]
    have hv' : (v.getLsbD 2 || v.getLsbD 0) = true := by rcases hv with hv | hv <;> simp [hv]
    simp only [regLive, regStore, ctrlWrite, hrun, hv', Bool.not_true, Bool.and_false,
      Bool.false_eq_true, if_false, if_true, State.setIrq_haz]

/-- The layout of `STATUS` (`10_state.md` R55). -/
theorem statusWord_eq (q : SeqRegs) :
    statusWord q = BitVec.ofNat 32 (q.run.toNat + 2 * q.stopReq.toNat + 16 * q.lastEnd.toNat) := by
  unfold statusWord
  generalize q.run = run
  generalize q.stopReq = stopReq
  generalize q.lastEnd = lastEnd
  revert run stopReq lastEnd
  decide

/-- Settles O29: a read is of a register, of an unnamed offset, or of neither, and changes the
host's side only. -/
theorem readsHaveNoSideEffect : Obligations.ReadsHaveNoSideEffect := by
  intro s addr rest hhost
  rw [step_read hhost]
  refine ⟨?frame, ?register, ?status, ?unnamed⟩
  case frame =>
    obtain ⟨v, n, h⟩ := hostRead_eq { s with host := rest } addr
    exact ⟨v, n, congrArg _ h⟩
  case register =>
    intro r hoff hr
    exact congrArg _ (hostRead_control (s := { s with host := rest }) hoff hr)
  case status =>
    rintro status rfl
    rw [hostRead_control (s := { s with host := rest }) (r := .status) rfl (.inr rfl)]
    have hread : regRead { s with host := rest } .status = BitVec.ofNat 32 status :=
      statusWord_eq s.seq
    rw [hread]
  case unnamed =>
    intro hlt hno hidle
    exact congrArg _ (hostRead_unnamed (s := { s with host := rest }) hidle hlt hno)

end Sys2Proof.Machine
end

section
/-! PROOFS. Memory words as the host writes them: two halves, low half first. -/

namespace Sys2Proof.Machine

open Sys2Proof.Config

/-! ### Legal builds -/

/-- The ranges of a legal build (`00_scope.md` R6) that the windows and the reset values rely on. -/
structure LegalRanges (p : Params) : Prop where
  dmemWords : p.dmemWords ≤ 131072
  maxFirTaps : 1 ≤ p.maxFirTaps
  maxDecFactor : 1 ≤ p.maxDecFactor
  maxAgcN : 1 ≤ p.maxAgcN
  maxFftLog2 : p.maxFftLog2 ≤ 16
  maxSps : 2 ≤ p.maxSps
  maxPreLen : 1 ≤ p.maxPreLen
  fsyncCap : 1 ≤ p.fsyncCap

theorem ranges_of_legal {p : Params} (h : p.legal = true) : LegalRanges p := by
  obtain ⟨hlegal, -⟩ := Bool.and_eq_true_iff.1 h
  have := of_decide_eq_true hlegal
  constructor <;> omega

/-! ### The halves of a word -/

theorem byteOfWord_append_low (hi lo : Word32) {i : Nat} (h : i < 4) :
    byteOfWord (hi ++ lo) i = lo.extractLsb' (8 * i) 8 :=
  BitVec.extractLsb'_append_eq_of_add_le (by omega)

theorem byteOfWord_append_high (hi lo : Word32) {i : Nat} (h : 4 ≤ i) :
    byteOfWord (hi ++ lo) i = hi.extractLsb' (8 * (i - 4)) 8 := by
  rw [byteOfWord, BitVec.extractLsb'_append_eq_of_le (by omega)]
  congr 1
  omega

theorem Memory.get_setHalf (m : Memory) (a : Nat) (v : Word32) (b : Nat) :
    Memory.get (Memory.setHalf m a v) b =
      if a ≤ b ∧ b < a + 4 then some (v.extractLsb' (8 * (b - a)) 8) else Memory.get m b := by
  rw [Memory.setHalf, Memory.get_setBytes]
  simp [bytesOfHalf]

/-- The halves of a word, written low half first, are the word (`20_memory.md` R155). -/
theorem Memory.getWord_setHalf_setHalf (m : Memory) (a : Nat) (lo hi : Word32) :
    Memory.getWord ((m.setHalf a lo).setHalf (a + 4) hi) a = some (hi ++ lo) := by
  refine Memory.getWord_eq_some.2 fun i hi8 => ?_
  rw [Memory.get_setHalf, Memory.get_setHalf]
  by_cases h : i < 4
  · rw [if_neg (by omega), if_pos (by omega), Nat.add_sub_cancel_left, byteOfWord_append_low _ _ h]
  · rw [if_pos (by omega), byteOfWord_append_high _ _ (by omega)]
    congr 3
    omega

/-! ### Accesses of an idle core -/

theorem runSteps_two {s t u : State} (h : step s = .next t) (h' : step t = .next u) :
    runSteps 2 s = .next u := by
  simp only [runSteps, h, h']

section Accesses

variable {s : State} {a : Nat} {v : Word32} {rest : List HostAct} (hidle : s.seq.run = false)
  (hlt : a < 2 ^ 32) (halign : a % 4 = 0) (hin : isMemAddr s.par a = true)
include hidle hlt halign hin

theorem step_write_memory (hhost : s.host = .write (BitVec.ofNat 32 a) v :: rest) :
    step s = .next { s with host := rest, mem := s.mem.setHalf a v } := by
  have hn : (BitVec.ofNat 32 a).toNat = a := Nat.mod_eq_of_lt hlt
  have hge : 0x1000 ≤ a := by
    have := isMemAddr_iff.1 hin
    omega
  rw [step_write hhost, hostWrite_above (hn.symm ▸ halign) (hn.symm ▸ hge), hn]
  simp only [hidle, hin, if_true, Bool.false_eq_true, if_false]

theorem step_read_memory (hhost : s.host = .read (BitVec.ofNat 32 a) :: rest)
    (hv : s.mem.getHalf a = some v) :
    step s = .next { s with host := rest, hostRdata := v } := by
  have hn : (BitVec.ofNat 32 a).toNat = a := Nat.mod_eq_of_lt hlt
  rw [step_read hhost]
  exact congrArg _ (hostRead_memory (s := { s with host := rest }) hidle (hn.symm ▸ halign)
    (hn.symm ▸ hin) (hn.symm ▸ hv))

end Accesses

/-- Settles O28: each access is of an aligned half inside one of the memories. -/
theorem hostWritesMemoryWords : Obligations.HostWritesMemoryWords := by
  intro s base k lo hi hidle hbase hlegal a
  have hdmem := (ranges_of_legal hlegal).dmemWords
  obtain ⟨-, hfir, -, -, -, -, hpre, -⟩ := bounds_of_legal hlegal
  have halign : a % 4 = 0 := by omega
  have halign' : (a + 4) % 4 = 0 := by omega
  have hlt : a + 4 < 2 ^ 32 := by omega
  have hin : isMemAddr s.par a = true := isMemAddr_iff.2 (by omega)
  have hin' : isMemAddr s.par (a + 4) = true := isMemAddr_iff.2 (by omega)
  have hlo : ((s.mem.setHalf a lo).setHalf (a + 4) hi).getHalf a = some lo := by
    rw [Memory.getHalf_setHalf_apart _ _ (by omega), Memory.getHalf_setHalf_same]
  refine ⟨{ s with host := [], mem := (s.mem.setHalf a lo).setHalf (a + 4) hi },
    runSteps_two (step_write_memory hidle (by omega) halign hin rfl)
      (step_write_memory hidle hlt halign' hin' rfl), rfl,
    Memory.getWord_setHalf_setHalf .., fun x hx => ?_,
    step_read_memory hidle (by omega) halign hin rfl hlo,
    step_read_memory hidle hlt halign' hin' rfl (Memory.getHalf_setHalf_same ..)⟩
  rw [Memory.get_setHalf, Memory.get_setHalf, if_neg (by omega), if_neg (by omega)]

end Sys2Proof.Machine
end

section
/-! PROOFS. The invariant: what keeps each of its parts, for the sequencer, the resets and the
host. -/

namespace Sys2Proof.Machine

open Sys2Proof.Config

/-! ### The memory and the run control -/

theorem memOk_of_dmemWrites {s t : State} (h : MemOk s) (hpar : t.par = s.par)
    (hw : DmemWrites s.par s.mem t.mem) : MemOk t := by
  refine ⟨hw.wf h.1, fun c hc => ?_⟩
  rw [hpar]
  rcases hw.mem_cell hc with hin | hm
  · exact isMemAddr_iff.2 (.inr (.inr hin))
  · exact h.2 c hm

theorem memOk_of_sublist {s t : State} (h : MemOk s) (hpar : t.par = s.par)
    (hm : t.mem.Sublist s.mem) : MemOk t :=
  ⟨h.1.sublist hm, fun c hc => hpar ▸ h.2 c (hm.subset hc)⟩

/-- An aligned half that starts in a memory lies in it, because the memories are whole words. -/
theorem memOk_setHalf {s : State} {a : Nat} {v : Word32} (h : MemOk s) (halign : a % 4 = 0)
    (hin : isMemAddr s.par a = true) : MemOk { s with mem := s.mem.setHalf a v } := by
  refine ⟨Memory.wf_setHalf h.1 a v, fun c hc => ?_⟩
  rcases Memory.mem_setBytes hc with hb | hm
  · have := isMemAddr_iff.1 hin
    rw [bytesOfHalf_length] at hb
    exact isMemAddr_iff.2 (by dsimp only; omega)
  · exact h.2 c hm

theorem seqOk_of_idle {s : State} (hrun : s.seq.run = false) (hstop : s.seq.stopReq = false)
    (hcode : s.seq.errCode.toNat ≤ 6) : SeqOk s :=
  ⟨by simp [hstop], by simp [hrun], hcode⟩

/-! ### The sequencer -/

/-- What depends on the configuration only holds of any state with the same configuration. -/
theorem of_config_eq {P : State → Prop} (hP : ∀ s : State, P s.config = P s) {s t : State}
    (hc : t.config = s.config) (h : P s) : P t := by
  rw [← hP, hc, hP]
  exact h

theorem Effect.commit_config (e : Effect) (b : Blocks) : (e.commit b).config = e.st.config :=
  calc (e.commit b).config
    _ = State.config { e.st with seq := (e.commit b).seq, mem := (e.commit b).mem } :=
      congrArg (fun s => s.config) (Effect.commit_eq e b)
    _ = e.st.config := rfl

theorem inv_commit {s : State} {b : Blocks} {e : Effect} (h : s.Inv)
    (hptr : s.ptr + 4 ≤ s.par.dmemWords) (hfit : OperandsFit s b) (hw : e.Within s b) :
    (e.commit b).Inv := by
  have hc : (e.commit b).config = s.config := (e.commit_config b).trans hw.config
  have hpar : (e.commit b).par = s.par :=
    of_config_eq (P := fun t => t.par = s.par) (fun _ => rfl) hc rfl
  exact {
    par := hpar ▸ h.par
    mem := memOk_of_dmemWrites h.mem hpar (hw.dmemWrites hptr hfit)
    sizes := by simpa [SizesOk] using hw.sizes h.sizes
    agc := of_config_eq (P := AgcOk) (fun _ => rfl) hc h.agc
    firScr := of_config_eq (P := FirScrOk) (fun _ => rfl) hc h.firScr
    cfc := of_config_eq (P := CfcOk) (fun _ => rfl) hc h.cfc
    pll := of_config_eq (P := PllOk) (fun _ => rfl) hc h.pll
    sym := of_config_eq (P := SymOk) (fun _ => rfl) hc h.sym
    fs := of_config_eq (P := FsOk) (fun _ => rfl) hc h.fs
    seq := by simpa [SeqOk, completedSeq, hw.seq] using h.seq }

theorem StepOutcome.inv {s t : State} (ho : StepOutcome s t) (h : s.Inv) : t.Inv := by
  obtain ⟨-, -, hcode⟩ := h.seq
  cases ho with
  | idle => exact h
  | stopTaken => exact { h with seq := seqOk_of_idle rfl rfl hcode }
  | stopped e he => exact { h with seq := seqOk_of_idle rfl rfl he }
  | halted => exact { h with seq := seqOk_of_idle rfl rfl hcode }
  | completed b e hptr hfit hw => exact inv_commit h hptr hfit hw

/-! ### The resets -/

theorem nfftOf_fone (m : Nat) : nfftOf m fone fone = some 1 :=
  nfftOf_eq_some (n := 0) (by decide +kernel) (Nat.zero_le m) (by decide +kernel) nofun

/-- The reset values of a legal build have the invariant, over memories that have it: what does not
depend on the build is as after power-on. -/
theorem inv_resetValues {par : Params} {mem : Memory} {host : List HostAct} {rdata : Word32}
    {draws : Nat} (hpar : par.legal = true)
    (hmem : MemOk (State.resetValues par mem host rdata draws)) :
    (State.resetValues par mem host rdata draws).Inv := by
  have hrange := ranges_of_legal hpar
  have hone {n : Nat} (h : 1 ≤ n) : inRange 1 n 1#32 = true := inRange_iff.2 ⟨Nat.le_refl _, h⟩
  have hreset : State.reset.Inv := resetHasTheInvariant
  obtain ⟨href, hmax, hk, -, hgmax, -⟩ := hreset.agc
  obtain ⟨-, -, hlen⟩ := hreset.firScr
  obtain ⟨hfs, hfres, -⟩ := hreset.cfc
  obtain ⟨-, hsym⟩ := hreset.sym
  obtain ⟨-, -, -, hthresh⟩ := hreset.fs
  exact {
    par := hpar
    mem := hmem
    sizes := ⟨List.length_replicate, List.length_replicate, List.length_replicate,
      List.length_replicate, List.length_replicate, rfl, Nat.zero_le _⟩
    agc := ⟨href, hmax, hk, hone hrange.maxAgcN, hgmax, (fln_fone _).symm⟩
    firScr := ⟨hone hrange.maxDecFactor, hone hrange.maxFirTaps, hlen⟩
    cfc := ⟨hfs, hfres, nfftOf_fone _⟩
    pll := hreset.pll
    sym := ⟨inRange_iff.2 ⟨Nat.le_refl _, hrange.maxSps⟩, hsym⟩
    fs := ⟨hone hrange.maxPreLen, Nat.le_refl _, hrange.fsyncCap, hthresh⟩
    seq := hreset.seq }

theorem inv_softReset {s : State} (h : s.Inv) : s.softReset.Inv := inv_resetValues h.par h.mem

theorem forgetRange_sublist (m : Memory) (r : Range) : (forgetRange m r).Sublist m :=
  List.filter_sublist

theorem forgetBlocks_sublist (s : State) (i : Instr) : (forgetBlocks s i).Sublist s.mem := by
  unfold forgetBlocks
  split
  · exact .refl _
  · split
    · exact .refl _
    · split
      · exact forgetRange_sublist _ _
      · exact (forgetRange_sublist _ _).trans (forgetRange_sublist _ _)

theorem cutDescriptor_sublist (s : State) (d : Decoded) : (cutDescriptor s d).Sublist s.mem := by
  cases d with
  | instr i => exact (forgetRange_sublist _ _).trans (forgetBlocks_sublist s i)
  | illegalOpcode | reservedField | truncated => exact forgetRange_sublist _ _

/-- A reset in a run only makes bytes unwritten. -/
theorem cutMemory_sublist (s : State) : (cutMemory s).Sublist s.mem := by
  unfold cutMemory
  split
  · exact .refl _
  · exact cutDescriptor_sublist _ _

theorem inv_externalReset {s : State} (h : s.Inv) : s.externalReset.Inv := by
  unfold State.externalReset
  split
  · exact inv_resetValues h.par (memOk_of_sublist h.mem rfl (cutMemory_sublist s))
  · exact inv_softReset h

/-! ### Register writes -/

theorem inv_of_acceptIf {c : Bool} {t u : State} (hw : acceptIf c t = some u)
    (h : c = true → t.Inv) : u.Inv := by
  obtain ⟨hc, rfl⟩ := acceptIf_eq_some.1 hw
  exact h hc

/-- `NFFT` of a legal build fits its register. -/
theorem nfftOf_lt {m n : Nat} {fs fres : F32} (hm : m ≤ 16) (h : nfftOf m fs fres = some n) :
    n < 2 ^ 32 := by
  rw [nfftOf] at h
  split at h
  case isFalse => cases h
  case isTrue =>
    obtain ⟨k, hk, rfl⟩ := Option.map_eq_some_iff.1 h
    have hlt : k < m + 1 := List.mem_range.1 (List.mem_of_find?_eq_some hk)
    exact Nat.pow_lt_pow_right (by omega) (by omega)

section RegisterWrites

variable {s t : State} {v : Word32}

theorem inv_writeCfcRates {ok : Bool} {fs fres : F32} (h : s.Inv)
    (hpos : ok = true → positive fs = true ∧ positive fres = true)
    (hw : writeCfcRates s ok fs fres = some t) : t.Inv := by
  rw [writeCfcRates] at hw
  split at hw
  case h_1 => cases hw
  case h_2 n hn =>
    refine inv_of_acceptIf hw fun hok => ?_
    obtain ⟨hfs, hfres⟩ := hpos hok
    have hfit : (BitVec.ofNat 32 n).toNat = n :=
      Nat.mod_eq_of_lt (nfftOf_lt (ranges_of_legal h.par).maxFftLog2 hn)
    exact { h with cfc := ⟨hfs, hfres, hn.trans (congrArg some hfit.symm)⟩ }

theorem inv_writePllGains {ok : Bool} {bw damp : F32} (h : s.Inv)
    (hpos : ok = true → nonNeg bw = true ∧ nonNeg damp = true)
    (hw : writePllGains s ok bw damp = some t) : t.Inv := by
  obtain ⟨-, -, -, -, hrange⟩ := h.pll
  refine inv_of_acceptIf hw fun hc => ?_
  simp only [Bool.and_eq_true] at hc
  obtain ⟨⟨hok, halpha⟩, hbeta⟩ := hc
  obtain ⟨hbw, hdamp⟩ := hpos hok
  exact { h with pll := ⟨hbw, hdamp, halpha, hbeta, hrange⟩ }

theorem inv_writeSymGains {ok : Bool} {bw damp kd : F32} (h : s.Inv)
    (hpos : ok = true → nonNeg bw = true ∧ nonNeg damp = true ∧ positive kd = true)
    (hw : writeSymGains s ok bw damp kd = some t) : t.Inv := by
  obtain ⟨hsps, -⟩ := h.sym
  refine inv_of_acceptIf hw fun hc => ?_
  simp only [Bool.and_eq_true] at hc
  obtain ⟨⟨hok, halpha⟩, hbeta⟩ := hc
  obtain ⟨hbw, hdamp, hkd⟩ := hpos hok
  exact { h with sym := ⟨hsps, hbw, hdamp, hkd, halpha, hbeta⟩ }

/-- An accepted write keeps the invariant: it sets one register to a value that the check of that
register admits, and derives what depends on it. -/
theorem inv_regWrite {r : Reg} (h : s.Inv) (hw : regWrite s v r = some t) : t.Inv := by
  obtain ⟨href, hmax, hk, hn, hgmax, hln⟩ := h.agc
  obtain ⟨hfactor, htaps, hlen⟩ := h.firScr
  obtain ⟨hfs, hfres, -⟩ := h.cfc
  obtain ⟨hpbw, hpdamp, hpalpha, hpbeta, hminf, hmaxf, hle⟩ := h.pll
  obtain ⟨hsps, hsbw, hsdamp, hkd, hsalpha, hsbeta⟩ := h.sym
  obtain ⟨hplen, hframe, hcap, hthresh⟩ := h.fs
  cases r with
  | id | version | param0 | param1 | param2 | param3 | param4 | hparam | ctrl | status | cmdCount
  | errCode | errPtr | errInfo | resConsumed | resProduced | resAux | cfgrejAddr | agcGmax
  | agcLnRef | cfcNfft | cfcFest | fsBuflen | fsState => cases hw; exact h
  | cmdPtr | irqStatus | irqEnable => cases hw; exact { h with seq := h.seq }
  | modcfg => exact inv_of_acceptIf hw fun _ => { h with par := h.par }
  | agcRef =>
    exact inv_of_acceptIf hw fun hc => { h with agc := ⟨hc, hmax, hk, hn, hgmax, rfl⟩ }
  | agcMaxGain =>
    exact inv_of_acceptIf hw fun hc => { h with agc := ⟨href, hc, hk, hn, rfl, hln⟩ }
  | agcK => exact inv_of_acceptIf hw fun hc => { h with agc := ⟨href, hmax, hc, hn, hgmax, hln⟩ }
  | agcN => exact inv_of_acceptIf hw fun hc => { h with agc := ⟨href, hmax, hk, hc, hgmax, hln⟩ }
  | agcGain => exact inv_of_acceptIf hw fun _ => { h with agc := h.agc }
  | firFactor => exact inv_of_acceptIf hw fun hc => { h with firScr := ⟨hc, htaps, hlen⟩ }
  | firNtaps => exact inv_of_acceptIf hw fun hc => { h with firScr := ⟨hfactor, hc, hlen⟩ }
  | scrLen => exact inv_of_acceptIf hw fun hc => { h with firScr := ⟨hfactor, htaps, hc⟩ }
  | scrPoly | scrInit | scrState | dscrState => cases hw; exact { h with firScr := h.firScr }
  | cfcFs => exact inv_writeCfcRates h (fun hv => ⟨hv, hfres⟩) hw
  | cfcFres => exact inv_writeCfcRates h (fun hv => ⟨hfs, hv⟩) hw
  | cfcPhase => exact inv_of_acceptIf hw fun _ => { h with cfc := h.cfc }
  | pllBw => exact inv_writePllGains h (fun hv => ⟨hv, hpdamp⟩) hw
  | pllDamp => exact inv_writePllGains h (fun hv => ⟨hpbw, hv⟩) hw
  | pllAlpha =>
    exact inv_of_acceptIf hw fun hc =>
      { h with pll := ⟨hpbw, hpdamp, hc, hpbeta, hminf, hmaxf, hle⟩ }
  | pllBeta =>
    exact inv_of_acceptIf hw fun hc =>
      { h with pll := ⟨hpbw, hpdamp, hpalpha, hc, hminf, hmaxf, hle⟩ }
  | pllMinf =>
    refine inv_of_acceptIf hw fun hc => ?_
    obtain ⟨hfin, hle⟩ := Bool.and_eq_true_iff.1 hc
    exact { h with pll := ⟨hpbw, hpdamp, hpalpha, hpbeta, hfin, hmaxf, hle⟩ }
  | pllMaxf =>
    refine inv_of_acceptIf hw fun hc => ?_
    obtain ⟨hfin, hle⟩ := Bool.and_eq_true_iff.1 hc
    exact { h with pll := ⟨hpbw, hpdamp, hpalpha, hpbeta, hminf, hfin, hle⟩ }
  | pllPhase | pllFreq => exact inv_of_acceptIf hw fun _ => { h with pll := h.pll }
  | symSps =>
    exact inv_of_acceptIf hw fun hc => { h with sym := ⟨hc, hsbw, hsdamp, hkd, hsalpha, hsbeta⟩ }
  | symBw => exact inv_writeSymGains h (fun hv => ⟨hv, hsdamp, hkd⟩) hw
  | symDamp => exact inv_writeSymGains h (fun hv => ⟨hsbw, hv, hkd⟩) hw
  | symKd => exact inv_writeSymGains h (fun hv => ⟨hsbw, hsdamp, hv⟩) hw
  | symAlpha =>
    exact inv_of_acceptIf hw fun hc => { h with sym := ⟨hsps, hsbw, hsdamp, hkd, hc, hsbeta⟩ }
  | symBeta =>
    exact inv_of_acceptIf hw fun hc => { h with sym := ⟨hsps, hsbw, hsdamp, hkd, hsalpha, hc⟩ }
  | symMu | symCnt | symVi => exact inv_of_acceptIf hw fun _ => { h with sym := h.sym }
  | symStrobe => cases hw; exact { h with sym := h.sym }
  | fsPlen =>
    refine inv_of_acceptIf hw fun hc => ?_
    obtain ⟨hrange, hfit⟩ := Bool.and_eq_true_iff.1 hc
    exact { h with fs := ⟨hrange, of_decide_eq_true hfit, hcap, hthresh⟩ }
  | fsFsize =>
    refine inv_of_acceptIf hw fun hc => ?_
    obtain ⟨hge, hfit⟩ := inRange_iff.1 hc
    exact { h with fs := ⟨hplen, hge, hfit, hthresh⟩ }
  | fsThresh => exact inv_of_acceptIf hw fun hc => { h with fs := ⟨hplen, hframe, hcap, hc⟩ }

theorem inv_ctrlWrite (h : s.Inv) (v : Word32) : (ctrlWrite s v).Inv := by
  obtain ⟨-, herr, hcode⟩ := h.seq
  unfold ctrlWrite
  split
  case isTrue hrun =>
    split
    · exact { h with seq := h.seq }
    · split
      · exact { h with seq := ⟨fun _ => hrun, herr, hcode⟩ }
      · exact h
  case isFalse =>
    split
    · exact inv_softReset h
    · split
      · exact { h with seq := ⟨nofun, fun _ => ⟨rfl, rfl, rfl⟩, Nat.zero_le _⟩ }
      · exact h

theorem inv_regStore (h : s.Inv) (r : Reg) (v : Word32) : (regStore s r v).Inv := by
  by_cases hr : r = .ctrl
  · subst hr
    exact inv_ctrlWrite h v
  cases hw : regWrite s v r with
  | none =>
    rw [regStore_rejected hw]
    exact { h with seq := h.seq }
  | some t =>
    rw [regStore_accepted hr hw]
    exact inv_regWrite h hw

theorem WriteOutcome.inv {a : Word32} (ho : WriteOutcome s a v t) (h : s.Inv) : t.Inv := by
  cases ho with
  | ignored => exact h
  | hazard => exact { h with seq := h.seq }
  | register r => exact inv_regStore h r v
  | memory halign hin => exact { h with mem := memOk_setHalf h.mem halign hin }

end RegisterWrites

/-! ### Every step -/

theorem inv_hostRead {s : State} (h : s.Inv) (a : Word32) : (hostRead s a).Inv := by
  obtain ⟨v, n, heq⟩ := hostRead_eq s a
  rw [heq]
  exact { h with par := h.par }

/-- Settles O17: each outcome of a sequencer step, each host access and each reset keeps the
invariant. -/
theorem everyStepKeepsTheInvariant : Obligations.EveryStepKeepsTheInvariant := by
  intro s t h hstep
  cases hhost : s.host with
  | nil => exact (seqStep_outcome ((step_seq hhost).symm.trans hstep)).inv h
  | cons act rest =>
    have hrest : State.Inv { s with host := rest } := { h with par := h.par }
    cases act with
    | write a v =>
      cases (step_write hhost).symm.trans hstep
      exact (hostWrite_outcome _ a v).inv hrest
    | read a =>
      cases (step_read hhost).symm.trans hstep
      exact inv_hostRead hrest a
    | reset =>
      cases (step_reset hhost).symm.trans hstep
      exact inv_externalReset hrest
    | wait => exact (seqStep_outcome ((step_wait hhost).symm.trans hstep)).inv hrest

end Sys2Proof.Machine
end

section
/-! PROOFS. Reads of words that nothing has written: the faults of the fetch, of the input blocks,
of the coefficients and of the preamble. -/

namespace Sys2Proof.Machine

open Sys2Proof.Config

theorem seqStep_unwritten {s : State} (hrun : s.seq.run = true) (hstop : s.seq.stopReq = false)
    (hfetch : fetchError s = none) (hr : s.mem.readBlock s.ptr 3 = none) :
    seqStep s = .fault .unwrittenDmem := by
  simp [seqStep, State.fetch, hrun, hstop, hfetch, hr]

section Commands

variable {s : State} {dst src len aux : Word32} {auxw : Bool} {ws : List Word64} {r : Fault}

/-- SYMSYNC without a cap needs every word of its block. -/
theorem symCompute_unwritten (hr : s.mem.readBlock src.toNat len.toNat = none) :
    symCompute src len 0#32 s = .fault .unwrittenDmem :=
  if_pos ⟨Memory.readPrefix_short hr, by simp [symCap]⟩

/-- What a command computes is read after its capacity check. -/
theorem runBlock_fault_of_capacity {b : Blocks} {cap : Option CmdError} {body : Computed}
    (hf : OperandsFit s b) (hcap : cap = none) (hbody : body = .fault r) :
    runBlock s b cap body = .fault r := by
  subst hcap
  exact runBlock_fault hf hbody

theorem firTaps_unwritten (hout : len.toNat / s.fir.factor.toNat ≠ 0)
    (hc : s.mem.readCoef 0 s.fir.ntaps.toNat = none) : firTaps s len = none :=
  (if_neg hout).trans hc

theorem fsPreamble_unwritten (hlen : len ≠ 0#32)
    (hp : s.mem.readPre 0 s.fs.plen.toNat = none) : fsPreamble s len = none :=
  (if_neg hlen).trans hp

end Commands

/-- Settles O34: each command whose checks pass reads its input first, and then its coefficients or
its preamble. -/
theorem unwrittenReadsAreFaults : Obligations.UnwrittenReadsAreFaults := by
  refine ⟨?fetch, ?input, ?coef, ?pre⟩
  case fetch =>
    rintro s ⟨hhost, hrun, hstop⟩ halign hin hr
    rw [step_seq hhost]
    exact seqStep_unwritten hrun hstop (fetchError_eq_none.2 ⟨halign, hin⟩) hr
  case input =>
    intro s dst src len aux auxw stops bits
    refine ⟨fun hr => ⟨?agc, ?firdec, ?cfc, ?pll, ?symsync, ?fsync⟩, fun hr => ⟨?scr, ?dscr⟩,
      ?henc, ?hdec⟩
    case agc | firdec | pll =>
      rintro _ ⟨⟩ hfit -
      exact runBlock_fault hfit (withWords_none hr)
    case cfc =>
      rintro _ ⟨⟩ hfit hcap
      exact runBlock_fault_of_capacity hfit (cfcCapacity_eq_none.2 hcap) (withWords_none hr)
    case fsync =>
      rintro _ ⟨⟩ hfit hcap
      exact runBlock_fault_of_capacity hfit (fsCapacity_eq_none.2 hcap) (withWords_none hr)
    case symsync =>
      rintro _ ⟨⟩ hfit -
      exact runBlock_fault hfit (symCompute_unwritten hr)
    case scr | dscr =>
      rintro _ ⟨⟩ hfit -
      exact runBlock_fault hfit (withBits_none hr)
    case henc | hdec =>
      rintro hr _ ⟨⟩ hfit -
      exact runBlock_fault hfit (withBits_none hr)
  case coef =>
    intro s dst src len ws hfit hr hout hc
    refine runBlock_fault hfit ((withWords_some hr).trans ?_)
    rw [firTaps_unwritten hout hc]
  case pre =>
    intro s dst src len auxw aux ws hfit hcap hr hlen hp
    refine runBlock_fault_of_capacity hfit (fsCapacity_eq_none.2 hcap)
      ((withWords_some hr).trans ?_)
    rw [fsPreamble_unwritten hlen hp]

end Sys2Proof.Machine
end

section
/-! PROOFS. The opcode map: which `OPC` values name a row of R210, and the row of a command. -/

namespace Sys2Proof

open Sys2Proof.Machine

/-! ### The `OPC` column -/

/-- The `OPC` value of a row (`30_encoding.md` R210). -/
def Opcode.code : Opcode → BitVec 8
  | .halt => 0x00#8
  | .nop => 0x01#8
  | .urst => 0x02#8
  | .agc => 0x10#8
  | .firdec => 0x11#8
  | .scr => 0x12#8
  | .dscr => 0x13#8
  | .henc => 0x14#8
  | .hdec => 0x15#8
  | .cfc => 0x16#8
  | .pll => 0x17#8
  | .symsync => 0x18#8
  | .fsync => 0x19#8

@[simp] theorem opcodeOf_code (op : Opcode) : opcodeOf op.code = some op := by cases op <;> rfl

theorem code_ne_of_illegal {o : BitVec 8} (h : IllegalOpcode o) (op : Opcode) : o ≠ op.code := by
  rintro rfl
  cases op <;> simp [IllegalOpcode, Opcode.code] at h

/-- The rows of the map leave exactly the two ranges of its last row. -/
theorem illegal_or_code (o : BitVec 8) : IllegalOpcode o ∨ ∃ op : Opcode, o = op.code := by
  by_contra! ⟨hleg, hne⟩
  have hcontrol : o ≠ 0x00#8 ∧ o ≠ 0x01#8 ∧ o ≠ 0x02#8 := ⟨hne .halt, hne .nop, hne .urst⟩
  have hblock : o ≠ 0x10#8 ∧ o ≠ 0x11#8 ∧ o ≠ 0x12#8 ∧ o ≠ 0x13#8 ∧ o ≠ 0x14#8 ∧ o ≠ 0x15#8 ∧
      o ≠ 0x16#8 ∧ o ≠ 0x17#8 ∧ o ≠ 0x18#8 ∧ o ≠ 0x19#8 :=
    ⟨hne .agc, hne .firdec, hne .scr, hne .dscr, hne .henc, hne .hdec, hne .cfc, hne .pll,
      hne .symsync, hne .fsync⟩
  unfold IllegalOpcode at hleg
  bv_omega

theorem opcodeOf_of_illegal {o : BitVec 8} (h : IllegalOpcode o) : opcodeOf o = none := by
  have hne := code_ne_of_illegal h
  simp only [opcodeOf]
  exact (if_neg (hne .halt)).trans <| (if_neg (hne .nop)).trans <| (if_neg (hne .urst)).trans <|
    (if_neg (hne .agc)).trans <| (if_neg (hne .firdec)).trans <| (if_neg (hne .scr)).trans <|
    (if_neg (hne .dscr)).trans <| (if_neg (hne .henc)).trans <| (if_neg (hne .hdec)).trans <|
    (if_neg (hne .cfc)).trans <| (if_neg (hne .pll)).trans <| (if_neg (hne .symsync)).trans <|
    if_neg (hne .fsync)

/-! ### The row of a command -/

/-- The row of R210 that a command belongs to. -/
def Instr.row : Instr → Opcode
  | .halt => .halt
  | .nop => .nop
  | .urst _ => .urst
  | .agc .. => .agc
  | .firdec .. => .firdec
  | .scr .. => .scr
  | .dscr .. => .dscr
  | .henc .. => .henc
  | .hdec .. => .hdec
  | .cfc .. => .cfc
  | .pll .. => .pll
  | .symsync .. => .symsync
  | .fsync .. => .fsync

@[simp] theorem row_instrOf (f : Fields) (op : Opcode) : (instrOf f op).row = op := by
  cases op <;> rfl

theorem code_row (i : Instr) : i.row.code = opcodeValue i := by cases i <;> rfl

theorem fieldsOf_opc (i : Instr) : (fieldsOf i).opc = i.row.code := by cases i <;> rfl

end Sys2Proof
end

section
/-! PROOFS. The three answers of the decoder, from the opcode map and the field check; the words and
the fields of a descriptor determine each other. -/

namespace Sys2Proof

open Sys2Proof.Machine

/-! ### What `decodeWords` answers -/

section Answers

variable {w0 w1 w2 : Word64} {op : Opcode}

theorem decodeWords_of_illegal (h : IllegalOpcode (w0.extractLsb' 0 8)) :
    decodeWords w0 w1 w2 = .illegalOpcode (w0.extractLsb' 0 8) := by
  have hop : opcodeOf (fieldsOfWords w0 w1 w2).opc = none := opcodeOf_of_illegal h
  simp only [decodeWords, hop]
  rfl

theorem decodeWords_of_reserved {info : BitVec 32} (hop : (fieldsOfWords w0 w1 w2).opc = op.code)
    (hr : reservedField (fieldsOfWords w0 w1 w2) (fieldUse op) = some info) :
    decodeWords w0 w1 w2 = .reservedField info := by
  simp only [decodeWords, hop, opcodeOf_code, hr]

theorem decodeWords_of_fields (hop : (fieldsOfWords w0 w1 w2).opc = op.code)
    (hr : reservedField (fieldsOfWords w0 w1 w2) (fieldUse op) = none) :
    decodeWords w0 w1 w2 = .instr (instrOf (fieldsOfWords w0 w1 w2) op) := by
  simp only [decodeWords, hop, opcodeOf_code, hr]

/-- Everything that the decoder can answer. -/
theorem decodeWords_cases (w0 w1 w2 : Word64) :
    (IllegalOpcode (w0.extractLsb' 0 8) ∧
      decodeWords w0 w1 w2 = .illegalOpcode (w0.extractLsb' 0 8)) ∨
    ∃ op : Opcode, (fieldsOfWords w0 w1 w2).opc = op.code ∧
      ((∃ info, decodeWords w0 w1 w2 = .reservedField info) ∨
       (reservedField (fieldsOfWords w0 w1 w2) (fieldUse op) = none ∧
        decodeWords w0 w1 w2 = .instr (instrOf (fieldsOfWords w0 w1 w2) op))) := by
  rcases illegal_or_code (w0.extractLsb' 0 8) with hill | ⟨op, hop⟩
  · exact .inl ⟨hill, decodeWords_of_illegal hill⟩
  · refine .inr ⟨op, hop, ?_⟩
    cases hr : reservedField (fieldsOfWords w0 w1 w2) (fieldUse op) with
    | some info => exact .inl ⟨info, decodeWords_of_reserved hop hr⟩
    | none => exact .inr ⟨rfl, decodeWords_of_fields hop hr⟩

/-- A command is read from a row of the map whose fields have passed the check. -/
theorem exists_row_of_decodeWords {i : Instr} (h : decodeWords w0 w1 w2 = .instr i) :
    ∃ op : Opcode, (fieldsOfWords w0 w1 w2).opc = op.code ∧
      reservedField (fieldsOfWords w0 w1 w2) (fieldUse op) = none ∧
      i = instrOf (fieldsOfWords w0 w1 w2) op := by
  rcases decodeWords_cases w0 w1 w2 with ⟨-, hd⟩ | ⟨op, hop, ⟨info, hd⟩ | ⟨hr, hd⟩⟩ <;>
    rw [hd] at h <;> cases h
  exact ⟨op, hop, hr, rfl⟩

end Answers

/-! ### Words, bytes and fields -/

/-- The field packing undoes the field cuts: the fields cover the three words. -/
theorem wordsOfFields_fieldsOfWords (w0 w1 w2 : Word64) :
    wordsOfFields (fieldsOfWords w0 w1 w2) = [w0, w1, w2, 0#64] := by
  simp only [wordsOfFields, fieldsOfWords, List.cons.injEq, and_true]
  refine ⟨?_, ?_, ?_⟩ <;>
    · apply BitVec.eq_of_getLsbD_eq
      intro i hi
      simp only [BitVec.getLsbD_append, BitVec.getLsbD_extractLsb']
      interval_cases i <;> simp

theorem fieldsOfWords_of_encode {i : Instr} {w0 w1 w2 w3 : Word64}
    (h : encode i = [w0, w1, w2, w3]) : fieldsOfWords w0 w1 w2 = fieldsOf i := by
  cases h
  exact fieldsOfWords_pack (fieldsOf i)

/-- The bytes of a command decode as its first three words. -/
theorem decode_encodeBytes {i : Instr} {w0 w1 w2 w3 : Word64}
    (h : encode i = [w0, w1, w2, w3]) : decode (encodeBytes i) = decodeWords w0 w1 w2 := by
  rw [encodeBytes, decode, wordsOfBytes_flatMap, h]

end Sys2Proof
end

section
/-! PROOFS. The field check of R213: what passes it, and that it finds the least failing field. -/

namespace Sys2Proof

open Sys2Proof.Machine

/-! ### The unit selectors -/

@[simp] theorem unitOf_unitCode (u : UnitSel) : unitOf (unitCode u) = some u := by
  cases u <;> rfl

theorem eq_unitCode_of_unitOf {x : BitVec 4} {u : UnitSel} (h : unitOf x = some u) :
    x = unitCode u := by
  unfold unitOf at h
  repeat' split at h
  all_goals cases h
  all_goals assumption

theorem unitCode_unitOf {x : BitVec 4} (h : unitOf x ≠ none) (d : UnitSel) :
    unitCode ((unitOf x).getD d) = x := by
  obtain ⟨u, hu⟩ := Option.ne_none_iff_exists'.1 h
  rw [hu, Option.getD_some, ← eq_unitCode_of_unitOf hu]

/-- The reserved `UNIT` values of R212. -/
theorem unitOf_eq_none {x : BitVec 4} : unitOf x = none ↔ 8 ≤ x.toNat ∧ x.toNat ≤ 14 := by
  constructor
  · intro h
    unfold unitOf at h
    repeat' split at h
    all_goals cases h
    bv_omega
  · rintro ⟨hlo, hhi⟩
    cases hu : unitOf x with
    | none => rfl
    | some u =>
      rw [eq_unitCode_of_unitOf hu] at hlo hhi
      cases u <;> simp [unitCode] at hlo hhi

/-! ### The rows of R211 -/

theorem code_eq_urst (op : Opcode) : op.code = 0x02#8 ↔ (fieldUse op).unit = true := by
  cases op <;> simp [Opcode.code, fieldUse]

theorem hasAux_code (op : Opcode) : HasAux op.code ↔ (fieldUse op).auxw = true := by
  cases op <;> simp [HasAux, Opcode.code, fieldUse]

theorem code_le_urst (op : Opcode) : op.code.toNat ≤ 0x02 ↔ (fieldUse op).blk = false := by
  cases op <;> simp [Opcode.code, fieldUse]

theorem code_eq_symsync (op : Opcode) : op.code = 0x18#8 ↔ (fieldUse op).maxout = true := by
  cases op <;> simp [Opcode.code, fieldUse]

/-! ### Each failing field, as the decoder checks it -/

theorem fieldFails_range {f : Fields} {k : Nat} (h : FieldFails f k) : 1 ≤ k ∧ k ≤ 8 := by
  unfold FieldFails at h
  omega

theorem fieldFails_rsv {f : Fields} : FieldFails f 1 ↔ f.rsv ≠ 0#19 := by simp [FieldFails]

section Checks

variable {f : Fields} {op : Opcode} (hop : f.opc = op.code)
include hop

theorem fieldFails_unit : FieldFails f 2 ↔
    (if (fieldUse op).unit then (unitOf f.unit).isNone else f.unit != 0#4) = true := by
  cases hu : (fieldUse op).unit <;> simp [FieldFails, hop, code_eq_urst, hu, unitOf_eq_none]

theorem fieldFails_auxw : FieldFails f 3 ↔ (!(fieldUse op).auxw && f.auxw) = true := by
  simp [FieldFails, hop, hasAux_code, and_comm]

theorem fieldFails_len : FieldFails f 4 ↔ (!(fieldUse op).blk && f.len != 0#32) = true := by
  simp [FieldFails, hop, code_le_urst, and_comm]

theorem fieldFails_src : FieldFails f 5 ↔ (!(fieldUse op).blk && f.src != 0#32) = true := by
  simp [FieldFails, hop, code_le_urst, and_comm]

theorem fieldFails_dst : FieldFails f 6 ↔ (!(fieldUse op).blk && f.dst != 0#32) = true := by
  simp [FieldFails, hop, code_le_urst, and_comm]

/-- The decoder asks only for `AUXW`: one that the row does not use has failed as field 3. -/
theorem fieldFails_aux (h : ¬ FieldFails f 3) :
    FieldFails f 7 ↔ (!f.auxw && f.aux != 0#32) = true := by
  rw [fieldFails_auxw hop] at h
  cases hu : (fieldUse op).auxw <;> simp_all [FieldFails, hasAux_code, and_comm]

theorem fieldFails_maxout :
    FieldFails f 8 ↔ (!(fieldUse op).maxout && f.maxout != 0#32) = true := by
  simp [FieldFails, hop, code_eq_symsync, and_comm]

open Classical in
/-- The decoder's checks ask for the failing fields of R213 in their order. -/
theorem reservedField_eq : reservedField f (fieldUse op) =
    if FieldFails f 1 then some 1#32 else if FieldFails f 2 then some 2#32
    else if FieldFails f 3 then some 3#32 else if FieldFails f 4 then some 4#32
    else if FieldFails f 5 then some 5#32 else if FieldFails f 6 then some 6#32
    else if FieldFails f 7 then some 7#32 else if FieldFails f 8 then some 8#32
    else none := by
  have haux := fieldFails_aux hop
  simp only [reservedField, fieldFails_rsv, fieldFails_unit hop, fieldFails_len hop,
    fieldFails_src hop, fieldFails_dst hop, fieldFails_maxout hop]
  by_cases h3 : FieldFails f 3
  · simp only [h3, (fieldFails_auxw hop).1 h3, if_true]
  · simp only [h3, ← fieldFails_auxw hop, haux h3, if_false]

theorem reservedField_of_least {k : Nat} (hk : FieldFails f k)
    (hleast : ∀ j, j < k → ¬ FieldFails f j) :
    reservedField f (fieldUse op) = some (BitVec.ofNat 32 k) := by
  rw [reservedField_eq hop]
  obtain ⟨hlo, hhi⟩ := fieldFails_range hk
  interval_cases k <;> simp [hk, hleast]

theorem reservedField_eq_none :
    reservedField f (fieldUse op) = none ↔ ∀ k, ¬ FieldFails f k := by
  constructor
  · intro h k hk
    classical
    have hex : ∃ k, FieldFails f k := ⟨k, hk⟩
    rw [reservedField_of_least hop (Nat.find_spec hex) fun _ => Nat.find_min hex] at h
    cases h
  · intro h
    rw [reservedField_eq hop]
    simp [h]

end Checks

end Sys2Proof
end

section
/-! PROOFS. The encoder against the decoder: the fields of a command fail only as an `AUX` without
`AUXW`, and the fields that pass are those of their command. -/

namespace Sys2Proof

open Sys2Proof.Machine

@[simp] theorem instrOf_fieldsOf (i : Instr) : instrOf (fieldsOf i) i.row = i := by
  cases i with
  | urst u => simp [Instr.row, fieldsOf, instrOf]
  | _ => rfl

/-- Of the fields of a command, only `AUX` can fail. -/
theorem fieldFails_fieldsOf (i : Instr) (k : Nat) :
    FieldFails (fieldsOf i) k ↔ k = 7 ∧ i.wellFormed = false := by
  cases i with
  | urst u => cases u <;> simp [FieldFails, fieldsOf, plainFields, unitCode, Instr.wellFormed]
  | _ => simp [FieldFails, fieldsOf, plainFields, HasAux, Instr.wellFormed, auxFieldOk, and_comm]

theorem fieldsOf_instrOf {f : Fields} {op : Opcode} (hop : f.opc = op.code)
    (h : ∀ k, ¬ FieldFails f k) : fieldsOf (instrOf f op) = f := by
  have hrsv := (not_congr fieldFails_rsv).1 (h 1)
  have hunit := (not_congr (fieldFails_unit hop)).1 (h 2)
  have hauxw := (not_congr (fieldFails_auxw hop)).1 (h 3)
  have hlen := (not_congr (fieldFails_len hop)).1 (h 4)
  have hsrc := (not_congr (fieldFails_src hop)).1 (h 5)
  have hdst := (not_congr (fieldFails_dst hop)).1 (h 6)
  have haux := (not_congr (fieldFails_aux hop (h 3))).1 (h 7)
  have hmaxout := (not_congr (fieldFails_maxout hop)).1 (h 8)
  obtain ⟨opc, unit, auxw, rsv, len, src, dst, aux, maxout⟩ := f
  subst hop
  cases op with
  | urst =>
    have hused : unitOf unit ≠ none := by simpa [fieldUse] using hunit
    simp_all [fieldUse, fieldsOf, instrOf, plainFields, Opcode.code, unitCode_unitOf]
  | _ => simp_all [fieldUse, fieldsOf, instrOf, plainFields, Opcode.code]

/-- What the decoder answers to the fields of a command. -/
theorem decodeWords_fieldsOf {i : Instr} {w0 w1 w2 : Word64}
    (hf : fieldsOfWords w0 w1 w2 = fieldsOf i) :
    (i.wellFormed = true → decodeWords w0 w1 w2 = .instr i) ∧
    (i.wellFormed = false → decodeWords w0 w1 w2 = .reservedField 7#32) := by
  have hop : (fieldsOfWords w0 w1 w2).opc = i.row.code := hf ▸ fieldsOf_opc i
  have hfails : ∀ k, FieldFails (fieldsOfWords w0 w1 w2) k ↔ k = 7 ∧ i.wellFormed = false :=
    hf ▸ fieldFails_fieldsOf i
  constructor
  · intro hwf
    have hr := (reservedField_eq_none hop).2 fun k => by simp [hfails, hwf]
    rw [decodeWords_of_fields hop hr, hf, instrOf_fieldsOf]
  · intro hwf
    exact decodeWords_of_reserved hop (reservedField_of_least hop ((hfails 7).2 ⟨rfl, hwf⟩)
      fun j hj hfj => absurd ((hfails j).1 hfj).1 (Nat.ne_of_lt hj))

/-- The words of a well-formed command, written out, decode to it. -/
theorem decodeWords_of_encode {i : Instr} {w0 w1 w2 : Word64} (h : encode i = [w0, w1, w2, 0#64])
    (hwf : i.wellFormed = true) : decodeWords w0 w1 w2 = .instr i :=
  (decodeWords_fieldsOf (fieldsOfWords_of_encode h)).1 hwf

end Sys2Proof
end

section
/-! PROOFS. The descriptor encoding, and the step that stops at a reserved field. -/

namespace Sys2Proof.Machine

/-- A step with a written descriptor at its pointer runs what the descriptor decodes to. -/
theorem step_eq_runDecoded {s : State} {w0 w1 w2 : Word64} (hs : AtStep s)
    (hd : DescriptorAt s w0 w1 w2) : step s = runDecoded s (decodeWords w0 w1 w2) := by
  obtain ⟨hhost, hrun, hstop⟩ := hs
  obtain ⟨halign, hin, hwords⟩ := hd
  have hfetch : fetchError s = none := fetchError_eq_none.2 ⟨halign, hin⟩
  rw [step_seq hhost]
  simp [seqStep, State.fetch, hrun, hstop, hfetch, hwords]

/-- Settles O1: the four words hold the command's fields, of which only `AUX` can fail. -/
theorem decodeOfEncodeIsTheCommand : Obligations.DecodeOfEncodeIsTheCommand := by
  intro i
  rw [decode_encodeBytes (i := i) rfl]
  exact decodeWords_fieldsOf (fieldsOfWords_of_encode (i := i) rfl)

/-- Settles O2: the decoded words are packed from their fields, and those are the command's. -/
theorem encodeOfDecodedIsTheWords : Obligations.EncodeOfDecodedIsTheWords := by
  intro w0 w1 w2 i h
  obtain ⟨op, hop, hr, rfl⟩ := exists_row_of_decodeWords h
  have hnone := (reservedField_eq_none hop).1 hr
  have hfields := fieldsOf_instrOf hop hnone
  constructor
  · refine Bool.of_not_eq_false fun hwf => hnone 7 ?_
    rw [← hfields, fieldFails_fieldsOf]
    exact ⟨rfl, hwf⟩
  · rw [encode, hfields, wordsOfFields_fieldsOfWords]

/-- Settles O3: a legal `OPC` value is that of the one row it names. -/
theorem opcodeMapIsTheTable : Obligations.OpcodeMapIsTheTable := by
  intro w0 w1 w2
  refine ⟨?own, ?illegal, ?whole⟩
  case own =>
    intro i h
    obtain ⟨op, hop, -, rfl⟩ := exists_row_of_decodeWords h
    rw [← code_row, row_instrOf]
    exact hop
  case illegal =>
    intro o
    constructor
    · intro h
      rcases decodeWords_cases w0 w1 w2 with ⟨hill, hd⟩ | ⟨_, -, ⟨_, hd⟩ | ⟨-, hd⟩⟩ <;>
        rw [hd] at h <;> cases h
      exact ⟨rfl, hill⟩
    · rintro ⟨rfl, hill⟩
      exact decodeWords_of_illegal hill
  case whole =>
    rcases decodeWords_cases w0 w1 w2 with ⟨-, hd⟩ | ⟨_, -, ⟨_, hd⟩ | ⟨-, hd⟩⟩ <;> simp [hd]

/-- Settles O4: the decoder finds the least failing field, and the step stops with it. -/
theorem reservedFieldsStopTheRun : Obligations.ReservedFieldsStopTheRun := by
  intro s w0 w1 w2 hs hd hlegal
  obtain ⟨op, hop⟩ := (illegal_or_code (w0.extractLsb' 0 8)).resolve_left hlegal
  constructor
  · intro k hk hleast
    rw [step_eq_runDecoded hs hd,
      decodeWords_of_reserved hop (reservedField_of_least hop hk hleast)]
    rfl
  · intro hnone
    exact ⟨_, decodeWords_of_fields hop ((reservedField_eq_none hop).2 hnone)⟩

/-- Settles O5: each line encodes to its words (R223), and 0x03 is in the last row of R210. -/
theorem exampleWordsDecode : Obligations.ExampleWordsDecode := by
  refine ⟨?_, ?_, ?_, ?_, ?_, ?_, ?_, ?_, ?_, ?_, ?illegal, ?_, ?_, ?_, ?_, ?_, ?_⟩
  case illegal => exact decodeWords_of_illegal (.inl (by decide))
  all_goals exact decodeWords_of_encode rfl rfl

end Sys2Proof.Machine
end

section
/-! PROOFS. A write of CTRL: what it does in a run and of an idle core, and that nothing else begins
a run. -/

namespace Sys2Proof.Machine

section Ctrl

variable {s : State} {v : Word32}

theorem hostWrite_ctrl (s : State) (v : Word32) : hostWrite s 0x020#32 v = ctrlWrite s v := by
  rw [hostWrite_control (r := .ctrl) rfl]
  simp [regLive, regStore]

/-- STOP alone during a run makes the request (`40_control.md` R258). -/
theorem ctrlWrite_stop (hrun : s.seq.run = true) (hstop : v.getLsbD 1 = true)
    (hstart : v.getLsbD 0 = false) (hreset : v.getLsbD 2 = false) :
    ctrlWrite s v = { s with seq := { s.seq with stopReq := true } } := by
  simp only [ctrlWrite, hrun, hstop, hstart, hreset, Bool.or_self, Bool.false_eq_true, if_true,
    if_false]

/-- START of an idle core begins a run (`40_control.md` R251). -/
theorem ctrlWrite_start (hidle : s.seq.run = false) (hstart : v.getLsbD 0 = true)
    (hreset : v.getLsbD 2 = false) : ctrlWrite s v = s.start := by
  simp only [ctrlWrite, hidle, hstart, hreset, Bool.false_eq_true, if_true, if_false]

/-- A write of CTRL after which an idle core runs was a START. -/
theorem start_of_ctrlWrite_run (hidle : s.seq.run = false)
    (h : (ctrlWrite s v).seq.run = true) : v.getLsbD 0 = true ∧ v.getLsbD 2 = false := by
  rw [ctrlWrite, hidle, if_neg (by decide)] at h
  split at h
  case isTrue => cases h
  case isFalse hreset =>
  split at h
  case isTrue hstart => exact ⟨hstart, Bool.eq_false_of_not_eq_true hreset⟩
  case isFalse => cases hidle.symm.trans h

end Ctrl

/-! ### The other host actions leave `RUN` -/

section Run

variable {s t : State} {v : Word32} {r : Reg}

theorem regWrite_run (h : regWrite s v r = some t) : t.seq.run = s.seq.run := by
  cases r with
  | cfcFs | cfcFres =>
    obtain ⟨n, rfl⟩ := writeCfcRates_eq_some h
    rfl
  | modcfg | agcRef | agcMaxGain | agcK | agcN | agcGain | firFactor | firNtaps | scrLen | cfcPhase
  | pllBw | pllDamp | pllAlpha | pllBeta | pllMinf | pllMaxf | pllPhase | pllFreq | symSps | symBw
  | symDamp | symKd | symAlpha | symBeta | symMu | symCnt | symVi | fsPlen | fsFsize | fsThresh =>
    obtain ⟨-, rfl⟩ := acceptIf_eq_some.1 h
    rfl
  | _ => cases h; rfl

theorem regStore_run (hr : r ≠ .ctrl) : (regStore s r v).seq.run = s.seq.run := by
  cases hw : regWrite s v r with
  | none => rw [regStore_rejected hw]; rfl
  | some t => rw [regStore_accepted hr hw, regWrite_run hw]

/-- A write at any other address than CTRL's leaves `RUN`. -/
theorem hostWrite_run {a : Word32} (ha : a ≠ 0x020#32) :
    (hostWrite s a v).seq.run = s.seq.run := by
  by_cases halign : a.toNat % 4 = 0
  case neg => rw [hostWrite_misaligned halign]
  by_cases hlt : a.toNat < 0x1000
  case pos =>
    cases hat : regAt a.toNat with
    | none =>
      rw [hostWrite_unnamed halign hlt hat]
      split <;> rfl
    | some r =>
      have hoff : regOffset r = a.toNat := regAt_eq_some.1 hat
      have hr : r ≠ .ctrl := by
        rintro rfl
        exact ha (BitVec.eq_of_toNat_eq hoff.symm)
      rw [hostWrite_control hoff]
      split
      · rfl
      · exact regStore_run hr
  case neg =>
    rw [hostWrite_above halign (Nat.not_lt.1 hlt)]
    split_ifs <;> rfl

end Run

theorem seqStep_idle {s : State} (h : s.seq.run = false) : seqStep s = .next s := by
  simp only [seqStep, h, Bool.false_eq_true, if_false]

/-! ### The statements -/

/-- Settles O9: a write of CTRL in a run, and the step that finds the request. -/
theorem stopRequestIsTaken : Obligations.StopRequestIsTaken := by
  refine ⟨fun s v rest hhost hrun => ⟨?request, ?hazard⟩, ?taken⟩
  case request =>
    intro hstop hstart hreset
    rw [step_write hhost, hostWrite_ctrl]
    exact congrArg _ (ctrlWrite_stop (s := { s with host := rest }) hrun hstop hstart hreset)
  case hazard =>
    intro hv
    obtain ⟨-, -, hctrl⟩ := writesDuringARunAreHazards s 0x020#32 v rest hhost hrun (by decide)
    exact hctrl rfl hv
  case taken =>
    intro s hhost hrun hstop
    rw [step_seq hhost]
    simp only [seqStep, hrun, hstop, if_true]
    rfl

/-- Settles O15: the write of CTRL is the start. -/
theorem startBeginsARun : Obligations.StartBeginsARun := by
  intro s v rest hhost hidle hstart hreset
  rw [step_write hhost, hostWrite_ctrl]
  exact congrArg _ (ctrlWrite_start (s := { s with host := rest }) hidle hstart hreset)

/-- Settles O16: a case for each action of the host, and for each address that it may write. -/
theorem onlyAStartBeginsARun : Obligations.OnlyAStartBeginsARun := by
  intro s t hidle hstep hrun
  have stays {u : State} (h : step s = .next u) (hu : u.seq.run = false) : False := by
    cases hstep.symm.trans h
    cases hu.symm.trans hrun
  cases hhost : s.host with
  | nil => exact (stays ((step_seq hhost).trans (seqStep_idle hidle)) hidle).elim
  | cons act rest =>
    cases act with
    | wait => exact (stays ((step_wait hhost).trans (seqStep_idle hidle)) hidle).elim
    | reset => exact (stays (step_reset hhost) (by rw [externalReset_seq]; rfl)).elim
    | read a => exact (stays (step_read hhost) (by rw [hostRead_seq]; exact hidle)).elim
    | write a v =>
      by_cases ha : a = 0x020#32
      case neg => exact (stays (step_write hhost) ((hostWrite_run ha).trans hidle)).elim
      case pos =>
      subst ha
      cases hstep.symm.trans (step_write hhost)
      rw [hostWrite_ctrl] at hrun
      exact ⟨v, rest, rfl, start_of_ctrlWrite_run (s := { s with host := rest }) hidle hrun⟩

end Sys2Proof.Machine
end

section
/-! PROOFS. The control commands, and the step that runs the decoded command. -/

namespace Sys2Proof.Machine

/-- A command that completes with zero counts clears the results and its `W3`, and no other byte. -/
theorem complete_completesControl {s r : State} (hseq : r.seq = s.seq) (hmem : r.mem = s.mem) :
    CompletesControl s (r.complete ⟨0#32, 0#32, 0#32⟩) := by
  have hptr : r.ptr = s.ptr := congrArg (fun q => q.cmdPtr.toNat) hseq
  rw [CompletesControl, State.complete_seq, State.complete_mem, hseq, hmem, hptr]
  refine ⟨rfl, holdsWords_writeBlock _ _ _, fun a ha => ?_⟩
  have hout := ha ⟨s.ptr + 3, 1⟩ (List.mem_singleton_self _)
  simp only [Range.HasByte, not_and_or, not_le, not_lt] at hout
  exact Memory.get_writeBlock_outside _ hout

theorem resetUnit_mem (u : UnitSel) (s : State) : (resetUnit u s).mem = s.mem := by
  cases u <;> rfl

/-- URST is the reset of its unit, and the completion of a control command. -/
theorem exec_urst (u : UnitSel) (s : State) :
    ∃ t, exec (.urst u) s = .next t ∧ CompletesControl s t ∧
      t = { resetUnit u s with seq := t.seq, mem := t.mem } :=
  ⟨_, rfl, complete_completesControl (resetUnit_seq u s) (resetUnit_mem u s), rfl⟩

/-- Settles O37: each unit's reset writes out to the values of R254. -/
theorem urstResetsTheNamedUnit : Obligations.UrstResetsTheNamedUnit := fun s =>
  ⟨exec_urst .agc s, exec_urst .fir s, exec_urst .scr s, exec_urst .dscr s, exec_urst .cfc s,
    exec_urst .pll s, exec_urst .sym s, exec_urst .fsync s, exec_urst .all s⟩

/-- Settles O35: the shared operations of HALT, written out. -/
theorem haltEndsTheRun : Obligations.HaltEndsTheRun := fun _ => rfl

/-- Settles O36: NOP is the completion of a control command. -/
theorem nopCompletes : Obligations.NopCompletes := fun _ =>
  ⟨_, rfl, complete_completesControl rfl rfl, rfl⟩

/-- A step left to the sequencer, by a host with nothing to do or by its `wait`. -/
theorem step_eq_seqStep {s : State} {rest : List HostAct}
    (h : (s.host = [] ∧ rest = []) ∨ s.host = .wait :: rest) :
    step s = seqStep { s with host := rest } := by
  rcases h with ⟨hhost, rfl⟩ | hhost
  · rw [step_seq hhost, ← hhost]
  · exact step_wait hhost

/-- The sequencer's step with a written descriptor at its pointer, whatever the host has to do. -/
theorem seqStep_eq_runDecoded {s : State} {w0 w1 w2 : Word64} (hrun : s.seq.run = true)
    (hstop : s.seq.stopReq = false) (hd : DescriptorAt s w0 w1 w2) :
    seqStep s = runDecoded s (decodeWords w0 w1 w2) := by
  obtain ⟨halign, hin, hwords⟩ := hd
  have hfetch : fetchError s = none := fetchError_eq_none.2 ⟨halign, hin⟩
  simp [seqStep, State.fetch, hrun, hstop, hfetch, hwords]

/-- Settles O6: the step is the sequencer's, and its fetch finds the descriptor. -/
theorem stepRunsTheDecodedCommand : Obligations.StepRunsTheDecodedCommand := by
  intro s w0 w1 w2 i rest hhost hrun hstop hdesc hdec
  rw [step_eq_seqStep hhost,
    seqStep_eq_runDecoded (s := { s with host := rest }) hrun hstop hdesc, hdec]
  rfl

end Sys2Proof.Machine
end

section
/-! PROOFS. Every block command as its checks and a body, what a command and a step of a run can
answer, and the length of a run. -/

namespace Sys2Proof.Machine

/-! ### Block commands -/

/-- A body refuses nothing, and what it computes once the capacity check has passed stays within its
ranges. -/
structure BlockBody (s : State) (b : Blocks) (cap : Option CmdError) (body : Computed) : Prop where
  answers : ∀ r, body ≠ .refused r
  within : cap = none → ∀ e, body = .next e → e.Within s b

section Bodies

variable {s : State} {b : Blocks} {cap : Option CmdError}

theorem blockBody_next {e : Effect} (h : cap = none → e.Within s b) :
    BlockBody s b cap (.next e) :=
  ⟨nofun, by rintro hcap _ ⟨⟩; exact h hcap⟩

theorem blockBody_fault (r : Fault) : BlockBody s b cap (.fault r) :=
  ⟨nofun, fun _ _ h => nomatch h⟩

theorem blockBody_withWords {r : Range} {f : List Word64 → Computed}
    (h : ∀ ws, ws.length = r.len → BlockBody s b cap (f ws)) :
    BlockBody s b cap (withWords s r f) := by
  rcases withWords_eq s r f with ⟨-, hw⟩ | ⟨ws, hr, hw⟩
  · rw [hw]; exact blockBody_fault _
  · rw [hw]; exact h ws (Memory.readBlock_length hr)

theorem blockBody_withBits {base n : Nat} {f : List Bool → Effect}
    (h : ∀ bs, bs.length = n → (f bs).Within s b) :
    BlockBody s b cap (withBits s base n f) := by
  rcases withBits_eq s base n f with ⟨-, hw⟩ | ⟨bs, hr, hw⟩
  · rw [hw]; exact blockBody_fault _
  · rw [hw]; exact blockBody_next fun _ => h bs (Memory.readBits_length hr)

/-- Every block command is its checks on its ranges, and then a body (`40_control.md` R257). -/
theorem exec_eq_runBlock {i : Instr} (h : instrBlocks s i = some b) :
    ∃ body, exec i s = runBlock s b (capacityError s i) body ∧
      BlockBody s b (capacityError s i) body := by
  cases i with
  | halt | nop | urst => cases h
  | agc =>
    cases h
    exact ⟨_, rfl, blockBody_withWords fun _ hl => blockBody_next fun _ => agcEffect_within hl⟩
  | firdec =>
    cases h
    refine ⟨_, rfl, blockBody_withWords fun _ _ => ?_⟩
    split
    · exact blockBody_fault _
    · exact blockBody_next fun _ => firEffect_within _
  | scr => cases h; exact ⟨_, rfl, blockBody_withBits fun _ => scrEffect_within⟩
  | dscr => cases h; exact ⟨_, rfl, blockBody_withBits fun _ => dscrEffect_within⟩
  | henc => cases h; exact ⟨_, rfl, blockBody_withBits fun _ => hencEffect_within⟩
  | hdec => cases h; exact ⟨_, rfl, blockBody_withBits fun _ => hdecEffect_within⟩
  | cfc =>
    cases h
    exact ⟨_, rfl, blockBody_withWords fun _ hl => blockBody_next fun _ => cfcEffect_within hl⟩
  | pll =>
    cases h
    exact ⟨_, rfl, blockBody_withWords fun _ hl => blockBody_next fun _ => pllEffect_within hl⟩
  | symsync dst src len maxout =>
    cases h
    refine ⟨_, rfl, ?_⟩
    rcases symCompute_cases src len maxout s with hw | ⟨ws, hl, -, hw⟩
    · rw [hw]; exact blockBody_fault _
    · rw [hw]; exact blockBody_next fun _ => symEffect_within hl
  | fsync =>
    cases h
    refine ⟨_, rfl, blockBody_withWords fun _ hl => ?_⟩
    split
    · exact blockBody_fault _
    · exact blockBody_next fun hcap => fsEffect_within _ hcap hl

end Bodies

/-! ### The answers of a command and of a step of a run -/

/-- Everything that a command can answer: the end of the run by HALT, an error stop, the completion
of an effect within its ranges, or the fault of an unwritten word. -/
inductive ExecAnswer (s : State) : Result → Prop where
  | halted : ExecAnswer s (.next ((s.advance.endRun 1#2).setIrq irqDone))
  | stopped (e : CmdError) : ExecAnswer s (.next (s.errorStop e))
  | completed (b : Blocks) (e : Effect) (hfit : OperandsFit s b) (hwithin : e.Within s b) :
      ExecAnswer s (.next (e.commit b))
  | fault (r : Fault) : ExecAnswer s (.fault r)

section Answers

variable {s t : State}

theorem runBlock_answer {b : Blocks} {cap : Option CmdError} {body : Computed}
    (h : BlockBody s b cap body) : ExecAnswer s (runBlock s b cap body) := by
  cases hres : runBlock s b cap body with
  | next t =>
    rcases runBlock_next hres with ⟨e, rfl, -⟩ | ⟨e, rfl, -⟩ | ⟨e, hfit, hcap, he, rfl⟩
    · exact .stopped e
    · exact .stopped e
    · exact .completed b e hfit (h.within hcap e he)
  | fault r => exact .fault r
  | refused r => exact absurd hres (runBlock_not_refused h.answers r)

theorem exec_answer (i : Instr) (s : State) : ExecAnswer s (exec i s) := by
  cases hb : instrBlocks s i with
  | some b =>
    obtain ⟨body, hexec, hbody⟩ := exec_eq_runBlock hb
    rw [hexec]
    exact runBlock_answer hbody
  | none =>
    cases i with
    | halt => exact .halted
    | nop =>
      exact .completed noBlocks (controlEffect s) (operandsFit_noBlocks s) (nopEffect_within s)
    | urst u =>
      exact .completed noBlocks (controlEffect (resetUnit u s)) (operandsFit_noBlocks s)
        (urstEffect_within u s)
    | _ => cases hb

/-- A step of a run takes a pending stop request, or answers as a command does. -/
theorem seqStep_answer (hrun : s.seq.run = true) :
    seqStep s = .next s.takeStop ∨ ExecAnswer s (seqStep s) := by
  rw [seqStep, if_pos hrun]
  split
  case isTrue => exact .inl rfl
  case isFalse =>
  right
  split
  case h_1 e _ => exact .stopped e
  case h_2 =>
  split
  case h_1 => exact .fault _
  case h_2 d _ =>
  cases d with
  | instr i => exact exec_answer i s
  | illegalOpcode | reservedField => exact .stopped _
  | truncated => exact .fault _

end Answers

/-- Settles O10: a completed effect within its ranges counts, moves on and writes its `W3`; the
other answers are the other three. -/
theorem stepOfARunIsOneOfFour : Obligations.StepOfARunIsOneOfFour := by
  intro s t hhost hrun hstep
  rw [step_seq hhost] at hstep
  rcases seqStep_answer hrun with hstop | hanswer
  · cases hstop.symm.trans hstep
    exact .inr (.inr (.inl rfl))
  rw [hstep] at hanswer
  cases hanswer with
  | halted => exact .inr (.inl rfl)
  | stopped e => exact .inr (.inr (.inr ⟨e.code, e.info, s.errorStop_eq e⟩))
  | completed b e hfit hw =>
    obtain ⟨hseq, -, hw3, -⟩ :=
      Effect.commit_completes hfit hw.seq hw.mem hw.out_le hw.aux_le
    exact .inl ⟨e.counts, hseq, hw3 0 Nat.one_pos⟩

/-! ### The configuration -/

/-- The state with the carried state of the units, the sequencer registers and the memory of
another. -/
def State.withCarried (s t : State) : State :=
  { s with
    seq := t.seq
    mem := t.mem
    agc := { s.agc with gain := t.agc.gain, ph := t.agc.ph }
    fir := { s.fir with dl := t.fir.dl }
    scr := { s.scr with state := t.scr.state, dstate := t.scr.dstate }
    cfc := { s.cfc with phase := t.cfc.phase, fest := t.cfc.fest, buf := t.cfc.buf }
    pll := { s.pll with phase := t.pll.phase, freq := t.pll.freq }
    sym := { s.sym with mu := t.sym.mu, cnt := t.sym.cnt, vi := t.sym.vi, strobe := t.sym.strobe,
                        h0 := t.sym.h0, h1 := t.sym.h1, h2 := t.sym.h2, tb := t.sym.tb,
                        prev := t.sym.prev }
    fs := { s.fs with outcome := t.fs.outcome, dl := t.fs.dl, raw := t.fs.raw, mag := t.fs.mag } }

/-- What `State.config` makes blank is what `State.withCarried` fills in. -/
theorem config_withCarried (s t : State) : s.config.withCarried t = s.withCarried t := rfl

theorem withCarried_self (t : State) : t.withCarried t = t := rfl

theorem eq_withCarried_of_config {s t : State} (h : t.config = s.config) : t = s.withCarried t :=
  calc t
    _ = t.withCarried t := (withCarried_self t).symm
    _ = t.config.withCarried t := (config_withCarried t t).symm
    _ = s.config.withCarried t := by rw [h]
    _ = s.withCarried t := config_withCarried s t

theorem ExecAnswer.config {s t : State} (h : ExecAnswer s (.next t)) : t.config = s.config := by
  cases h with
  | halted | stopped => rfl
  | completed b e hfit hw => exact (e.commit_config b).trans hw.config

/-- Settles O14: every answer of a command keeps what `State.config` leaves of a state. -/
theorem commandsKeepConfiguration : Obligations.CommandsKeepConfiguration := by
  intro i s t h
  exact eq_withCarried_of_config (h ▸ exec_answer i s).config

/-! ### The length of a run -/

section Runs

variable {s t : State}

/-- A descriptor that leaves DMEM ends the run. -/
theorem seqStep_out_of_range (hrun : s.seq.run = true) (hout : s.par.dmemWords < s.ptr + 4)
    (h : seqStep s = .next t) : t.seq.run = false := by
  cases hfetch : fetchError s with
  | none => exact absurd (fetchError_eq_none.1 hfetch).2 (Nat.not_le.2 hout)
  | some e =>
    rw [seqStep, if_pos hrun, hfetch] at h
    split at h <;> cases h <;> rfl

/-- A step after which the run goes on has completed a descriptor inside DMEM, and the next one
follows it. -/
theorem seqStep_continues (hrun : s.seq.run = true) (h : seqStep s = .next t)
    (ht : t.seq.run = true) :
    s.ptr + 4 ≤ s.par.dmemWords ∧ t.seq.cmdPtr = s.seq.cmdPtr + 4#32 ∧ t.par = s.par ∧
      t.host = s.host := by
  have hin : s.ptr + 4 ≤ s.par.dmemWords := Nat.not_lt.1 fun hout => by
    cases (seqStep_out_of_range hrun hout h).symm.trans ht
  rcases seqStep_answer hrun with hstop | hanswer
  · cases hstop.symm.trans h
    cases ht
  rw [h] at hanswer
  have hconfig : t.config = s.config := hanswer.config
  refine ⟨hin, ?_, (congrArg State.par hconfig :), (congrArg State.host hconfig :)⟩
  cases hanswer with
  | halted | stopped => cases ht
  | completed b e hfit hw => rw [Effect.commit_seq, hw.seq]; rfl

/-- The run ends in at most `n` steps, or reads an unwritten word within them. -/
def EndsWithin (n : Nat) (s : State) : Prop :=
  ∃ k, k ≤ n ∧
    ((∃ t, runSteps k s = .next t ∧ t.seq.run = false) ∨ ∃ r, runSteps k s = .fault r)

theorem EndsWithin.step {n : Nat} (h : EndsWithin n t) (hstep : step s = .next t) :
    EndsWithin (n + 1) s := by
  obtain ⟨k, hk, hend⟩ := h
  refine ⟨k + 1, Nat.succ_le_succ hk, ?_⟩
  simpa only [runSteps, hstep] using hend

theorem EndsWithin.mono {m n : Nat} (h : EndsWithin m s) (hmn : m ≤ n) : EndsWithin n s := by
  obtain ⟨k, hk, hend⟩ := h
  exact ⟨k, hk.trans hmn, hend⟩

/-- A step of a run is never refused: it ends the run, stops with a fault, or goes on. -/
theorem endsWithin_one_or_continues (hhost : s.host = []) (hrun : s.seq.run = true) :
    EndsWithin 1 s ∨ ∃ t, seqStep s = .next t ∧ t.seq.run = true := by
  cases h : seqStep s with
  | next t =>
    cases ht : t.seq.run with
    | true => exact .inr ⟨t, rfl, ht⟩
    | false =>
      exact .inl ⟨1, Nat.le_refl _, .inl ⟨t, by simp only [runSteps, step_seq hhost, h], ht⟩⟩
  | fault r =>
    exact .inl ⟨1, Nat.le_refl _, .inr ⟨r, by simp only [runSteps, step_seq hhost, h]⟩⟩
  | refused r =>
    rcases seqStep_answer hrun with hstop | hanswer
    · cases hstop.symm.trans h
    · rw [h] at hanswer
      cases hanswer

/-- The run ends once the pointer has moved past DMEM, four words a step (`40_control.md` R250). -/
theorem endsWithin_of_ptr {n : Nat} (hsize : s.par.dmemWords < 2 ^ 32) (hhost : s.host = [])
    (hrun : s.seq.run = true) (hn : s.par.dmemWords < s.ptr + 4 * (n + 1)) :
    EndsWithin (n + 1) s := by
  induction n generalizing s with
  | zero =>
    rcases endsWithin_one_or_continues hhost hrun with hend | ⟨t, hstep, ht⟩
    · exact hend
    · obtain ⟨hin, -⟩ := seqStep_continues hrun hstep ht
      omega
  | succ n ih =>
    rcases endsWithin_one_or_continues hhost hrun with hend | ⟨t, hstep, ht⟩
    · exact hend.mono (by omega)
    · obtain ⟨hin, hnext, hpar, hhost'⟩ := seqStep_continues hrun hstep ht
      have hptr : t.ptr = s.ptr + 4 := by
        rw [State.ptr, hnext, BitVec.toNat_add]
        exact Nat.mod_eq_of_lt (hin.trans_lt hsize)
      refine (ih ?_ (hhost'.trans hhost) ht ?_).step ((step_seq hhost).trans hstep)
      · rwa [hpar]
      · rw [hpar, hptr]
        omega

end Runs

/-- Settles O11: from any pointer, `DMEM_WORDS / 4 + 1` descriptors pass the end of DMEM. -/
theorem everyRunEnds : Obligations.EveryRunEnds := by
  intro s hlegal hhost hrun
  obtain ⟨hsize, -⟩ := bounds_of_legal hlegal
  exact endsWithin_of_ptr hsize hhost hrun (by omega)

end Sys2Proof.Machine
end

section
/-! PROOFS. The operand ranges and the order of their checks. -/

namespace Sys2Proof.Machine

open Sys2Proof.Config

/-! ### The ranges -/

/-- The output range of SYMSYNC, by whether there is a cap (`40_control.md` R261). -/
theorem symOutLen_eq (len maxout : Word32) : symOutLen len maxout =
    if 0 < maxout.toNat then min len.toNat maxout.toNat else len.toNat := by
  by_cases h : maxout = 0#32
  · subst h
    rfl
  · have hpos : 0 < maxout.toNat := Nat.pos_of_ne_zero fun h0 => h (BitVec.eq_of_toNat_eq h0)
    rw [symOutLen, if_neg h, if_pos hpos]

/-- Settles O31: the row of each command is its definition, but for SYMSYNC's cap. -/
theorem operandRangesAreTheTable : Obligations.OperandRangesAreTheTable := by
  intro s dst src len aux maxout auxw aux? blocks
  refine ⟨rfl, rfl, rfl, rfl, rfl, rfl, rfl, rfl, ?symsync, rfl⟩
  case symsync => rw [instrBlocks, symBlocks, symOutLen_eq]

/-! ### The first failing range -/

section Order

variable {p : Params} {d a : Range} {b : Blocks}

theorem rangeError_inp (h : ¬ b.inp.Inside p) : rangeError p b = some ⟨4#8, 1#32⟩ := by
  rw [rangeError, (rangeLegal_eq_false p b.inp).2 h]
  rfl

theorem rangeError_out (hinp : b.inp.Inside p) (h : ¬ b.out.Inside p) :
    rangeError p b = some ⟨4#8, 2#32⟩ := by
  rw [rangeError, (rangeLegal_iff p b.inp).2 hinp, (rangeLegal_eq_false p b.out).2 h]
  rfl

theorem rangeError_aux (hinp : b.inp.Inside p) (hout : b.out.Inside p) (hb : b.aux = some a)
    (h : ¬ a.Inside p) : rangeError p b = some ⟨4#8, 3#32⟩ := by
  simp [rangeError, hb, (rangeLegal_iff p _).2 hinp, (rangeLegal_iff p _).2 hout,
    (rangeLegal_eq_false p _).2 h]

theorem rangeError_none (hinp : b.inp.Inside p) (hout : b.out.Inside p)
    (haux : ∀ a, b.aux = some a → a.Inside p) : rangeError p b = none := by
  cases hb : b.aux with
  | none => simp [rangeError, hb, (rangeLegal_iff p _).2 hinp, (rangeLegal_iff p _).2 hout]
  | some a =>
    simp [rangeError, hb, (rangeLegal_iff p _).2 hinp, (rangeLegal_iff p _).2 hout,
      (rangeLegal_iff p _).2 (haux a hb)]

/-! ### The first overlapping pair -/

theorem overlapError_inp_out (h : ¬ b.inp.Apart b.out) :
    overlapError d b = some ⟨5#8, 1#32⟩ := by
  cases hb : b.aux <;> simp [overlapError, hb, (rangesOverlap_iff _ _).2 h]

theorem overlapError_inp_aux (hio : b.inp.Apart b.out) (hb : b.aux = some a)
    (h : ¬ b.inp.Apart a) : overlapError d b = some ⟨5#8, 2#32⟩ := by
  simp [overlapError, hb, (rangesOverlap_eq_false _ _).2 hio, (rangesOverlap_iff _ _).2 h]

theorem overlapError_out_aux (hio : b.inp.Apart b.out) (hb : b.aux = some a)
    (hia : b.inp.Apart a) (h : ¬ b.out.Apart a) : overlapError d b = some ⟨5#8, 3#32⟩ := by
  simp [overlapError, hb, (rangesOverlap_eq_false _ _).2 hio, (rangesOverlap_eq_false _ _).2 hia,
    (rangesOverlap_iff _ _).2 h]

theorem overlapError_out_desc (hio : b.inp.Apart b.out)
    (haux : ∀ a, b.aux = some a → b.inp.Apart a ∧ b.out.Apart a) (h : ¬ b.out.Apart d) :
    overlapError d b = some ⟨5#8, 4#32⟩ := by
  cases hb : b.aux with
  | none =>
    simp [overlapError, hb, (rangesOverlap_eq_false _ _).2 hio, (rangesOverlap_iff _ _).2 h]
  | some a =>
    obtain ⟨hia, hoa⟩ := haux a hb
    simp [overlapError, hb, (rangesOverlap_eq_false _ _).2 hio, (rangesOverlap_eq_false _ _).2 hia,
      (rangesOverlap_eq_false _ _).2 hoa, (rangesOverlap_iff _ _).2 h]

theorem overlapError_aux_desc (hio : b.inp.Apart b.out) (hb : b.aux = some a)
    (haux : b.inp.Apart a ∧ b.out.Apart a) (hod : b.out.Apart d) (h : ¬ a.Apart d) :
    overlapError d b = some ⟨5#8, 5#32⟩ := by
  obtain ⟨hia, hoa⟩ := haux
  simp [overlapError, hb, (rangesOverlap_eq_false _ _).2 hio, (rangesOverlap_eq_false _ _).2 hia,
    (rangesOverlap_eq_false _ _).2 hoa, (rangesOverlap_eq_false _ _).2 hod,
    (rangesOverlap_iff _ _).2 h]

end Order

/-! ### The stop of a block command -/

section Stops

variable {s : State} {i : Instr} {b : Blocks} {e : CmdError}

theorem operandError_of_range (h : rangeError s.par b = some e) :
    operandError s.par s.ptr b = some e := by
  rw [operandError, h]

theorem operandError_of_overlap (hr : rangeError s.par b = none)
    (h : overlapError s.descRange b = some e) : operandError s.par s.ptr b = some e := by
  rw [operandError, hr]
  exact h

/-- An operand error stops the block command with it. -/
theorem exec_operandError (hb : instrBlocks s i = some b)
    (h : operandError s.par s.ptr b = some e) :
    exec i s = .next (s.stoppedWith e.code e.info) := by
  obtain ⟨body, hexec, -⟩ := exec_eq_runBlock hb
  rw [hexec, runBlock_operandError h, State.errorStop_eq]

theorem capacityError_code (h : capacityError s i = some e) : e.code = 6#8 := by
  cases i with
  | cfc | fsync =>
    simp only [capacityError, cfcCapacity, fsCapacity] at h
    split at h <;> cases h
    rfl
  | _ => cases h

/-- A block command whose operands fit can stop with a capacity error only: a completion moves the
pointer, which no error stop does. -/
theorem code_of_exec_stoppedWith (hb : instrBlocks s i = some b) (hfit : OperandsFit s b)
    {code : BitVec 8} {info : Word32} (h : exec i s = .next (s.stoppedWith code info)) :
    code = 6#8 := by
  obtain ⟨body, hexec, hbody⟩ := exec_eq_runBlock hb
  rcases runBlock_next (hexec.symm.trans h) with
    ⟨e, -, he⟩ | ⟨e, heq, -, hcap⟩ | ⟨e, -, hcap, he, heq⟩
  · cases ((operandError_eq_none s b).2 hfit).symm.trans he
  · have hcode : code = e.code := congrArg (fun t => t.seq.errCode) heq
    exact hcode.trans (capacityError_code hcap)
  · have hw := hbody.within hcap e he
    have hptr : s.seq.cmdPtr = s.seq.cmdPtr + 4#32 :=
      calc s.seq.cmdPtr
        _ = (e.commit b).seq.cmdPtr := congrArg (fun t => t.seq.cmdPtr) heq
        _ = s.seq.cmdPtr + 4#32 := by rw [Effect.commit_seq, hw.seq]; rfl
    bv_omega

end Stops

/-- Settles O32: each clause is the first failing check of its order, and a stop of operands that
fit is a capacity error. -/
theorem operandErrorsComeInOrder : Obligations.OperandErrorsComeInOrder := by
  intro s i b hb d
  have stop {e : CmdError} (h : operandError s.par s.ptr b = some e) :
      exec i s = .next (s.stoppedWith e.code e.info) := exec_operandError hb h
  refine ⟨?inp, ?out, fun hinp hout => ⟨?aux, fun haux => ?overlaps⟩, ?fits⟩
  case inp => exact fun h => stop (operandError_of_range (rangeError_inp h))
  case out => exact fun hinp h => stop (operandError_of_range (rangeError_out hinp h))
  case aux => exact fun a ha h => stop (operandError_of_range (rangeError_aux hinp hout ha h))
  case overlaps =>
    have stop' {e : CmdError} (h : overlapError s.descRange b = some e) :
        exec i s = .next (s.stoppedWith e.code e.info) :=
      stop (operandError_of_overlap (rangeError_none hinp hout haux) h)
    refine ⟨fun h => stop' (overlapError_inp_out h), fun hio => ⟨?_, ?_, fun hapart => ⟨?_, ?_⟩⟩⟩
    · exact fun a ha h => stop' (overlapError_inp_aux hio ha h)
    · exact fun a ha hia h => stop' (overlapError_out_aux hio ha hia h)
    · exact fun h => stop' (overlapError_out_desc hio hapart h)
    · exact fun hod a ha h => stop' (overlapError_aux_desc hio ha (hapart a ha) hod h)
  case fits =>
    intro hfit info
    constructor <;> intro h <;> cases code_of_exec_stoppedWith hb hfit h

end Sys2Proof.Machine
end

section
/-! PROOFS. AGC: the power estimate over its window, the trace of the loop over a block, and the
limit of the gain. -/

namespace Sys2Proof.Machine

open Sys2Proof.Config

/-! ### One sample -/

theorem agcErr_of_zero {p : F32} (hp : feq p fzero = true) (t : NumBuild) (lnRef g : F32) :
    agcErr t lnRef p g = 0x7F800000#32 := if_pos hp

theorem agcErr_of_nonzero {p : F32} (hp : feq p fzero = false) (t : NumBuild) (lnRef g : F32) :
    agcErr t lnRef p g = fsub lnRef (fadd (fln t p) (fmul ftwo g)) :=
  if_neg (Bool.eq_false_iff.1 hp)

theorem agcGain_of_zero {p : F32} (hp : feq p fzero = true) (k gmax g err : F32) :
    agcGain k gmax p g err = if fgt k fzero then gmax else g := by
  rw [agcGain, if_pos hp]

theorem agcGain_of_nonzero {p : F32} (hp : feq p fzero = false) (k gmax g err : F32) :
    agcGain k gmax p g err = if fgt k fzero then fmin (fadd g (fmul k err)) gmax else g := by
  rw [agcGain, if_neg (Bool.eq_false_iff.1 hp)]

/-! ### The trace of the loop -/

section Trace

variable (par : Params) (u : AgcUnit) (xs : List C32)

/-- The powers that the loop reaches at sample `i` of a block, the newest first. -/
def agcPowerAt (i k : Nat) : F32 := windowAt fzero (xs.map cabs2) u.ph i k

/-- The power estimate of sample `i` of a block: R271's sum, over the window of the last `N`
powers. -/
def agcEstimate (i : Nat) : F32 :=
  (List.range u.n.toNat).foldl
    (fun a k => fadd a (fmul (fdiv fone (i2f u.n.toNat)) (agcPowerAt u xs i k))) fzero

/-- The error of sample `i` of a block, at gain `g`. -/
def agcErrAt (i : Nat) (g : F32) : F32 := agcErr par.trans u.lnRef (agcEstimate u xs i) g

/-- The power estimate reads the newest `n` entries of a line at least as long. -/
theorem agcPower_map_range {n m : Nat} (h : n ≤ m) (c : F32) (q : Nat → F32) :
    agcPower c n ((List.range m).map q) =
      (List.range n).foldl (fun a k => fadd a (fmul c (q k))) fzero := by
  rw [agcPower, ← List.map_take, List.take_range, Nat.min_eq_left h, List.foldl_map]

variable {par u}

/-- A sample's line is the window after it, so its estimate is the one that R271 takes there. -/
theorem agcSample_eq (hn : u.n.toNat ≤ par.maxAgcN) {i : Nat} {st : AgcLoop} {x : C32}
    (hline : pushFront par.maxAgcN (cabs2 x) st.ph =
      (List.range par.maxAgcN).map (agcPowerAt u xs i)) :
    agcSample par u st x =
      (⟨agcGain u.k u.gmax (agcEstimate u xs i) st.g (agcErrAt par u xs i st.g),
          (List.range par.maxAgcN).map (agcPowerAt u xs i)⟩,
        (cscale (fexp par.trans st.g) x, agcErrAt par u xs i st.g)) := by
  rw [agcSample, hline, agcPower_map_range hn]
  rfl

/-- The loop over a block, by the gain before each sample. -/
theorem agcRun_trace (hph : u.ph.length = par.maxAgcN) (hn : u.n.toNat ≤ par.maxAgcN) (d : C32) :
    ∃ g : Nat → F32, g 0 = u.gain ∧
      (∀ i, i < xs.length →
        g (i + 1) = agcGain u.k u.gmax (agcEstimate u xs i) (g i) (agcErrAt par u xs i (g i))) ∧
      agcRun par u xs =
        (⟨g xs.length,
            (List.range par.maxAgcN).map fun m => agcPowerAt u xs xs.length (m + 1)⟩,
          (List.range xs.length).map fun i =>
            (cscale (fexp par.trans (g i)) (xs.getD i d), agcErrAt par u xs i (g i))) := by
  obtain ⟨st, h0, hlast, hstep, hout⟩ :=
    scanBlock_states (agcSample par u) ⟨u.gain, u.ph⟩ xs d
  have hpush : ∀ i, i < xs.length →
      (st (i + 1)).ph = pushFront par.maxAgcN (cabs2 (xs.getD i d)) (st i).ph :=
    fun i hi => congrArg AgcLoop.ph (hstep i hi)
  have hline : ∀ i, i ≤ xs.length →
      (st i).ph = (List.range par.maxAgcN).map fun m => agcPowerAt u xs i (m + 1) := by
    have h := line_trace fzero par.maxAgcN (xs.map cabs2) u.ph (fun i => (st i).ph)
      (congrArg AgcLoop.ph h0) hph fun i hi => by
        rw [List.length_map] at hi
        simp [hpush i hi, hi]
    rwa [List.length_map] at h
  have hsample : ∀ i, i < xs.length → agcSample par u (st i) (xs.getD i d) = _ := fun i hi =>
    agcSample_eq xs hn (i := i) <| calc
      pushFront par.maxAgcN (cabs2 (xs.getD i d)) (st i).ph
      _ = (st (i + 1)).ph := (hpush i hi).symm
      _ = (List.range par.maxAgcN).map fun m => agcPowerAt u xs (i + 1) (m + 1) := hline _ hi
      _ = (List.range par.maxAgcN).map (agcPowerAt u xs i) :=
        List.map_congr_left fun m _ => windowAt_succ fzero (xs.map cabs2) u.ph i m
  refine ⟨fun i => (st i).g, congrArg AgcLoop.g h0, fun i hi => ?gain, Prod.ext ?state ?outputs⟩
  case gain => exact congrArg AgcLoop.g ((hstep i hi).trans (congrArg Prod.fst (hsample i hi)))
  case state => exact hlast.trans (by rw [← hline _ (Nat.le_refl _)])
  case outputs =>
    refine hout.trans (List.map_congr_left fun i hi => ?_)
    exact congrArg Prod.snd (hsample i (List.mem_range.1 hi))

end Trace

/-! ### The command -/

section Command

variable {s t : State} {dst src len aux : Word32} {auxw : Bool} {ws : List Word64}

theorem agcEffect_st : (agcEffect len s ws).st =
    { s with agc := { s.agc with
        gain := (agcRun s.par s.agc (ws.map complexOf)).1.g
        ph := (agcRun s.par s.agc (ws.map complexOf)).1.ph } } := rfl

theorem agcEffect_out : (agcEffect len s ws).out =
    (agcRun s.par s.agc (ws.map complexOf)).2.map fun o => wordOfC o.1 := rfl

theorem agcEffect_aux : (agcEffect len s ws).aux =
    (agcRun s.par s.agc (ws.map complexOf)).2.map fun o => wordOfR o.2 := rfl

theorem agcEffect_completes (hf : OperandsFit s (agcBlocks dst src len auxw aux))
    (hl : ws.length = len.toNat) :
    Completes s ((agcEffect len s ws).commit (agcBlocks dst src len auxw aux))
      (agcBlocks dst src len auxw aux) (agcEffect len s ws).out (agcEffect len s ws).aux
      ⟨len, len, 0#32⟩ :=
  have hw := agcEffect_within hl
  Effect.commit_completes hf hw.seq hw.mem hw.out_le hw.aux_le

/-- The AGC unit after a command: as before, or as the loop over a block leaves it. -/
theorem agc_of_execAgc (h : execAgc dst src len auxw aux s = .next t) :
    t.agc = s.agc ∨ ∃ xs, t.agc =
      { s.agc with gain := (agcRun s.par s.agc xs).1.g, ph := (agcRun s.par s.agc xs).1.ph } := by
  rcases runBlock_next h with ⟨e, rfl, -⟩ | ⟨e, rfl, -⟩ | ⟨e, -, -, hbody, rfl⟩
  · exact .inl (State.errorStop_agc s e)
  · exact .inl (State.errorStop_agc s e)
  · rcases withWords_eq s _ fun ws => .next (agcEffect len s ws) with ⟨-, hw⟩ | ⟨ws, -, hw⟩
    · cases hw.symm.trans hbody
    · cases hw.symm.trans hbody
      exact .inr ⟨ws.map complexOf, Effect.commit_agc _ _⟩

end Command

/-! ### The limit of the gain -/

/-- A gain at or below its limit, or a NaN (R274). -/
def GainWithin (gmax g : F32) : Prop := fle g gmax = true ∨ isnan g = true

section Limit

variable {k gmax p g err : F32}

theorem isnan_of_fle_right {a b : F32} (h : fle a b = true) : isnan b = false := by
  simp only [fle, Bool.and_eq_true, Bool.not_eq_true'] at h
  exact h.1.2

theorem fle_self {a : F32} (h : isnan a = false) : fle a a = true := by
  simp [fle, h]

theorem gainWithin_fmin (h : isnan gmax = false) : GainWithin gmax (fmin g gmax) := by
  unfold fmin
  split
  case isTrue => exact .inl (fle_self h)
  case isFalse hlt =>
    cases hg : isnan g with
    | true => exact .inr hg
    | false => exact .inl (by simpa [flt, fle, h, hg] using hlt)

/-- With `K > 0` one sample brings any gain to its limit, below it, or to a NaN. -/
theorem gainWithin_agcGain (h : isnan gmax = false) (hk : fgt k fzero = true) :
    GainWithin gmax (agcGain k gmax p g err) := by
  cases hp : feq p fzero with
  | true => rw [agcGain_of_zero hp, if_pos hk]; exact .inl (fle_self h)
  | false => rw [agcGain_of_nonzero hp, if_pos hk]; exact gainWithin_fmin h

theorem gainWithin_agcSample {u : AgcUnit} (h : isnan u.gmax = false) (hk : fgt u.k fzero = true)
    (par : Params) (st : AgcLoop) (x : C32) : GainWithin u.gmax (agcSample par u st x).1.g := by
  rw [agcSample]
  exact gainWithin_agcGain h hk

theorem gainWithin_agcRun {u : AgcUnit} (hk : fgt u.k fzero = true)
    (hg : fle u.gain u.gmax = true) (par : Params) (xs : List C32) :
    GainWithin u.gmax (agcRun par u xs).1.g :=
  scanBlock_keeps (P := fun st : AgcLoop => GainWithin u.gmax st.g) (f := agcSample par u)
    (st := ⟨u.gain, u.ph⟩)
    (fun st x _ => gainWithin_agcSample (isnan_of_fle_right hg) hk par st x) (.inl hg) xs

end Limit

/-! ### The statements -/

/-- Settles O38, by the trace of the loop over the block. -/
theorem agcComputesTheLoop : Obligations.AgcComputesTheLoop := by
  intro s dst src len auxw aux ws hf hr hph hn x power c p
  have hl := Memory.readBlock_length hr
  obtain ⟨g, h0, hstep, hrun⟩ := agcRun_trace (ws.map complexOf) hph hn (complexOf 0#64)
  have hpower : agcPowerAt s.agc (ws.map complexOf) = power := by
    unfold agcPowerAt
    rw [List.map_map]
    rfl
  have hp : ∀ i, agcEstimate s.agc (ws.map complexOf) i = p i := fun i => by
    rw [agcEstimate, hpower]
  have herr : ∀ i, agcErrAt s.par s.agc (ws.map complexOf) i (g i) =
      agcErr s.par.trans s.agc.lnRef (p i) (g i) := fun i => by rw [agcErrAt, hp]
  simp only [List.length_map, hl, hpower, hp, herr, List.getD_map] at hstep hrun
  refine ⟨_, g, fun i => agcErr s.par.trans s.agc.lnRef (p i) (g i), execAgc_complete hf hr, h0,
    fun i hi => ⟨fun hz => ⟨?_, ?_⟩, fun hz => ⟨?_, ?_⟩⟩, ?completes, ?state⟩
  · exact agcErr_of_zero hz _ _ _
  · rw [hstep i hi, agcGain_of_zero hz]
  · exact agcErr_of_nonzero hz _ _ _
  · rw [hstep i hi, agcGain_of_nonzero hz]
  case completes =>
    have hc := agcEffect_completes hf hl
    rw [agcEffect_out, agcEffect_aux, hrun, List.map_map, List.map_map] at hc
    exact hc
  case state => rw [Effect.commit_eq, agcEffect_st, hrun]

/-- Settles O51: the loop keeps the gain within its limit, and a stop leaves it. -/
theorem agcGainStaysBelowItsLimit : Obligations.AgcGainStaysBelowItsLimit := by
  intro s t dst src len auxw aux hk hg h
  change GainWithin t.agc.gmax t.agc.gain
  rcases agc_of_execAgc h with hsame | ⟨xs, hloop⟩
  · rw [hsame]; exact .inl hg
  · rw [hloop]; exact gainWithin_agcRun hk hg s.par xs

end Sys2Proof.Machine
end

section
/-! PROOFS. FIRDEC: the outputs that its decimation keeps, the delay line after a block, and the
command. -/

namespace Sys2Proof.Machine

/-! ### Decimation -/

/-- Each index that the decimation keeps lies within the block. -/
theorem decimateIndex_lt {j f n : Nat} (h : j < n / f) : j * f < n :=
  have hf : 0 < f := Nat.pos_of_ne_zero fun h0 => by simp [h0] at h
  calc
    j * f < n / f * f := Nat.mul_lt_mul_of_pos_right h hf
    _ ≤ n := Nat.div_mul_le_self n f

/-- R291's `y[i]`, by the words of the taps: the sum over the window `w(i, ·)` that reaches into the
delay line. -/
def firSumAt (nt : Nat) (coef : List Word64) (xs dl : List C32) (i : Nat) : C32 :=
  (List.range nt).foldl
    (fun acc k => cadd acc (cmul (complexOf (coef.getD k 0#64)) (windowAt czero xs dl i k))) czero

theorem filterRun_getD {n : Nat} {coef : List Word64} {dl xs : List C32} (hdl : dl.length = n)
    (hc : coef.length ≤ n + 1) {i : Nat} (hi : i < xs.length) :
    (filterRun n (coef.map complexOf) dl xs).2.getD i czero =
      firSumAt coef.length coef xs dl i := by
  have hout := filterRun_output n (coef.map complexOf) dl xs hdl (by simpa using hc) i hi
  have htap : ∀ k, (coef.map complexOf).getD k czero = complexOf (coef.getD k 0#64) :=
    fun _ => List.getD_map coef 0#64 complexOf
  rw [List.getD_eq_getElem?_getD, hout, Option.getD_some, List.length_map]
  simp only [htap, firSumAt]

/-- Every output that the decimation keeps is one that the filter computed. -/
theorem decimate_filterRun {n f : Nat} {coef : List Word64} {dl xs : List C32}
    (hdl : dl.length = n) (hc : coef.length ≤ n + 1) :
    decimate f (xs.length / f) (filterRun n (coef.map complexOf) dl xs).2 =
      (List.range (xs.length / f)).map fun j => firSumAt coef.length coef xs dl (j * f) :=
  List.map_congr_left fun _ hj => filterRun_getD hdl hc (decimateIndex_lt (List.mem_range.1 hj))

/-! ### The command -/

section Command

variable {s : State} {dst src len : Word32} {ws coef : List Word64}

/-- Log 5: the taps need to be readable only where an output is computed. -/
theorem firTaps_eq_some
    (h : firOutputs s.fir len ≠ 0 → s.mem.readCoef 0 s.fir.ntaps.toNat = some coef) :
    firTaps s len = some (if firOutputs s.fir len = 0 then [] else coef) := by
  unfold firTaps
  split
  case isTrue => rfl
  case isFalse hn => exact h hn

theorem firEffect_st (taps : List C32) (hl : ws.length = len.toNat)
    (hdl : s.fir.dl.length = s.par.maxFirTaps - 1) :
    (firEffect len s taps ws).st = { s with fir := { s.fir with
      dl := (List.range (s.par.maxFirTaps - 1)).map fun m =>
        windowAt czero (ws.map complexOf) s.fir.dl len.toNat (m + 1) } } := by
  have hline := (filterRun_line _ taps _ (ws.map complexOf) hdl).trans
    (take_reverse_append czero _ _ _ hdl)
  rw [List.length_map, hl] at hline
  rw [firEffect, hline]

theorem firEffect_out (hl : ws.length = len.toNat)
    (hc : firOutputs s.fir len ≠ 0 → s.mem.readCoef 0 s.fir.ntaps.toNat = some coef)
    (hdl : s.fir.dl.length = s.par.maxFirTaps - 1) (hnt : s.fir.ntaps.toNat ≤ s.par.maxFirTaps) :
    (firEffect len s ((if firOutputs s.fir len = 0 then [] else coef).map complexOf) ws).out =
      (List.range (firOutputs s.fir len)).map fun j => wordOfC
        (firSumAt s.fir.ntaps.toNat coef (ws.map complexOf) s.fir.dl
          (j * s.fir.factor.toNat)) := by
  by_cases h0 : firOutputs s.fir len = 0
  case pos => simp [firEffect, decimate, h0]
  case neg =>
    have hlen : coef.length = s.fir.ntaps.toNat := Memory.readCoef_length (hc h0)
    have hdec := decimate_filterRun (f := s.fir.factor.toNat) (coef := coef)
      (xs := ws.map complexOf) hdl (by omega)
    rw [List.length_map, hl, hlen] at hdec
    rw [if_neg h0, firEffect, firOutputs, hdec, List.map_map]
    rfl

theorem firEffect_completes (taps : List C32) (hf : OperandsFit s (firBlocks s.fir dst src len)) :
    Completes s ((firEffect len s taps ws).commit (firBlocks s.fir dst src len))
      (firBlocks s.fir dst src len) (firEffect len s taps ws).out []
      ⟨len, BitVec.ofNat 32 (firOutputs s.fir len), 0#32⟩ :=
  have hw := firEffect_within taps
  Effect.commit_completes hf hw.seq hw.mem hw.out_le hw.aux_le

end Command

/-! ### The statement -/

/-- Settles O39: the decimation keeps every `F`-th output of the streaming filter. -/
theorem firdecFiltersAndDecimates : Obligations.FirdecFiltersAndDecimates := by
  intro s dst src len ws coef hf hr nout hc hdl hnt _ w y
  have hl := Memory.readBlock_length hr
  refine ⟨_, execFirdec_complete hf hr (firTaps_eq_some hc), ?completes, ?state⟩
  case completes =>
    have hcompl := firEffect_completes (ws := ws)
      ((if firOutputs s.fir len = 0 then [] else coef).map complexOf) hf
    rw [firEffect_out hl hc hdl hnt] at hcompl
    exact hcompl
  case state => rw [Effect.commit_eq, firEffect_st _ hl hdl]

end Sys2Proof.Machine
end

section
/-! PROOFS. DSCR of what SCR wrote: bit by bit it computes the same parity from the same history. -/

namespace Sys2Proof.Machine

/-- From one history, DSCR takes back what SCR added to a bit, and pushes what SCR pushed. -/
theorem dscrStep_scrStep (m p hist : Word32) (x : Bool) :
    dscrStep m p hist (scrStep m p hist x).2 = ((scrStep m p hist x).1, x) := by
  simp [dscrStep, scrStep]

theorem scanBlock_dscrStep_scrStep (m p hist : Word32) (xs : List Bool) :
    scanBlock (dscrStep m p) hist (scanBlock (scrStep m p) hist xs).2 =
      ((scanBlock (scrStep m p) hist xs).1, xs) := by
  induction xs generalizing hist with
  | nil => rfl
  | cons x xs ih => rw [scanBlock_cons, scanBlock_cons, dscrStep_scrStep, ih]

/-- The inverse law of R313 for the unit that SCR leaves: DSCR does not read SCR's history. -/
theorem dscrRun_scrRun {u : ScrUnit}
    (h : u.state &&& maskBits u.len.toNat = u.dstate &&& maskBits u.len.toNat) (xs : List Bool) :
    dscrRun { u with state := (scrRun u xs).1 } (scrRun u xs).2 = ((scrRun u xs).1, xs) := by
  rw [scrRun, h]
  exact scanBlock_dscrStep_scrStep _ _ _ xs

theorem HoldsWords.readBits {m : Memory} {base : Nat} {bs : List Bool}
    (h : HoldsWords m base (bs.map wordOfB)) : m.readBits base bs.length = some bs := by
  have hblock : m.readBlock base bs.length = some (bs.map wordOfB) :=
    Memory.readBlock_eq_some.2 ⟨List.length_map _, h⟩
  rw [Memory.readBits_of_readBlock hblock, map_bit_wordOfB]

/-- Settles O48: DSCR reads the bits that SCR wrote, with the unit that SCR left. -/
theorem descramblerInvertsScrambler : Obligations.DescramblerInvertsScrambler := by
  intro s mid dst src len bs hf hr hhist
  have hl := Memory.readBits_length hr
  refine ⟨_, execScr_complete hf hr, fun hf' => ?_⟩
  have hy : (scrRun s.scr bs).2.length = len.toNat := (scanBlock_length _ _ bs).trans hl
  obtain ⟨-, hmid, -⟩ := scrEffect_completes hf hl
  have hread := hmid.readBits
  rw [hy] at hread
  obtain ⟨-, hdst, -⟩ := dscrEffect_completes hf' hy
  refine ⟨_, execDscr_complete hf' hread, ?bits, ?histories⟩
  case bits =>
    rw [Effect.commit_scr, scrEffect, dscrRun_scrRun hhist] at hdst
    exact hdst
  case histories =>
    rw [Effect.commit_scr, dscrEffect, Effect.commit_scr, scrEffect, dscrRun_scrRun hhist]

end Sys2Proof.Machine
end

section
/-! PROOFS. A block in two commands. Each unit's loop over `xs ++ ys` goes on over `ys` from the unit that
`xs` leaves; so the second command needs that unit and nothing else of the state. -/

namespace Sys2Proof.Machine

open Sys2Proof.Config

/-! ### The loops -/

theorem pushHist_masked (m hist : Word32) (b : Bool) :
    pushHist m hist b &&& m = pushHist m hist b := by
  rw [pushHist, BitVec.and_assoc, BitVec.and_self]

/-- A loop that starts at a masked history and pushes a bit at each sample ends at a masked one, so the
mask that the next command begins with changes nothing. -/
theorem scanBlock_append_masked {m : Word32} {f : Word32 → Bool → Word32 × Bool}
    (hf : ∀ hist x, ∃ b, (f hist x).1 = pushHist m hist b) (hist : Word32) (xs ys : List Bool) :
    let mid := (scanBlock f (hist &&& m) xs).1
    scanBlock f (hist &&& m) (xs ++ ys) = ((scanBlock f (mid &&& m) ys).1,
      (scanBlock f (hist &&& m) xs).2 ++ (scanBlock f (mid &&& m) ys).2) := by
  intro mid
  have hmid : mid &&& m = mid := by
    refine scanBlock_keeps (P := fun h => h &&& m = h) (fun h x _ => ?step) ?start xs
    case step =>
      obtain ⟨b, hb⟩ := hf h x
      rw [hb, pushHist_masked]
    case start => rw [BitVec.and_assoc, BitVec.and_self]
  rw [hmid]
  exact scanBlock_append f _ xs ys

theorem scrRun_append (u : ScrUnit) (xs ys : List Bool) :
    let v : ScrUnit := { u with state := (scrRun u xs).1 }
    scrRun u (xs ++ ys) = ((scrRun v ys).1, (scrRun u xs).2 ++ (scrRun v ys).2) :=
  scanBlock_append_masked (fun _ _ => ⟨_, rfl⟩) u.state xs ys

theorem dscrRun_append (u : ScrUnit) (xs ys : List Bool) :
    let v : ScrUnit := { u with dstate := (dscrRun u xs).1 }
    dscrRun u (xs ++ ys) = ((dscrRun v ys).1, (dscrRun u xs).2 ++ (dscrRun v ys).2) :=
  scanBlock_append_masked (fun _ _ => ⟨_, rfl⟩) u.dstate xs ys

theorem pllRun_append (t : NumBuild) (m : Modulation) (u : PllUnit) (xs ys : List C32) :
    let st := (pllRun t m u xs).1
    let v : PllUnit := { u with phase := st.phi, freq := st.f }
    pllRun t m u (xs ++ ys) = ((pllRun t m v ys).1, (pllRun t m u xs).2 ++ (pllRun t m v ys).2) :=
  scanBlock_append _ _ xs ys

theorem agcRun_append (par : Params) (u : AgcUnit) (xs ys : List C32) :
    let st := (agcRun par u xs).1
    let v : AgcUnit := { u with gain := st.g, ph := st.ph }
    agcRun par u (xs ++ ys) = ((agcRun par v ys).1, (agcRun par u xs).2 ++ (agcRun par v ys).2) :=
  scanBlock_append _ _ xs ys

theorem filterRun_append (n : Nat) (taps dl xs ys : List C32) :
    let line := (filterRun n taps dl xs).1
    filterRun n taps dl (xs ++ ys) =
      ((filterRun n taps line ys).1, (filterRun n taps dl xs).2 ++ (filterRun n taps line ys).2) :=
  scanBlock_append _ _ xs ys

/-- Decimation by 1 keeps every output. -/
theorem decimate_one (ys : List C32) : decimate 1 ys.length ys = ys :=
  (outputs_of_trace rfl fun i hi => by simp [hi]).symm

/-! ### The commands -/

section Commands

variable {s t : State} {n m len : Word32} {xs ys ws : List Word64} {bs cs : List Bool}
  {taps : List C32}

theorem scrEffect_append (ht : t.scr = (scrEffect n s bs).st.scr) :
    (scrEffect (n + m) s (bs ++ cs)).out = (scrEffect n s bs).out ++ (scrEffect m t cs).out ∧
    (scrEffect (n + m) s (bs ++ cs)).st.scr = (scrEffect m t cs).st.scr := by
  simp only [scrEffect] at ht ⊢
  simp only [ht, scrRun_append, List.map_append, and_self]

theorem dscrEffect_append (ht : t.scr = (dscrEffect n s bs).st.scr) :
    (dscrEffect (n + m) s (bs ++ cs)).out = (dscrEffect n s bs).out ++ (dscrEffect m t cs).out ∧
    (dscrEffect (n + m) s (bs ++ cs)).st.scr = (dscrEffect m t cs).st.scr := by
  simp only [dscrEffect] at ht ⊢
  simp only [ht, dscrRun_append, List.map_append, and_self]

theorem pllEffect_append (hpar : t.par = s.par) (hmod : t.modcfg = s.modcfg)
    (ht : t.pll = (pllEffect n s xs).st.pll) :
    (pllEffect (n + m) s (xs ++ ys)).out = (pllEffect n s xs).out ++ (pllEffect m t ys).out ∧
    (pllEffect (n + m) s (xs ++ ys)).st.pll = (pllEffect m t ys).st.pll := by
  simp only [pllEffect] at ht ⊢
  simp only [ht, hpar, hmod, pllRun_append, List.map_append, and_self]

theorem agcEffect_append (hpar : t.par = s.par) (ht : t.agc = (agcEffect n s xs).st.agc) :
    (agcEffect (n + m) s (xs ++ ys)).out = (agcEffect n s xs).out ++ (agcEffect m t ys).out ∧
    (agcEffect (n + m) s (xs ++ ys)).aux = (agcEffect n s xs).aux ++ (agcEffect m t ys).aux ∧
    (agcEffect (n + m) s (xs ++ ys)).st.agc = (agcEffect m t ys).st.agc := by
  simp only [agcEffect] at ht ⊢
  simp only [ht, hpar, agcRun_append, List.map_append, and_self]

theorem symEffect_append_uncapped (hpar : t.par = s.par) (hmod : t.modcfg = s.modcfg)
    (ht : t.sym = (symEffect 0#32 s xs).st.sym) :
    (symEffect 0#32 s (xs ++ ys)).out =
      (symEffect 0#32 s xs).out ++ (symEffect 0#32 t ys).out ∧
    (symEffect 0#32 s (xs ++ ys)).st.sym = (symEffect 0#32 t ys).st.sym := by
  have hcap : symCap 0#32 = none := rfl
  simp only [symEffect, hcap] at ht ⊢
  simp only [ht, hpar, hmod, symRun_append_none, List.map_append, and_self]

/-- With factor 1, FIRDEC writes every output of its filter. -/
theorem firEffect_out_factor_one (hf : s.fir.factor = 1#32) (hl : len.toNat = ws.length) :
    (firEffect len s taps ws).out =
      (filterRun (s.par.maxFirTaps - 1) taps s.fir.dl (ws.map complexOf)).2.map wordOfC := by
  have hone : s.fir.factor.toNat = 1 := congrArg BitVec.toNat hf
  have hnout : firOutputs s.fir len =
      (filterRun (s.par.maxFirTaps - 1) taps s.fir.dl (ws.map complexOf)).2.length := by
    rw [firOutputs, hone, Nat.div_one, hl, filterRun_length, List.length_map]
  rw [firEffect, hone, hnout, decimate_one]

theorem firEffect_append (hn : n.toNat = xs.length) (hm : m.toNat = ys.length)
    (hnm : (n + m).toNat = xs.length + ys.length) (hpar : t.par = s.par)
    (hf : s.fir.factor = 1#32) (ht : t.fir = (firEffect n s taps xs).st.fir) :
    (firEffect (n + m) s taps (xs ++ ys)).out =
      (firEffect n s taps xs).out ++ (firEffect m t taps ys).out ∧
    (firEffect (n + m) s taps (xs ++ ys)).st.fir = (firEffect m t taps ys).st.fir := by
  have hft : t.fir.factor = 1#32 := by rw [ht]; exact hf
  rw [firEffect_out_factor_one hf hn, firEffect_out_factor_one hft hm,
    firEffect_out_factor_one hf (hnm.trans List.length_append.symm)]
  simp only [firEffect] at ht ⊢
  simp only [ht, hpar, filterRun_append, List.map_append, and_self]

end Commands

/-- Settles O49, command by command. -/
theorem splitBlocksGiveTheSameStream : Obligations.SplitBlocksGiveTheSameStream :=
  fun _ _ _ _ _ _ _ hn hm hnm hpar hmod =>
    ⟨scrEffect_append, dscrEffect_append, pllEffect_append hpar hmod, agcEffect_append hpar,
      symEffect_append_uncapped hpar hmod, firEffect_append hn hm hnm hpar⟩

end Sys2Proof.Machine
end

section
/-! PROOFS. HENC and HDEC: the columns of the check matrix, the syndrome of a word, the groups of a
block, and the commands. -/

namespace Sys2Proof.Machine

open Sys2Proof.Config

/-! ### The columns of the check matrix -/

theorem legalHamming_of_legal {p : Params} (h : p.legal = true) : p.legalHamming = true :=
  (Bool.and_eq_true_iff.1 h).2

/-- The non-zero vectors of three bits: the rows of a legal parity part and those of the identity. -/
def nonzeroColumns : List (List Bool) :=
  hammingVectors ++ [[true, false, false], [false, true, false], [false, false, true]]

/-- The check matrix, with the column of the identity part as R332 numbers it. -/
theorem checkBit_eq (p : Params) (j k : Nat) :
    checkBit p j k = if k < 4 then p.hammingP.getLsbD (3 * k + j) else decide (k = 4 + j) := by
  unfold checkBit Params.hammingBit
  split
  · rfl
  · exact decide_eq_decide.2 (by omega)

section Columns

variable {p : Params} {k k' : Nat}

theorem mem_checkColumns {v : List Bool} (h : p.legalHamming = true) (hv : v ∈ nonzeroColumns) :
    v ∈ (List.range 7).map (checkColumn p) := by
  rw [List.mem_map]
  rcases List.mem_append.1 hv with hrow | hunit
  · obtain ⟨i, hi, hrow⟩ := List.any_eq_true.1 (List.all_eq_true.1 h v hrow)
    have hi : i < 4 := List.mem_range.1 hi
    refine ⟨i, List.mem_range.2 (by omega), ?_⟩
    rw [← eq_of_beq hrow]
    exact List.map_congr_left fun j _ => if_pos hi
  · simp only [List.mem_cons, List.not_mem_nil, or_false] at hunit
    rcases hunit with rfl | rfl | rfl
    · exact ⟨4, by decide, rfl⟩
    · exact ⟨5, by decide, rfl⟩
    · exact ⟨6, by decide, rfl⟩

/-- Seven columns that take seven values take each of them once. -/
theorem checkColumns_perm (h : p.legalHamming = true) :
    nonzeroColumns.Perm ((List.range 7).map (checkColumn p)) :=
  (List.subperm_of_subset (by decide) fun _ hv => mem_checkColumns h hv).perm_of_length_le
    (by simp [nonzeroColumns, hammingVectors])

theorem checkColumn_inj (h : p.legalHamming = true) (hk : k < 7) (hk' : k' < 7)
    (heq : checkColumn p k = checkColumn p k') : k = k' :=
  List.inj_on_of_nodup_map ((checkColumns_perm h).nodup_iff.1 (by decide))
    (List.mem_range.2 hk) (List.mem_range.2 hk') heq

theorem checkColumn_ne_zero (h : p.legalHamming = true) (hk : k < 7) :
    checkColumn p k ≠ [false, false, false] := fun h0 =>
  have hmem : checkColumn p k ∈ nonzeroColumns :=
    (checkColumns_perm h).mem_iff.2 (List.mem_map_of_mem (List.mem_range.2 hk))
  absurd (h0 ▸ hmem) (by decide)

theorem nonzeroColumns_complete : ∀ a b c : Bool, [a, b, c] ≠ [false, false, false] →
    [a, b, c] ∈ nonzeroColumns := by decide

end Columns

/-! ### Syndromes -/

/-- Bit `j` of the syndrome of a word given by its bits (R332). -/
def syndromeBit (p : Params) (c : Nat → Bool) (j : Nat) : Bool :=
  (List.range 7).foldl (fun b k => b ^^ (checkBit p j k && c k)) false

/-- Bit `k` of the codeword of the group `d` (R331). -/
def codeBit (p : Params) (d : Nat → Bool) (k : Nat) : Bool :=
  if k < 4 then d k else hammingParity p (d 0) (d 1) (d 2) (d 3) (k - 4)

theorem hammingEncode_eq_map (p : Params) (d : Nat → Bool) :
    hammingEncode p (d 0) (d 1) (d 2) (d 3) = (List.range 7).map (codeBit p d) := rfl

theorem hammingEncode_getD (p : Params) (d : Nat → Bool) {k : Nat} (hk : k < 7) :
    (hammingEncode p (d 0) (d 1) (d 2) (d 3)).getD k false = codeBit p d k := by
  simp [hammingEncode_eq_map, hk]

section Syndromes

variable {p : Params} {c c' : Nat → Bool} {w : List Bool} {j k : Nat}

theorem syndrome_eq_map (p : Params) (w : List Bool) :
    syndrome p w = (List.range 3).map (syndromeBit p fun k => w.getD k false) := rfl

theorem syndromeBit_congr (h : ∀ k, k < 7 → c k = c' k) (j : Nat) :
    syndromeBit p c j = syndromeBit p c' j :=
  List.foldl_ext _ _ _ fun b k hk => by rw [h k (List.mem_range.1 hk)]

/-- The syndrome adds the received check bit to the parity of the received data bits. -/
theorem syndromeBit_eq (hj : j < 3) :
    syndromeBit p c j = (hammingParity p (c 0) (c 1) (c 2) (c 3) j ^^ c (4 + j)) := by
  interval_cases j <;>
    simp [syndromeBit, List.range_succ, checkBit, hammingParity, Bool.and_comm]

theorem foldl_xor_add {α : Type} (f g : α → Bool) (l : List α) (a b : Bool) :
    l.foldl (fun b i => b ^^ (f i ^^ g i)) (a ^^ b) =
      (l.foldl (fun b i => b ^^ f i) a ^^ l.foldl (fun b i => b ^^ g i) b) := by
  induction l generalizing a b with
  | nil => rfl
  | cons i l ih =>
    have hswap : (a ^^ b ^^ (f i ^^ g i)) = ((a ^^ f i) ^^ (b ^^ g i)) := by
      simp only [Bool.xor_assoc, Bool.xor_left_comm b]
    rw [List.foldl_cons, hswap, ih, List.foldl_cons, List.foldl_cons]

theorem syndromeBit_xor (p : Params) (c e : Nat → Bool) (j : Nat) :
    syndromeBit p (fun k => c k ^^ e k) j = (syndromeBit p c j ^^ syndromeBit p e j) := by
  unfold syndromeBit
  simp only [Bool.and_xor_distrib_left]
  exact foldl_xor_add _ _ _ false false

/-- The codewords are the words that the check matrix takes to 0. -/
theorem syndromeBit_codeBit (p : Params) (d : Nat → Bool) (hj : j < 3) :
    syndromeBit p (codeBit p d) j = false := by
  rw [syndromeBit_eq hj]
  simp [codeBit]

/-- The syndrome of a single error is the column at its position. -/
theorem syndromeBit_single (p : Params) (hk : k < 7) (j : Nat) :
    syndromeBit p (fun k' => decide (some k = some k')) j = checkBit p j k := by
  interval_cases k <;> simp [syndromeBit, List.range_succ]

theorem syndrome_eq_zero_iff :
    syndrome p w = [false, false, false] ↔
      ∀ j, j < 3 → syndromeBit p (fun k => w.getD k false) j = false := by
  have hzero : [false, false, false] = (List.range 3).map fun _ => false := rfl
  simp only [syndrome_eq_map, hzero, List.map_inj_left, List.mem_range]

theorem syndrome_ne_zero_iff :
    syndrome p w ≠ [false, false, false] ↔
      ∃ j, j < 3 ∧ syndromeBit p (fun k => w.getD k false) j = true := by
  simp [syndrome_eq_zero_iff]

theorem checkColumn_eq_syndrome_iff :
    checkColumn p k = syndrome p w ↔
      ∀ j, j < 3 → checkBit p j k = syndromeBit p (fun k => w.getD k false) j := by
  simp only [checkColumn, syndrome_eq_map, List.map_inj_left, List.mem_range]

end Syndromes

/-! ### Decoding a word -/

section Decoding

variable {p : Params} {w : List Bool} {k : Nat}

/-- A non-zero syndrome is a column, so the search of R334 finds one. -/
theorem errorIndex_eq_none_iff (h : p.legalHamming = true) :
    errorIndex p w = none ↔ syndrome p w = [false, false, false] := by
  unfold errorIndex
  split
  case isTrue h0 => simp [h0]
  case isFalse h0 =>
    obtain ⟨k, hk, hcol⟩ := List.mem_map.1 (mem_checkColumns h (nonzeroColumns_complete _ _ _ h0))
    refine iff_of_false (fun hnone => ?_) h0
    exact List.find?_eq_none.1 hnone k hk (beq_iff_eq.2 hcol)

theorem errorIndex_eq_some_iff :
    errorIndex p w = some k ↔ syndrome p w ≠ [false, false, false] ∧ k < 7 ∧
      checkColumn p k = syndrome p w ∧ ∀ k', k' < k → checkColumn p k' ≠ syndrome p w := by
  unfold errorIndex
  split
  case isTrue h0 => simp [h0]
  case isFalse h0 =>
    simp only [List.find?_range_eq_some, List.mem_range, beq_iff_eq,
      Bool.not_eq_true', beq_eq_false_iff_ne]
    tauto

theorem errorIndex_lt (h : errorIndex p w = some k) : k < 7 :=
  have ⟨_, hk, _⟩ := errorIndex_eq_some_iff.1 h
  hk

/-- The data bits that decoding gives, with the bit at the corrected index flipped. -/
theorem hammingDecode_eq (p : Params) (hw : w.length = 7) :
    hammingDecode p w =
      ((List.range 4).map fun k => w.getD k false ^^ decide (errorIndex p w = some k),
        errorIndex p w) := by
  match w with
  | [c0, c1, c2, c3, c4, c5, c6] =>
    unfold hammingDecode
    cases he : errorIndex p [c0, c1, c2, c3, c4, c5, c6] with
    | none => simp [List.range_succ]
    | some k =>
      have hk := errorIndex_lt he
      interval_cases k <;> simp [List.range_succ, flipAt]

/-- `44_fec.md` R336: a codeword with an error at `e`, or nowhere, decodes to that index. -/
theorem errorIndex_of_error (h : p.legalHamming = true) (d : Nat → Bool) {e : Option Nat}
    (he : ∀ k, e = some k → k < 7)
    (hw : ∀ k, k < 7 → w.getD k false = (codeBit p d k ^^ decide (e = some k))) :
    errorIndex p w = e := by
  have hsyn : ∀ j, j < 3 → syndromeBit p (fun k => w.getD k false) j =
      syndromeBit p (fun k => decide (e = some k)) j := fun j hj => by
    rw [syndromeBit_congr hw, syndromeBit_xor, syndromeBit_codeBit p d hj, Bool.false_xor]
  cases e with
  | none =>
    refine (errorIndex_eq_none_iff h).2 (syndrome_eq_zero_iff.2 fun j hj => ?_)
    rw [hsyn j hj]
    simp [syndromeBit]
  | some k =>
    have hk := he k rfl
    have hcol : checkColumn p k = syndrome p w := checkColumn_eq_syndrome_iff.2 fun j hj => by
      rw [hsyn j hj, syndromeBit_single p hk]
    refine errorIndex_eq_some_iff.2 ⟨?nonzero, hk, hcol, fun k' hk' => ?least⟩
    case nonzero => exact hcol ▸ checkColumn_ne_zero h hk
    case least =>
      intro hcol'
      exact absurd (checkColumn_inj h (by omega) hk (hcol'.trans hcol.symm)) (by omega)

/-- `44_fec.md` R336: decoding takes the error away. -/
theorem hammingDecode_of_error (h : p.legalHamming = true) (d : Nat → Bool) {e : Option Nat}
    (he : ∀ k, e = some k → k < 7) (hl : w.length = 7)
    (hw : ∀ k, k < 7 → w.getD k false = (codeBit p d k ^^ decide (e = some k))) :
    hammingDecode p w = ((List.range 4).map d, e) := by
  rw [hammingDecode_eq p hl, errorIndex_of_error h d he hw]
  refine congrArg (·, e) (List.map_congr_left fun k hk => ?_)
  have hk : k < 4 := List.mem_range.1 hk
  rw [hw k (by omega), Bool.xor_assoc, Bool.xor_self, Bool.xor_false]
  exact if_pos hk

theorem flipAt_getD {k' : Nat} (hk' : k' < w.length) :
    (flipAt k w).getD k' false = (w.getD k' false ^^ decide (some k = some k')) := by
  by_cases h : k = k' <;> simp [flipAt, h, hk']

end Decoding

/-! ### The groups of a block -/

/-- Bit `k` of group `g` of a block in groups of `m`. -/
def groupBit (m : Nat) (bs : List Bool) (g k : Nat) : Bool := bs.getD (m * g + k) false

/-- The received word `g` of a block (R335). -/
def groupWord (bs : List Bool) (g : Nat) : List Bool := (List.range 7).map (groupBit 7 bs g)

/-- The index that decoding gives for the received word `g` of a block (R334). -/
def groupIndex (p : Params) (bs : List Bool) (g : Nat) : Option Nat := errorIndex p (groupWord bs g)

theorem groupWord_getD (bs : List Bool) (g : Nat) {k : Nat} (hk : k < 7) :
    (groupWord bs g).getD k false = groupBit 7 bs g k := by
  simp [groupWord, hk]

/-- A list of groups of one size, by the number of a bit in the block. -/
theorem flatMap_range_map_range {α : Type} {m : Nat} (hm : 0 < m) (f : Nat → Nat → α) (G : Nat) :
    ((List.range G).flatMap fun g => (List.range m).map (f g)) =
      (List.range (m * G)).map fun n => f (n / m) (n % m) := by
  induction G with
  | zero => rfl
  | succ G ih =>
    rw [List.range_succ, List.flatMap_append, ih, Nat.mul_succ, List.range_add, List.map_append,
      List.flatMap_singleton, List.map_map]
    refine congrArg _ (List.map_congr_left fun k hk => ?_)
    have hk : k < m := List.mem_range.1 hk
    simp [Nat.mul_add_div hm, Nat.mod_eq_of_lt hk, Nat.div_eq_of_lt hk]

section Groups

variable {p : Params} {bs : List Bool} {G : Nat}

theorem encodeGroups_eq (hl : bs.length = 4 * G) :
    encodeGroups p bs = (List.range (7 * G)).map fun n =>
      codeBit p (groupBit 4 bs (n / 7)) (n % 7) := by
  refine outputs_of_trace (by rw [encodeGroups_length, hl]; omega) fun n hn => ?_
  have hget := encodeGroups_getElem p bs (n / 7) (n % 7) (by omega) (by omega)
  rw [Nat.div_add_mod] at hget
  have hword := hammingEncode_eq_map p (groupBit 4 bs (n / 7))
  simp only [groupBit, Nat.add_zero] at hword
  rw [hget, hword, List.getElem?_map, List.getElem?_range (Nat.mod_lt _ (by omega))]
  rfl

theorem decodeGroups_eq (hl : bs.length = 7 * G) :
    decodeGroups p bs = (List.range G).map fun g => hammingDecode p (groupWord bs g) :=
  outputs_of_trace (by rw [decodeGroups_length, hl]; omega) fun g hg =>
    decodeGroups_getElem p bs g (by omega)

theorem decodeGroups_data (hl : bs.length = 7 * G) :
    ((decodeGroups p bs).flatMap fun r => r.1) = (List.range (4 * G)).map fun n =>
      groupBit 7 bs (n / 4) (n % 4) ^^ decide (groupIndex p bs (n / 4) = some (n % 4)) := by
  rw [← flatMap_range_map_range (by omega)
    fun g k => groupBit 7 bs g k ^^ decide (groupIndex p bs g = some k),
    decodeGroups_eq hl, List.flatMap_map]
  refine List.flatMap_congr fun g _ => ?_
  rw [hammingDecode_eq p (by simp [groupWord])]
  refine List.map_congr_left fun k hk => ?_
  have hk : k < 4 := List.mem_range.1 hk
  rw [groupWord_getD bs g (by omega), groupIndex]

theorem decodeGroups_indices (hl : bs.length = 7 * G) :
    (decodeGroups p bs).map (fun r => r.2) = (List.range G).map (groupIndex p bs) := by
  rw [decodeGroups_eq hl, List.map_map]
  refine List.map_congr_left fun g _ => ?_
  exact congrArg Prod.snd (hammingDecode_eq p (by simp [groupWord]))

section SingleError

variable {d : Nat → Bool} {e : Option Nat} {g k : Nat}

/-- R336 for a group of a block: its index is the position of its error. -/
theorem groupIndex_of_error (h : p.legalHamming = true) (he : ∀ k, e = some k → k < 7)
    (hbit : ∀ k, k < 7 → groupBit 7 bs g k = (codeBit p d k ^^ decide (e = some k))) :
    groupIndex p bs g = e :=
  errorIndex_of_error h d he fun k hk => (groupWord_getD bs g hk).trans (hbit k hk)

/-- R336 for a group of a block: its corrected bits are its data. -/
theorem groupBit_corrected (h : p.legalHamming = true) (he : ∀ k, e = some k → k < 7)
    (hbit : ∀ k, k < 7 → groupBit 7 bs g k = (codeBit p d k ^^ decide (e = some k)))
    (hk : k < 4) :
    (groupBit 7 bs g k ^^ decide (groupIndex p bs g = some k)) = d k := by
  rw [groupIndex_of_error h he hbit, hbit k (by omega), Bool.xor_assoc, Bool.xor_self,
    Bool.xor_false, codeBit, if_pos hk]

end SingleError

end Groups

/-! ### The commands -/

/-- The element of the index block (R335) as the memory word of format I (R163). -/
def indexElement (e : Option Nat) : Word64 :=
  match e with
  | none => 0xFFFFFFFFFFFFFFFF#64
  | some k => BitVec.ofNat 64 k

theorem wordOfI_indexWord {e : Option Nat} (h : ∀ k, e = some k → k < 7) :
    wordOfI (indexWord e) = indexElement e := by
  cases e with
  | none => rfl
  | some k =>
    have hk := h k rfl
    interval_cases k <;> rfl

section Commands

variable {s : State} {dst src len aux : Word32} {auxw : Bool} {bs : List Bool}

theorem hencEffect_out (hl : bs.length = 4 * (len.toNat / 4)) :
    (hencEffect len s bs).out = (List.range (7 * (len.toNat / 4))).map fun n =>
      wordOfB (codeBit s.par (groupBit 4 bs (n / 7)) (n % 7)) := by
  rw [hencEffect, encodeGroups_eq hl, List.map_map]
  rfl

theorem hdecEffect_out (hl : bs.length = 7 * (len.toNat / 7)) :
    (hdecEffect len s bs).out = (List.range (4 * (len.toNat / 7))).map fun n => wordOfB
      (groupBit 7 bs (n / 4) (n % 4) ^^ decide (groupIndex s.par bs (n / 4) = some (n % 4))) := by
  rw [hdecEffect, decodeGroups_data hl, List.map_map]
  rfl

theorem hdecEffect_aux (hl : bs.length = 7 * (len.toNat / 7)) :
    (hdecEffect len s bs).aux =
      (List.range (len.toNat / 7)).map fun g => indexElement (groupIndex s.par bs g) := by
  calc (hdecEffect len s bs).aux
    _ = ((decodeGroups s.par bs).map fun r => r.2).map fun e => wordOfI (indexWord e) := by
      rw [List.map_map]
      rfl
    _ = _ := by
      rw [decodeGroups_indices hl, List.map_map]
      exact List.map_congr_left fun g _ => wordOfI_indexWord fun _ => errorIndex_lt

theorem hdecEffect_counts (hl : bs.length = 7 * (len.toNat / 7)) :
    (hdecEffect len s bs).counts = countsOf (7 * (len.toNat / 7)) (4 * (len.toNat / 7))
      ((List.range (len.toNat / 7)).countP fun g => (groupIndex s.par bs g).isSome) := by
  refine congrArg (countsOf _ _) ?_
  calc (decodeGroups s.par bs).countP fun r => r.2.isSome
    _ = ((decodeGroups s.par bs).map fun r => r.2).countP Option.isSome := by
      rw [List.countP_map]
      rfl
    _ = _ := by rw [decodeGroups_indices hl, List.countP_map]; rfl

theorem hencEffect_completes (hf : OperandsFit s (hencBlocks dst src len))
    (hl : bs.length = 4 * (len.toNat / 4)) :
    Completes s ((hencEffect len s bs).commit (hencBlocks dst src len)) (hencBlocks dst src len)
      ((List.range (7 * (len.toNat / 4))).map fun n =>
        wordOfB (codeBit s.par (groupBit 4 bs (n / 7)) (n % 7))) []
      (countsOf (4 * (len.toNat / 4)) (7 * (len.toNat / 4)) (len.toNat / 4)) := by
  have hw := hencEffect_within (s := s) (dst := dst) (src := src) hl
  rw [← hencEffect_out hl]
  exact Effect.commit_completes hf hw.seq hw.mem hw.out_le hw.aux_le

theorem hdecEffect_completes (hf : OperandsFit s (hdecBlocks dst src len auxw aux))
    (hl : bs.length = 7 * (len.toNat / 7)) :
    Completes s ((hdecEffect len s bs).commit (hdecBlocks dst src len auxw aux))
      (hdecBlocks dst src len auxw aux)
      ((List.range (4 * (len.toNat / 7))).map fun n => wordOfB
        (groupBit 7 bs (n / 4) (n % 4) ^^ decide (groupIndex s.par bs (n / 4) = some (n % 4))))
      ((List.range (len.toNat / 7)).map fun g => indexElement (groupIndex s.par bs g))
      (countsOf (7 * (len.toNat / 7)) (4 * (len.toNat / 7))
        ((List.range (len.toNat / 7)).countP fun g => (groupIndex s.par bs g).isSome)) := by
  have hw := hdecEffect_within (s := s) (dst := dst) (src := src) (auxw := auxw) (aux := aux) hl
  rw [← hdecEffect_out hl, ← hdecEffect_aux hl, ← hdecEffect_counts hl]
  exact Effect.commit_completes hf hw.seq hw.mem hw.out_le hw.aux_le

end Commands

/-! ### The statements -/

/-- Settles O52: a codeword as it is, and one with an error at `k`. -/
theorem singleBitErrorsAreCorrected : Obligations.SingleBitErrorsAreCorrected := by
  intro p h d0 d1 d2 d3
  let d : Nat → Bool := fun i => [d0, d1, d2, d3].getD i false
  have hcode : ∀ k, k < 7 → (hammingEncode p d0 d1 d2 d3).getD k false = codeBit p d k :=
    fun k hk => hammingEncode_getD p d hk
  refine ⟨hammingDecode_of_error h d nofun rfl fun k hk => ?unflipped, fun k hk =>
    hammingDecode_of_error h d (fun _ he => Option.some.inj he ▸ hk) ?length
      fun k' hk' => ?flipped⟩
  case unflipped => rw [hcode k hk, decide_eq_false nofun, Bool.xor_false]
  case length => exact List.length_modify ..
  case flipped => rw [flipAt_getD hk', hcode k' hk']

/-- Settles O42: the codeword of each whole group, group after group. -/
theorem hencEncodesGroups : Obligations.HencEncodesGroups := by
  intro s dst src len bs G hf hr d P c
  exact ⟨_, execHenc_complete hf hr, hencEffect_completes hf (Memory.readBits_length hr),
    Effect.commit_eq _ _⟩

/-- Settles O43: the search of R334 finds the least column, and group after group is decoded. -/
theorem hdecDecodesGroups : Obligations.HdecDecodesGroups := by
  intro s dst src len auxw aux bs G hlegal hf hr c H syn matching
  have hp := legalHamming_of_legal hlegal
  have hH : H = checkBit s.par := funext fun j => funext fun k => (checkBit_eq s.par j k).symm
  have hsyn : ∀ g j, syn g j = syndromeBit s.par (fun k => (groupWord bs g).getD k false) j :=
    fun g j => by
      rw [syndromeBit_congr fun k hk => groupWord_getD bs g hk]
      simp only [syn, hH]
      rfl
  have hmatch : ∀ g k, matching g k ↔ checkColumn s.par k = syndrome s.par (groupWord bs g) :=
    fun g k => by simp only [checkColumn_eq_syndrome_iff, matching, hH, hsyn]
  refine ⟨_, groupIndex s.par bs, execHdec_complete hf hr, fun g _ => ?index,
    hdecEffect_completes hf (Memory.readBits_length hr), Effect.commit_eq _ _⟩
  case index =>
    cases hidx : groupIndex s.par bs g with
    | none =>
      have hzero := (errorIndex_eq_none_iff hp).1 hidx
      exact fun j hj => (hsyn g j).trans (syndrome_eq_zero_iff.1 hzero j hj)
    | some k =>
      obtain ⟨hne, hk, hcol, hleast⟩ := errorIndex_eq_some_iff.1 hidx
      obtain ⟨j, hj, hone⟩ := syndrome_ne_zero_iff.1 hne
      exact ⟨⟨j, hj, (hsyn g j).trans hone⟩, hk, (hmatch g k).2 hcol,
        fun k' hk' h' => hleast k' hk' ((hmatch g k').1 h')⟩

/-- Settles O53: each group decodes to its data and its flipped position. -/
theorem fecLinkCorrectsOneErrorPerGroup : Obligations.FecLinkCorrectsOneErrorPerGroup := by
  intro s dst src len auxw aux bs data flip G hlegal hlen hf hr hflip hbs
  have hp := legalHamming_of_legal hlegal
  have hG : len.toNat / 7 = G := by omega
  have hbit : ∀ g, g < G → ∀ k, k < 7 →
      groupBit 7 bs g k = (codeBit s.par (data g) k ^^ decide (flip g = some k)) :=
    fun g hg k hk => by rw [groupBit, hbs g hg k hk, hammingEncode_getD s.par (data g) hk]
  have hidx : ∀ g, g < G → groupIndex s.par bs g = flip g := fun g hg =>
    groupIndex_of_error hp (hflip g hg) (hbit g hg)
  have hdata : ∀ n, n < 4 * G → (groupBit 7 bs (n / 4) (n % 4) ^^
      decide (groupIndex s.par bs (n / 4) = some (n % 4))) = data (n / 4) (n % 4) := fun n hn =>
    groupBit_corrected hp (hflip _ (by omega)) (hbit _ (by omega)) (Nat.mod_lt n (by omega))
  have hr' : s.mem.readBits src.toNat (7 * (len.toNat / 7)) = some bs := by
    rw [hG, ← hlen]
    exact hr
  obtain ⟨hseq, hout, -, haux⟩ := hdecEffect_completes hf (Memory.readBits_length hr')
  rw [hG] at hseq hout haux
  refine ⟨_, execHdec_complete hf hr', ?data, fun hw => ?index, ?count, ?consumed, ?produced⟩
  case data =>
    rw [List.map_congr_left fun n hn => congrArg wordOfB (hdata n (List.mem_range.1 hn))] at hout
    exact hout
  case index =>
    subst hw
    obtain ⟨haux, -⟩ := haux
    rw [List.map_congr_left fun g hg => congrArg indexElement (hidx g (List.mem_range.1 hg))]
      at haux
    exact haux
  case count =>
    rw [hseq]
    refine congrArg (BitVec.ofNat 32) (List.countP_congr fun g hg => ?_)
    rw [hidx g (List.mem_range.1 hg)]
  case consumed =>
    rw [hseq]
    exact BitVec.eq_of_toNat_eq (by rw [← hlen]; exact Nat.mod_eq_of_lt len.isLt)
  case produced => rw [hseq]; rfl

end Sys2Proof.Machine
end

section
/-! PROOFS. The capacity checks of CFC and FSYNC. CFC: the peak bin as the last of its running
choices, the estimate from the powers in `CFC_BUF`, the rotation of a block, and the command. -/

namespace Sys2Proof.Machine

open Sys2Proof.Config

/-! ### The capacity checks -/

/-- A capacity error stops a block command whose operands fit. -/
theorem exec_capacityError {s : State} {i : Instr} {b : Blocks} {e : CmdError}
    (hb : instrBlocks s i = some b) (hfit : OperandsFit s b) (h : capacityError s i = some e) :
    exec i s = .next (s.stoppedWith e.code e.info) := by
  obtain ⟨body, hexec, -⟩ := exec_eq_runBlock hb
  rw [hexec, h, runBlock_capacity hfit, State.errorStop_eq]

theorem cfcCapacity_of_lt {s : State} {len : Word32} (h : s.cfc.nfft.toNat < len.toNat) :
    cfcCapacity s len = some ⟨6#8, 1#32⟩ := if_pos h

theorem fsCapacity_of_lt {s : State} {len : Word32}
    (h : s.par.fsyncCap < s.fs.raw.length + len.toNat) :
    fsCapacity s len = some ⟨6#8, 2#32⟩ := if_pos h

/-! ### The peak bin -/

/-- The peak among the bins `0` to `k`, chosen bin after bin (`45_cfc.md` R351). -/
def bestBin (mag : List F32) : Nat → Nat
  | 0 => 0
  | k + 1 =>
    if fgt (mag.getD (k + 1) fzero) (mag.getD (bestBin mag k) fzero) then k + 1 else bestBin mag k

theorem bestBin_le (mag : List F32) (k : Nat) : bestBin mag k ≤ k := by
  induction k with
  | zero => exact Nat.le_refl 0
  | succ k ih =>
    rw [bestBin]
    split <;> omega

/-- The search from a bin on, against the peak before it, ends at the peak of all bins. -/
theorem peakFrom_bestBin {mag vs : List F32} {k : Nat} (hvs : mag.drop (k + 1) = vs)
    (hk : k < mag.length) :
    peakFrom (k + 1) (bestBin mag k) (mag.getD (bestBin mag k) fzero) vs =
      bestBin mag (mag.length - 1) := by
  induction vs generalizing k with
  | nil =>
    have hlast : mag.length ≤ k + 1 := List.drop_eq_nil_iff.1 hvs
    rw [peakFrom, show mag.length - 1 = k by omega]
  | cons v vs ih =>
    have hk1 : k + 1 < mag.length := Nat.lt_of_not_le fun h => by
      cases (List.drop_eq_nil_of_le h).symm.trans hvs
    obtain ⟨hv, hrest⟩ := List.cons.inj ((List.drop_eq_getElem_cons hk1).symm.trans hvs)
    have hget : mag.getD (k + 1) fzero = v := by simp [hk1, hv]
    rw [← ih hrest hk1, peakFrom, bestBin, hget]
    split
    case isTrue => rw [hget]
    case isFalse => rfl

theorem peakBin_eq_bestBin (mag : List F32) : peakBin mag = bestBin mag (mag.length - 1) := by
  cases mag with
  | nil => rfl
  | cons v vs => exact peakFrom_bestBin (mag := v :: vs) (k := 0) rfl (Nat.succ_pos _)

/-! ### The estimate -/

theorem order_eq (m : Modulation) : m.order = if m = .bpsk then 2 else 4 := by cases m <;> rfl

theorem powerM_eq (m : Modulation) (z : C32) :
    powerM m z = if m.order = 2 then cmul z z else cmul (cmul z z) (cmul z z) := by cases m <;> rfl

theorem specmag_length (b : NumBuild) (n : Nat) (xs : List C32) : (specmag b n xs).length = n := by
  simp [specmag]

/-- `CFC_BUF` after a block, entry by entry (`10_state.md` R110). -/
theorem cfcFill_eq {p : Params} {buf : List C32} (h : buf.length = p.maxFft) (m : Modulation)
    (xs : List C32) :
    cfcFill p m buf xs =
      (List.range p.maxFft).map fun k =>
        windowAt czero (xs.map (powerM m)) buf xs.length (k + 1) := by
  have hfold : cfcFill p m buf xs =
      (xs.map (powerM m)).foldl (fun b x => pushFront p.maxFft x b) buf := by
    rw [List.foldl_map]
    rfl
  rw [hfold, foldl_pushFront _ _ _ h, take_reverse_append czero _ _ _ h, List.length_map]

/-- The newest `n` entries of a line that is kept newest first, oldest first. -/
theorem reverse_take_map_range {α : Type} {n m : Nat} (h : n ≤ m) (entry : Nat → α) :
    (((List.range m).map entry).take n).reverse =
      (List.range n).map fun i => entry (n - 1 - i) := by
  rw [← List.map_take, List.take_range, Nat.min_eq_left h]
  exact outputs_of_trace (by simp) fun i hi => by
    rw [List.getElem?_reverse (by simpa using hi), List.length_map, List.length_range,
      List.getElem?_map, List.getElem?_range (by omega), Option.map_some]

theorem cfcEstimate_map_range {p : Params} {m : Modulation} {u : CfcUnit} {n : Nat}
    (h : u.nfft.toNat ≤ n) (entry : Nat → C32) :
    cfcEstimate p m u ((List.range n).map entry) =
      freqOfBin u.fs u.nfft.toNat m.order (signedBin u.nfft.toNat
        (bestBin (specmag p.specmag u.nfft.toNat
            ((List.range u.nfft.toNat).map fun i => entry (u.nfft.toNat - 1 - i)))
          (u.nfft.toNat - 1))) := by
  rw [cfcEstimate, reverse_take_map_range h, peakBin_eq_bestBin, specmag_length]

/-! ### The command -/

section Command

variable {s : State} {dst src len aux : Word32} {auxw : Bool} {ws : List Word64}

/-- The estimate of a CFC of the words `ws`. -/
def cfcFest (s : State) (ws : List Word64) : F32 :=
  cfcEstimate s.par s.modcfg s.cfc (cfcFill s.par s.modcfg s.cfc.buf (ws.map complexOf))

/-- The rotation of a block, by the phase before each sample. -/
theorem cfcEffect_trace (hl : ws.length = len.toNat) :
    ∃ phi : Nat → F32, phi 0 = s.cfc.phase ∧
      (∀ i, i < len.toNat →
        phi (i + 1) = wrap (fadd (phi i) (cfcStep s.cfc (cfcFest s ws)))) ∧
      (cfcEffect len s ws).out = (List.range len.toNat).map (fun i =>
        wordOfC (rot s.par.trans (complexOf (ws.getD i 0#64)) (phi i))) ∧
      (cfcEffect len s ws).st = { s with cfc := { s.cfc with
        phase := phi len.toNat
        fest := cfcFest s ws
        buf := cfcFill s.par s.modcfg s.cfc.buf (ws.map complexOf) } } := by
  obtain ⟨phi, h0, hlast, hstep, hout⟩ :=
    scanBlock_states (cfcRotate s.par.trans (cfcStep s.cfc (cfcFest s ws))) s.cfc.phase
      (ws.map complexOf) (complexOf 0#64)
  simp only [List.length_map, hl, List.getD_map, cfcRotate] at hlast hstep hout
  refine ⟨phi, h0, hstep, ?out, ?state⟩
  case out => exact (congrArg (List.map wordOfC) hout).trans List.map_map
  case state => rw [← hlast]; rfl

theorem cfcEffect_completes (hf : OperandsFit s (cfcBlocks dst src len auxw aux))
    (hl : ws.length = len.toNat) :
    Completes s ((cfcEffect len s ws).commit (cfcBlocks dst src len auxw aux))
      (cfcBlocks dst src len auxw aux) (cfcEffect len s ws).out [wordOfR (cfcFest s ws)]
      ⟨len, len, cfcFest s ws⟩ :=
  have hw := cfcEffect_within hl
  Effect.commit_completes hf hw.seq hw.mem hw.out_le hw.aux_le

end Command

/-! ### The statements -/

/-- Settles O33: the capacity check is the next one after the operand checks. -/
theorem capacityIsChecked : Obligations.CapacityIsChecked := by
  intro s dst src len auxw aux
  constructor
  case left =>
    exact fun hfit h => exec_capacityError (i := .cfc dst src len auxw aux) rfl hfit
      (cfcCapacity_of_lt h)
  case right =>
    exact fun hfit h => exec_capacityError (i := .fsync dst src len auxw aux) rfl hfit
      (fsCapacity_of_lt h)

/-- Settles O44: the buffer after the block gives the estimate, and the trace of the loop over the
block the phases. -/
theorem cfcEstimatesAndRotates : Obligations.CfcEstimatesAndRotates := by
  intro s dst src len auxw aux ws hf hcap hr hbuf hN hmax N x M xm entry mag
  have hl := Memory.readBlock_length hr
  have hM : s.modcfg.order = M := order_eq s.modcfg
  have hxm : powerM s.modcfg = xm := funext fun z => by rw [powerM_eq, hM]
  have hfill : cfcFill s.par s.modcfg s.cfc.buf (ws.map complexOf) =
      (List.range s.par.maxFft).map entry := by
    rw [cfcFill_eq hbuf, List.map_map, List.length_map, hl, hxm]
    rfl
  have hfest : cfcFest s ws = freqOfBin s.cfc.fs N M (signedBin N (bestBin mag (N - 1))) := by
    rw [cfcFest, hfill, cfcEstimate_map_range hmax, hM]
  obtain ⟨phi, h0, hstep, hout, hst⟩ := cfcEffect_trace (s := s) hl
  have hcompl := cfcEffect_completes hf hl
  rw [hfest] at hstep hst hcompl
  rw [hout] at hcompl
  refine ⟨_, bestBin mag (N - 1), phi, execCfc_complete hf hcap hr,
    ⟨?lt, bestBin mag, rfl, rfl, ?choice⟩, h0, hstep, hcompl, ?state⟩
  case lt => exact (bestBin_le mag (N - 1)).trans_lt (by omega)
  case choice =>
    intro k hk _
    obtain ⟨k, rfl⟩ := Nat.exists_eq_add_of_le' hk
    rfl
  case state =>
    rw [Effect.commit_eq, hst, hfill]
    rfl

end Sys2Proof.Machine
end

section
/-! PROOFS. PLL: the error detector by modulation, the trace of the loop over a block, and the
command. -/

namespace Sys2Proof.Machine

open Sys2Proof.Config

/-- The detector of R371, with QPSK as the case that is not BPSK. -/
theorem pllError_eq (m : Modulation) (y : C32) :
    pllError m y = if m = .bpsk then fmul (sgn y.re) y.im
      else fsub (fmul (sgn y.re) y.im) (fmul (sgn y.im) y.re) := by cases m <;> rfl

section Command

variable {s : State} {dst src len : Word32} {ws : List Word64}

/-- The loop over a block, by the phase and the frequency before each sample. -/
theorem pllEffect_trace (hl : ws.length = len.toNat) :
    ∃ st : Nat → PllLoop, st 0 = ⟨s.pll.phase, s.pll.freq⟩ ∧
      (∀ i, i < len.toNat → st (i + 1) =
        (pllSample s.par.trans s.modcfg s.pll (st i) (complexOf (ws.getD i 0#64))).1) ∧
      (pllEffect len s ws).out = (List.range len.toNat).map (fun i =>
        wordOfC (rot s.par.trans (complexOf (ws.getD i 0#64)) (st i).phi)) ∧
      (pllEffect len s ws).st = { s with pll := { s.pll with
        phase := (st len.toNat).phi, freq := (st len.toNat).f } } := by
  obtain ⟨st, h0, hlast, hstep, hout⟩ :=
    scanBlock_states (pllSample s.par.trans s.modcfg s.pll) ⟨s.pll.phase, s.pll.freq⟩
      (ws.map complexOf) (complexOf 0#64)
  simp only [List.length_map, hl, List.getD_map] at hlast hstep hout
  refine ⟨st, h0, hstep, ?out, ?state⟩
  case out => exact (congrArg (List.map wordOfC) hout).trans List.map_map
  case state => rw [← hlast]; rfl

theorem pllEffect_completes (hf : OperandsFit s (pllBlocks dst src len))
    (hl : ws.length = len.toNat) :
    Completes s ((pllEffect len s ws).commit (pllBlocks dst src len)) (pllBlocks dst src len)
      (pllEffect len s ws).out [] ⟨len, len, 0#32⟩ :=
  have hw := pllEffect_within hl
  Effect.commit_completes hf hw.seq hw.mem hw.out_le hw.aux_le

end Command

/-- Settles O45: the phase and the frequency are the two parts of the loop's state before each sample;
the output and the error are those of the sample rotated by that phase. -/
theorem pllTracksThePhase : Obligations.PllTracksThePhase := by
  intro s dst src len ws hf hr
  have hl := Memory.readBlock_length hr
  obtain ⟨st, h0, hstep, hout, hst⟩ := pllEffect_trace (s := s) hl
  let y : Nat → C32 := fun i => rot s.par.trans (complexOf (ws.getD i 0#64)) (st i).phi
  refine ⟨_, fun i => (st i).phi, fun i => (st i).f, fun i => pllError s.modcfg (y i), y,
    execPll_complete hf hr, congrArg PllLoop.phi h0, congrArg PllLoop.f h0,
    fun i hi => ⟨rfl, pllError_eq _ _, ?phase, ?freq⟩, ?completes, ?state⟩
  case phase => exact congrArg PllLoop.phi (hstep i hi)
  case freq => exact congrArg PllLoop.f (hstep i hi)
  case completes =>
    have hcompl := pllEffect_completes hf hl
    rw [hout] at hcompl
    exact hcompl
  case state => rw [Effect.commit_eq, hst]

end Sys2Proof.Machine
end

section
/-! PROOFS. The errors that end a run, with the codes and details of R450, and the step of an idle
core. -/

namespace Sys2Proof.Machine

/-- Settles O12: a step left to an idle sequencer. -/
theorem idleSequencerKeepsAllState : Obligations.IdleSequencerKeepsAllState := by
  intro s hidle
  constructor
  · intro hhost
    rw [step_seq hhost]
    exact seqStep_idle hidle
  · intro rest hhost
    rw [step_wait hhost]
    exact seqStep_idle (s := { s with host := rest }) hidle

/-! ### The errors of the fetch -/

section Fetch

variable {s : State}

theorem fetchError_misaligned (h : s.ptr % 4 ≠ 0) : fetchError s = some ⟨1#8, 0#32⟩ := if_pos h

theorem fetchError_out_of_range (halign : s.ptr % 4 = 0) (h : s.par.dmemWords < s.ptr + 4) :
    fetchError s = some ⟨1#8, 1#32⟩ := by
  rw [fetchError, if_neg (not_not.2 halign), if_pos h]

theorem step_fetchError {e : CmdError} (hs : AtStep s) (h : fetchError s = some e) :
    step s = .next (s.stoppedWith e.code e.info) := by
  obtain ⟨hhost, hrun, hstop⟩ := hs
  rw [step_seq hhost]
  simp [seqStep, hrun, hstop, h, State.errorStop_eq]

end Fetch

/-- Settles O7: the two checks of the pointer, and the last row of the opcode map. -/
theorem fetchErrorsStopTheRun : Obligations.FetchErrorsStopTheRun := by
  refine ⟨fun s hs => ⟨?misaligned, ?outOfRange⟩, ?illegal⟩
  case misaligned => exact fun h => step_fetchError hs (fetchError_misaligned h)
  case outOfRange => exact fun halign h => step_fetchError hs (fetchError_out_of_range halign h)
  case illegal =>
    intro s w0 w1 w2 hs hd hill
    rw [step_eq_runDecoded hs hd, decodeWords_of_illegal hill]
    rfl

/-! ### The codes and details of R450 -/

/-- An error of the table of `60_exceptions.md` R450: a code with a detail of its range. -/
def CmdError.Listed (e : CmdError) : Prop :=
  (e.code = 1#8 ∧ e.info.toNat ≤ 1) ∨
  (e.code = 2#8 ∧ 3 ≤ e.info.toNat ∧ e.info.toNat ≤ 255) ∨
  (e.code = 3#8 ∧ 1 ≤ e.info.toNat ∧ e.info.toNat ≤ 8) ∨
  (e.code = 4#8 ∧ 1 ≤ e.info.toNat ∧ e.info.toNat ≤ 3) ∨
  (e.code = 5#8 ∧ 1 ≤ e.info.toNat ∧ e.info.toNat ≤ 5) ∨
  (e.code = 6#8 ∧ 1 ≤ e.info.toNat ∧ e.info.toNat ≤ 2)

section Listed

variable {s t : State} {e : CmdError}

theorem listed_of_fetchError (h : fetchError s = some e) : e.Listed := by
  unfold fetchError at h
  split at h
  · cases h; exact .inl ⟨rfl, by decide⟩
  · split at h
    · cases h; exact .inl ⟨rfl, by decide⟩
    · cases h

theorem listed_of_illegalOpcode {o : BitVec 8} (h : IllegalOpcode o) :
    CmdError.Listed ⟨2#8, o.setWidth 32⟩ := by
  refine .inr (.inl ⟨rfl, ?_⟩)
  have hinfo : (o.setWidth 32).toNat = o.toNat := BitVec.toNat_setWidth_of_le (by omega)
  unfold IllegalOpcode at h
  simp only [hinfo]
  omega

/-- The detail of code 3 is the number of a field of R213. -/
theorem reservedField_range {f : Fields} {op : Opcode} {info : Word32} (hop : f.opc = op.code)
    (h : reservedField f (fieldUse op) = some info) : 1 ≤ info.toNat ∧ info.toNat ≤ 8 := by
  classical
  have hex : ∃ k, FieldFails f k := by
    by_contra! hnone
    cases ((reservedField_eq_none hop).2 hnone).symm.trans h
  have hleast := reservedField_of_least hop (Nat.find_spec hex) fun _ => Nat.find_min hex
  obtain rfl := Option.some.inj (hleast.symm.trans h)
  have hrange := fieldFails_range (Nat.find_spec hex)
  rw [BitVec.toNat_ofNat]
  omega

theorem listed_of_operandError {b : Blocks} (h : operandError s.par s.ptr b = some e) :
    e.Listed := by
  rcases operandError_code h with h4 | h5
  · exact .inr (.inr (.inr (.inl h4)))
  · exact .inr (.inr (.inr (.inr (.inl h5))))

theorem listed_of_capacityError {i : Instr} (h : capacityError s i = some e) : e.Listed := by
  refine .inr (.inr (.inr (.inr (.inr ⟨capacityError_code h, ?_⟩))))
  cases i with
  | cfc | fsync =>
    simp only [capacityError, cfcCapacity, fsCapacity] at h
    split at h <;> cases h
    decide
  | _ => cases h

/-- What the decoder answers in place of a command is an error of the table. -/
theorem listed_of_runDecoded {w0 w1 w2 : Word64}
    (hd : ∀ i, decodeWords w0 w1 w2 ≠ .instr i)
    (h : runDecoded s (decodeWords w0 w1 w2) = .next t) :
    ∃ e : CmdError, e.Listed ∧ t = s.errorStop e := by
  rcases decodeWords_cases w0 w1 w2 with ⟨hill, hdec⟩ | ⟨op, hop, -⟩
  · rw [hdec] at h
    cases h
    exact ⟨_, listed_of_illegalOpcode hill, rfl⟩
  · cases hr : reservedField (fieldsOfWords w0 w1 w2) (fieldUse op) with
    | none => exact absurd (decodeWords_of_fields hop hr) (hd _)
    | some info =>
      rw [decodeWords_of_reserved hop hr] at h
      cases h
      exact ⟨_, .inr (.inr (.inl ⟨rfl, reservedField_range hop hr⟩)), rfl⟩

/-- A command that ends the run with kind 2 failed a check of its operands or of its capacity: HALT
ends it with kind 1, and a completion goes on. -/
theorem listed_of_exec {i : Instr} (hrun : s.seq.run = true) (h : exec i s = .next t)
    (ht : t.seq.run = false) (hkind : t.seq.lastEnd = 2#2) :
    ∃ e : CmdError, e.Listed ∧ t = s.errorStop e := by
  cases hb : instrBlocks s i with
  | some b =>
    obtain ⟨body, hexec, hbody⟩ := exec_eq_runBlock hb
    rcases runBlock_next (hexec.symm.trans h) with ⟨e, rfl, he⟩ | ⟨e, rfl, -, he⟩ |
      ⟨e, -, hcap, he, rfl⟩
    · exact ⟨e, listed_of_operandError he, rfl⟩
    · exact ⟨e, listed_of_capacityError he, rfl⟩
    · rw [Effect.commit_seq, (hbody.within hcap e he).seq] at ht
      cases hrun.symm.trans ht
  | none =>
    cases i with
    | halt => cases h; cases hkind
    | nop => cases h; cases hrun.symm.trans ht
    | urst u =>
      cases h
      rw [State.complete_seq, resetUnit_seq] at ht
      cases hrun.symm.trans ht
    | _ => cases hb

theorem exists_words_of_fetch {d : Decoded} (h : s.fetch = some d) :
    ∃ w0 w1 w2, d = decodeWords w0 w1 w2 := by
  unfold State.fetch at h
  split at h
  · cases h; exact ⟨_, _, _, rfl⟩
  · cases h

/-- A step of a run that ends it with kind 2 is an error stop with an error of the table. -/
theorem listed_of_seqStep (hrun : s.seq.run = true) (h : seqStep s = .next t)
    (ht : t.seq.run = false) (hkind : t.seq.lastEnd = 2#2) :
    ∃ e : CmdError, e.Listed ∧ t = s.errorStop e := by
  rw [seqStep, if_pos hrun] at h
  split at h
  case isTrue => cases h; cases hkind
  case isFalse =>
  split at h
  case h_1 e he => cases h; exact ⟨e, listed_of_fetchError he, rfl⟩
  case h_2 =>
  split at h
  case h_1 => cases h
  case h_2 d hd =>
  obtain ⟨w0, w1, w2, rfl⟩ := exists_words_of_fetch hd
  by_cases hi : ∃ i, decodeWords w0 w1 w2 = .instr i
  · obtain ⟨i, hi⟩ := hi
    rw [hi] at h
    exact listed_of_exec hrun h ht hkind
  · exact listed_of_runDecoded (not_exists.1 hi) h

end Listed

/-- Settles O8: the error of the table with which the step stopped. -/
theorem errorStopIsPrecise : Obligations.ErrorStopIsPrecise := by
  intro s t hhost hrun hstep ht hkind
  obtain ⟨e, he, rfl⟩ := listed_of_seqStep hrun ((step_seq hhost).symm.trans hstep) ht hkind
  exact ⟨e.code, e.info, s.errorStop_eq e, he⟩

end Sys2Proof.Machine
end

section
/-! PROOFS. The resets and the memories: which bytes an external reset forgets, and that it keeps
the others. -/

namespace Sys2Proof.Machine

/-! ### What is forgotten -/

theorem onlyForgets_refl (m : Memory) : OnlyForgets m m [] :=
  fun _ => ⟨fun ⟨_, hr, _⟩ => (nomatch hr), fun _ => rfl⟩

/-- Forgetting one more range. -/
theorem OnlyForgets.forgetRange {m m' : Memory} {rs : List Range} (h : OnlyForgets m m' rs)
    (r : Range) : OnlyForgets m (forgetRange m' r) (rs ++ [r]) := by
  intro a
  obtain ⟨hin, hout⟩ := h a
  by_cases hr : r.HasByte a
  · exact ⟨fun _ => get_forgetRange_inside hr, fun hno => absurd hr (hno r (by simp))⟩
  · rw [get_forgetRange_outside hr]
    refine ⟨?_, fun hno => hout fun q hq => hno q (List.mem_append_left _ hq)⟩
    rintro ⟨q, hq, hqa⟩
    rcases List.mem_append.1 hq with hq | hq
    · exact hin ⟨q, hq, hqa⟩
    · rw [List.mem_singleton.1 hq] at hqa
      exact absurd hqa hr

/-- The ranges of DMEM lie above the windows of COEF and PRE. -/
theorem not_hasByte_of_lt {r : Range} {a : Nat} (h : a < dmemBase) : ¬ r.HasByte a := by
  unfold Range.HasByte dmemAddr
  omega

theorem OnlyForgets.get_below {m m' : Memory} {rs : List Range} (h : OnlyForgets m m' rs) {a : Nat}
    (ha : a < dmemBase) : m'.get a = m.get a := (h a).2 fun _ _ => not_hasByte_of_lt ha

/-! ### The descriptor that a reset cuts -/

section Cut

variable {s : State}

/-- The ranges that the execution of a block command writes, without its `W3`: none when a check
stops it. -/
theorem onlyForgets_forgetBlocks {i : Instr} {b : Blocks} (hb : instrBlocks s i = some b)
    (hfit : OperandsFit s b ∧ CapacityFits s i) :
    OnlyForgets s.mem (forgetBlocks s i)
      (match b.aux with
        | none => [b.out]
        | some a => [b.out, a]) := by
  have hcheck : checkError s i b = none := checkError_eq_none.2 hfit
  have hout := (onlyForgets_refl s.mem).forgetRange b.out
  rw [forgetBlocks, hb]
  simp only [hcheck]
  cases b.aux with
  | none => exact hout
  | some a => exact hout.forgetRange a

theorem forgetBlocks_of_stopped {i : Instr} {b : Blocks} (hb : instrBlocks s i = some b)
    (hstop : ¬ (OperandsFit s b ∧ CapacityFits s i)) : forgetBlocks s i = s.mem := by
  rw [forgetBlocks, hb]
  cases hcheck : checkError s i b with
  | none => exact absurd (checkError_eq_none.1 hcheck) hstop
  | some e => simp only [hcheck]

theorem forgetBlocks_of_control {i : Instr} (hb : instrBlocks s i = none) :
    forgetBlocks s i = s.mem := by
  rw [forgetBlocks, hb]

/-- A descriptor that is no block command whose checks pass loses its `W3` only. -/
theorem cutDescriptor_of_stopped {d : Decoded} (h : ∀ i b, d = .instr i →
    instrBlocks s i = some b → ¬ (OperandsFit s b ∧ CapacityFits s i)) :
    cutDescriptor s d = forgetRange s.mem ⟨s.ptr + 3, 1⟩ := by
  cases d with
  | illegalOpcode | reservedField | truncated => rfl
  | instr i =>
    rw [cutDescriptor]
    cases hb : instrBlocks s i with
    | none => rw [forgetBlocks_of_control hb]
    | some b => rw [forgetBlocks_of_stopped hb (h i b rfl hb)]

/-- The memories after a descriptor has been cut are what `CutBy` says of them. -/
theorem cutBy_of_mem {t : State} {d : Decoded} (ht : t.mem = cutDescriptor s d) : CutBy s t d := by
  refine ⟨?completes, ?stops⟩
  case completes =>
    rintro i b rfl hb hfit hcap
    have h := (onlyForgets_forgetBlocks hb ⟨hfit, hcap⟩).forgetRange ⟨s.ptr + 3, 1⟩
    rw [ht, cutDescriptor]
    cases haux : b.aux <;> rw [haux] at h <;> exact h
  case stops =>
    intro hstop
    rw [ht, cutDescriptor_of_stopped hstop]
    exact (onlyForgets_refl s.mem).forgetRange _

/-- A cut descriptor loses words of DMEM only. -/
theorem cutDescriptor_get_below (s : State) (d : Decoded) {a : Nat} (ha : a < dmemBase) :
    (cutDescriptor s d).get a = s.mem.get a := by
  have hcut : CutBy s { s with mem := cutDescriptor s d } d := cutBy_of_mem rfl
  obtain ⟨hcompletes, hstops⟩ := hcut
  by_cases h : ∀ i b, d = .instr i → instrBlocks s i = some b →
      ¬ (OperandsFit s b ∧ CapacityFits s i)
  · exact (hstops h).get_below ha
  · push Not at h
    obtain ⟨i, b, hd, hb, hfit, hcap⟩ := h
    exact (hcompletes i b hd hb hfit hcap).get_below ha

/-! ### The external reset -/

theorem cutMemory_of_bad_ptr (h : s.ptr % 4 ≠ 0 ∨ s.par.dmemWords < s.ptr + 4) :
    cutMemory s = s.mem := by
  cases hfetch : fetchError s with
  | none =>
    have hgood := fetchError_eq_none.1 hfetch
    omega
  | some e => rw [cutMemory, hfetch]

theorem cutMemory_of_good_ptr (halign : s.ptr % 4 = 0) (hin : s.ptr + 4 ≤ s.par.dmemWords) :
    cutMemory s = cutDescriptor s s.fetchDrawn := by
  rw [cutMemory, fetchError_eq_none.2 ⟨halign, hin⟩]

theorem cutMemory_get_below {a : Nat} (ha : a < dmemBase) : (cutMemory s).get a = s.mem.get a := by
  rw [cutMemory]
  split
  · rfl
  · exact cutDescriptor_get_below s s.fetchDrawn ha

theorem externalReset_mem_idle (h : s.seq.run = false) : s.externalReset.mem = s.mem := by
  rw [State.externalReset, h]
  rfl

theorem externalReset_host (s : State) : s.externalReset.host = s.host := by
  unfold State.externalReset
  split <;> rfl

/-- The host's coming actions are no part of what a reset cuts. -/
theorem cutMemory_host (s : State) (rest : List HostAct) :
    cutMemory { s with host := rest } = cutMemory s := rfl

end Cut

/-- Settles O20: a soft reset keeps the memories, and an external one in a run leaves
`cutMemory`. -/
theorem resetsAndTheMemories : Obligations.ResetsAndTheMemories := by
  refine ⟨fun s v rest hhost hidle hv => ⟨_, step_softReset hhost hidle hv, rfl, rfl⟩, ?external⟩
  case external =>
  intro s rest hhost
  let s' : State := { s with host := rest }
  have hcut (hrun : s.seq.run = true) : s'.externalReset.mem = cutMemory s :=
    (externalReset_mem (s := s') hrun).trans (cutMemory_host s rest)
  have hidle (hrun : s.seq.run = false) : s'.externalReset.mem = s.mem :=
    externalReset_mem_idle (s := s') hrun
  refine ⟨_, step_reset hhost, externalReset_host s', ?below, hidle, ?bad, ?written, ?drawn⟩
  case below =>
    intro a ha
    cases hrun : s.seq.run with
    | true => rw [hcut hrun, cutMemory_get_below ha]
    | false => rw [hidle hrun]
  case bad => exact fun hrun hbad => (hcut hrun).trans (cutMemory_of_bad_ptr hbad)
  case written =>
    rintro hrun w0 w1 w2 ⟨halign, hin, hwords⟩
    refine cutBy_of_mem ((hcut hrun).trans ?_)
    rw [cutMemory_of_good_ptr halign hin, fetchDrawn_of_readBlock hwords]
  case drawn =>
    intro hrun halign hin
    exact ⟨_, _, _, agreesWith_drawWord _ _ _, agreesWith_drawWord _ _ _,
      agreesWith_drawWord _ _ _,
      cutBy_of_mem ((hcut hrun).trans (cutMemory_of_good_ptr halign hin))⟩

end Sys2Proof.Machine
end

section
/-! PROOFS. SYMSYNC: the units before each sample of a block, the command with and without a cap,
and the rest of a capped block. -/

namespace Sys2Proof.Machine

open Sys2Proof.Config

/-! ### One sample -/

/-- The detector of R391, with QPSK as the case that is not BPSK. -/
theorem timingError_eq (m : Modulation) (mid z prev : C32) :
    timingError m mid z prev =
      if m = .bpsk then fmul mid.re (fsub (sgn z.re) (sgn prev.re))
      else fadd (fmul mid.re (fsub (sgn z.re) (sgn prev.re)))
        (fmul mid.im (fsub (sgn z.im) (sgn prev.im))) := by cases m <;> rfl

/-- The timing loop of one sample, from its interpolant, its error and its NCO step. -/
theorem symSample_loop (par : Params) (m : Modulation) (u : SymUnit) (x : C32) {z mid : C32}
    {e W : F32} (hz : z = farrow u.mu x u.h0 u.h1)
    (hmid : mid = (pushFront par.maxSps z u.tb).getD (u.sps.toNat / 2) czero)
    (he : e = if u.strobe then timingError m mid z u.prev else fzero)
    (hW : W = fadd (fdiv fone (i2f u.sps.toNat))
      (fadd (symSample par m u x).1.vi (fmul u.alpha e))) :
    let v := (symSample par m u x).1
    v.prev = (if u.strobe then z else u.prev) ∧ v.vi = fadd u.vi (fmul u.beta e) ∧
      v.strobe = flt u.cnt W ∧ v.mu = (if flt u.cnt W then fdiv u.cnt W else u.mu) ∧
      v.cnt = mod1 (fsub u.cnt W) := by
  subst hz hmid he hW
  exact ⟨rfl, rfl, rfl, rfl, rfl⟩

/-- A unit that has kept its configuration differs in its carried state only. -/
theorem SymUnit.eq_of_config {u v : SymUnit} (h : v.config = u.config) :
    v = { u with mu := v.mu, cnt := v.cnt, vi := v.vi, strobe := v.strobe, h0 := v.h0, h1 := v.h1,
                 h2 := v.h2, tb := v.tb, prev := v.prev } :=
  congrArg (fun c : SymUnit =>
    { c with mu := v.mu, cnt := v.cnt, vi := v.vi, strobe := v.strobe, h0 := v.h0, h1 := v.h1,
             h2 := v.h2, tb := v.tb, prev := v.prev }) h

/-! ### Lines of a block that is used in part -/

theorem windowAt_take {α : Type} (d : α) (xs dl : List α) {n i k : Nat} (hi : i ≤ n) :
    windowAt d (xs.take n) dl i (k + 1) = windowAt d xs dl i (k + 1) := by
  unfold windowAt
  split
  · rw [List.getD_eq_getElem?_getD, List.getD_eq_getElem?_getD, List.getElem?_take_of_lt (by omega)]
  · rfl

/-- A line that the first values of a block enter at the front, entry by entry. -/
theorem line_trace_upto {α : Type} (d : α) {n used : Nat} {xs dl : List α} {line : Nat → List α}
    (hu : used ≤ xs.length) (h0 : line 0 = dl) (hl : dl.length = n)
    (hs : ∀ i, i < used → line (i + 1) = pushFront n (xs.getD i d) (line i)) {i : Nat}
    (hi : i ≤ used) : line i = (List.range n).map fun k => windowAt d xs dl i (k + 1) := by
  have hlen : (xs.take used).length = used := by simpa using hu
  have hline := line_trace d n (xs.take used) dl line h0 hl (fun j hj => by
    rw [hs j (by omega), List.getElem_take, List.getD_eq_getElem _ _ (by omega)]) i (by omega)
  simpa only [windowAt_take d xs dl hi] using hline

/-! ### The units before each sample -/

/-- The interpolant of sample `i`, by the units before each sample (R391's `z[i]`). -/
def symInterp (xs : List C32) (g : Nat → SymUnit) (i : Nat) : C32 :=
  farrow (g i).mu (xs.getD i czero) (g i).h0 (g i).h1

section Trace

variable {par : Params} {m : Modulation} {xs : List C32} {C : Nat} {u0 : SymUnit} {r : SymResult}
  {g : Nat → SymUnit} {i : Nat}

theorem SymTrace.next (t : SymTrace par m xs C u0 r g) (hi : i < r.used) :
    g (i + 1) = (symSample par m (g i) (xs.getD i czero)).1 := by
  have hlt := hi.trans_le t.used_le
  rw [t.sample i hi hlt, List.getD_eq_getElem _ _ hlt]

theorem SymTrace.config (t : SymTrace par m xs C u0 r g) (hi : i ≤ r.used) :
    (g i).config = u0.config := by
  induction i with
  | zero => rw [t.start]
  | succ i ih => rw [t.next hi]; exact ih (Nat.le_of_succ_le hi)

/-- The three samples before sample `i` (`10_state.md` R111). -/
theorem SymTrace.history (t : SymTrace par m xs C u0 r g) (hi : i ≤ r.used) :
    let h := windowAt czero xs [u0.h0, u0.h1, u0.h2]
    (g i).h0 = h i 1 ∧ (g i).h1 = h i 2 ∧ (g i).h2 = h i 3 := by
  have hline := line_trace_upto czero (n := 3) (line := fun i => [(g i).h0, (g i).h1, (g i).h2])
    t.used_le (by rw [t.start]) rfl (fun j hj => by rw [t.next hj]; rfl) hi
  obtain ⟨h0, hrest⟩ := List.cons.inj hline
  obtain ⟨h1, hrest⟩ := List.cons.inj hrest
  exact ⟨h0, h1, (List.cons.inj hrest).1⟩

/-- `SYM_TB` before sample `i`: the interpolants before it (`10_state.md` R111). -/
theorem SymTrace.line (t : SymTrace par m xs C u0 r g) (htb : u0.tb.length = par.maxSps)
    (hi : i ≤ r.used) : (g i).tb = (List.range par.maxSps).map fun k =>
      windowAt czero ((List.range r.used).map (symInterp xs g)) u0.tb i (k + 1) := by
  refine line_trace_upto czero (line := fun i => (g i).tb) (by simp) (by rw [t.start]) htb
    (fun j hj => ?_) hi
  have hz : ((List.range r.used).map (symInterp xs g)).getD j czero = symInterp xs g j := by
    simp [hj]
  rw [hz, t.next hj]
  rfl

/-- The midpoint of sample `i` is the interpolant half a symbol before it. -/
theorem SymTrace.midpoint (t : SymTrace par m xs C u0 r g) (htb : u0.tb.length = par.maxSps)
    (hi : i < r.used) {k : Nat} (hk : k < par.maxSps) :
    (pushFront par.maxSps (symInterp xs g i) (g i).tb).getD k czero =
      windowAt czero ((List.range r.used).map (symInterp xs g)) u0.tb i k := by
  have hpush : pushFront par.maxSps (symInterp xs g i) (g i).tb = (g (i + 1)).tb := by
    rw [t.next hi]; rfl
  rw [hpush, t.line htb hi, List.getD_eq_getElem _ _ (by simpa using hk), List.getElem_map,
    List.getElem_range, windowAt_succ]

end Trace

/-! ### The command -/

section Command

variable {s : State} {dst src len maxout : Word32} {ws : List Word64}

theorem symCap_eq (maxout : Word32) :
    symCap maxout = if maxout.toNat = 0 then none else some maxout.toNat := by
  by_cases h : maxout = 0#32
  · subst h; rfl
  · have hne : maxout.toNat ≠ 0 := fun h0 => h (BitVec.eq_of_toNat_eq h0)
    rw [symCap, if_neg h, if_neg hne]

theorem symCap_eq_some {n : Nat} :
    symCap maxout = some n ↔ 0 < maxout.toNat ∧ n = maxout.toNat := by
  rw [symCap_eq]
  split <;> simp <;> omega

/-- What a SYMSYNC of the words `ws` leaves, writes and counts, by the units before each of its
samples. -/
theorem symEffect_trace (maxout : Word32) (s : State) (ws : List Word64) :
    ∃ (r : SymResult) (g : Nat → SymUnit),
      SymTrace s.par s.modcfg (ws.map complexOf) maxout.toNat s.sym r g ∧
      let emitted := (List.range r.used).filter fun i => (g i).strobe
      (symEffect maxout s ws).st = { s with sym := g r.used } ∧
      (symEffect maxout s ws).out =
        emitted.map (fun i => wordOfC (symInterp (ws.map complexOf) g i)) ∧
      (symEffect maxout s ws).counts =
        ⟨BitVec.ofNat 32 r.used, BitVec.ofNat 32 emitted.length, 0#32⟩ := by
  obtain ⟨g, t⟩ := symRun_trace s.par s.modcfg (ws.map complexOf) maxout.toNat s.sym
  rw [← symCap_eq] at t
  refine ⟨_, g, t, ?st, ?out, ?counts⟩
  case st => rw [← t.fin]; rfl
  case out => rw [symEffect_out_eq, t.syms, List.map_map]; rfl
  case counts => rw [symEffect, t.syms, List.length_map]; rfl

/-- SYMSYNC completes when it can read its whole block, or its cap stops it before. -/
theorem exec_symsync_complete (hf : OperandsFit s (symBlocks dst src len maxout))
    (hl : ws.length ≤ len.toNat) (hr : s.mem.readBlock src.toNat ws.length = some ws)
    (h : ws.length = len.toNat ∨
      (0 < maxout.toNat ∧ (symEffect maxout s ws).out.length = maxout.toNat)) :
    exec (.symsync dst src len maxout) s =
      .next ((symEffect maxout s ws).commit (symBlocks dst src len maxout)) := by
  rcases h with hfull | hcapped
  · exact execSymsync_complete hf (hfull ▸ hr)
  · exact runBlock_complete hf (symCompute_capped hr hl (symCap_eq_some.2 hcapped))

theorem exec_symsync_fault (hf : OperandsFit s (symBlocks dst src len maxout))
    (hl : ws.length < len.toNat) (hr : s.mem.readBlock src.toNat ws.length = some ws)
    (hn : s.mem.getWord (dmemAddr (src.toNat + ws.length)) = none)
    (h : maxout.toNat = 0 ∨ (symEffect maxout s ws).out.length < maxout.toNat) :
    exec (.symsync dst src len maxout) s = .fault .unwrittenDmem := by
  refine runBlock_fault hf (symCompute_fault hr hl hn fun hcap => ?_)
  have hcapped := symCap_eq_some.1 hcap
  omega

theorem symEffect_completes (hf : OperandsFit s (symBlocks dst src len maxout))
    (hl : ws.length ≤ len.toNat) :
    Completes s ((symEffect maxout s ws).commit (symBlocks dst src len maxout))
      (symBlocks dst src len maxout) (symEffect maxout s ws).out []
      (symEffect maxout s ws).counts :=
  have hw := symEffect_within hl
  Effect.commit_completes hf hw.seq hw.mem hw.out_le hw.aux_le

end Command

/-- Settles O46: the registers before each sample are those of the trace of the loop. -/
theorem symsyncInterpolatesAndStrobes : Obligations.SymsyncInterpolatesAndStrobes := by
  intro s dst src len maxout ws hf hl hr htb hlo hhi C h
  obtain ⟨r, g, t, hst, hout, hcounts⟩ := symEffect_trace maxout s ws
  have hused : r.used ≤ ws.length := by simpa using t.used_le
  have hlen : (ws.map complexOf).length = ws.length := List.length_map _
  have hcount : (symEffect maxout s ws).out.length =
      ((List.range r.used).filter fun i => (g i).strobe).length := by rw [hout, List.length_map]
  refine ⟨r.used, symInterp (ws.map complexOf) g, fun i => (g i).prev, fun i => (g i).mu,
    fun i => (g i).cnt, fun i => (g i).vi, fun i => (g i).strobe, hused,
    congrArg SymUnit.mu t.start, congrArg SymUnit.cnt t.start, congrArg SymUnit.vi t.start,
    congrArg SymUnit.strobe t.start, congrArg SymUnit.prev t.start, ?_⟩
  intro tb emitted
  refine ⟨fun i hi => ⟨?interp, ?loop⟩, ?uncapped, ?capped, ?complete, ?fault⟩
  case interp =>
    obtain ⟨h0, h1, -⟩ := t.history hi.le
    rw [symInterp, h0, h1]
    rfl
  case loop =>
    intro m' re im e W
    have hsps : (g i).sps = s.sym.sps := (congrArg SymUnit.sps (t.config hi.le) :)
    have halpha : (g i).alpha = s.sym.alpha := (congrArg SymUnit.alpha (t.config hi.le) :)
    have hbeta : (g i).beta = s.sym.beta := (congrArg SymUnit.beta (t.config hi.le) :)
    have hmid := t.midpoint htb hi (k := s.sym.sps.toNat / 2) (by omega)
    have hloop := symSample_loop s.par s.modcfg (g i) ((ws.map complexOf).getD i czero)
      (z := symInterp (ws.map complexOf) g i) (mid := m') (e := e) (W := W) rfl
      (by rw [hsps, hmid]) (by rw [timingError_eq]) (by rw [hsps, halpha, ← t.next hi])
    rw [← t.next hi, hbeta] at hloop
    exact hloop
  case uncapped => exact fun h0 => (t.cap0 h0).trans hlen
  case capped =>
    intro hpos
    obtain ⟨hbelow, hfull⟩ := t.cap1 hpos
    exact ⟨hbelow, fun hlt => hfull (hlt.trans_eq hlen.symm)⟩
  case complete =>
    intro hdone
    refine ⟨_, exec_symsync_complete hf hl hr (hcount ▸ hdone), ?completes, ?state⟩
    case completes =>
      have hcompl := symEffect_completes (s := s) hf hl
      rw [hout, hcounts] at hcompl
      exact hcompl
    case state =>
      obtain ⟨h0, h1, h2⟩ := t.history (Nat.le_refl r.used)
      have hunit := SymUnit.eq_of_config (t.config (Nat.le_refl r.used))
      rw [h0, h1, h2, t.line htb (Nat.le_refl r.used)] at hunit
      rw [Effect.commit_eq, hst, hunit]
  case fault => exact fun hlt hC hn => exec_symsync_fault hf hlt hr hn (hcount ▸ hC)

/-! ### The rest of a capped block -/

theorem symRun_none_used (p : Params) (m : Modulation) (u : SymUnit) (xs : List C32) :
    (symRun p m none u xs).used = xs.length :=
  have ⟨_, t⟩ := symRun_trace p m xs 0 u
  t.cap0 rfl

section Resume

variable {s t s2 : State} {dst src len maxout : Word32} {ws : List Word64}

theorem symEffect_consumed (hl : ws.length ≤ len.toNat) :
    (symEffect maxout s ws).counts.consumed.toNat =
      (symRun s.par s.modcfg (symCap maxout) s.sym (ws.map complexOf)).used := by
  have hused := symRun_used_le s.par s.modcfg (symCap maxout) s.sym (ws.map complexOf)
  rw [List.length_map] at hused
  exact Nat.mod_eq_of_lt ((hused.trans hl).trans_lt len.isLt)

theorem symEffect_consumed_uncapped (hl : ws.length = len.toNat) :
    (symEffect 0#32 s ws).counts.consumed = len := by
  refine BitVec.eq_of_toNat_eq ((symEffect_consumed hl.le).trans ?_)
  rw [← hl, ← List.length_map complexOf]
  exact symRun_none_used ..

theorem symEffect_produced (hl : ws.length ≤ len.toNat) :
    (symEffect maxout s ws).counts.produced.toNat = (symEffect maxout s ws).out.length := by
  have hsyms := symRun_syms_le s.par s.modcfg (symCap maxout) s.sym (ws.map complexOf)
  have hused := symRun_used_le s.par s.modcfg (symCap maxout) s.sym (ws.map complexOf)
  rw [List.length_map] at hused
  rw [symEffect_out_eq, List.length_map]
  exact Nat.mod_eq_of_lt (((hsyms.trans hused).trans hl).trans_lt len.isLt)

/-- An uncapped SYMSYNC of the unconsumed words, with the unit that a capped one left, continues it
(`47_symsync.md` R397). -/
theorem symEffect_resume (hl : ws.length ≤ len.toNat)
    (hpar : t.par = s.par) (hmod : t.modcfg = s.modcfg) (hsym : t.sym = s.sym)
    (hpar2 : s2.par = s.par) (hmod2 : s2.modcfg = s.modcfg)
    (hsym2 : s2.sym = (symEffect maxout s ws).st.sym) :
    let rest := ws.drop (symEffect maxout s ws).counts.consumed.toNat
    (symEffect 0#32 t ws).out = (symEffect maxout s ws).out ++ (symEffect 0#32 s2 rest).out ∧
    (symEffect 0#32 t ws).st.sym = (symEffect 0#32 s2 rest).st.sym := by
  intro rest
  have hrest : rest.map complexOf = (ws.map complexOf).drop
      (symRun s.par s.modcfg (symCap maxout) s.sym (ws.map complexOf)).used := by
    rw [List.map_drop, symEffect_consumed hl]
  have hcap : symCap 0#32 = none := rfl
  have hresume := symRun_resume (par := s.par) (m := s.modcfg) (symCap maxout) s.sym
    (ws.map complexOf)
  simp only [symEffect, hcap, hpar, hmod, hsym] at hsym2 ⊢
  rw [hpar2, hmod2, hsym2, hrest, hresume]
  exact ⟨List.map_append, rfl⟩

/-- A SYMSYNC of a written block leaves its symbols in DMEM. -/
theorem symEffect_holdsWords (hf : OperandsFit s (symBlocks dst src len maxout))
    (hl : ws.length ≤ len.toNat) :
    HoldsWords ((symEffect maxout s ws).commit (symBlocks dst src len maxout)).mem dst.toNat
      (symEffect maxout s ws).out :=
  have ⟨_, hout, _⟩ := symEffect_completes hf hl
  hout

end Resume

/-- Settles O50: the run of the rest continues the capped run. -/
theorem cappedSymsyncCanBeResumed : Obligations.CappedSymsyncCanBeResumed := by
  intro s t u v dst dst2 src src2 len rest maxout ws hpar hmod hsym hfs hft hrs hrt hu hv s2 dst3
    src3 hpar2 hmod2 hsym2 hrest hf2 hr2
  cases (execSymsync_complete hfs hrs).symm.trans hu
  cases (execSymsync_complete hft hrt).symm.trans hv
  have hl := Memory.readBlock_length hrs
  have hl2 := Memory.readBlock_length hr2
  rw [Effect.commit_sym] at hsym2
  rw [Effect.commit_seq] at hr2 hl2
  obtain ⟨hout, hunit⟩ := symEffect_resume hl.le hpar hmod hsym hpar2 hmod2 hsym2
  refine ⟨_, execSymsync_complete hf2 hr2, ?sym, ?consumed, (symEffect maxout s ws).out, _,
    symEffect_holdsWords hfs hl.le, ?produced1, symEffect_holdsWords hf2 hl2.le, ?produced2,
    ?holds, ?produced⟩
  case sym => rw [Effect.commit_sym, Effect.commit_sym]; exact hunit.symm
  case consumed => rw [Effect.commit_seq]; exact symEffect_consumed_uncapped hl2
  case produced1 => rw [Effect.commit_seq]; exact (symEffect_produced hl.le).symm
  case produced2 => rw [Effect.commit_seq]; exact (symEffect_produced hl2.le).symm
  case holds => exact hout ▸ symEffect_holdsWords hft hl.le
  case produced =>
    rw [Effect.commit_seq, ← List.length_append]
    exact (congrArg List.length hout).symm.trans (symEffect_produced hl.le).symm

end Sys2Proof.Machine
end

section
/-! PROOFS. FSYNC: the correlator, the chosen candidate, the decision, and the command. -/

namespace Sys2Proof.Machine

open Sys2Proof.Config

/-! ### The correlator -/

/-- R421's `corr[i]`, by the words of the preamble: the sum over the window `w(i, ·)` that reaches
into the delay line. -/
def corrAt (P : Nat) (pre : List Word64) (xs dl : List C32) (i : Nat) : C32 :=
  (List.range P).foldl (fun acc k =>
    cadd acc (cmul (cconj (complexOf (pre.getD (P - 1 - k) 0#64)))
      (windowAt czero xs dl i k))) czero

theorem corrTaps_length (pre : List C32) : (corrTaps pre).length = pre.length := by simp [corrTaps]

/-- The taps are the conjugates of the preamble's samples, the last one first. -/
theorem corrTaps_getD (pre : List Word64) {k : Nat} (hk : k < pre.length) :
    (corrTaps (pre.map complexOf)).getD k czero =
      cconj (complexOf (pre.getD (pre.length - 1 - k) 0#64)) := by
  have hlt : pre.length - 1 - k < pre.length := by omega
  simp [corrTaps, List.getD_eq_getElem?_getD, hk, hlt]

theorem filterRun_corrTaps {n : Nat} {pre : List Word64} {dl : List C32} (xs : List C32)
    (hdl : dl.length = n) (hp : pre.length ≤ n + 1) :
    (filterRun n (corrTaps (pre.map complexOf)) dl xs).2 =
      (List.range xs.length).map (corrAt pre.length pre xs dl) := by
  have hlen : (corrTaps (pre.map complexOf)).length = pre.length := by
    rw [corrTaps_length, List.length_map]
  refine outputs_of_trace (filterRun_length ..) fun i hi => ?_
  rw [filterRun_output n _ dl xs hdl (hlen.trans_le hp) i hi, hlen]
  refine congrArg some (List.foldl_ext _ _ _ fun acc k hk => ?_)
  rw [corrTaps_getD pre (List.mem_range.1 hk)]

/-! ### The chosen candidate -/

section Search

variable {t : F32} {mag : List F32} {c : F32 × Nat} {cs : List (F32 × Nat)} {fsize : Nat}

theorem mem_candidates_getD {j : Nat} (hj : j < mag.length)
    (h : fge (mag.getD j fzero) t = true) : (mag.getD j fzero, j) ∈ candidates t mag :=
  mem_cands.2 ⟨hj, rfl, h⟩

theorem fgt_self (x : F32) : fgt x x = false := by simp [fgt, flt]

theorem le_of_mem_candidates (h : candidates t mag = c :: cs) {d : F32 × Nat} (hd : d ∈ c :: cs) :
    c.2 ≤ d.2 := by
  have hsort := cands_sorted t mag
  rw [h] at hsort
  rcases List.mem_cons.1 hd with rfl | hd
  · exact Nat.le_refl _
  · exact ((List.pairwise_cons.1 hsort).1 d hd).le

theorem firstCandidate_head (h : candidates t mag = c :: cs) : FirstCandidate t mag c.2 := by
  obtain ⟨hlt, hget, hge⟩ := mem_cands.1 (h ▸ List.mem_cons_self : c ∈ candidates t mag)
  refine ⟨hlt, hget.symm ▸ hge, fun j hj => Bool.of_not_eq_true fun hreach => ?_⟩
  have hmem := mem_candidates_getD (hj.trans hlt) hreach
  exact absurd (le_of_mem_candidates h (h ▸ hmem)) (Nat.not_le.2 hj)

/-- The comparison of the first candidate with itself changes nothing. -/
theorem bestCandidate_cons (fsize : Nat) (c : F32 × Nat) (cs : List (F32 × Nat)) :
    bestCandidate fsize c.2 c (c :: cs) = bestCandidate fsize c.2 c cs := by
  rw [bestCandidate, List.foldl_cons, ite_self]
  rfl

theorem bestCandidate_mem (fsize i0 : Nat) (first : F32 × Nat) (cs : List (F32 × Nat)) :
    bestCandidate fsize i0 first cs ∈ first :: cs := by
  induction cs generalizing first with
  | nil => exact List.mem_cons_self
  | cons d cs ih =>
    have hmem := ih (if 2 * (d.2 - i0) < fsize ∧ fgt d.1 first.1 then d else first)
    rw [bestCandidate, List.foldl_cons]
    split
    case isTrue h =>
      rw [if_pos h] at hmem
      exact List.mem_cons_of_mem _ hmem
    case isFalse h =>
      rw [if_neg h] at hmem
      exact List.cons_subset_cons _ (List.subset_cons_self _ _) hmem

theorem bestCandidate_spec (h : candidates t mag = c :: cs) (hf : 0 < fsize) :
    BestCandidate t fsize mag c.2 (bestCandidate fsize c.2 c cs).2 := by
  have hreach : ∀ d ∈ c :: cs, d.2 < mag.length ∧ mag.getD d.2 fzero = d.1 ∧ fge d.1 t = true :=
    fun d hd => mem_cands.1 (h ▸ hd)
  have hsort := cands_sorted t mag
  rw [h] at hsort
  have hspec := best_spec fsize c.2 cs [c] c (List.mem_singleton_self c)
    (Nat.le_refl _) (by omega) hsort (fun d hd => fge_nan (hreach d hd).2.2)
    (fun d hd => le_of_mem_candidates h hd)
    (by rintro d hd -; rw [List.mem_singleton.1 hd]
        exact ⟨fgt_self _, fun hlt => absurd hlt (Nat.lt_irrefl _)⟩)
  generalize hbest : bestCandidate fsize c.2 c cs = best
  rw [bestCandidate] at hbest
  simp only [hbest] at hspec
  obtain ⟨hmem, hnear, hmax⟩ := hspec
  obtain ⟨hlt, hget, hge⟩ := hreach _ hmem
  have hreached : fge (mag.getD best.2 fzero) t = true := by rw [hget]; exact hge
  refine ⟨⟨le_of_mem_candidates h hmem, hlt, hnear, hreached⟩, ?greatest⟩
  case greatest =>
    intro j _ hj hjnear hjreach
    have hjmem := mem_candidates_getD hj hjreach
    rw [h] at hjmem
    rw [hget]
    exact hmax (mag.getD j fzero, j) hjmem hjnear

theorem candidates_eq_nil : candidates t mag = [] ↔
    ∀ j, j < mag.length → fge (mag.getD j fzero) t = false := by
  constructor
  · intro h j hj
    refine Bool.of_not_eq_true fun hreach => ?_
    simpa [h] using mem_candidates_getD hj hreach
  · intro h
    refine List.eq_nil_iff_forall_not_mem.2 fun d hd => ?_
    obtain ⟨hlt, hget, hge⟩ := mem_cands.1 hd
    rw [← hget, h d.2 hlt] at hge
    cases hge

/-- Everything that the search can decide: no candidate, or the decision for the best one. -/
theorem searchFrame_cases (plen fsize : Nat) (t : F32) (raw : List C32) (mag : List F32) :
    ((∀ j, j < mag.length → fge (mag.getD j fzero) t = false) ∧
      searchFrame plen fsize t raw mag =
        ⟨.search, raw.length - min raw.length (plen - 1), []⟩) ∨
    ∃ i0 best, FirstCandidate t mag i0 ∧ best < mag.length ∧
      (0 < fsize → BestCandidate t fsize mag i0 best) ∧
      searchFrame plen fsize t raw mag = decideAt plen fsize best raw := by
  cases h : candidates t mag with
  | nil => exact .inl ⟨candidates_eq_nil.1 h, by rw [searchFrame, h]⟩
  | cons c cs =>
    have hmem : bestCandidate fsize c.2 c cs ∈ candidates t mag := h ▸ bestCandidate_mem ..
    obtain ⟨hlt, -⟩ := mem_cands.1 hmem
    refine .inr ⟨c.2, (bestCandidate fsize c.2 c cs).2, firstCandidate_head h, hlt,
      bestCandidate_spec h, ?_⟩
    rw [searchFrame, h]
    simp only [bestCandidate_cons]

end Search

/-! ### The decision for a best index -/

section Decide

variable {plen fsize best : Nat} {raw : List C32}

theorem decideAt_premature (h : best + 1 < plen) :
    decideAt plen fsize best raw = ⟨.premature, best + 1, []⟩ := if_pos h

theorem decideAt_incomplete (h : plen ≤ best + 1) (hshort : raw.length < best + 1 - plen + fsize) :
    decideAt plen fsize best raw = ⟨.incomplete, best + 1 - plen, []⟩ := by
  rw [decideAt, if_neg (Nat.not_lt.2 h), if_pos hshort]

theorem decideAt_emit (h : plen ≤ best + 1) (hlong : best + 1 - plen + fsize ≤ raw.length) :
    decideAt plen fsize best raw = ⟨.emit, best + 1 - plen + fsize,
      (raw.drop (best + 1 - plen)).take fsize⟩ := by
  rw [decideAt, if_neg (Nat.not_lt.2 h), if_neg (Nat.not_lt.2 hlong)]

/-- The three decisions for a best index (`48_framesync.md` R421). -/
theorem decideAt_cases (plen fsize best : Nat) (raw : List C32) :
    (best + 1 < plen ∧ decideAt plen fsize best raw = ⟨.premature, best + 1, []⟩) ∨
    (plen ≤ best + 1 ∧ raw.length < best + 1 - plen + fsize ∧
      decideAt plen fsize best raw = ⟨.incomplete, best + 1 - plen, []⟩) ∨
    (plen ≤ best + 1 ∧ best + 1 - plen + fsize ≤ raw.length ∧
      decideAt plen fsize best raw = ⟨.emit, best + 1 - plen + fsize,
        (raw.drop (best + 1 - plen)).take fsize⟩) := by
  rcases Nat.lt_or_ge (best + 1) plen with h | h
  · exact .inl ⟨h, decideAt_premature h⟩
  · rcases Nat.lt_or_ge raw.length (best + 1 - plen + fsize) with hshort | hlong
    · exact .inr (.inl ⟨h, hshort, decideAt_incomplete h hshort⟩)
    · exact .inr (.inr ⟨h, hlong, decideAt_emit h hlong⟩)

end Decide

/-- What SEARCH and INCOMPLETE leave in the buffers (`48_framesync.md` R422). -/
theorem searchFrame_left (plen fsize : Nat) (t : F32) {raw : List C32} {mag : List F32}
    (hlen : mag.length = raw.length) :
    let d := searchFrame plen fsize t raw mag
    (d.outcome = .search → raw.length - d.drop ≤ plen - 1) ∧
    (d.outcome = .incomplete → raw.length - d.drop < fsize) := by
  intro d
  rcases searchFrame_cases plen fsize t raw mag with ⟨-, hd⟩ | ⟨i0, best, -, hbest, -, hd⟩
  · rw [show d = _ from hd]
    exact ⟨fun _ => by dsimp only; omega, nofun⟩
  · rcases decideAt_cases plen fsize best raw with ⟨-, he⟩ | ⟨-, hshort, he⟩ | ⟨-, -, he⟩
    · rw [show d = _ from hd.trans he]
      exact ⟨nofun, nofun⟩
    · rw [show d = _ from hd.trans he]
      exact ⟨nofun, fun _ => by dsimp only; omega⟩
    · rw [show d = _ from hd.trans he]
      exact ⟨nofun, nofun⟩

/-- A window of one frame that reaches the threshold at its last preamble sample only is the frame
(`48_framesync.md` R425). -/
theorem searchFrame_exact {plen fsize : Nat} {t : F32} {raw : List C32} {mag : List F32}
    (hraw : raw.length = fsize) (hmag : mag.length = fsize) (hP : 1 ≤ plen) (hPF : plen ≤ fsize)
    (h : ∀ j, j < fsize → (fge (mag.getD j fzero) t = true ↔ j = plen - 1)) :
    searchFrame plen fsize t raw mag = ⟨.emit, fsize, raw⟩ := by
  have hlast : plen - 1 < fsize := by omega
  rcases searchFrame_cases plen fsize t raw mag with ⟨hnone, -⟩ | ⟨i0, best, -, hbest, hspec, hd⟩
  · cases (hnone (plen - 1) (hmag ▸ hlast)).symm.trans ((h (plen - 1) hlast).2 rfl)
  · obtain ⟨⟨-, -, -, hreach⟩, -⟩ := hspec (by omega)
    have hpos : best = plen - 1 := (h best (hmag ▸ hbest)).1 hreach
    have hstart : best + 1 - plen = 0 := by omega
    rw [hd, decideAt_emit (by omega) (by omega), hstart, Nat.zero_add, List.drop_zero, ← hraw,
      List.take_length]

/-! ### The command -/

section Command

variable {s t : State} {dst src len aux : Word32} {auxw : Bool} {ws pre : List Word64}

/-- Log 5: the preamble needs to be readable only for a block that is not empty. -/
theorem fsPreamble_eq_some
    (h : len ≠ 0#32 → s.mem.readPre 0 s.fs.plen.toNat = some pre) :
    fsPreamble s len = some (if len = 0#32 then [] else pre) := by
  unfold fsPreamble
  split
  case isTrue => rfl
  case isFalse hn => exact h hn

/-- The code of an outcome as an element of format I has no sign to extend. -/
theorem wordOfI_outcomeCode (o : FsOutcome) :
    wordOfI (outcomeCode o) = (outcomeCode o).setWidth 64 := by cases o <;> rfl

theorem outcomeCode_eq_emit (o : FsOutcome) : outcomeCode o = 3#32 ↔ o = .emit := by
  cases o <;> decide

/-- The magnitudes that a block of FSYNC appends. -/
def fsMagnitudes (s : State) (pre : List C32) (ws : List Word64) : List F32 :=
  (filterRun (s.par.maxPreLen - 1) (corrTaps pre) s.fs.dl (ws.map complexOf)).2.map cabs

/-- The decision of an FSYNC of the words `ws`. -/
def fsDecision (s : State) (pre : List C32) (ws : List Word64) : Decision :=
  searchFrame s.fs.plen.toNat s.fs.fsize.toNat s.fs.thresh (s.fs.raw ++ ws.map complexOf)
    (s.fs.mag ++ fsMagnitudes s pre ws)

theorem fsMagnitudes_length (s : State) (pre : List C32) (ws : List Word64) :
    (fsMagnitudes s pre ws).length = ws.length := by simp [fsMagnitudes]

theorem fsMagnitudes_eq (hl : ws.length = len.toNat)
    (hp : len ≠ 0#32 → s.mem.readPre 0 s.fs.plen.toNat = some pre)
    (hdl : s.fs.dl.length = s.par.maxPreLen - 1) (hP : s.fs.plen.toNat ≤ s.par.maxPreLen) :
    fsMagnitudes s ((if len = 0#32 then [] else pre).map complexOf) ws =
      (List.range len.toNat).map fun i =>
        cabs (corrAt s.fs.plen.toNat pre (ws.map complexOf) s.fs.dl i) := by
  by_cases h0 : len = 0#32
  case pos =>
    subst h0
    rw [List.length_eq_zero_iff.1 hl]
    rfl
  case neg =>
    have hlen : pre.length = s.fs.plen.toNat := Memory.readPre_length (hp h0)
    rw [if_neg h0, fsMagnitudes, filterRun_corrTaps _ hdl (by omega), List.map_map, hlen,
      List.length_map, hl]
    rfl

theorem fsEffect_outcome (pre : List C32) :
    (fsEffect len s pre ws).st.fs.outcome = (fsDecision s pre ws).outcome := rfl

theorem fsEffect_raw (pre : List C32) : (fsEffect len s pre ws).st.fs.raw =
    (s.fs.raw ++ ws.map complexOf).drop (fsDecision s pre ws).drop := rfl

theorem fsEffect_mag (pre : List C32) : (fsEffect len s pre ws).st.fs.mag =
    (s.fs.mag ++ fsMagnitudes s pre ws).drop (fsDecision s pre ws).drop := rfl

/-- What an FSYNC leaves, by its decision. -/
theorem fsEffect_st (pre : List C32) (hl : ws.length = len.toNat)
    (hdl : s.fs.dl.length = s.par.maxPreLen - 1) :
    (fsEffect len s pre ws).st = { s with fs := { s.fs with
      outcome := (fsDecision s pre ws).outcome
      raw := (s.fs.raw ++ ws.map complexOf).drop (fsDecision s pre ws).drop
      mag := (s.fs.mag ++ fsMagnitudes s pre ws).drop (fsDecision s pre ws).drop
      dl := (List.range (s.par.maxPreLen - 1)).map fun m =>
        windowAt czero (ws.map complexOf) s.fs.dl len.toNat (m + 1) } } := by
  have hline := (filterRun_line _ (corrTaps pre) _ (ws.map complexOf) hdl).trans
    (take_reverse_append czero _ _ _ hdl)
  rw [List.length_map, hl] at hline
  rw [← hline]
  rfl

/-- What SEARCH and INCOMPLETE leave in the sample buffer of FSYNC. -/
theorem fsDecision_left (pre : List C32) (hlen : s.fs.mag.length = s.fs.raw.length) :
    let d := fsDecision s pre ws
    let raw := s.fs.raw ++ ws.map complexOf
    (d.outcome = .search → raw.length - d.drop ≤ s.fs.plen.toNat - 1) ∧
    (d.outcome = .incomplete → raw.length - d.drop < s.fs.fsize.toNat) :=
  searchFrame_left _ _ _ (by simp [fsMagnitudes_length, hlen])

theorem fsEffect_completes (pre : List C32)
    (hf : OperandsFit s (fsBlocks s.fs dst src len auxw aux))
    (hcap : s.fs.raw.length + len.toNat ≤ s.par.fsyncCap) (hl : ws.length = len.toNat) :
    let d := fsDecision s pre ws
    Completes s ((fsEffect len s pre ws).commit (fsBlocks s.fs dst src len auxw aux))
      (fsBlocks s.fs dst src len auxw aux) (d.frame.map wordOfC)
      [(outcomeCode d.outcome).setWidth 64]
      ⟨len, if outcomeCode d.outcome = 3#32 then s.fs.fsize else 0#32, outcomeCode d.outcome⟩ := by
  intro d
  have hw := fsEffect_within (dst := dst) (src := src) (auxw := auxw) (aux := aux) pre
    (fsCapacity_eq_none.2 hcap) hl
  have hcompl := Effect.commit_completes hf hw.seq hw.mem hw.out_le hw.aux_le
  simp only [outcomeCode_eq_emit, ← wordOfI_outcomeCode]
  exact hcompl

/-- An FSYNC that gives a next state, and whose checks pass, has read its block. -/
theorem exec_fsync_next (hf : OperandsFit s (fsBlocks s.fs dst src len auxw aux))
    (hcap : s.fs.raw.length + len.toNat ≤ s.par.fsyncCap)
    (h : exec (.fsync dst src len auxw aux) s = .next t) :
    ∃ ws pre, s.mem.readBlock src.toNat len.toNat = some ws ∧
      t = (fsEffect len s pre ws).commit (fsBlocks s.fs dst src len auxw aux) := by
  rcases runBlock_next h with ⟨e, -, he⟩ | ⟨e, -, -, he⟩ | ⟨e, -, -, he, rfl⟩
  · cases ((operandError_eq_none s _).2 hf).symm.trans he
  · cases (fsCapacity_eq_none.2 hcap).symm.trans he
  · rcases withWords_eq s ⟨src.toNat, len.toNat⟩ _ with ⟨-, hw⟩ | ⟨ws, hr, hw⟩
    · cases hw.symm.trans he
    · replace he := hw.symm.trans he
      split at he
      · cases he
      · cases he
        exact ⟨ws, _, hr, rfl⟩

end Command

/-! ### The statements -/

/-- Settles O47: the decision of the search, with the magnitudes of the correlator. -/
theorem fsyncFindsFrames : Obligations.FsyncFindsFrames := by
  intro s dst src len auxw aux ws pre hf hcap hr hp hdl hPmax hlen hP hPF P F w corr raw mag B
  have hl := Memory.readBlock_length hr
  let taps := (if len = 0#32 then [] else pre).map complexOf
  have hmag : s.fs.mag ++ fsMagnitudes s taps ws = mag := by
    rw [fsMagnitudes_eq hl hp hdl hPmax]
    rfl
  have hB : mag.length = B := by
    rw [← hmag, List.length_append, fsMagnitudes_length, hlen]
    simp [B, raw]
  have hdec : fsDecision s taps ws = searchFrame P F s.fs.thresh raw mag := by
    rw [fsDecision, hmag]
  have hcompl := fsEffect_completes taps hf hcap hl
  have hst := fsEffect_st taps hl hdl
  rw [hmag] at hst
  refine ⟨_, execFsync_complete hf hcap hr (fsPreamble_eq_some hp), ?_⟩
  intro ends
  have hends {o : FsOutcome} {drop : Nat} {frame : List C32}
      (hd : searchFrame P F s.fs.thresh raw mag = ⟨o, drop, frame⟩) :
      ends o (outcomeCode o) drop frame := by
    rw [hdec, hd] at hcompl hst
    exact ⟨hcompl, by rw [Effect.commit_eq, hst]⟩
  rcases searchFrame_cases P F s.fs.thresh raw mag with ⟨hnone, hd⟩ | ⟨i0, best, hi0, -, hbest, hd⟩
  · exact .inl ⟨hB ▸ hnone, hends hd⟩
  · refine .inr ⟨i0, best, hi0, hbest (by omega), ?_⟩
    rcases decideAt_cases P F best raw with ⟨hlt, he⟩ | ⟨hge, hshort, he⟩ | ⟨hge, hlong, he⟩
    · exact .inl ⟨hlt, hends (hd.trans he)⟩
    · exact .inr (.inl ⟨hge, hshort, hends (hd.trans he)⟩)
    · exact .inr (.inr ⟨hge, hlong, hends (hd.trans he)⟩)

/-- Settles O54: both buffers lose what the decision drops. -/
theorem frameBuffersStayBounded : Obligations.FrameBuffersStayBounded := by
  intro s t dst src len auxw aux hlen hf hcap h
  obtain ⟨ws, pre, hr, rfl⟩ := exec_fsync_next hf hcap h
  have hl := Memory.readBlock_length hr
  have hraw : (s.fs.raw ++ ws.map complexOf).length = s.fs.raw.length + len.toNat := by simp [hl]
  have hmag : (s.fs.mag ++ fsMagnitudes s pre ws).length =
      (s.fs.raw ++ ws.map complexOf).length := by simp [fsMagnitudes_length, hlen]
  obtain ⟨hsearch, hincomplete⟩ := fsDecision_left (ws := ws) pre hlen
  rw [Effect.commit_fs, fsEffect_raw, fsEffect_mag, fsEffect_outcome, List.length_drop,
    List.length_drop, hmag]
  exact ⟨rfl, by omega, hsearch, hincomplete, ws, fsMagnitudes s pre ws, _, hr,
    (fsMagnitudes_length s pre ws).trans hl, rfl, rfl⟩

/-- The window of a correlator whose delay line holds zeros. -/
theorem windowAt_replicate_czero (ws : List Word64) (n i k : Nat) :
    windowAt czero (ws.map complexOf) (List.replicate n czero) i k =
      if k ≤ i then complexOf (ws.getD (i - k) 0#64) else czero := by
  unfold windowAt
  split
  · exact List.getD_map ws 0#64 complexOf
  · rw [List.getD_eq_getElem?_getD, List.getElem?_getD_replicate_default_eq]

/-- Settles O55: the only candidate is the last preamble sample, and the frame begins with the
block. -/
theorem exactFrameIsEmitted : Obligations.ExactFrameIsEmitted := by
  intro s dst src len auxw aux ws pre hf hcap hr hp hdl hraw hmag hP hPmax hPF hlenF corr hcorr
  have hl := Memory.readBlock_length hr
  have hF : len.toNat = s.fs.fsize.toNat := congrArg BitVec.toNat hlenF
  have hsum : ∀ i, corrAt s.fs.plen.toNat pre (ws.map complexOf) s.fs.dl i = corr i := fun i => by
    rw [corrAt, hdl]
    simp only [windowAt_replicate_czero]
    rfl
  have hdl' : s.fs.dl.length = s.par.maxPreLen - 1 := by simp [hdl]
  have hcap' : s.fs.raw.length + len.toNat ≤ s.par.fsyncCap := by simpa [hraw] using hcap
  let taps := (if len = 0#32 then [] else pre).map complexOf
  have hmags : fsMagnitudes s taps ws = (List.range len.toNat).map fun i => cabs (corr i) := by
    rw [fsMagnitudes_eq hl (fun _ => hp) hdl' hPmax]
    simp only [hsum]
  have hdec : fsDecision s taps ws = ⟨.emit, s.fs.fsize.toNat, ws.map complexOf⟩ := by
    rw [fsDecision, hraw, hmag, hmags, List.nil_append, List.nil_append]
    refine searchFrame_exact (by simp [hl, hF]) (by simp [hF]) hP hPF fun j hj => ?_
    rw [← hcorr j (hF ▸ hj)]
    simp [hF, hj]
  have hcompl := fsEffect_completes taps hf hcap' hl
  rw [hdec] at hcompl
  obtain ⟨hseq, hout, -⟩ := hcompl
  refine ⟨_, execFsync_complete hf hcap' hr (fsPreamble_eq_some fun _ => hp), ?out, ?outcome, ?raw,
    ?mag, ?aux, ?produced⟩
  case out => rwa [List.map_map] at hout
  case outcome => rw [Effect.commit_fs, fsEffect_outcome, hdec]
  case raw =>
    rw [Effect.commit_fs, fsEffect_raw, hdec]
    exact List.drop_eq_nil_of_le (by simp [hraw, hl, hF])
  case mag =>
    rw [Effect.commit_fs, fsEffect_mag, hdec]
    exact List.drop_eq_nil_of_le (by simp [fsMagnitudes_length, hmag, hl, hF])
  case aux => rw [hseq]; rfl
  case produced => rw [hseq]; rfl

end Sys2Proof.Machine
end
